-- ==== Sys2Proof/Word.lean ====
section
/-! DEFINITION. The word types of the LG-48: bytes, epoch numbers, sensor words, and the times of its timers. -/

namespace Sys2Proof

/-- One byte of a host frame or a ring packet (12, R190). -/
abbrev Byte := BitVec 8

/-- A two-byte field of a request body. -/
abbrev Half := BitVec 16

/-- A four-byte field of a request body. -/
abbrev Word := BitVec 32

/-- An epoch number: 32 bits, wrapping (00_scope, "Epoch numbers"). -/
abbrev Epoch := BitVec 32

/-- A time of the model's clock, in microseconds (log 1). -/
abbrev Time := Nat

/-- An inverter block, 0 to 47: block ID `b + 1` of the manual. -/
abbrev BlockIx := Fin 48

/-- A group, 0 to 7: group `g + 1` of the manual. -/
abbrev GroupIx := Fin 8

/-- A sky station, 0 to 23: station ID `t + 1` of the manual. -/
abbrev StationIx := Fin 24

end Sys2Proof
end

