-- ==== Sys2Proof/Syntax.lean ====
section
/-! DEFINITION. The commands of the LG-48: one constructor per row of spec/opcode_table.json, with the row's operands.
A request's operands are its tag and the fields of its body at the widths of 12.2, before any check. -/

namespace Sys2Proof

/-- The seven blocks that act on one epoch event, each under its own rule, in no common order
(00_scope, "The epoch event reaches several blocks"). -/
inductive EpochRule where
  | governor | blockTable | frontTracker | nodeRecords | ringMarker | leaseScheduler | runControl
  deriving DecidableEq, Repr

/-- The order in which one epoch event reaches the seven blocks. A block named twice acts at its first place, and a block
not named acts after the named ones (`completeOrder` in Machine/Ops.lean; log 4). -/
abbrev EpochOrder := List EpochRule

/-- The two hold lines HOLD_A and HOLD_B (R52). -/
inductive HoldLine where
  | a | b
  deriving DecidableEq, Repr

/-- The straps LRATE1 and LRATE0 (R178). -/
structure Straps where
  lrate1 : Bool
  lrate0 : Bool
  deriving DecidableEq, Repr

/-- A hold configuration as SET_PLANT's body carries it (12.2, R34). -/
structure HoldBody where
  enabled : Byte
  mode : Byte
  action : Byte
  ceiling : Word
  deriving DecidableEq, Repr

/-- The plant record as SET_PLANT's body carries it (12.2, R33). -/
structure PlantBody where
  stepUp : Half
  stepDown : Half
  windowLength : Half
  windowUp : Word
  windowDown : Word
  tolerance : Half
  nonFollowLimit : Byte
  silenceLimit : Byte
  leaseLength : Half
  lagMultiplier : Byte
  absorb : Byte
  reserveFloor : Half
  reserveCeiling : Half
  lineA : HoldBody
  lineB : HoldBody
  deriving DecidableEq, Repr

/-- The group record as SET_GROUP's body carries it (12.2, R31). -/
structure GroupBody where
  lag : Byte
  floorPercent : Byte
  minCapped : Half
  maxCapped : Half
  rest : Half
  spacing : Byte
  deriving DecidableEq, Repr

/-- The six parameters of a station as LOAD_STATION's body carries them (12.2, R66). -/
structure StationBody where
  slot : Byte
  enabled : Byte
  historyLength : Byte
  drop : Byte
  persistence : Byte
  clear : Byte
  deriving DecidableEq, Repr

/-- One entry of LEADS_ADD's body (12.2, R79). -/
structure LeadBody where
  station : Byte
  block : Byte
  lead : Byte
  deriving DecidableEq, Repr

/-- A whole frame as received on HRX, less its start byte and its length byte, which is the body's length (12.1). -/
structure RxFrame where
  kind : Byte
  tag : Byte
  body : List Byte
  crcHigh : Byte
  crcLow : Byte
  deriving DecidableEq, Repr

/-- The commands of the part. -/
inductive Instr where
  | enroll (tag block : Byte) (rated : Half) (group : Byte)                     -- ENROLL, R5
  | profile (tag block : Byte) (rated : Half) (group : Byte)                    -- PROFILE, R6
  | withdraw (tag block : Byte)                                                 -- WITHDRAW, R7
  | pin (tag block : Byte) (cap : Half)                                         -- PIN, R8
  | unpin (tag block : Byte)                                                    -- UNPIN, R9
  | bar (tag block : Byte)                                                      -- BAR, R10
  | unbar (tag block : Byte)                                                    -- UNBAR, R11
  | readBlock (tag block : Byte)                                                -- READ_BLOCK, R13
  | setPlant (tag : Byte) (body : PlantBody)                                    -- SET_PLANT, R36
  | setGroup (tag group : Byte) (body : GroupBody)                              -- SET_GROUP, R37
  | readSettings (tag : Byte)                                                   -- READ_SETTINGS, R42
  | setEpoch (tag source : Byte) (period : Half) (divisor : Byte)               -- SET_EPOCH, R44
  | start (tag trigger : Byte) (order : EpochOrder)                             -- START, R48
  | stop (tag option : Byte)                                                    -- STOP, R50
  | clearHold (tag line : Byte)                                                 -- CLEAR_HOLD, R55
  | setSensor (tag : Byte) (period : Half) (enable : Byte)                      -- SET_SENSOR, R59
  | loadStation (tag station : Byte) (body : StationBody)                       -- LOAD_STATION, R67
  | readStation (tag station : Byte)                                            -- READ_STATION, R68
  | leadsBegin (tag : Byte)                                                     -- LEADS_BEGIN, R78
  | leadsAdd (tag : Byte) (entries : List LeadBody)                             -- LEADS_ADD, R79
  | leadsCommit (tag : Byte)                                                    -- LEADS_COMMIT, R80
  | flushWarnings (tag : Byte)                                                  -- FLUSH_WARNINGS, R91
  | readWarning (tag index : Byte)                                              -- READ_WARNING, R92
  | readPlant (tag : Byte)                                                      -- READ_PLANT, R131
  | readNodes (tag : Byte)                                                      -- READ_NODES, R141
  | probeRing (tag : Byte)                                                      -- PROBE_RING, R149
  | loadRing (tag : Byte) (ids : List Byte)                                     -- LOAD_RING, R150
  | readRing (tag : Byte)                                                       -- READ_RING, R151
  | alertTake (tag cls : Byte)                                                  -- ALERT_TAKE, R174
  | alertPeek (tag cls index : Byte)                                            -- ALERT_PEEK, R175
  | alertFlush (tag cls : Byte)                                                 -- ALERT_FLUSH, R176
  | readConditions (tag : Byte)                                                 -- READ_CONDITIONS, R184
  | clearConditions (tag : Byte) (named : Word)                                 -- CLEAR_CONDITIONS, R185
  | setNoticeMask (tag : Byte) (mask : Word)                                    -- SET_NOTICE_MASK, R187
  | noticeRearm (tag : Byte)                                                    -- NOTICE_REARM, R188
  | reset (tag : Byte)                                                          -- RESET, R189
  | hostFrameComplete (frame : RxFrame) (order : EpochOrder)                    -- HOST_FRAME_COMPLETE, R179
  | hostFrameGapTimeout                                                         -- HOST_FRAME_GAP_TIMEOUT, R178
  | heldRequestTaken (order : EpochOrder)                                       -- HELD_REQUEST_TAKEN, R180
  | hostFrameSent                                                               -- HOST_FRAME_SENT, R182
  | resetReplySent (straps : Straps)                                            -- RESET_REPLY_SENT, R189
  | resetNAsserted                                                              -- RESET_N_ASSERTED, R189
  | resetNReleased (straps : Straps)                                            -- RESET_N_RELEASED, R189
  | internalPeriodExpiry (order : EpochOrder)                                   -- INTERNAL_PERIOD_EXPIRY, R45
  | epochInEdge (since : Time) (order : EpochOrder)                             -- EPOCH_IN_EDGE, R45
  | epochStall                                                                  -- EPOCH_STALL, R46
  | startInEdge (order : EpochOrder)                                            -- START_IN_EDGE, R49
  | holdLineAsserted (line : HoldLine)                                          -- HOLD_LINE_ASSERTED, R52
  | holdLineInactive (line : HoldLine)                                          -- HOLD_LINE_INACTIVE, R52
  | dispatchComputingEnd                                                        -- DISPATCH_COMPUTING_END, R106
  | stagingResumed                                                              -- STAGING_RESUMED, R125
  | sensorFrameSync (frameFirst : Bool) (order : EpochOrder)                    -- SENSOR_FRAME_SYNC, R61
  | sensorFrameFull (word : Half)                                               -- SENSOR_FRAME_FULL, R60
  | sensorLoss                                                                  -- SENSOR_LOSS, R63
  | ringSignalLoss                                                              -- RING_SIGNAL_LOSS, R143
  | ringSignalPresent                                                           -- RING_SIGNAL_PRESENT, R143
  | ringSettled                                                                 -- RING_SETTLED, R145
  | probeWindowExpiry                                                           -- PROBE_WINDOW_EXPIRY, R146
  | probeRetryExpiry                                                            -- PROBE_RETRY_EXPIRY, R146
  | ringPacketReceived (bytes : List Byte)                                      -- RING_PACKET_RECEIVED, R152
  | outPortFree                                                                 -- OUT_PORT_FREE, R155
  | hostByteReceived (byte : Byte) (stopBit : Bool) (order : EpochOrder)        -- HOST_BYTE_RECEIVED, R178
  | sensorWordReceived (word : Half)                                            -- SENSOR_WORD_RECEIVED, R60
  deriving DecidableEq, Repr

end Sys2Proof
end

