-- ==== Sys2Proof/Decode.lean ====
section
/-! DEFINITION. The command a word of the opcode table spells. spec/opcode_table.json gives no row any bits (98_reader:
"n_rows_with_fixed": 0), so no word spells a command; commands reach the part as log 20 says. -/

namespace Sys2Proof

/-- The command that the table's bits spell: none, since no row has bits. -/
def decodeTableWord (_nbits _w : Nat) : Option Instr :=
  none

end Sys2Proof
end

