-- ==== Sys2Proof/Config.lean ====
section
/-! DEFINITION. What the manual leaves open, as free values with no body (logs 4, 11, 12). -/

namespace Sys2Proof

/-- The order in which an epoch that the model's own tick makes reaches the seven blocks; the manual gives no common order
(00_scope; log 4). Applied to the clock. Every other epoch takes its order from the command's operand. -/
opaque Config.epochOrder : Time → EpochOrder

/-- The sample P of a dispatch whose meter counts as heard while the meter record's export is absent:
R95 states no value (log 11). Applied to the free value counter. -/
opaque Config.absentExportSample : Nat → BitVec 31

/-- The storage term of a fallback sample whose storage counts as heard while the record's measured power is absent:
R95 states no value (log 11). Applied to the free value counter. -/
opaque Config.absentStorageTerm : Nat → BitVec 32

/-- The cap field of a release CAP as it goes out on the ring; 12.5 gives the field and no rule gives its value in a release
(log 12). Applied to the block and the label. -/
opaque Config.releaseCapField : BlockIx → Epoch → Half

end Sys2Proof
end

