-- ==== Sys2Proof/Machine/State.lean ====
section
/-! DEFINITION. The state of the LG-48, block by block as the manual divides it, and the machine right after a full reset. -/

namespace Sys2Proof.Machine

/-! ## Faults and refusals -/

/-- The faults of the part: none. No rule of the manual names a behaviour that stops the part or that is undefined. -/
inductive Fault where
  deriving DecidableEq, Repr

/-- The refusals of the model. -/
inductive Refusal where
  /-- Raised by an arm of `exec` whose command has no meaning yet; safe. No arm raises it. -/
  | notModelled (mnemonic : String)
  deriving DecidableEq, Repr

/-! ## Host Link Port (R178 to R182, R189) -/

/-- The four line rates of R178, in baud. -/
inductive LineRate where
  | baud115200 | baud230400 | baud460800 | baud921600
  deriving DecidableEq, Repr

/-- R178: the receiver hunts for a start byte, or collects a frame. `bytes` are those after the start byte, in order of arrival,
and `last` is when the gap timer was last restarted. -/
inductive Receiver where
  | hunt
  | collect (bytes : List Byte) (last : Time)
  deriving DecidableEq, Repr

/-- A complete request, as it waits in the holding slot (R180). -/
structure HostRequest where
  kind : Byte
  tag : Byte
  body : List Byte
  deriving DecidableEq, Repr

/-- A frame the part sends: a reply, or the notice of kind 0x7F (12.1). -/
structure TxFrame where
  kind : Byte
  tag : Byte
  body : List Byte
  deriving DecidableEq, Repr

structure HostLink where
  rate : LineRate
  receiver : Receiver
  /-- R180: kind and tag of the request whose reply has not begun to leave. -/
  inHand : Option (Byte × Byte)
  holding : Option HostRequest
  sending : Option TxFrame
  /-- R182: frames readied, in the order in which they were readied. -/
  waiting : List TxFrame
  linkErrors : Nat
  /-- R189: a RESET request has been taken and its reply has not left. -/
  resetScheduled : Bool
  deriving DecidableEq, Repr

/-! ## Condition Unit (R183 to R188) -/

inductive Gate where
  | closed | opened
  deriving DecidableEq, Repr

structure ConditionUnit where
  /-- The condition set, bit n as 12.3 numbers the conditions. -/
  conditions : Word
  mask : Word
  gate : Gate
  deriving DecidableEq, Repr

/-! ## Epoch Timer (R43 to R46) -/

inductive EpochSource where
  | internal | epochLine | sensor
  deriving DecidableEq, Repr

/-- The stall monitor of R46 and the loss monitor of R63. -/
inductive Monitor where
  | disarmed | armed | tripped
  deriving DecidableEq, Repr

structure EpochTimer where
  source : EpochSource
  /-- in milliseconds -/
  period : Nat
  divisor : Nat
  running : Bool
  epoch : Epoch
  stall : Monitor
  /-- When the last epoch occurred: the INTERNAL period and the stall measure run from it. -/
  lastEpochAt : Time
  /-- EPOCH_LINE: the previous accepted edge, or the trigger. -/
  lastEdgeAt : Time
  /-- SENSOR: frame syncs counted since the trigger or the last epoch. -/
  syncCount : Nat
  deriving DecidableEq, Repr

/-! ## Run Control (R47 to R56) -/

inductive RunState where
  | stopped | armed | running | holding
  deriving DecidableEq, Repr

inductive Trigger where
  | immediate | startLine | firstFrame
  deriving DecidableEq, Repr

inductive LineLevel where
  | asserted | inactive
  deriving DecidableEq, Repr

/-- One hold line: its latch, and the level it is seen at once that level has lasted 2 ms (R52). -/
structure HoldState where
  latch : Bool
  seen : Option LineLevel
  deriving DecidableEq, Repr

structure RunControl where
  state : RunState
  trigger : Option Trigger
  lineA : HoldState
  lineB : HoldState
  deriving DecidableEq, Repr

/-- The hold in force that Run Control supplies (R53). -/
inductive Hold where
  | none | freeze | ceiling (kw : Nat)
  deriving DecidableEq, Repr

/-! ## Settings (R31 to R42) -/

structure GroupRecord where
  lag : Nat
  floorPercent : Nat
  minCapped : Nat
  maxCapped : Nat
  rest : Nat
  spacing : Nat
  deriving DecidableEq, Repr

inductive HoldMode where
  | latched | epoch
  deriving DecidableEq, Repr

inductive HoldAction where
  | freeze | ceiling
  deriving DecidableEq, Repr

structure HoldConfig where
  enabled : Bool
  mode : HoldMode
  action : HoldAction
  ceiling : Nat
  deriving DecidableEq, Repr

structure PlantRecord where
  stepUp : Nat
  stepDown : Nat
  windowLength : Nat
  windowUp : Nat
  windowDown : Nat
  tolerance : Nat
  nonFollowLimit : Nat
  silenceLimit : Nat
  leaseLength : Nat
  lagMultiplier : Nat
  absorb : Bool
  reserveFloor : Nat
  reserveCeiling : Nat
  lineA : HoldConfig
  lineB : HoldConfig
  deriving DecidableEq, Repr

structure SettingsStore where
  plant : Option PlantRecord
  groups : Vector (Option GroupRecord) 8
  configured : Bool
  deriving DecidableEq, Repr

/-! ## Block Table (R1 to R30) -/

inductive BlockState where
  | empty | silent | free | capped | resting | pinned | barred | out
  deriving DecidableEq, Repr

inductive UnitMode where
  | free | capped
  deriving DecidableEq, Repr

inductive BarCause where
  | host | noFollow
  deriving DecidableEq, Repr

/-- Rated power and group of an enrolled block; both are present unless the record is EMPTY (R1). -/
structure Profile where
  rated : Nat
  group : GroupIx
  deriving DecidableEq, Repr

structure BlockRecord where
  state : BlockState
  profile : Option Profile
  revision : Half
  measured : Option Nat
  available : Option Nat
  derate : Option Nat
  cap : Option Nat
  capLabel : Option Epoch
  leaseExpiry : Option Epoch
  owed : Bool
  captureEpoch : Option Epoch
  lastRelease : Option Epoch
  heard : Option Epoch
  watch : Option Epoch
  unitMode : Option UnitMode
  nonFollowRun : Nat
  undeliveredRun : Nat
  barCause : Option BarCause
  tripFlag : Bool
  lapseCount : Nat
  deriving DecidableEq, Repr

/-- An EMPTY record, all but its revision, which WITHDRAW keeps (R1, R3, R7). -/
def BlockRecord.emptyAt (revision : Half) : BlockRecord :=
  { state := .empty, profile := none, revision, measured := none, available := none, derate := none, cap := none,
    capLabel := none, leaseExpiry := none, owed := false, captureEpoch := none, lastRelease := none, heard := none,
    watch := none, unitMode := none, nonFollowRun := 0, undeliveredRun := 0, barCause := none, tripFlag := false,
    lapseCount := 0 }

structure BlockTable where
  blocks : Vector BlockRecord 48
  /-- oldest first (R4) -/
  capped : List BlockIx
  /-- head first (R4) -/
  rotation : List BlockIx
  /-- R15: the epoch of each group's last capture since START. -/
  groupCapture : Vector (Option Epoch) 8
  deriving DecidableEq, Repr

/-! ## Sky Station Unit (R58 to R75) -/

inductive Detector where
  | clear | pending | shaded | lost
  deriving DecidableEq, Repr

structure Station where
  slot : Nat
  enabled : Bool
  historyLength : Nat
  drop : Nat
  persistence : Nat
  clear : Nat
  detector : Detector
  /-- oldest first -/
  history : List Nat
  reference : Option Nat
  depth : Option Nat
  pendingCount : Option Nat
  invalidRun : Nat
  lastSequence : Option (BitVec 3)
  warningHeld : Bool
  deriving DecidableEq, Repr

/-- R66: a station's values after a full reset. -/
def Station.atReset (slot : Nat) : Station :=
  { slot, enabled := false, historyLength := 16, drop := 64, persistence := 3, clear := 32, detector := .clear,
    history := [], reference := none, depth := none, pendingCount := none, invalidRun := 0, lastSequence := none,
    warningHeld := false }

structure SkyUnit where
  enabled : Bool
  /-- in milliseconds -/
  framePeriod : Nat
  /-- R58: the words of the frame in progress, slot 0 first. -/
  frame : Option (List Half)
  loss : Monitor
  /-- R59, R63: the last frame sync taken, or the enabling request. -/
  measureFrom : Time
  stations : Vector Station 24
  deriving DecidableEq, Repr

/-! ## Front Tracker (R76 to R93) -/

structure LeadEntry where
  station : StationIx
  block : BlockIx
  lead : Nat
  deriving DecidableEq, Repr

structure Warning where
  id : Nat
  station : StationIx
  depth : Nat
  opened : Epoch
  arrivals : List (BlockIx × Epoch)
  earliest : Epoch
  deriving DecidableEq, Repr

structure FrontTracker where
  active : List LeadEntry
  staging : List LeadEntry
  warnings : List Warning
  nextId : Nat
  deriving DecidableEq, Repr

/-! ## Node Records (R132 to R141) -/

inductive Hearing where
  | waiting | heard | silent
  deriving DecidableEq, Repr

structure StorageRecord where
  heard : Option Epoch
  hearing : Hearing
  measured : Option Int
  soe : Option Nat
  discharge : Option Nat
  charge : Option Nat
  unitMode : Option UnitMode
  applied : Option Int
  commanded : Int
  commandLabel : Option Epoch
  leaseExpiry : Option Epoch
  owed : Bool
  lapseCount : Nat
  deriving DecidableEq, Repr

/-- R132: the meter record. Reports keep its export within -2^31 + 1 to 2^31 - 1 kW (R135, log 24). -/
structure MeterRecord where
  heard : Option Epoch
  hearing : Hearing
  exported : Option Int
  deriving DecidableEq, Repr

structure NodeRecords where
  storage : StorageRecord
  meter : MeterRecord
  deriving DecidableEq, Repr

/-! ## Governor (R94, R104, R108, R122, R129) -/

inductive SampleSource where
  | waiting | meter | fallback
  deriving DecidableEq, Repr

structure Band where
  low : Nat
  high : Nat
  deriving DecidableEq, Repr

/-- What the sample and band stage hands on (R103). -/
structure SampleBand where
  sample : Nat
  source : SampleSource
  count : Nat
  wmax : Nat
  wmin : Nat
  band : Band
  deriving DecidableEq, Repr

/-- One block of the snapshot (R108). -/
structure SnapBlock where
  id : BlockIx
  state : BlockState
  revision : Half
  profile : Profile
  floor : Nat
  usable : Nat
  measured : Nat
  cap : Option Nat
  captureEpoch : Option Epoch
  lastRelease : Option Epoch
  deriving DecidableEq, Repr

/-- R108. The committed plant settings are read from the Governor: they cannot change before the next dispatch opens. -/
structure Snapshot where
  blocks : List SnapBlock
  capped : List BlockIx
  rotation : List BlockIx
  groups : Vector GroupRecord 8
  groupCapture : Vector (Option Epoch) 8
  sDis : Nat
  sChg : Nat
  commanded : Int
  storageOwed : Bool
  warnings : List Warning
  hold : Hold
  deriving DecidableEq, Repr

/-- What the opening step of a dispatch leaves (R105). -/
structure Opened where
  epoch : Epoch
  sample : SampleBand
  snapshot : Snapshot
  deriving DecidableEq, Repr

inductive TargetPath where
  | within | short | late
  deriving DecidableEq, Repr

/-- The figures of the supply, glide and target stages (R110 to R116). -/
structure SupplyFigures where
  controllable : Nat
  fixed : Nat
  available : Nat
  sDis : Nat
  sChg : Nat
  glide : Option Nat
  target : Nat
  deriving DecidableEq, Repr

/-- The figures of the split and allocation stages, absent in a FROZEN dispatch (R117, R121, R129). -/
structure PlanFigures where
  path : TargetPath
  command : Int
  curtailment : Nat
  placed : Nat
  deriving DecidableEq, Repr

/-- A decision to be staged (R122, R123); `revision` is the one in the snapshot. -/
inductive Decision where
  | store (power : Int)
  | capture (block : BlockIx) (cap : Nat) (revision : Half)
  | capChange (block : BlockIx) (cap : Nat) (revision : Half)
  | release (block : BlockIx) (revision : Half)
  deriving DecidableEq, Repr

/-- What a dispatch has staged so far (R124, R129). -/
structure StagedCounts where
  captures : Nat
  capChanges : Nat
  releases : Nat
  storeStaged : Bool
  stale : Nat
  deriving DecidableEq, Repr

/-- R104: the phase, with the items that are absent while it is IDLE. -/
inductive DispatchPhase where
  | idle
  | computing (opened : Opened)
  | staging (opened : Opened) (supply : SupplyFigures) (plan : PlanFigures) (todo : List Decision) (counts : StagedCounts)
  deriving DecidableEq, Repr

inductive Outcome where
  | complete | frozen | cut | ringDown
  deriving DecidableEq, Repr

/-- The plant status record (R129). `supply` is absent for a CUT during computing, `plan` for that and for FROZEN. -/
structure PlantStatus where
  epoch : Epoch
  outcome : Outcome
  sample : SampleBand
  supply : Option SupplyFigures
  plan : Option PlanFigures
  hold : Hold
  counts : StagedCounts
  discarded : Nat
  deriving DecidableEq, Repr

structure Governor where
  plant : Option PlantRecord
  groups : Vector GroupRecord 8
  /-- oldest first -/
  window : List Nat
  lastBand : Option Band
  source : SampleSource
  upBreaches : Nat
  downBreaches : Nat
  phase : DispatchPhase
  heldTarget : Option Nat
  status : Option PlantStatus
  overruns : Nat
  staleDecisions : Nat
  deriving DecidableEq, Repr

/-! ## Ring Controller (R142 to R161) -/

inductive RingState where
  | down | probing | up
  deriving DecidableEq, Repr

/-- A packet of the part's own in the outbound queue (12.5). `limit` is the cap of a CAP with a lease, absent in a release. -/
inductive OwnPacket where
  | cap (block : BlockIx) (label : Epoch) (limit : Option Nat) (lease : Nat)
  | store (label : Epoch) (power : Int) (lease : Nat)
  | mark (epoch : Epoch)
  | probe (number : Byte)
  deriving DecidableEq, Repr

/-- R146: `windowOver` says that the 20 ms window has run out. -/
inductive ProbeRecord where
  | absent
  | queued
  | outstanding (number : Byte) (sentAt : Time) (windowOver : Bool)
  deriving DecidableEq, Repr

inductive ProbeOutcome where
  | returned | failed
  deriving DecidableEq, Repr

structure RingController where
  state : RingState
  /-- node IDs 1 to 50, in the order loaded -/
  nodes : List Nat
  signalSeen : Bool
  /-- R143: when the settle measure was last restarted. -/
  settleFrom : Time
  /-- head first -/
  queue : List OwnPacket
  /-- R155: packets received and waiting to be forwarded, oldest first. -/
  forward : List (List Byte)
  /-- R155: the packet the out port is sending. -/
  sending : Option (List Byte)
  probe : ProbeRecord
  nextProbe : Byte
  lastOutcome : Option ProbeOutcome
  purged : Nat
  rogue : Nat
  discarded : Nat
  unknownOrigin : Nat
  late : Nat
  probeFailures : Nat
  /-- R159: the epoch of the last marker placed by the marker rule since START (log 13). -/
  lastMark : Option Epoch
  deriving DecidableEq, Repr

/-! ## Alert Queues (R171 to R177) -/

inductive AlertClass where
  | trip | derate | restore | note
  deriving DecidableEq, Repr

structure AlertEntry where
  node : Nat
  cls : AlertClass
  data : Word
  arrival : Epoch
  deriving DecidableEq, Repr

structure AlertQueue where
  /-- oldest first -/
  entries : List AlertEntry
  overflow : Nat
  deriving DecidableEq, Repr

structure AlertQueues where
  trip : AlertQueue
  derate : AlertQueue
  restore : AlertQueue
  note : AlertQueue
  deriving DecidableEq, Repr

/-! ## The whole machine -/

/-- The state of the part, and the commands that wait for it, first in, first out. -/
structure State where
  pending : List Instr
  /-- The model's clock (log 1). -/
  now : Time
  /-- Counts the free values drawn (log 11). -/
  freeCount : Nat
  /-- RESET_N is low (R189). -/
  resetLow : Bool
  /-- LRATE1 and LRATE0 as last read (R178). -/
  straps : Straps
  link : HostLink
  cond : ConditionUnit
  timer : EpochTimer
  run : RunControl
  store : SettingsStore
  gov : Governor
  table : BlockTable
  sky : SkyUnit
  front : FrontTracker
  nodes : NodeRecords
  ring : RingController
  alerts : AlertQueues
  deriving DecidableEq, Repr

/-! ## Reset -/

/-- R178: the line rate the straps give. -/
def LineRate.ofStraps (p : Straps) : LineRate :=
  match p.lrate1, p.lrate0 with
  | false, false => .baud115200
  | false, true => .baud230400
  | true, false => .baud460800
  | true, true => .baud921600

/-- R178, R189. -/
def HostLink.atReset (p : Straps) : HostLink :=
  { rate := .ofStraps p, receiver := .hunt, inHand := none, holding := none, sending := none, waiting := [],
    linkErrors := 0, resetScheduled := false }

/-- R189. -/
def ConditionUnit.atReset : ConditionUnit :=
  { conditions := 0, mask := 0, gate := .opened }

/-- R43; the measures start at the instant of the reset (log 1). -/
def EpochTimer.atReset (now : Time) : EpochTimer :=
  { source := .internal, period := 100, divisor := 1, running := false, epoch := 0, stall := .disarmed,
    lastEpochAt := now, lastEdgeAt := now, syncCount := 0 }

/-- R47, R52. -/
def RunControl.atReset : RunControl :=
  { state := .stopped, trigger := none, lineA := { latch := false, seen := none },
    lineB := { latch := false, seen := none } }

/-- R35, R38. -/
def SettingsStore.atReset : SettingsStore :=
  { plant := none, groups := Vector.replicate 8 none, configured := false }

/-- R31. -/
def GroupRecord.atReset : GroupRecord :=
  { lag := 0, floorPercent := 0, minCapped := 10, maxCapped := 0, rest := 20, spacing := 1 }

/-- R31, R33, R94, R104. -/
def Governor.atReset : Governor :=
  { plant := none, groups := Vector.replicate 8 .atReset, window := [], lastBand := none, source := .waiting,
    upBreaches := 0, downBreaches := 0, phase := .idle, heldTarget := none, status := none, overruns := 0,
    staleDecisions := 0 }

/-- R1, R4, R30. -/
def BlockTable.atReset : BlockTable :=
  { blocks := Vector.replicate 48 (.emptyAt 0), capped := [], rotation := [], groupCapture := Vector.replicate 8 none }

/-- R58, R66; the loss measure starts at the instant of the reset (log 1). -/
def SkyUnit.atReset (now : Time) : SkyUnit :=
  { enabled := false, framePeriod := 100, frame := none, loss := .disarmed, measureFrom := now,
    stations := Vector.ofFn fun i => .atReset i.val }

/-- R76. -/
def FrontTracker.atReset : FrontTracker :=
  { active := [], staging := [], warnings := [], nextId := 1 }

/-- R132. -/
def NodeRecords.atReset : NodeRecords :=
  { storage := { heard := none, hearing := .waiting, measured := none, soe := none, discharge := none, charge := none,
                 unitMode := none, applied := none, commanded := 0, commandLabel := none, leaseExpiry := none,
                 owed := false, lapseCount := 0 },
    meter := { heard := none, hearing := .waiting, exported := none } }

/-- R142, R161; `signal` is RING_SIG as it stands. -/
def RingController.atReset (now : Time) (signal : Bool) : RingController :=
  { state := .down, nodes := [], signalSeen := signal, settleFrom := now, queue := [], forward := [], sending := none,
    probe := .absent, nextProbe := 0, lastOutcome := none, purged := 0, rogue := 0, discarded := 0, unknownOrigin := 0,
    late := 0, probeFailures := 0, lastMark := none }

/-- R172. -/
def AlertQueues.atReset : AlertQueues :=
  { trip := { entries := [], overflow := 0 }, derate := { entries := [], overflow := 0 },
    restore := { entries := [], overflow := 0 }, note := { entries := [], overflow := 0 } }

/-- The machine right after a full reset that ended at time `now` with RING_SIG at `signal` and the straps at `p` (R189). -/
def State.afterReset (pending : List Instr) (now : Time) (freeCount : Nat) (signal : Bool) (p : Straps) : State :=
  { pending, now, freeCount, resetLow := false, straps := p, link := .atReset p, cond := .atReset,
    timer := .atReset now, run := .atReset, store := .atReset, gov := .atReset, table := .atReset, sky := .atReset now,
    front := .atReset, nodes := .atReset, ring := .atReset now signal, alerts := .atReset }

/-- The machine right after reset: nothing pending, the clock at 0, RING_SIG inactive, both straps low (log 10). -/
def State.reset : State :=
  .afterReset [] 0 0 false { lrate1 := false, lrate0 := false }

/-! ## Updates of one block of the machine -/

def State.onLink (s : State) (f : HostLink → HostLink) : State := { s with link := f s.link }
def State.onCond (s : State) (f : ConditionUnit → ConditionUnit) : State := { s with cond := f s.cond }
def State.onTimer (s : State) (f : EpochTimer → EpochTimer) : State := { s with timer := f s.timer }
def State.onRun (s : State) (f : RunControl → RunControl) : State := { s with run := f s.run }
def State.onStore (s : State) (f : SettingsStore → SettingsStore) : State := { s with store := f s.store }
def State.onGov (s : State) (f : Governor → Governor) : State := { s with gov := f s.gov }
def State.onTable (s : State) (f : BlockTable → BlockTable) : State := { s with table := f s.table }
def State.onSky (s : State) (f : SkyUnit → SkyUnit) : State := { s with sky := f s.sky }
def State.onFront (s : State) (f : FrontTracker → FrontTracker) : State := { s with front := f s.front }
def State.onStorage (s : State) (f : StorageRecord → StorageRecord) : State :=
  { s with nodes := { s.nodes with storage := f s.nodes.storage } }
def State.onMeter (s : State) (f : MeterRecord → MeterRecord) : State :=
  { s with nodes := { s.nodes with meter := f s.nodes.meter } }
def State.onRing (s : State) (f : RingController → RingController) : State := { s with ring := f s.ring }
def State.onAlerts (s : State) (f : AlertQueues → AlertQueues) : State := { s with alerts := f s.alerts }
/-- The clock moves on to `t`, if it has not reached it (log 3). -/
def State.atTime (s : State) (t : Time) : State := { s with now := max s.now t }

end Sys2Proof.Machine
end

