-- ==== Sys2Proof/Machine/Bytes.lean ====
section
/-! DEFINITION. Byte order, absent fields, enumeration codes and the CRC (spec/12_frame_and_packet_formats.md, R190, R191). -/

namespace Sys2Proof.Machine

/-! ## Plain and absent fields (R190) -/

/-- `n` bytes of `v`, least significant byte first. -/
def leBytes : Nat → Nat → List Byte
  | 0, _ => []
  | n + 1, v => BitVec.ofNat 8 v :: leBytes n (v / 256)

/-- The number that bytes spell, least significant byte first. -/
def leNat : List Byte → Nat
  | [] => 0
  | b :: bs => b.toNat + 256 * leNat bs

/-- An absent field: every bit of its width set. -/
def absentBytes (n : Nat) : List Byte :=
  List.replicate n 0xFF#8

/-- A received field is absent only when every byte is set. -/
def isAbsent (bs : List Byte) : Bool :=
  bs.all (· == 0xFF#8)

/-- An unsigned field of `n` bytes that may be absent. -/
def optBytes (n : Nat) : Option Nat → List Byte
  | some v => leBytes n v
  | none => absentBytes n

def flagByte (b : Bool) : List Byte :=
  [if b then 1#8 else 0#8]

/-- An enumerated field that may be absent. -/
def codeByte : Option Nat → List Byte
  | some c => [BitVec.ofNat 8 c]
  | none => [0xFF#8]

def epochBytes (e : Epoch) : List Byte :=
  leBytes 4 e.toNat

/-- Optional epoch numbers are widened to 5 bytes. -/
def optEpochBytes : Option Epoch → List Byte
  | some e => epochBytes e ++ [0#8]
  | none => absentBytes 5

/-- A signed power of 4 bytes, two's complement. -/
def intBytes (v : Int) : List Byte :=
  leBytes 4 (BitVec.ofInt 32 v).toNat

/-- Optional signed powers are widened to 5 bytes. -/
def optIntBytes : Option Int → List Byte
  | some v => intBytes v ++ [0#8]
  | none => absentBytes 5

/-! ## Reading received fields -/

/-- The `n` bytes of a body or payload from offset `i`. -/
def fieldAt (bs : List Byte) (i n : Nat) : List Byte :=
  (bs.drop i).take n

def byteAt (bs : List Byte) (i : Nat) : Byte :=
  bs.getD i 0#8

def halfAt (bs : List Byte) (i : Nat) : Half :=
  BitVec.ofNat 16 (leNat (fieldAt bs i 2))

def wordAt (bs : List Byte) (i : Nat) : Word :=
  BitVec.ofNat 32 (leNat (fieldAt bs i 4))

/-- An optional unsigned field. -/
def optNatAt (bs : List Byte) (i n : Nat) : Option Nat :=
  if isAbsent (fieldAt bs i n) then none else some (leNat (fieldAt bs i n))

/-- An optional signed power of 5 bytes, read from its low 4 bytes whatever its fifth byte holds. -/
def optIntAt (bs : List Byte) (i : Nat) : Option Int :=
  if isAbsent (fieldAt bs i 5) then none else some (wordAt bs i).toInt

/-! ## The CRC (R191) -/

def crcBit (c : Half) : Half :=
  if c.msb then (c <<< 1) ^^^ 0x1021#16 else c <<< 1

/-- One byte, most significant bit first. -/
def crcByte (c : Half) (b : Byte) : Half :=
  crcBit (crcBit (crcBit (crcBit (crcBit (crcBit (crcBit (crcBit (c ^^^ (b.setWidth 16 <<< 8)))))))))

def crc16 (bs : List Byte) : Half :=
  bs.foldl crcByte 0xFFFF#16

/-- The CRC as sent, high byte first (R190). -/
def crcBytes (c : Half) : List Byte :=
  [(c >>> 8).setWidth 8, c.setWidth 8]

/-- The CRC two received bytes spell. -/
def crcOf (high low : Byte) : Half :=
  high ++ low

/-! ## Frames and packets -/

/-- 12.1: the bytes of a frame as it leaves on HTX. -/
def TxFrame.bytes (f : TxFrame) : List Byte :=
  let covered := BitVec.ofNat 8 f.body.length :: f.kind :: f.tag :: f.body
  0xC3#8 :: covered ++ crcBytes (crc16 covered)

def OwnPacket.kindCode : OwnPacket → Byte
  | .cap .. => 1
  | .store .. => 2
  | .mark .. => 3
  | .probe .. => 4

/-- The block byte of a packet or a reply: block IDs run from 1. -/
def blockByte (b : BlockIx) : Byte :=
  BitVec.ofNat 8 (b.val + 1)

/-- 12.5: the payload of a packet of the part's own. -/
def OwnPacket.payload : OwnPacket → List Byte
  | .cap b label limit lease =>
    blockByte b :: epochBytes label ++ leBytes 2 (limit.getD (Config.releaseCapField b label).toNat) ++ leBytes 2 lease
  | .store label power lease => epochBytes label ++ intBytes power ++ leBytes 2 lease
  | .mark e => epochBytes e
  | .probe n => [n]

/-- R155: a packet of the part's own leaves with origin 0, pass mark clear, taken flag clear and mark count 0. Bits 2 to 7 of its flags
byte, which the manual gives no meaning, leave as 0 (log 33). -/
def OwnPacket.bytes (p : OwnPacket) : List Byte :=
  [0#8, p.kindCode, 0#8, 0#8] ++ p.payload ++ crcBytes (crc16 (0#8 :: p.kindCode :: p.payload))

/-! ## Enumeration codes (12.3) -/

def BlockState.code : BlockState → Nat
  | .empty => 0 | .silent => 1 | .free => 2 | .capped => 3 | .resting => 4 | .pinned => 5 | .barred => 6 | .out => 7

def UnitMode.code : UnitMode → Nat
  | .free => 0 | .capped => 1

def UnitMode.ofCode (b : Byte) : Option UnitMode :=
  if b = 0 then some .free else if b = 1 then some .capped else none

def BarCause.code : BarCause → Nat
  | .host => 0 | .noFollow => 1

def RunState.code : RunState → Nat
  | .stopped => 0 | .armed => 1 | .running => 2 | .holding => 3

def EpochSource.ofCode (b : Byte) : Option EpochSource :=
  if b = 0 then some .internal else if b = 1 then some .epochLine else if b = 2 then some .sensor else none

def Trigger.ofCode (b : Byte) : Option Trigger :=
  if b = 0 then some .immediate else if b = 1 then some .startLine else if b = 2 then some .firstFrame else none

/-- STOP option: LAPSE is false, RELEASE is true. -/
def stopReleaseOfCode (b : Byte) : Option Bool :=
  if b = 0 then some false else if b = 1 then some true else none

def HoldLine.ofCode (b : Byte) : Option HoldLine :=
  if b = 0 then some .a else if b = 1 then some .b else none

def HoldMode.code : HoldMode → Nat
  | .latched => 0 | .epoch => 1

def HoldMode.ofCode (b : Byte) : Option HoldMode :=
  if b = 0 then some .latched else if b = 1 then some .epoch else none

def HoldAction.code : HoldAction → Nat
  | .freeze => 0 | .ceiling => 1

def HoldAction.ofCode (b : Byte) : Option HoldAction :=
  if b = 0 then some .freeze else if b = 1 then some .ceiling else none

/-- A flag byte of a request: above 1 it is a value out of range (R190). -/
def flagOfByte (b : Byte) : Option Bool :=
  if b = 0 then some false else if b = 1 then some true else none

def Hold.code : Hold → Nat
  | .none => 0 | .freeze => 1 | .ceiling _ => 2

def Hold.value : Hold → Option Nat
  | .ceiling c => some c
  | _ => Option.none

def DispatchPhase.code : DispatchPhase → Nat
  | .idle => 0 | .computing _ => 1 | .staging .. => 2

def Outcome.code : Outcome → Nat
  | .complete => 0 | .frozen => 1 | .cut => 2 | .ringDown => 3

def TargetPath.code : TargetPath → Nat
  | .within => 0 | .short => 1 | .late => 2

def SampleSource.code : SampleSource → Nat
  | .waiting => 0 | .meter => 1 | .fallback => 2

def Hearing.code : Hearing → Nat
  | .waiting => 0 | .heard => 1 | .silent => 2

def Detector.code : Detector → Nat
  | .clear => 0 | .pending => 1 | .shaded => 2 | .lost => 3

def RingState.code : RingState → Nat
  | .down => 0 | .probing => 1 | .up => 2

def ProbeRecord.code : ProbeRecord → Option Nat
  | .absent => none | .queued => some 0 | .outstanding .. => some 1

def ProbeRecord.number : ProbeRecord → Option Nat
  | .outstanding n _ _ => some n.toNat
  | _ => none

def ProbeOutcome.code : ProbeOutcome → Nat
  | .returned => 0 | .failed => 1

def AlertClass.code : AlertClass → Nat
  | .trip => 0 | .derate => 1 | .restore => 2 | .note => 3

def AlertClass.ofCode (b : Byte) : Option AlertClass :=
  if b = 0 then some .trip else if b = 1 then some .derate else if b = 2 then some .restore
  else if b = 3 then some .note else none

def Gate.code : Gate → Nat
  | .closed => 0 | .opened => 1

end Sys2Proof.Machine
end

