-- ==== Sys2Proof/Machine/Flags.lean ====
section
/-! DEFINITION. The condition set: its 32 conditions, their bits, and the plain computations over the set (R183, R185, R186, 12.3). -/

namespace Sys2Proof.Machine

/-- The 32 conditions, in the order of 12.3. -/
inductive Condition where
  | ringLoss | ringUp | rogueRemoved | packetDiscarded | tripPending | deratePending | restorePending | notePending
  | alertOverflow | bandBreach | glideLate | supplyShort | captureShort | dispatchOverrun | holdBegun | holdEnded
  | sensorLoss | stationLost | warningOpened | warningDropped | blockLapsed | blockSilent | blockNoFollow | strayCap
  | capUndelivered | capLate | meterSilent | storageSilent | epochStall | linkError | markShort | staleDecision
  deriving DecidableEq, Repr

/-- The bit of each condition in the 32-bit encoding of the set (12.3). -/
def Condition.bit : Condition → Nat
  | .ringLoss => 0 | .ringUp => 1 | .rogueRemoved => 2 | .packetDiscarded => 3
  | .tripPending => 4 | .deratePending => 5 | .restorePending => 6 | .notePending => 7
  | .alertOverflow => 8 | .bandBreach => 9 | .glideLate => 10 | .supplyShort => 11
  | .captureShort => 12 | .dispatchOverrun => 13 | .holdBegun => 14 | .holdEnded => 15
  | .sensorLoss => 16 | .stationLost => 17 | .warningOpened => 18 | .warningDropped => 19
  | .blockLapsed => 20 | .blockSilent => 21 | .blockNoFollow => 22 | .strayCap => 23
  | .capUndelivered => 24 | .capLate => 25 | .meterSilent => 26 | .storageSilent => 27
  | .epochStall => 28 | .linkError => 29 | .markShort => 30 | .staleDecision => 31

def Condition.flag (c : Condition) : Word :=
  1#32 <<< c.bit

/-- The four level conditions, which CLEAR_CONDITIONS does not reach (R183). -/
def levelConditions : Word :=
  Condition.tripPending.flag ||| Condition.deratePending.flag ||| Condition.restorePending.flag
    ||| Condition.notePending.flag

def conditionSet (w : Word) (c : Condition) : Bool :=
  w.getLsbD c.bit

def setCondition (w : Word) (c : Condition) : Word :=
  w ||| c.flag

def clearCondition (w : Word) (c : Condition) : Word :=
  w &&& ~~~c.flag

/-- R185: clear the named conditions that are latched. -/
def clearLatched (w named : Word) : Word :=
  w &&& ~~~(named &&& ~~~levelConditions)

/-- R173: the level of each alert queue. -/
def AlertClass.level : AlertClass → Condition
  | .trip => .tripPending
  | .derate => .deratePending
  | .restore => .restorePending
  | .note => .notePending

end Sys2Proof.Machine
end

