-- ==== Sys2Proof/Machine/Ops.lean ====
section
/-! DEFINITION. The shared operations of the machine: epoch comparison, readying frames, raising conditions, answering a
request, and the one operation that changes a block record together with the two collections over the records. -/

namespace Sys2Proof.Machine

/-- What a command answers. -/
abbrev Result := Host.Outcome State Fault Refusal

/-! ## Numbers -/

/-- R18: a is at or after b when the difference a - b, taken modulo 2^32, is less than 2^31. -/
def atOrAfter (a b : Epoch) : Bool :=
  (a - b).toNat < 2 ^ 31

/-- R83, R112: a is later than b when they differ and a is at or after b. -/
def laterThan (a b : Epoch) : Bool :=
  a != b && atOrAfter a b

/-- The difference of two epoch numbers (00_scope, "Epoch numbers"). -/
def epochsSince (a b : Epoch) : Nat :=
  (a - b).toNat

/-- A count that stays at `limit` once there. -/
def saturate (limit n : Nat) : Nat :=
  min (n + 1) limit

/-- The 32-bit saturating counters (R94, R130, R142). -/
def max32 : Nat :=
  2 ^ 32 - 1

def addSaturating (n k : Nat) : Nat :=
  min (n + k) max32

/-- The value nearest to `x` in the range from `low` to `high`. -/
def clampNat (low high x : Nat) : Nat :=
  max low (min high x)

def clampInt (low high x : Int) : Int :=
  max low (min high x)

/-! ## Epoch order (log 4) -/

def allEpochRules : List EpochRule :=
  [.runControl, .governor, .blockTable, .frontTracker, .nodeRecords, .ringMarker, .leaseScheduler]

/-- Every block once: those the order names at their first place, then the others. -/
def completeOrder (order : EpochOrder) : List EpochRule :=
  (order ++ allEpochRules).eraseDups

/-! ## Milliseconds -/

/-- A time in milliseconds as a time of the clock. -/
def ms (n : Nat) : Time :=
  1000 * n

/-! ## The transmitter (R181, R182) -/

def TxFrame.isNotice (f : TxFrame) : Bool :=
  f.kind == 0x7F#8

/-- R182: a frame readied while the transmitter is idle begins at once, and waits otherwise. A reply that begins to leave
takes its request out of hand (R180). -/
def HostLink.ready (f : TxFrame) (l : HostLink) : HostLink :=
  match l.sending with
  | none => { l with sending := some f, inHand := if f.isNotice then l.inHand else none }
  | some _ => { l with waiting := l.waiting ++ [f] }

/-- R186: a notice readied while an earlier one waits replaces the waiting notice's body and keeps its place. -/
def HostLink.readyNotice (body : List Byte) (l : HostLink) : HostLink :=
  if l.waiting.any TxFrame.isNotice then
    { l with waiting := l.waiting.map fun f => if f.isNotice then { f with body } else f }
  else l.ready { kind := 0x7F#8, tag := 0#8, body }

/-! ## Conditions and notices (R183, R186) -/

/-- 12.1: the notice's body is the condition set followed by the epoch number. -/
def noticeBody (s : State) : List Byte :=
  leBytes 4 s.cond.conditions.toNat ++ epochBytes s.timer.epoch

/-- R186: an OPEN gate with a condition both set and in the mask readies a notice and closes. -/
def evaluateGate (s : State) : State :=
  if s.cond.gate = .opened ∧ s.cond.conditions &&& s.cond.mask ≠ 0 then
    (s.onLink (HostLink.readyNotice (noticeBody s))).onCond fun c => { c with gate := .closed }
  else s

/-- R183: a raise sets a clear condition and evaluates the gate; a condition already set is left as it is. -/
def raise (c : Condition) (s : State) : State :=
  if conditionSet s.cond.conditions c then s
  else evaluateGate (s.onCond fun u => { u with conditions := setCondition u.conditions c })

/-- R173: a level becomes clear. -/
def dropLevel (c : Condition) (s : State) : State :=
  s.onCond fun u => { u with conditions := clearCondition u.conditions c }

def raiseIf (p : Bool) (c : Condition) (s : State) : State :=
  if p then raise c s else s

/-- R178, R179, R180: a link error is counted and LINK_ERROR raised. -/
def linkError (s : State) : State :=
  raise .linkError (s.onLink fun l => { l with linkErrors := saturate 65535 l.linkErrors })

/-! ## Requests and replies (R181) -/

/-- The statuses of 12.1. -/
inductive Status where
  | ok | badKind | badLength | badValue | wrongState | notFree | notFound | full | empty | lineActive | notConfigured
  deriving DecidableEq, Repr

def Status.code : Status → Byte
  | .ok => 0 | .badKind => 1 | .badLength => 2 | .badValue => 3 | .wrongState => 4 | .notFree => 5
  | .notFound => 6 | .full => 7 | .empty => 8 | .lineActive => 9 | .notConfigured => 10

/-- What the owner of a request gives: the state after the request's effects, the status, and the reply data. -/
structure Served where
  state : State
  status : Status
  data : List Byte
  deriving DecidableEq, Repr

def served (s : State) : Served := { state := s, status := .ok, data := [] }

def servedWith (data : List Byte) (s : State) : Served := { state := s, status := .ok, data }

/-- A refused request changes no state. -/
def refuse (st : Status) (s : State) : Served := { state := s, status := st, data := [] }

/-- R181: the reply's kind is the request's kind plus 0x80, its body the status, followed for OK by the reply data. -/
def replyFrame (kind tag : Byte) (st : Status) (data : List Byte) : TxFrame :=
  { kind := kind + 0x80#8, tag, body := st.code :: (if st = .ok then data else []) }

def readyReply (kind tag : Byte) (r : Served) : State :=
  r.state.onLink (HostLink.ready (replyFrame kind tag r.status r.data))

/-- R180, R181: the request is in hand, its owner takes it as one whole, and its reply is readied after its effects. -/
def takeRequest (kind tag : Byte) (owner : State → Served) (s : State) : State :=
  readyReply kind tag (owner (s.onLink fun l => { l with inHand := some (kind, tag) }))

/-- A request row: the request is taken now. Held in reset (R189), or with a RESET taken and not yet carried out (log 8), no
request is taken. -/
def execRequest (kind tag : Byte) (owner : State → Served) (s : State) : Result :=
  .next (if s.resetLow || s.link.resetScheduled then s else takeRequest kind tag owner s)

/-- Any other row: while RESET_N is low every event is ignored (R189). -/
def execEvent (f : State → State) (s : State) : Result :=
  .next (if s.resetLow then s else f s)

/-! ## Run state (R47) -/

/-- RUNNING or HOLDING: the run states in which the timer runs. -/
def RunState.inRun : RunState → Bool
  | .running | .holding => true
  | .stopped | .armed => false

/-! ## Block records and their collections (R3, R4) -/

/-- R4: the collection of the blocks in state `key`, after block `b` has gone from state `before` to state `now`. A block that
stays in `key` keeps its place, one that enters is appended at the tail, and a removal keeps the order of the others. -/
def relist (key before now : BlockState) (b : BlockIx) (l : List BlockIx) : List BlockIx :=
  if before = key then (if now = key then l else l.filter (· != b))
  else if now = key then l ++ [b] else l

/-- Every change to a block record goes through here, with the capped list and the rotation queue following its state (R4). -/
def BlockTable.put (b : BlockIx) (r : BlockRecord) (t : BlockTable) : BlockTable :=
  { t with
    blocks := t.blocks.set b r
    capped := relist .capped t.blocks[b].state r.state b t.capped
    rotation := relist .free t.blocks[b].state r.state b t.rotation }

def modifyBlock (b : BlockIx) (f : BlockRecord → BlockRecord) (s : State) : State :=
  s.onTable fun t => t.put b (f t.blocks[b])

def State.block (s : State) (b : BlockIx) : BlockRecord :=
  s.table.blocks[b]

/-- R3: the revision increases by one, wrapping from 65,535 to 0. -/
def BlockRecord.bump (r : BlockRecord) : BlockRecord :=
  { r with revision := r.revision + 1 }

/-- CAPPED or PINNED: the states in which the part holds a cap. -/
def BlockState.holdsCap : BlockState → Bool
  | .capped | .pinned => true
  | .empty | .silent | .free | .resting | .barred | .out => false

def allBlocks : List BlockIx :=
  List.finRange 48

/-- R32: rated power times the group's floor percentage, divided by 100 and rounded down. -/
def floorOf (groups : Vector GroupRecord 8) (p : Profile) : Nat :=
  p.rated * groups[p.group].floorPercent / 100

/-- The floor of a record, from the committed group record. -/
def BlockRecord.floor (groups : Vector GroupRecord 8) (r : BlockRecord) : Nat :=
  match r.profile with
  | some p => floorOf groups p
  | none => 0

def BlockRecord.rated (r : BlockRecord) : Nat :=
  match r.profile with
  | some p => p.rated
  | none => 0

/-- R2: the least of the reported available, the derate limit where present and the rated power; 0 while the reported available
is absent, and 0 for an EMPTY record. -/
def BlockRecord.usable (r : BlockRecord) : Nat :=
  match r.state, r.available with
  | .empty, _ => 0
  | _, none => 0
  | _, some a => min (min a (r.derate.getD a)) r.rated

end Sys2Proof.Machine
end

