-- ==== Sys2Proof/WellFormed.lean ====
section
/-! DEFINITION. What the wire allows of a command's operands, beyond their widths. A command that fails has a meaning all the
same (Machine/Operands.lean: the port answers BAD_LENGTH, or abandons the frame). -/

namespace Sys2Proof

/-- LEADS_ADD carries 1 to 60 entries (R79, 12.2). -/
def wfLeads (entries : List LeadBody) : Bool :=
  1 ≤ entries.length && entries.length ≤ 60

/-- LOAD_RING carries 0 to 50 node IDs (R150, 12.2). -/
def wfNodes (ids : List Byte) : Bool :=
  ids.length ≤ 50

/-- A frame's body has 0 to 250 bytes (R178). -/
def wfFrame (f : RxFrame) : Bool :=
  f.body.length ≤ 250

/-- An epoch order names each of the seven blocks exactly once (log 4). -/
def wfOrder (order : EpochOrder) : Bool :=
  order.Nodup && order.length == 7

/-- The check of one command. -/
def Instr.wellFormed : Instr → Bool
  | .leadsAdd _ entries => wfLeads entries
  | .loadRing _ ids => wfNodes ids
  | .hostFrameComplete f order => wfFrame f && wfOrder order
  | .start _ _ order => wfOrder order
  | .heldRequestTaken order => wfOrder order
  | .internalPeriodExpiry order => wfOrder order
  | .epochInEdge _ order => wfOrder order
  | .startInEdge order => wfOrder order
  | .sensorFrameSync _ order => wfOrder order
  | .hostByteReceived _ _ order => wfOrder order
  | .enroll .. | .profile .. | .withdraw .. | .pin .. | .unpin .. | .bar .. | .unbar .. | .readBlock .. => true
  | .setPlant .. | .setGroup .. | .readSettings .. | .setEpoch .. | .stop .. | .clearHold .. => true
  | .setSensor .. | .loadStation .. | .readStation .. | .leadsBegin .. | .leadsCommit .. => true
  | .flushWarnings .. | .readWarning .. | .readPlant .. | .readNodes .. | .probeRing .. | .readRing .. => true
  | .alertTake .. | .alertPeek .. | .alertFlush .. | .readConditions .. | .clearConditions .. => true
  | .setNoticeMask .. | .noticeRearm .. | .reset .. | .hostFrameGapTimeout | .hostFrameSent => true
  | .resetReplySent .. | .resetNAsserted | .resetNReleased .. | .epochStall | .holdLineAsserted .. => true
  | .holdLineInactive .. | .dispatchComputingEnd | .stagingResumed | .sensorFrameFull .. | .sensorLoss => true
  | .ringSignalLoss | .ringSignalPresent | .ringSettled | .probeWindowExpiry | .probeRetryExpiry => true
  | .ringPacketReceived .. | .outPortFree | .sensorWordReceived .. => true

end Sys2Proof
end

