-- ==== Sys2Proof/Machine/Operands.lean ====
section
/-! DEFINITION. Operand forms: the requests of 12.2 with their bodies read from and written to bytes, the kind and length checks
of R181, and the range checks of R12, R31, R33, R34 and R66 that turn a body into the record it stands for. -/

namespace Sys2Proof.Machine

/-! ## Requests -/

/-- A request whose kind and body length are right (R181, steps 1 and 2), before its owner's checks. -/
inductive Request where
  | enroll (block : Byte) (rated : Half) (group : Byte)
  | profile (block : Byte) (rated : Half) (group : Byte)
  | withdraw (block : Byte)
  | pin (block : Byte) (cap : Half)
  | unpin (block : Byte)
  | bar (block : Byte)
  | unbar (block : Byte)
  | readBlock (block : Byte)
  | setPlant (body : PlantBody)
  | setGroup (group : Byte) (body : GroupBody)
  | readSettings
  | setEpoch (source : Byte) (period : Half) (divisor : Byte)
  | start (trigger : Byte)
  | stop (option : Byte)
  | clearHold (line : Byte)
  | setSensor (period : Half) (enable : Byte)
  | loadStation (station : Byte) (body : StationBody)
  | readStation (station : Byte)
  | leadsBegin
  | leadsAdd (entries : List LeadBody)
  | leadsCommit
  | flushWarnings
  | readWarning (index : Byte)
  | readPlant
  | readNodes
  | probeRing
  | loadRing (ids : List Byte)
  | readRing
  | alertTake (cls : Byte)
  | alertPeek (cls index : Byte)
  | alertFlush (cls : Byte)
  | readConditions
  | clearConditions (named : Word)
  | setNoticeMask (mask : Word)
  | noticeRearm
  | reset
  deriving DecidableEq, Repr

/-- The request kinds of 12.2. -/
def Request.kind : Request → Byte
  | .enroll .. => 0x01 | .profile .. => 0x02 | .withdraw .. => 0x03 | .pin .. => 0x04 | .unpin .. => 0x05
  | .bar .. => 0x06 | .unbar .. => 0x07 | .readBlock .. => 0x08 | .setPlant .. => 0x09 | .setGroup .. => 0x0A
  | .readSettings => 0x0B | .setEpoch .. => 0x0C | .start .. => 0x0D | .stop .. => 0x0E | .clearHold .. => 0x0F
  | .setSensor .. => 0x10 | .loadStation .. => 0x11 | .readStation .. => 0x12 | .leadsBegin => 0x13
  | .leadsAdd .. => 0x14 | .leadsCommit => 0x15 | .flushWarnings => 0x16 | .readWarning .. => 0x17
  | .readPlant => 0x18 | .readNodes => 0x19 | .probeRing => 0x1A | .loadRing .. => 0x1B | .readRing => 0x1C
  | .alertTake .. => 0x1D | .alertPeek .. => 0x1E | .alertFlush .. => 0x1F | .readConditions => 0x20
  | .clearConditions .. => 0x21 | .setNoticeMask .. => 0x22 | .noticeRearm => 0x23 | .reset => 0x24

def halfBytes (h : Half) : List Byte := leBytes 2 h.toNat
def wordBytes (w : Word) : List Byte := leBytes 4 w.toNat

def holdBytes (h : HoldBody) : List Byte :=
  [h.enabled, h.mode, h.action] ++ wordBytes h.ceiling

/-- 12.2: the plant record, 40 bytes. -/
def plantBytes (p : PlantBody) : List Byte :=
  halfBytes p.stepUp ++ halfBytes p.stepDown ++ halfBytes p.windowLength ++ wordBytes p.windowUp
    ++ wordBytes p.windowDown ++ halfBytes p.tolerance ++ [p.nonFollowLimit, p.silenceLimit] ++ halfBytes p.leaseLength
    ++ [p.lagMultiplier, p.absorb] ++ halfBytes p.reserveFloor ++ halfBytes p.reserveCeiling
    ++ holdBytes p.lineA ++ holdBytes p.lineB

/-- 12.2: the group record, 9 bytes. -/
def groupBytes (g : GroupBody) : List Byte :=
  [g.lag, g.floorPercent] ++ halfBytes g.minCapped ++ halfBytes g.maxCapped ++ halfBytes g.rest ++ [g.spacing]

def stationBytes (b : StationBody) : List Byte :=
  [b.slot, b.enabled, b.historyLength, b.drop, b.persistence, b.clear]

def leadBytes (e : LeadBody) : List Byte :=
  [e.station, e.block, e.lead]

/-- 12.2: a request's body. -/
def Request.body : Request → List Byte
  | .enroll b r g => b :: halfBytes r ++ [g]
  | .profile b r g => b :: halfBytes r ++ [g]
  | .withdraw b => [b]
  | .pin b c => b :: halfBytes c
  | .unpin b => [b]
  | .bar b => [b]
  | .unbar b => [b]
  | .readBlock b => [b]
  | .setPlant p => plantBytes p
  | .setGroup g r => g :: groupBytes r
  | .readSettings => []
  | .setEpoch src p d => src :: halfBytes p ++ [d]
  | .start t => [t]
  | .stop o => [o]
  | .clearHold l => [l]
  | .setSensor p e => halfBytes p ++ [e]
  | .loadStation t b => t :: stationBytes b
  | .readStation t => [t]
  | .leadsBegin => []
  | .leadsAdd es => es.flatMap leadBytes
  | .leadsCommit => []
  | .flushWarnings => []
  | .readWarning i => [i]
  | .readPlant => []
  | .readNodes => []
  | .probeRing => []
  | .loadRing ids => ids
  | .readRing => []
  | .alertTake c => [c]
  | .alertPeek c i => [c, i]
  | .alertFlush c => [c]
  | .readConditions => []
  | .clearConditions w => wordBytes w
  | .setNoticeMask w => wordBytes w
  | .noticeRearm => []
  | .reset => []

/-- What the wire allows of a request (R79, R150). -/
def Request.wellFormed : Request → Bool
  | .leadsAdd es => wfLeads es
  | .loadRing ids => wfNodes ids
  | _ => true

/-! ### Reading a body -/

def readHold (bs : List Byte) (i : Nat) : HoldBody :=
  { enabled := byteAt bs i, mode := byteAt bs (i + 1), action := byteAt bs (i + 2), ceiling := wordAt bs (i + 3) }

def readPlantBody (bs : List Byte) : PlantBody :=
  { stepUp := halfAt bs 0, stepDown := halfAt bs 2, windowLength := halfAt bs 4, windowUp := wordAt bs 6,
    windowDown := wordAt bs 10, tolerance := halfAt bs 14, nonFollowLimit := byteAt bs 16, silenceLimit := byteAt bs 17,
    leaseLength := halfAt bs 18, lagMultiplier := byteAt bs 20, absorb := byteAt bs 21, reserveFloor := halfAt bs 22,
    reserveCeiling := halfAt bs 24, lineA := readHold bs 26, lineB := readHold bs 33 }

/-- The group record from offset 1 of SET_GROUP's body. -/
def readGroupBody (bs : List Byte) : GroupBody :=
  { lag := byteAt bs 1, floorPercent := byteAt bs 2, minCapped := halfAt bs 3, maxCapped := halfAt bs 5,
    rest := halfAt bs 7, spacing := byteAt bs 9 }

/-- The parameters from offset 1 of LOAD_STATION's body. -/
def readStationBody (bs : List Byte) : StationBody :=
  { slot := byteAt bs 1, enabled := byteAt bs 2, historyLength := byteAt bs 3, drop := byteAt bs 4,
    persistence := byteAt bs 5, clear := byteAt bs 6 }

def readLeads : List Byte → List LeadBody
  | a :: b :: c :: rest => { station := a, block := b, lead := c } :: readLeads rest
  | _ => []

/-- R181, step 2: a kind with one length refuses any other. -/
def withLength (n : Nat) (bs : List Byte) (r : Request) : Except Status Request :=
  if bs.length = n then .ok r else .error .badLength

/-- R181, steps 1 and 2: the kind is one of the index, and the body length is one the kind allows. -/
def Request.parse (kind : Byte) (bs : List Byte) : Except Status Request :=
  match kind.toNat with
  | 0x01 => withLength 4 bs (.enroll (byteAt bs 0) (halfAt bs 1) (byteAt bs 3))
  | 0x02 => withLength 4 bs (.profile (byteAt bs 0) (halfAt bs 1) (byteAt bs 3))
  | 0x03 => withLength 1 bs (.withdraw (byteAt bs 0))
  | 0x04 => withLength 3 bs (.pin (byteAt bs 0) (halfAt bs 1))
  | 0x05 => withLength 1 bs (.unpin (byteAt bs 0))
  | 0x06 => withLength 1 bs (.bar (byteAt bs 0))
  | 0x07 => withLength 1 bs (.unbar (byteAt bs 0))
  | 0x08 => withLength 1 bs (.readBlock (byteAt bs 0))
  | 0x09 => withLength 40 bs (.setPlant (readPlantBody bs))
  | 0x0A => withLength 10 bs (.setGroup (byteAt bs 0) (readGroupBody bs))
  | 0x0B => withLength 0 bs .readSettings
  | 0x0C => withLength 4 bs (.setEpoch (byteAt bs 0) (halfAt bs 1) (byteAt bs 3))
  | 0x0D => withLength 1 bs (.start (byteAt bs 0))
  | 0x0E => withLength 1 bs (.stop (byteAt bs 0))
  | 0x0F => withLength 1 bs (.clearHold (byteAt bs 0))
  | 0x10 => withLength 3 bs (.setSensor (halfAt bs 0) (byteAt bs 2))
  | 0x11 => withLength 7 bs (.loadStation (byteAt bs 0) (readStationBody bs))
  | 0x12 => withLength 1 bs (.readStation (byteAt bs 0))
  | 0x13 => withLength 0 bs .leadsBegin
  | 0x14 => if bs.length % 3 = 0 ∧ 3 ≤ bs.length ∧ bs.length ≤ 180 then .ok (.leadsAdd (readLeads bs)) else .error .badLength
  | 0x15 => withLength 0 bs .leadsCommit
  | 0x16 => withLength 0 bs .flushWarnings
  | 0x17 => withLength 1 bs (.readWarning (byteAt bs 0))
  | 0x18 => withLength 0 bs .readPlant
  | 0x19 => withLength 0 bs .readNodes
  | 0x1A => withLength 0 bs .probeRing
  | 0x1B => if bs.length ≤ 50 then .ok (.loadRing bs) else .error .badLength
  | 0x1C => withLength 0 bs .readRing
  | 0x1D => withLength 1 bs (.alertTake (byteAt bs 0))
  | 0x1E => withLength 2 bs (.alertPeek (byteAt bs 0) (byteAt bs 1))
  | 0x1F => withLength 1 bs (.alertFlush (byteAt bs 0))
  | 0x20 => withLength 0 bs .readConditions
  | 0x21 => withLength 4 bs (.clearConditions (wordAt bs 0))
  | 0x22 => withLength 4 bs (.setNoticeMask (wordAt bs 0))
  | 0x23 => withLength 0 bs .noticeRearm
  | 0x24 => withLength 0 bs .reset
  | _ => .error .badKind

/-! ## Identifiers -/

/-- A block ID from 1 to 48. -/
def blockOf (b : Byte) : Option BlockIx :=
  if h : 1 ≤ b.toNat ∧ b.toNat ≤ 48 then some ⟨b.toNat - 1, by omega⟩ else none

/-- A group number from 1 to 8. -/
def groupOf (b : Byte) : Option GroupIx :=
  if h : 1 ≤ b.toNat ∧ b.toNat ≤ 8 then some ⟨b.toNat - 1, by omega⟩ else none

/-- A station ID from 1 to 24. -/
def stationOf (b : Byte) : Option StationIx :=
  if h : 1 ≤ b.toNat ∧ b.toNat ≤ 24 then some ⟨b.toNat - 1, by omega⟩ else none

/-! ## Records -/

def inRange (low high n : Nat) : Bool :=
  low ≤ n && n ≤ high

/-- R12, step 2: rated 1 to 65,000 kW and group 1 to 8. -/
def profileOf (rated : Half) (group : Byte) : Option Profile :=
  if inRange 1 65000 rated.toNat then (groupOf group).map fun g => { rated := rated.toNat, group := g } else none

/-- R34: every field is checked, whether or not the line is enabled and whatever its action. -/
def checkHold (h : HoldBody) : Option HoldConfig :=
  match flagOfByte h.enabled, HoldMode.ofCode h.mode, HoldAction.ofCode h.action with
  | some enabled, some mode, some action =>
    if h.ceiling.toNat ≤ 3000000 then some { enabled, mode, action, ceiling := h.ceiling.toNat } else none
  | _, _, _ => none

/-- The ranges of R33, less the hold configurations and the absorb flag. -/
def plantInRanges (p : PlantBody) : Bool :=
  inRange 1 65535 p.stepUp.toNat && inRange 1 65535 p.stepDown.toNat && inRange 2 600 p.windowLength.toNat
    && inRange 1 3000000 p.windowUp.toNat && inRange 1 3000000 p.windowDown.toNat
    && inRange 1 15 p.nonFollowLimit.toNat && inRange 2 50 p.silenceLimit.toNat && inRange 4 600 p.leaseLength.toNat
    && inRange 1 2 p.lagMultiplier.toNat && inRange 0 999 p.reserveFloor.toNat
    && inRange (p.reserveFloor.toNat + 1) 1000 p.reserveCeiling.toNat

/-- R36: the plant record of a body in range. -/
def checkPlant (p : PlantBody) : Option PlantRecord :=
  match flagOfByte p.absorb, checkHold p.lineA, checkHold p.lineB with
  | some absorb, some lineA, some lineB =>
    if plantInRanges p then
      some { stepUp := p.stepUp.toNat, stepDown := p.stepDown.toNat, windowLength := p.windowLength.toNat,
             windowUp := p.windowUp.toNat, windowDown := p.windowDown.toNat, tolerance := p.tolerance.toNat,
             nonFollowLimit := p.nonFollowLimit.toNat, silenceLimit := p.silenceLimit.toNat,
             leaseLength := p.leaseLength.toNat, lagMultiplier := p.lagMultiplier.toNat, absorb,
             reserveFloor := p.reserveFloor.toNat, reserveCeiling := p.reserveCeiling.toNat, lineA, lineB }
    else none
  | _, _, _ => none

/-- R31, R37: the group record of a body in range; a maximum capped is 0, or the minimum plus 1 to 3,000. -/
def checkGroup (g : GroupBody) : Option GroupRecord :=
  if inRange 0 7 g.lag.toNat && inRange 0 100 g.floorPercent.toNat && inRange 1 600 g.minCapped.toNat
      && (g.maxCapped.toNat == 0 || inRange (g.minCapped.toNat + 1) 3000 g.maxCapped.toNat)
      && inRange 0 600 g.rest.toNat && inRange 1 100 g.spacing.toNat then
    some { lag := g.lag.toNat, floorPercent := g.floorPercent.toNat, minCapped := g.minCapped.toNat,
           maxCapped := g.maxCapped.toNat, rest := g.rest.toNat, spacing := g.spacing.toNat }
  else none

/-- R66: the ranges of a station's parameters. -/
def stationInRanges (b : StationBody) : Bool :=
  inRange 0 63 b.slot.toNat && (flagOfByte b.enabled).isSome && inRange 4 32 b.historyLength.toNat
    && inRange 8 255 b.drop.toNat && inRange 1 15 b.persistence.toNat && inRange 8 255 b.clear.toNat

/-- R79, step 1: the ranges of one entry. -/
def checkLead (e : LeadBody) : Option LeadEntry :=
  match stationOf e.station, blockOf e.block with
  | some station, some block => if 1 ≤ e.lead.toNat then some { station, block, lead := e.lead.toNat } else none
  | _, _ => none

end Sys2Proof.Machine
end

