-- ==== Sys2Proof/Machine/Conditions.lean ====
section
/-! DEFINITION. The requests on the Condition Unit (spec/11_host_link_conditions_and_notices.md, R184 to R188). -/

namespace Sys2Proof.Machine

/-- 12.4: the reply data of READ_CONDITIONS. -/
def conditionData (c : ConditionUnit) (linkErrors : Nat) : List Byte :=
  leBytes 4 c.conditions.toNat ++ leBytes 4 c.mask.toNat ++ codeByte (some c.gate.code) ++ leBytes 2 linkErrors

/-- READ_CONDITIONS (R184). -/
def serveReadConditions (s : State) : Served :=
  servedWith (conditionData s.cond s.link.linkErrors) s

/-- CLEAR_CONDITIONS (R185); the reply carries the set after the clearing. -/
def serveClearConditions (named : Word) (s : State) : Served :=
  let after := clearLatched s.cond.conditions named
  servedWith (leBytes 4 after.toNat) (s.onCond fun c => { c with conditions := after })

/-- SET_NOTICE_MASK (R187): the gate is evaluated after the replacement. -/
def serveSetNoticeMask (mask : Word) (s : State) : Served :=
  served (evaluateGate (s.onCond fun c => { c with mask }))

/-- NOTICE_REARM (R188): the gate is opened and then evaluated. -/
def serveNoticeRearm (s : State) : Served :=
  served (evaluateGate (s.onCond fun c => { c with gate := .opened }))

/-! ## The rows -/

def execReadConditions (tag : Byte) (s : State) : Result :=
  execRequest 0x20 tag serveReadConditions s

def execClearConditions (tag : Byte) (named : Word) (s : State) : Result :=
  execRequest 0x21 tag (serveClearConditions named) s

def execSetNoticeMask (tag : Byte) (mask : Word) (s : State) : Result :=
  execRequest 0x22 tag (serveSetNoticeMask mask) s

def execNoticeRearm (tag : Byte) (s : State) : Result :=
  execRequest 0x23 tag serveNoticeRearm s

end Sys2Proof.Machine
end

