-- ==== Sys2Proof/Machine/Queue.lean ====
section
/-! DEFINITION. The outbound queue (R14, R136, R144, R156 to R160): what it admits, what an entering CAP or STORE does to the
record of its target, the replacement in place, the marker rule and the removals. -/

namespace Sys2Proof.Machine

/-! ## Packets -/

def OwnPacket.isMark : OwnPacket → Bool
  | .mark _ => true
  | _ => false

def OwnPacket.isProbe : OwnPacket → Bool
  | .probe _ => true
  | _ => false

def OwnPacket.isCap : OwnPacket → Bool
  | .cap .. => true
  | _ => false

def OwnPacket.isStore : OwnPacket → Bool
  | .store .. => true
  | _ => false

/-- A CAP of block `b` with this label. -/
def OwnPacket.isCapAt (b : BlockIx) (label : Epoch) : OwnPacket → Bool
  | .cap b' l _ _ => b' == b && l == label
  | _ => false

/-- A STORE with this label. -/
def OwnPacket.isStoreAt (label : Epoch) : OwnPacket → Bool
  | .store l _ _ => l == label
  | _ => false

/-- R156: at most 63 packets of the kinds CAP, STORE and PROBE, so that a marker can always be placed. -/
def hasRoom (q : List OwnPacket) : Bool :=
  (q.filter fun p => !p.isMark).length < 63

/-! ## A packet enters (R14, R136) -/

/-- R14: the record's cap label becomes the packet's label, and a CAP with a non-zero lease sets the owed flag. -/
def capEnters (b : BlockIx) (label : Epoch) (lease : Nat) (s : State) : State :=
  modifyBlock b (fun r => { r with capLabel := some label, owed := r.owed || lease != 0 }) s

/-- R136: the commanded power and the command label become the packet's, and a non-zero power sets the owed flag. -/
def storeEnters (label : Epoch) (power : Int) (s : State) : State :=
  s.onStorage fun r => { r with commanded := power, commandLabel := some label, owed := r.owed || power != 0 }

/-- R159: a CAP or STORE offered after the placement of MARK e with a label of e or earlier is late: the label it enters with. -/
def lateLabel (ring : RingController) (label : Epoch) : Option Epoch :=
  match ring.lastMark with
  | some m => if atOrAfter m label then some (m + 1) else none
  | none => none

/-- The label a CAP or STORE offered with `label` enters with. -/
def enteringLabel (ring : RingController) (label : Epoch) : Epoch :=
  (lateLabel ring label).getD label

/-- R158, R159: late packets are counted, and CAP_LATE is raised if there was any. -/
def countLate (n : Nat) (s : State) : State :=
  if n = 0 then s
  else raise .capLate (s.onRing fun r => { r with late := addSaturating r.late n })

def countOffer (label : Epoch) (s : State) : State :=
  countLate (if (lateLabel s.ring label).isSome then 1 else 0) s

/-! ## Offers (R156, R157) -/

/-- R156, R157: a CAP is admitted while the ring is UP, if one for its block and label is queued or there is room. -/
def capAdmissible (b : BlockIx) (label : Epoch) (ring : RingController) : Bool :=
  ring.state == .up && (ring.queue.any (OwnPacket.isCapAt b (enteringLabel ring label)) || hasRoom ring.queue)

def storeAdmissible (label : Epoch) (ring : RingController) : Bool :=
  ring.state == .up && (ring.queue.any (OwnPacket.isStoreAt (enteringLabel ring label)) || hasRoom ring.queue)

/-- R157: the payload of a queued packet for the same target and label is replaced in place; else the packet goes to the tail. -/
def enqueue (same : OwnPacket → Bool) (p : OwnPacket) (q : List OwnPacket) : List OwnPacket :=
  if q.any same then q.map fun x => if same x then p else x else q ++ [p]

/-- Offer a CAP: `none` where the queue refuses it, and then nothing has changed. `limit` is absent in a release. -/
def offerCap (b : BlockIx) (label : Epoch) (limit : Option Nat) (lease : Nat) (s : State) : Option State :=
  if capAdmissible b label s.ring then
    let l := enteringLabel s.ring label
    some (capEnters b l lease (countOffer label
      (s.onRing fun r => { r with queue := enqueue (OwnPacket.isCapAt b l) (.cap b l limit lease) r.queue })))
  else none

/-- Offer a STORE (R156, R157, R136). -/
def offerStore (label : Epoch) (power : Int) (lease : Nat) (s : State) : Option State :=
  if storeAdmissible label s.ring then
    let l := enteringLabel s.ring label
    some (storeEnters l power (countOffer label
      (s.onRing fun r => { r with queue := enqueue (OwnPacket.isStoreAt l) (.store l power lease) r.queue })))
  else none

/-! ## The marker (R158, R159) -/

/-- R159: a CAP or STORE whose label is e or earlier. -/
def OwnPacket.lateAt (e : Epoch) : OwnPacket → Bool
  | .cap _ l _ _ => atOrAfter e l
  | .store l _ _ => atOrAfter e l
  | _ => false

/-- A packet of the same kind for the same target as the first, with label `l`. -/
def OwnPacket.sameTargetAt (l : Epoch) : OwnPacket → OwnPacket → Bool
  | .cap b _ _ _, q => q.isCapAt b l
  | .store _ _ _, q => q.isStoreAt l
  | _, _ => false

def OwnPacket.relabel (l : Epoch) : OwnPacket → OwnPacket
  | .cap b _ limit lease => .cap b l limit lease
  | .store _ power lease => .store l power lease
  | p => p

/-- What R159 makes of the queue: the packets that stay, the late packets that were relabelled (as they were before), and how
many packets were late. -/
structure Relabelled where
  queue : List OwnPacket
  moved : List OwnPacket
  late : Nat
  deriving DecidableEq, Repr

/-- R159, in queue order: a late packet is removed if the queue already holds a packet of its kind and target with label e + 1,
and relabelled e + 1 otherwise. `done` is the part of the queue already handled. -/
def relabelLate (e : Epoch) (done : List OwnPacket) : List OwnPacket → Relabelled
  | [] => { queue := done, moved := [], late := 0 }
  | p :: rest =>
    if p.lateAt e then
      if (done ++ rest).any (p.sameTargetAt (e + 1)) then
        let r := relabelLate e done rest
        { r with late := r.late + 1 }
      else
        let r := relabelLate e (done ++ [p.relabel (e + 1)]) rest
        { r with moved := p :: r.moved, late := r.late + 1 }
    else relabelLate e (done ++ [p]) rest

/-- R14, R136: a relabel moves the cap label or the command label where it equals the old label. -/
def moveLabel (l : Epoch) (s : State) : OwnPacket → State
  | .cap b old _ _ => modifyBlock b (fun r => if r.capLabel = some old then { r with capLabel := some l } else r) s
  | .store old _ _ => s.onStorage fun r => if r.commandLabel = some old then { r with commandLabel := some l } else r
  | _ => s

/-- R158, R159: at epoch e, while the ring is UP, MARK e goes to the head, a MARK still queued is removed and counted late, and
the late packets are relabelled or removed. -/
def placeMarker (e : Epoch) (s : State) : State :=
  if s.ring.state = .up then
    let oldMarks := (s.ring.queue.filter OwnPacket.isMark).length
    let r := relabelLate e [] (s.ring.queue.filter fun p => !p.isMark)
    countLate (oldMarks + r.late)
      (r.moved.foldl (moveLabel (e + 1)) (s.onRing fun c => { c with queue := .mark e :: r.queue, lastMark := some e }))
  else s

/-! ## Removals -/

/-- R144, R160: every CAP, STORE and MARK leaves the queue, and any PROBE stays. -/
def onlyProbes (q : List OwnPacket) : List OwnPacket :=
  q.filter OwnPacket.isProbe

/-- R160: the removals of STOP and START, which are not counted. -/
def dropQueue (s : State) : State :=
  s.onRing fun r => { r with queue := onlyProbes r.queue }

/-- R144: a departure from UP removes every CAP, STORE and MARK and counts them as purged. -/
def RingController.purge (r : RingController) : RingController :=
  { r with queue := onlyProbes r.queue, purged := addSaturating r.purged (r.queue.length - (onlyProbes r.queue).length) }

end Sys2Proof.Machine
end

