-- ==== Sys2Proof/Machine/BlockTable.lean ====
section
/-! DEFINITION. The Block Table (spec/01_the_block_table.md): host requests on blocks, the effect of staged decisions, reports and
alerts, the epoch rule, and what STOP, START and adoption do to the records. -/

namespace Sys2Proof.Machine

/-! ## Host requests (R5 to R13) -/

/-- R5: the record of a newly enrolled block. -/
def BlockRecord.enrolled (p : Profile) (watch : Option Epoch) (r : BlockRecord) : BlockRecord :=
  { BlockRecord.emptyAt (r.revision + 1) with state := .silent, profile := some p, watch }

/-- R5: the watch epoch is set at once if the run state is RUNNING or HOLDING and the ring is UP. -/
def enrolWatch (s : State) : Option Epoch :=
  if s.run.state.inRun && s.ring.state == .up then some s.timer.epoch else none

/-- ENROLL (R5, R12). -/
def serveEnroll (block : Byte) (rated : Half) (group : Byte) (s : State) : Served :=
  match blockOf block, profileOf rated group with
  | some b, some p =>
    if (s.block b).state = .empty then served (modifyBlock b (BlockRecord.enrolled p (enrolWatch s)) s)
    else refuse .wrongState s
  | _, _ => refuse .badValue s

/-- R6: the profile is replaced and the revision increases, even if both values equal the old ones. -/
def BlockRecord.reprofiled (p : Profile) (r : BlockRecord) : BlockRecord :=
  { r with profile := some p }.bump

/-- PROFILE (R6, R12). -/
def serveProfile (block : Byte) (rated : Half) (group : Byte) (s : State) : Served :=
  match blockOf block, profileOf rated group with
  | some b, some p =>
    match (s.block b).state with
    | .free | .silent => served (modifyBlock b (BlockRecord.reprofiled p) s)
    | .empty | .capped | .resting | .pinned | .barred | .out => refuse .notFree s
  | _, _ => refuse .badValue s

/-- R7: back to EMPTY, keeping the revision, which increases by one. -/
def BlockRecord.withdrawn (r : BlockRecord) : BlockRecord :=
  .emptyAt (r.revision + 1)

/-- WITHDRAW (R7, R12). -/
def serveWithdraw (block : Byte) (s : State) : Served :=
  match blockOf block with
  | some b =>
    match (s.block b).state with
    | .free | .silent | .barred | .out => served (modifyBlock b BlockRecord.withdrawn s)
    | .capped | .resting | .pinned | .empty => refuse .notFree s
  | none => refuse .badValue s

/-- R8. -/
def BlockRecord.pinnedAt (cap : Nat) (r : BlockRecord) : BlockRecord :=
  { r with state := .pinned, cap := some cap, captureEpoch := none, owed := true }.bump

/-- PIN (R8, R12). -/
def servePin (block : Byte) (cap : Half) (s : State) : Served :=
  match blockOf block with
  | some b =>
    match (s.block b).state with
    | .free | .capped | .resting =>
      if cap.toNat ≤ (s.block b).rated then served (modifyBlock b (BlockRecord.pinnedAt cap.toNat) s)
      else refuse .badValue s
    | .silent | .pinned | .barred | .out | .empty => refuse .wrongState s
  | none => refuse .badValue s

/-- R9, R19: into CAPPED at `cap` clamped to the range from the floor to the rated power, owed if the clamp changed it. -/
def BlockRecord.cappedFrom (groups : Vector GroupRecord 8) (cap : Nat) (epoch : Epoch) (r : BlockRecord) : BlockRecord :=
  let c := clampNat (r.floor groups) r.rated cap
  { r with state := .capped, cap := some c, captureEpoch := some epoch, nonFollowRun := 0, owed := r.owed || c != cap }.bump

/-- UNPIN (R9, R12). -/
def serveUnpin (block : Byte) (s : State) : Served :=
  match blockOf block with
  | some b =>
    if (s.block b).state = .pinned then
      served (modifyBlock b (fun r => r.cappedFrom s.gov.groups (r.cap.getD 0) s.timer.epoch) s)
    else refuse .wrongState s
  | none => refuse .badValue s

/-- R10: to BARRED with cause HOST; a release is owed if the part held a cap. The trip flag is kept. -/
def BlockRecord.barredByHost (r : BlockRecord) : BlockRecord :=
  { r with state := .barred, barCause := some .host, cap := none, captureEpoch := none,
           owed := r.owed || r.state.holdsCap }.bump

/-- BAR (R10, R12). -/
def serveBar (block : Byte) (s : State) : Served :=
  match blockOf block with
  | some b =>
    match (s.block b).state with
    | .free | .capped | .resting | .pinned | .silent | .out => served (modifyBlock b BlockRecord.barredByHost s)
    | .barred | .empty => refuse .wrongState s
  | none => refuse .badValue s

/-- R11: to FREE, or to OUT if the trip flag is set; the run of a block barred for NOFOLLOW returns to 0. -/
def BlockRecord.unbarred (r : BlockRecord) : BlockRecord :=
  { r with state := if r.tripFlag then .out else .free, barCause := none,
           nonFollowRun := if r.barCause = some BarCause.noFollow then 0 else r.nonFollowRun }.bump

/-- UNBAR (R11, R12). -/
def serveUnbar (block : Byte) (s : State) : Served :=
  match blockOf block with
  | some b =>
    if (s.block b).state = .barred then served (modifyBlock b BlockRecord.unbarred s) else refuse .wrongState s
  | none => refuse .badValue s

/-- R13: the position in whichever collection holds the block, counted from 0 at the oldest end. -/
def BlockTable.position (t : BlockTable) (b : BlockIx) : Option Nat :=
  match t.capped.idxOf? b with
  | some i => some i
  | none => t.rotation.idxOf? b

/-- 12.4: the reply data of READ_BLOCK. -/
def blockData (t : BlockTable) (b : BlockIx) : List Byte :=
  let r := t.blocks[b]
  [blockByte b] ++ codeByte (some r.state.code) ++ optBytes 2 (r.profile.map (·.rated))
    ++ codeByte (r.profile.map fun p => p.group.val + 1) ++ leBytes 2 r.revision.toNat
    ++ optBytes 4 r.measured ++ optBytes 4 r.available ++ optBytes 2 r.derate ++ optBytes 2 r.cap
    ++ optEpochBytes r.capLabel ++ optEpochBytes r.leaseExpiry ++ flagByte r.owed ++ optEpochBytes r.captureEpoch
    ++ optEpochBytes r.lastRelease ++ optEpochBytes r.heard ++ optEpochBytes r.watch
    ++ codeByte (r.unitMode.map UnitMode.code) ++ leBytes 1 r.nonFollowRun ++ leBytes 1 r.undeliveredRun
    ++ codeByte (r.barCause.map BarCause.code) ++ flagByte r.tripFlag ++ leBytes 2 r.lapseCount
    ++ leBytes 4 r.usable ++ codeByte (t.position b)

/-- READ_BLOCK (R13). -/
def serveReadBlock (block : Byte) (s : State) : Served :=
  match blockOf block with
  | some b => servedWith (blockData s.table b) s
  | none => refuse .badValue s

/-! ## Staged decisions (R14 to R17) -/

/-- R15: the record of a captured block. -/
def BlockRecord.captured (cap : Nat) (e : Epoch) (r : BlockRecord) : BlockRecord :=
  { r with state := .capped, cap := some cap, captureEpoch := some e, nonFollowRun := 0 }.bump

/-- R15: the group capture record of the block's group becomes e. -/
def setGroupCapture (b : BlockIx) (e : Epoch) (s : State) : State :=
  match (s.block b).profile with
  | some p => s.onTable fun t => { t with groupCapture := t.groupCapture.set p.group (some e) }
  | none => s

/-- R15. -/
def takeCapture (b : BlockIx) (cap : Nat) (e : Epoch) (s : State) : State :=
  setGroupCapture b e (modifyBlock b (BlockRecord.captured cap e) s)

/-- R16. -/
def takeCapChange (b : BlockIx) (cap : Nat) (s : State) : State :=
  modifyBlock b (fun r => { r with cap := some cap }.bump) s

/-- R17. -/
def takeRelease (b : BlockIx) (e : Epoch) (s : State) : State :=
  modifyBlock b (fun r => { r with state := .resting, cap := none, captureEpoch := none, lastRelease := some e }.bump) s

/-! ## Reports (R18 to R22) -/

/-- 12.5: a REPORT of nodes 1 to 48. -/
structure BlockReport where
  epoch : Epoch
  measured : Option Nat
  available : Option Nat
  mode : UnitMode
  applied : Option Nat
  leaseLeft : Nat
  deriving DecidableEq, Repr

/-- R18: the update every report makes. -/
def BlockRecord.updated (rep : BlockReport) (now : Epoch) (r : BlockRecord) : BlockRecord :=
  { r with measured := rep.measured.map (min · 65000), available := rep.available.map (min · 65000),
           unitMode := some rep.mode, heard := some now, watch := none }

/-- R18: a report is current if its epoch is at or after the cap label, or if the cap label is absent. -/
def BlockRecord.current (rep : BlockReport) (r : BlockRecord) : Bool :=
  match r.capLabel with
  | some l => atOrAfter rep.epoch l
  | none => true

/-- R19, unit FREE: a silent block is heard again. -/
def BlockRecord.heardFree (r : BlockRecord) : BlockRecord :=
  { r with state := .free }.bump

/-- R19, unit CAPPED: adoption of the cap the unit holds. -/
def BlockRecord.adopted (groups : Vector GroupRecord 8) (rep : BlockReport) (now : Epoch) (r : BlockRecord) : BlockRecord :=
  { r.cappedFrom groups (rep.applied.getD 0) now with leaseExpiry := some (now + BitVec.ofNat 32 rep.leaseLeft) }

/-- R20: the lapse of a CAPPED block. -/
def BlockRecord.lapsed (r : BlockRecord) : BlockRecord :=
  { r with state := .free, cap := none, captureEpoch := none, leaseExpiry := none, owed := false,
           lapseCount := saturate 65535 r.lapseCount }.bump

/-- R20: the lapse of a PINNED block, which stays PINNED at an unchanged revision. -/
def BlockRecord.pinLapsed (r : BlockRecord) : BlockRecord :=
  { r with leaseExpiry := none, owed := true, lapseCount := saturate 65535 r.lapseCount }

/-- R22, R32, R170: the report is judged for compliance if its epoch is at or after the cap label plus the effective group lag;
not while the plant record or the cap label is absent. -/
def BlockRecord.judged (gov : Governor) (rep : BlockReport) (r : BlockRecord) : Bool :=
  match gov.plant, r.capLabel, r.profile with
  | some p, some l, some f =>
    atOrAfter rep.epoch (l + BitVec.ofNat 32 (gov.groups[f.group].lag * p.lagMultiplier))
  | _, _, _ => false

/-- R22: the measured power exceeds the cap by more than the compliance tolerance. -/
def BlockRecord.exceeds (tolerance : Nat) (r : BlockRecord) : Bool :=
  r.measured.getD 0 > r.cap.getD 0 + tolerance

/-- R22: to BARRED for NOFOLLOW, keeping the run that reached the limit. -/
def BlockRecord.barredNoFollow (run : Nat) (r : BlockRecord) : BlockRecord :=
  { r with state := .barred, barCause := some .noFollow, cap := none, captureEpoch := none, owed := true,
           nonFollowRun := run }.bump

/-- R22: the compliance judgement of a CAPPED block; the limit is reached when the run stands at or above it (R40). -/
def judgeCompliance (b : BlockIx) (rep : BlockReport) (s : State) : State :=
  match s.gov.plant with
  | none => s
  | some p =>
    let r := s.block b
    if r.state = .capped ∧ r.judged s.gov rep then
      if r.exceeds p.tolerance then
        if p.nonFollowLimit ≤ r.nonFollowRun + 1 then
          raise .blockNoFollow (modifyBlock b (BlockRecord.barredNoFollow (r.nonFollowRun + 1)) s)
        else modifyBlock b (fun r => { r with nonFollowRun := r.nonFollowRun + 1 }) s
      else modifyBlock b (fun r => { r with nonFollowRun := 0 }) s
    else s

/-- R18 to R22: a current report is taken by the rule of the block's state. A report that adopts a SILENT block (R19) and at a non-follow
limit of 1 bars it at once (R22) is two events of R3, and the revision increases at each (log 27). -/
def currentReport (b : BlockIx) (rep : BlockReport) (s : State) : State :=
  match (s.block b).state, rep.mode with
  | .empty, _ => s
  | .silent, .free => modifyBlock b BlockRecord.heardFree s
  | .silent, .capped => judgeCompliance b rep (modifyBlock b (BlockRecord.adopted s.gov.groups rep s.timer.epoch) s)
  | .capped, .free => raise .blockLapsed (modifyBlock b BlockRecord.lapsed s)
  | .pinned, .free => raise .blockLapsed (modifyBlock b BlockRecord.pinLapsed s)
  | .capped, .capped => judgeCompliance b rep s
  | .pinned, .capped => s
  | .free, .free | .resting, .free | .barred, .free | .out, .free => s
  | .free, .capped | .resting, .capped | .barred, .capped | .out, .capped =>
    raise .strayCap (modifyBlock b (fun r => { r with owed := true }) s)

/-- R18. -/
def blockReport (b : BlockIx) (rep : BlockReport) (s : State) : State :=
  if (s.block b).state = .empty then s
  else
    let s' := modifyBlock b (BlockRecord.updated rep s.timer.epoch) s
    if (s.block b).current rep then currentReport b rep s' else s'

/-! ## Alerts (R23 to R25) -/

/-- R23. -/
def BlockRecord.tripped (r : BlockRecord) : BlockRecord :=
  match r.state with
  | .free | .capped | .resting | .pinned | .silent =>
    { r with state := .out, tripFlag := true, cap := none, captureEpoch := none, owed := r.owed || r.state.holdsCap }.bump
  | .barred | .out => { r with tripFlag := true }
  | .empty => r

/-- R24. -/
def BlockRecord.restored (r : BlockRecord) : BlockRecord :=
  match r.state with
  | .out => { r with state := .free, tripFlag := false }.bump
  | .barred => { r with tripFlag := false }
  | .empty | .silent | .free | .capped | .resting | .pinned => r

/-- R25, R171: 65,535 lifts the derate, and data above it counts as 65,534 kW. -/
def derateLimit (data : Word) : Option Nat :=
  if data.toNat = 65535 then none else some (min data.toNat 65534)

/-- R25: the revision increases only if the limit changed. -/
def BlockRecord.derated (limit : Option Nat) (r : BlockRecord) : BlockRecord :=
  if r.state = .empty then r
  else if r.derate = limit then r
  else { r with derate := limit }.bump

/-- R171: the Block Table effect of an alert of a block node. -/
def blockAlert (b : BlockIx) (cls : AlertClass) (data : Word) (s : State) : State :=
  match cls with
  | .trip => modifyBlock b BlockRecord.tripped s
  | .restore => modifyBlock b BlockRecord.restored s
  | .derate => modifyBlock b (BlockRecord.derated (derateLimit data)) s
  | .note => s

/-! ## The epoch rule (R26) -/

/-- R26: silence applies in FREE, CAPPED, RESTING and PINNED, counted from the heard epoch or else from the watch epoch. -/
def BlockRecord.isSilentAt (e : Epoch) (limit : Nat) (r : BlockRecord) : Bool :=
  match r.state with
  | .free | .capped | .resting | .pinned =>
    match r.heard, r.watch with
    | some h, _ => epochsSince e h > limit
    | none, some w => epochsSince e w > limit
    | none, none => false
  | .empty | .silent | .barred | .out => false

/-- R26: the record of a block found silent. -/
def BlockRecord.silenced (r : BlockRecord) : BlockRecord :=
  { r with state := .silent, cap := none, captureEpoch := none, leaseExpiry := none, owed := false, nonFollowRun := 0 }.bump

/-- R26: the silence check of one record, and the watch epoch of a record not yet heard. -/
def silenceCheck (e : Epoch) (limit : Nat) (s : State) (b : BlockIx) : State :=
  let r := s.block b
  if r.isSilentAt e limit then raise .blockSilent (modifyBlock b BlockRecord.silenced s)
  else if r.state ≠ .empty ∧ r.heard = none ∧ r.watch = none then modifyBlock b (fun r => { r with watch := some e }) s
  else s

/-- R26: a RESTING block has served its group's committed rest. -/
def BlockRecord.restServed (e : Epoch) (groups : Vector GroupRecord 8) (r : BlockRecord) : Bool :=
  match r.state, r.lastRelease, r.profile with
  | .resting, some l, some p => epochsSince e l ≥ groups[p.group].rest
  | _, _, _ => false

def restCheck (e : Epoch) (s : State) (b : BlockIx) : State :=
  if (s.block b).restServed e s.gov.groups then modifyBlock b (fun r => { r with state := .free }.bump) s else s

/-- R26: every record is checked for silence and then for rest expiry, in ascending block ID. -/
def blockEpochRule (e : Epoch) (s : State) : State :=
  match s.gov.plant with
  | none => s
  | some p => allBlocks.foldl (restCheck e) (allBlocks.foldl (silenceCheck e p.silenceLimit) s)

/-! ## STOP, START and adoption (R27 to R29) -/

/-- R27: a CAPPED or RESTING block passes to FREE. -/
def freeForStop (s : State) (b : BlockIx) : State :=
  modifyBlock b (fun r => { r with state := .free, cap := none, captureEpoch := none }.bump) s

/-- R27: first the CAPPED blocks in capped-list order, then the RESTING blocks in ascending block ID. -/
def stopBlocks (s : State) : State :=
  let resting := allBlocks.filter fun b => (s.block b).state == .resting
  resting.foldl freeForStop (s.table.capped.foldl freeForStop s)

/-- R28: a record prepared for the new epoch numbering. -/
def BlockRecord.renumbered (r : BlockRecord) : BlockRecord :=
  if r.state = .empty then r
  else
    { r with heard := none, watch := none, capLabel := none, leaseExpiry := none, lastRelease := none,
             captureEpoch := if r.state = .capped then some 0 else r.captureEpoch, owed := r.owed || r.state.holdsCap }

/-- R28, R15: every record, and every group capture record becomes absent. -/
def startBlocks (s : State) : State :=
  (allBlocks.foldl (fun s b => modifyBlock b BlockRecord.renumbered s) s).onTable fun t =>
    { t with groupCapture := Vector.replicate 8 none }

/-- R29: a CAPPED block whose cap is below its floor has its cap raised to the floor and is owed. -/
def BlockRecord.floorRaised (groups : Vector GroupRecord 8) (r : BlockRecord) : BlockRecord :=
  if r.state = .capped ∧ r.cap.getD 0 < r.floor groups then
    { r with cap := some (r.floor groups), owed := true }.bump
  else r

def raiseFloors (s : State) : State :=
  allBlocks.foldl (fun s b => modifyBlock b (BlockRecord.floorRaised s.gov.groups) s) s

/-! ## The rows -/

def execEnroll (tag block : Byte) (rated : Half) (group : Byte) (s : State) : Result :=
  execRequest 0x01 tag (serveEnroll block rated group) s

def execProfile (tag block : Byte) (rated : Half) (group : Byte) (s : State) : Result :=
  execRequest 0x02 tag (serveProfile block rated group) s

def execWithdraw (tag block : Byte) (s : State) : Result :=
  execRequest 0x03 tag (serveWithdraw block) s

def execPin (tag block : Byte) (cap : Half) (s : State) : Result :=
  execRequest 0x04 tag (servePin block cap) s

def execUnpin (tag block : Byte) (s : State) : Result :=
  execRequest 0x05 tag (serveUnpin block) s

def execBar (tag block : Byte) (s : State) : Result :=
  execRequest 0x06 tag (serveBar block) s

def execUnbar (tag block : Byte) (s : State) : Result :=
  execRequest 0x07 tag (serveUnbar block) s

def execReadBlock (tag block : Byte) (s : State) : Result :=
  execRequest 0x08 tag (serveReadBlock block) s

end Sys2Proof.Machine
end

