-- ==== Sys2Proof/Machine/Alerts.lean ====
section
/-! DEFINITION. Alerts (spec/10_caps_leases_and_field_reports.md, 10.5): the intake, the four queues with their levels, and the three
requests on them. -/

namespace Sys2Proof.Machine

/-! ## The queues (R172, R173) -/

def AlertQueues.get (q : AlertQueues) : AlertClass → AlertQueue
  | .trip => q.trip
  | .derate => q.derate
  | .restore => q.restore
  | .note => q.note

def AlertQueues.set (c : AlertClass) (x : AlertQueue) (q : AlertQueues) : AlertQueues :=
  match c with
  | .trip => { q with trip := x }
  | .derate => { q with derate := x }
  | .restore => { q with restore := x }
  | .note => { q with note := x }

/-- R172: entries a queue holds at most. -/
def alertCapacity : Nat := 32

/-- R173: the level of a class follows its queue. -/
def followLevel (c : AlertClass) (s : State) : State :=
  if (s.alerts.get c).entries.isEmpty then dropLevel c.level s else raise c.level s

/-- Every change to an alert queue goes through here, its level following (R173). -/
def putAlerts (c : AlertClass) (q : AlertQueue) (s : State) : State :=
  followLevel c (s.onAlerts (AlertQueues.set c q))

/-- R172: an entry is appended, or lost to a full queue. -/
def storeAlert (a : AlertEntry) (s : State) : State :=
  let q := s.alerts.get a.cls
  if q.entries.length < alertCapacity then putAlerts a.cls { q with entries := q.entries ++ [a] } s
  else raise .alertOverflow (putAlerts a.cls { q with overflow := saturate 255 q.overflow } s)

/-- A block node's index, for nodes 1 to 48. -/
def blockOfNode (node : Nat) : Option BlockIx :=
  if h : 1 ≤ node ∧ node ≤ 48 then some ⟨node - 1, by omega⟩ else none

/-- R171: the intake of one alert. -/
def alertIntake (node : Nat) (cls : AlertClass) (data : Word) (s : State) : State :=
  let s' := match blockOfNode node with
    | some b => blockAlert b cls data s
    | none => s
  storeAlert { node, cls, data, arrival := s.timer.epoch } s'

/-- R172: a queue is emptied, its overflow count kept. -/
def emptyAlerts (s : State) (c : AlertClass) : State :=
  putAlerts c { s.alerts.get c with entries := [] } s

/-- R150, R172: LOAD_RING empties all four queues. -/
def emptyAllAlerts (s : State) : State :=
  [AlertClass.trip, .derate, .restore, .note].foldl emptyAlerts s

/-! ## Requests (R174 to R176) -/

/-- 12.4: the reply data of ALERT_TAKE and ALERT_PEEK. -/
def alertData (a : AlertEntry) (q : AlertQueue) : List Byte :=
  leBytes 1 a.node ++ codeByte (some a.cls.code) ++ leBytes 4 a.data.toNat ++ epochBytes a.arrival
    ++ leBytes 1 q.entries.length ++ leBytes 1 q.overflow

/-- ALERT_TAKE (R174). -/
def serveAlertTake (cls : Byte) (s : State) : Served :=
  match AlertClass.ofCode cls with
  | none => refuse .badValue s
  | some c =>
    match (s.alerts.get c).entries with
    | [] => refuse .empty s
    | a :: rest =>
      let q := { s.alerts.get c with entries := rest }
      servedWith (alertData a q) (putAlerts c q s)

/-- ALERT_PEEK (R175). -/
def serveAlertPeek (cls index : Byte) (s : State) : Served :=
  match AlertClass.ofCode cls with
  | none => refuse .badValue s
  | some c =>
    if 31 < index.toNat then refuse .badValue s
    else
      let q := s.alerts.get c
      if q.entries.isEmpty then refuse .empty s
      else
        match q.entries[index.toNat]? with
        | some a => servedWith (alertData a q) s
        | none => refuse .notFound s

/-- ALERT_FLUSH (R176). -/
def serveAlertFlush (cls : Byte) (s : State) : Served :=
  match AlertClass.ofCode cls with
  | none => refuse .badValue s
  | some c => served (putAlerts c { entries := [], overflow := 0 } s)

/-! ## The rows -/

def execAlertTake (tag cls : Byte) (s : State) : Result :=
  execRequest 0x1D tag (serveAlertTake cls) s

def execAlertPeek (tag cls index : Byte) (s : State) : Result :=
  execRequest 0x1E tag (serveAlertPeek cls index) s

def execAlertFlush (tag cls : Byte) (s : State) : Result :=
  execRequest 0x1F tag (serveAlertFlush cls) s

end Sys2Proof.Machine
end

