-- ==== Sys2Proof/Machine/Completion.lean ====
section
/-! DEFINITION. The end of a dispatch (spec/07_the_dispatch.md, 7.1, 7.9, 7.10): completion with its plant status record, the cut
by a FREEZE, the end by the ring leaving UP, the overrun and the abandonment by STOP. -/

namespace Sys2Proof.Machine

def noCounts : StagedCounts :=
  { captures := 0, capChanges := 0, releases := 0, storeStaged := false, stale := 0 }

/-- R129: the phase becomes IDLE, with it the dispatch epoch, snapshot and decision list absent, and the plant status record is
replaced whole. -/
def completeDispatch (st : PlantStatus) (s : State) : State :=
  s.onGov fun g => { g with phase := .idle, status := some st }

/-- R129: the record of a dispatch that ends in STAGING with these decisions unstaged. -/
def stagingStatus (outcome : Outcome) (o : Opened) (supply : SupplyFigures) (plan : PlanFigures) (todo : List Decision)
    (counts : StagedCounts) : PlantStatus :=
  { epoch := o.epoch, outcome, sample := o.sample, supply := some supply, plan := some plan, hold := o.snapshot.hold,
    counts, discarded := todo.length }

/-- R127, R129: the record of a dispatch cut during COMPUTING: its sample, band and hold, and nothing staged or discarded. -/
def cutComputingStatus (o : Opened) : PlantStatus :=
  { epoch := o.epoch, outcome := .cut, sample := o.sample, supply := none, plan := none, hold := o.snapshot.hold,
    counts := noCounts, discarded := 0 }

/-- R127: a FREEZE hold taken while the dispatch is in flight completes it at once with outcome CUT. -/
def cutDispatch (s : State) : State :=
  match s.gov.phase with
  | .idle => s
  | .computing o => completeDispatch (cutComputingStatus o) s
  | .staging o supply plan todo counts => completeDispatch (stagingStatus .cut o supply plan todo counts) s

/-- R126: the ring leaves UP while the dispatch is STAGING, which completes at once with outcome RING_DOWN. -/
def ringDownDispatch (s : State) : State :=
  match s.gov.phase with
  | .staging o supply plan todo counts => completeDispatch (stagingStatus .ringDown o supply plan todo counts) s
  | .idle | .computing _ => s

/-- R107: an epoch meets a dispatch in flight: it ends unrecorded, is counted and DISPATCH_OVERRUN is raised. -/
def overrunDispatch (s : State) : State :=
  match s.gov.phase with
  | .idle => s
  | .computing _ | .staging .. =>
    raise .dispatchOverrun (s.onGov fun g => { g with phase := .idle, overruns := saturate max32 g.overruns })

/-- R128: STOP ends a dispatch in flight; no plant status is recorded and nothing is counted. -/
def abandonDispatch (s : State) : State :=
  s.onGov fun g => { g with phase := .idle }

end Sys2Proof.Machine
end

