-- ==== Sys2Proof/Machine/Holds.lean ====
section
/-! DEFINITION. The hold lines (spec/03_epochs_run_control_and_hold_lines.md, R52 to R56): lines in force, the hold in force, latches
being set and cleared, the Run Control epoch rule, CLEAR_HOLD and the two line events. -/

namespace Sys2Proof.Machine

/-! ## Lines and the hold in force (R52, R53) -/

def RunControl.line (c : RunControl) : HoldLine → HoldState
  | .a => c.lineA
  | .b => c.lineB

def RunControl.setLine (line : HoldLine) (h : HoldState) (c : RunControl) : RunControl :=
  match line with
  | .a => { c with lineA := h }
  | .b => { c with lineB := h }

def PlantRecord.line (p : PlantRecord) : HoldLine → HoldConfig
  | .a => p.lineA
  | .b => p.lineB

/-- R52: a line is enabled when the committed plant record is present and its hold configuration has enabled set. -/
def lineEnabled (plant : Option PlantRecord) (line : HoldLine) : Bool :=
  match plant with
  | some p => (p.line line).enabled
  | none => false

/-- R53: the configuration of a line in force, that is, enabled with its latch set. -/
def lineInForce (plant : Option PlantRecord) (run : RunControl) (line : HoldLine) : Option HoldConfig :=
  match plant with
  | some p => if (p.line line).enabled && (run.line line).latch then some (p.line line) else none
  | none => none

/-- R53: what one line in force asks for. -/
def HoldConfig.hold (c : HoldConfig) : Hold :=
  match c.action with
  | .freeze => .freeze
  | .ceiling => .ceiling c.ceiling

/-- R53: a FREEZE line prevails over any CEILING line, and two CEILING lines hold under the lower ceiling. -/
def Hold.combine : Hold → Hold → Hold
  | .freeze, _ => .freeze
  | _, .freeze => .freeze
  | .none, h => h
  | h, .none => h
  | .ceiling a, .ceiling b => .ceiling (min a b)

/-- R53: the hold in force that Run Control supplies. -/
def holdInForce (plant : Option PlantRecord) (run : RunControl) : Hold :=
  let ask (line : HoldLine) := match lineInForce plant run line with
    | some c => c.hold
    | none => Hold.none
  (ask .a).combine (ask .b)

def State.hold (s : State) : Hold :=
  holdInForce s.gov.plant s.run

def RunControl.anyLatch (c : RunControl) : Bool :=
  c.lineA.latch || c.lineB.latch

/-! ## Latches (R52, R53, R56) -/

/-- R53: a latch set in RUNNING moves the run state to HOLDING and raises HOLD_BEGUN; in any other state the state is unchanged. -/
def beginHold (s : State) : State :=
  if s.run.state = .running then raise .holdBegun (s.onRun fun c => { c with state := .holding }) else s

/-- R56, R127: when the hold action becomes FREEZE, a dispatch in flight is cut. -/
def cutIfFreezeBegan (before : Hold) (s : State) : State :=
  if before ≠ .freeze ∧ s.hold = .freeze then cutDispatch s else s

/-- R52, R53: the latch of a line is set; a latch already set is left as it is. -/
def setLatch (line : HoldLine) (s : State) : State :=
  if (s.run.line line).latch then s
  else
    cutIfFreezeBegan s.hold
      (beginHold (s.onRun fun c => c.setLine line { c.line line with latch := true }))

def clearLatch (line : HoldLine) (s : State) : State :=
  s.onRun fun c => c.setLine line { c.line line with latch := false }

/-! ## Events and requests -/

/-- R52: a line comes to be seen asserted, and sets its latch if it is enabled. -/
def seeAsserted (line : HoldLine) (s : State) : State :=
  if (s.run.line line).seen = some .asserted then s
  else
    let s' := s.onRun fun c => c.setLine line { c.line line with seen := some .asserted }
    if lineEnabled s.gov.plant line then setLatch line s' else s'

/-- R52: a line comes to be seen inactive, which does not by itself clear its latch. -/
def seeInactive (line : HoldLine) (s : State) : State :=
  s.onRun fun c => c.setLine line { c.line line with seen := some .inactive }

/-- R54, first: the latch of an EPOCH-mode line in force that is seen inactive is cleared. -/
def releaseEpochLine (s : State) (line : HoldLine) : State :=
  match lineInForce s.gov.plant s.run line with
  | some c => if c.mode = .epoch ∧ (s.run.line line).seen = some .inactive then clearLatch line s else s
  | none => s

/-- R54, second: a HOLDING part with no latch set passes to RUNNING, and HOLD_ENDED is raised. -/
def endHold (s : State) : State :=
  if s.run.state = .holding ∧ s.run.anyLatch = false then
    raise .holdEnded (s.onRun fun c => { c with state := .running })
  else s

/-- R54: the Run Control epoch rule. -/
def runControlEpochRule (s : State) : State :=
  endHold (releaseEpochLine (releaseEpochLine s .a) .b)

/-- R40, R52: at an adoption, a line that is disabled has its latch cleared, and a line newly enabled that is seen asserted has its
latch set. `before` is the committed plant record before the adoption. -/
def adoptLine (before : Option PlantRecord) (s : State) (line : HoldLine) : State :=
  match lineEnabled before line, lineEnabled s.gov.plant line with
  | true, false => clearLatch line s
  | false, true => if (s.run.line line).seen = some .asserted then setLatch line s else s
  | true, true | false, false => s

/-- CLEAR_HOLD (R55). -/
def serveClearHold (line : Byte) (s : State) : Served :=
  match HoldLine.ofCode line with
  | some l =>
    if (s.run.line l).seen = some .asserted then refuse .lineActive s else served (clearLatch l s)
  | none => refuse .badValue s

def execClearHold (tag line : Byte) (s : State) : Result :=
  execRequest 0x0F tag (serveClearHold line) s

def execHoldLineAsserted (line : HoldLine) (s : State) : Result :=
  execEvent (seeAsserted line) s

def execHoldLineInactive (line : HoldLine) (s : State) : Result :=
  execEvent (seeInactive line) s

end Sys2Proof.Machine
end

