-- ==== Sys2Proof/Machine/Settings.lean ====
section
/-! DEFINITION. Group table and plant settings (spec/02_group_table_and_plant_settings.md): staging, adoption with its effects on
other blocks, and READ_SETTINGS. -/

namespace Sys2Proof.Machine

/-! ## Staging (R35 to R38) -/

/-- SET_PLANT (R36, R38). -/
def serveSetPlant (body : PlantBody) (s : State) : Served :=
  match checkPlant body with
  | some p => served (s.onStore fun st => { st with plant := some p, configured := true })
  | none => refuse .badValue s

/-- SET_GROUP (R37). -/
def serveSetGroup (group : Byte) (body : GroupBody) (s : State) : Served :=
  match groupOf group, checkGroup body with
  | some g, some r => served (s.onStore fun st => { st with groups := st.groups.set g (some r) })
  | _, _ => refuse .badValue s

/-- R35: a record is staged. -/
def SettingsStore.anyStaged (st : SettingsStore) : Bool :=
  st.plant.isSome || st.groups.toList.any Option.isSome

/-! ## Adoption (R39, R40, R99) -/

/-- R99: the oldest samples are dropped until the window holds at most W. -/
def newestSamples (w : Nat) (window : List Nat) : List Nat :=
  window.drop (window.length - w)

def windowFor (plant : Option PlantRecord) (window : List Nat) : List Nat :=
  match plant with
  | some p => newestSamples p.windowLength window
  | none => window

/-- R39: each staged record present replaces the committed one whole. The window is shortened with the adoption (R40, R99). -/
def commitStaged (st : SettingsStore) (g : Governor) : Governor :=
  let plant := st.plant.or g.plant
  { g with plant, groups := Vector.ofFn fun i => (st.groups[i]).getD g.groups[i], window := windowFor plant g.window }

def emptyStaged (st : SettingsStore) : SettingsStore :=
  { st with plant := none, groups := Vector.replicate 8 none }

/-- R39, R40: adoption, one whole; one that finds nothing staged changes nothing. -/
def adopt (s : State) : State :=
  if s.store.anyStaged then
    let before := s.gov.plant
    let s' := (s.onGov (commitStaged s.store)).onStore emptyStaged
    adoptLine before (adoptLine before (raiseFloors s') .a) .b
  else s

/-! ## Reading (R42) -/

def holdConfigBytes (h : HoldConfig) : List Byte :=
  flagByte h.enabled ++ codeByte (some h.mode.code) ++ codeByte (some h.action.code) ++ leBytes 4 h.ceiling

/-- 12.2: the plant record, 40 bytes, absent while no plant record is committed. -/
def plantRecordBytes : Option PlantRecord → List Byte
  | some p =>
    leBytes 2 p.stepUp ++ leBytes 2 p.stepDown ++ leBytes 2 p.windowLength ++ leBytes 4 p.windowUp
      ++ leBytes 4 p.windowDown ++ leBytes 2 p.tolerance ++ leBytes 1 p.nonFollowLimit ++ leBytes 1 p.silenceLimit
      ++ leBytes 2 p.leaseLength ++ leBytes 1 p.lagMultiplier ++ flagByte p.absorb ++ leBytes 2 p.reserveFloor
      ++ leBytes 2 p.reserveCeiling ++ holdConfigBytes p.lineA ++ holdConfigBytes p.lineB
  | none => absentBytes 40

def groupRecordBytes (g : GroupRecord) : List Byte :=
  leBytes 1 g.lag ++ leBytes 1 g.floorPercent ++ leBytes 2 g.minCapped ++ leBytes 2 g.maxCapped ++ leBytes 2 g.rest
    ++ leBytes 1 g.spacing

/-- R35, 12.4: the staged-pending marker, bit 0 for the plant record and bit n for group n. -/
def stagedMarker (st : SettingsStore) : Nat :=
  (if st.plant.isSome then 1 else 0)
    + ((List.finRange 8).map fun g => if st.groups[g].isSome then 2 ^ (g.val + 1) else 0).sum

/-- 12.4: the reply data of READ_SETTINGS. -/
def settingsData (g : Governor) (st : SettingsStore) : List Byte :=
  plantRecordBytes g.plant ++ g.groups.toList.flatMap groupRecordBytes ++ flagByte st.configured
    ++ leBytes 2 (stagedMarker st)

/-- READ_SETTINGS (R42). -/
def serveReadSettings (s : State) : Served :=
  servedWith (settingsData s.gov s.store) s

/-! ## The rows -/

def execSetPlant (tag : Byte) (body : PlantBody) (s : State) : Result :=
  execRequest 0x09 tag (serveSetPlant body) s

def execSetGroup (tag group : Byte) (body : GroupBody) (s : State) : Result :=
  execRequest 0x0A tag (serveSetGroup group body) s

def execReadSettings (tag : Byte) (s : State) : Result :=
  execRequest 0x0B tag serveReadSettings s

end Sys2Proof.Machine
end

