-- ==== Sys2Proof/Machine/Window.lean ====
section
/-! DEFINITION. Ramp window and target band (spec/06_ramp_window_and_target_band.md): the sample with its free value, the sample
source, the window, the breach check and the band. -/

namespace Sys2Proof.Machine

/-! ## The sample (R95, R96) -/

/-- R95, R111: a node counts as heard if its heard epoch is present and lies at most the silence limit back. -/
def countsAsHeard (e : Epoch) (limit : Nat) (heard : Option Epoch) : Bool :=
  match heard with
  | some h => epochsSince e h ≤ limit
  | none => false

/-- R95, first term of the fallback: the measured value of every record that is not EMPTY, absent counting 0. -/
def measuredSum (t : BlockTable) : Nat :=
  (allBlocks.map fun b => if t.blocks[b].state = .empty then 0 else t.blocks[b].measured.getD 0).sum

/-- R95, second term of the fallback. A heard storage whose measured power is absent gives a free value within the record's range
(log 11). -/
def storageTerm (e : Epoch) (limit : Nat) (s : State) : Int :=
  if countsAsHeard e limit s.nodes.storage.heard then
    match s.nodes.storage.measured with
    | some x => x
    | none => clampInt (-3000000) 3000000 (Config.absentStorageTerm s.freeCount).toInt
  else 0

/-- R95: the fallback sample; a negative sum counts as 0. -/
def fallbackSample (e : Epoch) (limit : Nat) (s : State) : Nat :=
  ((measuredSum s.table : Int) + storageTerm e limit s).toNat

/-- A sample from the meter whose export is absent is a free value (log 11). -/
def meterSample (s : State) : Nat :=
  match s.nodes.meter.exported with
  | some x => x.toNat
  | none => (Config.absentExportSample s.freeCount).toNat

/-- R95: the sample P, and whether it is from the meter. -/
def formSample (e : Epoch) (limit : Nat) (s : State) : Nat × Bool :=
  if countsAsHeard e limit s.nodes.meter.heard then (meterSample s, true) else (fallbackSample e limit s, false)

/-- The sample is formed with a free value (log 11). -/
def drawsFree (e : Epoch) (limit : Nat) (s : State) : Bool :=
  if countsAsHeard e limit s.nodes.meter.heard then s.nodes.meter.exported.isNone
  else countsAsHeard e limit s.nodes.storage.heard && s.nodes.storage.measured.isNone

def countFree (draws : Bool) (s : State) : State :=
  if draws then { s with freeCount := s.freeCount + 1 } else s

/-- R96: the sample source after a sample. -/
def nextSource (e : Epoch) (limit : Nat) (fromMeter : Bool) (before : SampleSource) : SampleSource :=
  match before, fromMeter with
  | _, true => .meter
  | .waiting, false => if e.toNat ≤ limit then .waiting else .fallback
  | .meter, false | .fallback, false => .fallback

/-- R96: METER_SILENT is raised at each move into FALLBACK. -/
def moveSource (src : SampleSource) (s : State) : State :=
  raiseIf (src == .fallback && s.gov.source != .fallback) .meterSilent (s.onGov fun g => { g with source := src })

/-! ## Window, breach and band (R98 to R102) -/

/-- R98. -/
def appendSample (w sample : Nat) (window : List Nat) : List Nat :=
  newestSamples w (window ++ [sample])

def windowMax (sample : Nat) (window : List Nat) : Nat :=
  window.foldl max sample

def windowMin (sample : Nat) (window : List Nat) : Nat :=
  window.foldl min sample

/-- R102: the sample is compared with the last band. -/
def checkBreach (sample : Nat) (s : State) : State :=
  match s.gov.lastBand with
  | none => s
  | some band =>
    if sample < band.low then
      raise .bandBreach (s.onGov fun g => { g with downBreaches := saturate max32 g.downBreaches })
    else if band.high < sample then
      raise .bandBreach (s.onGov fun g => { g with upBreaches := saturate max32 g.upBreaches })
    else s

/-- R100, R101: differences below 0 count as 0, and an inverted band becomes (P, P). -/
def bandOf (p : PlantRecord) (sample wmax wmin : Nat) : Band :=
  let low := max (sample - p.stepDown) (wmax - p.windowDown)
  let high := min (sample + p.stepUp) (wmin + p.windowUp)
  if low ≤ high then { low, high } else { low := sample, high := sample }

/-- The sample and band stage of dispatch e (R95 to R103): the state after it, and the six items it hands on. -/
def sampleAndBand (e : Epoch) (p : PlantRecord) (s : State) : State × SampleBand :=
  let (sample, fromMeter) := formSample e p.silenceLimit s
  let source := nextSource e p.silenceLimit fromMeter s.gov.source
  let window := appendSample p.windowLength sample s.gov.window
  let wmax := windowMax sample window
  let wmin := windowMin sample window
  let band := bandOf p sample wmax wmin
  let s' := checkBreach sample (moveSource source (countFree (drawsFree e p.silenceLimit s) s))
  (s'.onGov fun g => { g with window, lastBand := some band },
    { sample, source, count := window.length, wmax, wmin, band })

end Sys2Proof.Machine
end

