-- ==== Sys2Proof/Machine/Planning.lean ====
section
/-! DEFINITION. What a dispatch computes on its snapshot alone (spec/07_the_dispatch.md, 7.3 to 7.7): supply, glide ceiling, target,
storage split, allocation and the decision list. -/

namespace Sys2Proof.Machine

/-! ## Supply (R110) -/

/-- R110: the contribution of a block to the controllable supply. -/
def controllableOf (b : SnapBlock) : Nat :=
  match b.state with
  | .free | .capped | .resting => b.usable
  | .pinned | .barred | .silent | .out | .empty => 0

/-- R110: the contribution of a block to the fixed supply. -/
def fixedOf (b : SnapBlock) : Nat :=
  match b.state with
  | .pinned => min (b.cap.getD 0) b.usable
  | .barred | .silent => b.measured
  | .free | .capped | .resting | .out | .empty => 0

def contributionOf (b : SnapBlock) : Nat :=
  controllableOf b + fixedOf b

/-! ## The glide ceiling (R112, R113) -/

/-- R112: the arrival of a block, as its distance from e, and its loss. -/
structure Shadow where
  distance : Nat
  loss : Nat
  deriving DecidableEq, Repr

/-- The arrivals later than e that a warning gives for block `b`, each with the warning's depth. -/
def laterArrivals (e : Epoch) (b : BlockIx) (w : Warning) : List (Nat × Nat) :=
  (w.arrivals.filter fun a => a.1 == b && laterThan a.2 e).map fun a => (epochsSince a.2 e, w.depth)

/-- R112: the earliest arrival and the deepest depth, even where these come from different warnings. -/
def shadowOf (e : Epoch) (warnings : List Warning) (b : SnapBlock) : Option Shadow :=
  if contributionOf b = 0 then none
  else
    match warnings.flatMap (laterArrivals e b.id) with
    | [] => none
    | (dist, depth) :: rest =>
      some { distance := rest.foldl (fun m a => min m a.1) dist,
             loss := contributionOf b * rest.foldl (fun m a => max m a.2) depth / 256 }

/-- R113: the sum of the losses of every block whose arrival is at this distance or nearer. -/
def lossWithin (distance : Nat) (shadows : List Shadow) : Nat :=
  ((shadows.filter fun x => x.distance ≤ distance).map (·.loss)).sum

/-- R113: the least ceiling over the arrivals, absent when there is none. -/
def glideCeiling (available sDis stepDown : Nat) (shadows : List Shadow) : Option Nat :=
  (shadows.map fun x => available - lossWithin x.distance shadows + sDis + x.distance * stepDown).min?

/-! ## The target (R114, R115) -/

structure Target where
  target : Nat
  path : TargetPath
  deriving DecidableEq, Repr

/-- R114: the target without a hold; `most` is Pa + S_dis. -/
def targetOf (band : Band) (most : Nat) (glide : Option Nat) : Target :=
  let t0 := min band.high most
  let t1 := min t0 (glide.getD t0)
  if band.low ≤ t1 then { target := t1, path := .within }
  else if most < band.low then { target := most, path := .short }
  else { target := band.low, path := .late }

/-- R115: the target becomes the lesser of itself and a CEILING hold's value. -/
def Target.under (hold : Hold) (t : Target) : Target :=
  match hold with
  | .ceiling c => { t with target := min t.target c }
  | .none | .freeze => t

/-! ## The storage split (R117) -/

structure Split where
  command : Int
  curtailment : Nat
  deriving DecidableEq, Repr

def splitOf (absorb : Bool) (target available sChg : Nat) : Split :=
  if available ≤ target then { command := (target - available : Nat), curtailment := 0 }
  else
    let excess := available - target
    let charge := if absorb then min excess sChg else 0
    { command := -(charge : Int), curtailment := excess - charge }

/-! ## Allocation (R118 to R122) -/

/-- 7.7: the larger of 0 and usable available less floor. -/
def SnapBlock.capacity (b : SnapBlock) : Nat :=
  b.usable - b.floor

def capacitySum (k : List SnapBlock) : Nat :=
  (k.map SnapBlock.capacity).sum

def Snapshot.find (sn : Snapshot) (b : BlockIx) : Option SnapBlock :=
  sn.blocks.find? fun x => x.id == b

/-- The committed record of a block's group. -/
def Snapshot.groupOf (sn : Snapshot) (b : SnapBlock) : GroupRecord :=
  sn.groups[b.profile.group]

/-- At least `n` epochs lie between a recorded epoch and e; an absent epoch does not count. -/
def agedAtLeast (e : Epoch) (n : Nat) (since : Option Epoch) : Bool :=
  match since with
  | some x => n ≤ epochsSince e x
  | none => false

/-- A recorded epoch is absent or lies at least `n` epochs back. -/
def clearFor (e : Epoch) (n : Nat) (last : Option Epoch) : Bool :=
  last.isNone || agedAtLeast e n last

/-- R118: a block of a group with a maximum capped, which it has reached. -/
def forcedOut (e : Epoch) (sn : Snapshot) (b : SnapBlock) : Bool :=
  (sn.groupOf b).maxCapped != 0 && agedAtLeast e (sn.groupOf b).maxCapped b.captureEpoch

/-- R119: the tests of a capture, given the groups already captured in this dispatch. -/
def capturable (e : Epoch) (sn : Snapshot) (taken : List GroupIx) (b : SnapBlock) : Bool :=
  !taken.contains b.profile.group && clearFor e (sn.groupOf b).spacing sn.groupCapture[b.profile.group]
    && clearFor e (sn.groupOf b).rest b.lastRelease && decide (0 < b.capacity)

/-- R119: the walk of the rotation queue, which stops when the capacity sum is at least C. -/
def captureWalk (e : Epoch) (sn : Snapshot) (c : Nat) : Nat → List GroupIx → List SnapBlock → List SnapBlock
  | _, _, [] => []
  | sum, taken, b :: rest =>
    if c ≤ sum then []
    else if capturable e sn taken b then
      b :: captureWalk e sn c (sum + b.capacity) (b.profile.group :: taken) rest
    else captureWalk e sn c sum taken rest

/-- R120: the blocks kept and the blocks marked for a voluntary release, each in the order of the walk. -/
def releaseWalk (e : Epoch) (sn : Snapshot) (c : Nat) : Nat → List SnapBlock → List SnapBlock × List SnapBlock
  | _, [] => ([], [])
  | sum, b :: rest =>
    if agedAtLeast e (sn.groupOf b).minCapped b.captureEpoch && decide (c ≤ sum - b.capacity) then
      let r := releaseWalk e sn c (sum - b.capacity) rest
      (r.1, b :: r.2)
    else
      let r := releaseWalk e sn c sum rest
      (b :: r.1, r.2)

/-- The set K in its order, and the blocks marked for release in theirs. -/
structure Allocation where
  members : List SnapBlock
  released : List SnapBlock
  deriving DecidableEq, Repr

/-- R118 to R120: forced releases, then captures while S is less than C, or else voluntary releases. -/
def allocate (e : Epoch) (sn : Snapshot) (c : Nat) : Allocation :=
  let capped := sn.capped.filterMap sn.find
  let forced := capped.filter (forcedOut e sn)
  let kept := capped.filter fun b => !forcedOut e sn b
  if capacitySum kept < c then
    { members := kept ++ captureWalk e sn c (capacitySum kept) [] (sn.rotation.filterMap sn.find), released := forced }
  else
    let r := releaseWalk e sn c (capacitySum kept) kept
    { members := r.1, released := forced ++ r.2 }

/-- R121, step 3: the remainder is handed out 1 kW at a time, in K order, passing over a block whose share is its capacity. -/
def handOut : Nat → List (SnapBlock × Nat) → List (SnapBlock × Nat)
  | 0, l => l
  | _, [] => []
  | r + 1, (b, share) :: rest =>
    if share < b.capacity then (b, share + 1) :: handOut r rest else (b, share) :: handOut (r + 1) rest

/-- R121, steps 1 and 2. -/
def firstShares (placed : Nat) (k : List SnapBlock) : List (SnapBlock × Nat) :=
  k.map fun b => (b, if capacitySum k = 0 then 0 else placed * b.capacity / capacitySum k)

/-- R121: every member of K with its share of C'. -/
def sharesOf (placed : Nat) (k : List SnapBlock) : List (SnapBlock × Nat) :=
  let first := firstShares placed k
  handOut (placed - (first.map (·.2)).sum) first

/-- R122. -/
def newCap (b : SnapBlock) (share : Nat) : Nat :=
  max b.floor (b.usable - share)

/-- R122: a capture for a member that was not CAPPED in the snapshot. -/
def captureDecision (m : SnapBlock × Nat) : Option Decision :=
  if m.1.state = .capped then none else some (.capture m.1.id (newCap m.1 m.2) m.1.revision)

/-- R122: a cap change for a member that was CAPPED and whose new cap compares with its snapshot cap as `moved` says. -/
def changeDecision (moved : Nat → Nat → Bool) (m : SnapBlock × Nat) : Option Decision :=
  if m.1.state = .capped ∧ moved (newCap m.1 m.2) (m.1.cap.getD 0) = true then
    some (.capChange m.1.id (newCap m.1 m.2) m.1.revision)
  else none

/-- R123: the STORE is staged if the command differs from the commanded power of the snapshot, or the storage is owed there. -/
def storeDecision (sn : Snapshot) (command : Int) : List Decision :=
  if command ≠ sn.commanded ∨ sn.storageOwed then [.store command] else []

/-- R122, R123: STORE, captures, lowered caps, raised caps, releases. -/
def decisionList (sn : Snapshot) (command : Int) (shares : List (SnapBlock × Nat)) (released : List SnapBlock) :
    List Decision :=
  storeDecision sn command ++ shares.filterMap captureDecision
    ++ shares.filterMap (changeDecision fun new old => new < old)
    ++ shares.filterMap (changeDecision fun new old => old < new)
    ++ released.map fun b => .release b.id b.revision

/-! ## The whole computation -/

/-- The supply and glide ceiling stages, with the target left at `target`. -/
def supplyFigures (p : PlantRecord) (o : Opened) (target : Nat) : SupplyFigures :=
  let sn := o.snapshot
  let controllable := (sn.blocks.map controllableOf).sum
  let fixed := (sn.blocks.map fixedOf).sum
  { controllable, fixed, available := controllable + fixed, sDis := sn.sDis, sChg := sn.sChg,
    glide := glideCeiling (controllable + fixed) sn.sDis p.stepDown (sn.blocks.filterMap (shadowOf o.epoch sn.warnings)),
    target }

/-- What the computing of a dispatch that is not under FREEZE leaves. -/
structure Plan where
  supply : SupplyFigures
  plan : PlanFigures
  todo : List Decision
  deriving DecidableEq, Repr

/-- R110 to R122. -/
def planOf (p : PlantRecord) (o : Opened) : Plan :=
  let fig := supplyFigures p o 0
  let t := (targetOf o.sample.band (fig.available + fig.sDis) fig.glide).under o.snapshot.hold
  let split := splitOf p.absorb t.target fig.available fig.sChg
  let alloc := allocate o.epoch o.snapshot split.curtailment
  let placed := min split.curtailment (capacitySum alloc.members)
  { supply := { fig with target := t.target },
    plan := { path := t.path, command := split.command, curtailment := split.curtailment, placed },
    todo := decisionList o.snapshot split.command (sharesOf placed alloc.members) alloc.released }

end Sys2Proof.Machine
end

