-- ==== Sys2Proof/Machine/Governor.lean ====
section
/-! DEFINITION. The steps of a dispatch (spec/07_the_dispatch.md): the opening step, the end of computing, staging, and READ_PLANT. -/

namespace Sys2Proof.Machine

/-! ## The opening step (R105, R108, R111) -/

/-- R108: a record that is not EMPTY, as the snapshot holds it. -/
def snapBlock (s : State) (b : BlockIx) : Option SnapBlock :=
  let r := s.block b
  match r.profile with
  | some p =>
    if r.state = .empty then none
    else
      some { id := b, state := r.state, revision := r.revision, profile := p, floor := r.floor s.gov.groups,
             usable := r.usable, measured := r.measured.getD 0, cap := r.cap, captureEpoch := r.captureEpoch,
             lastRelease := r.lastRelease }
  | none => none

/-- R111: S_dis. -/
def dischargeOffer (e : Epoch) (p : PlantRecord) (r : StorageRecord) : Nat :=
  match r.soe with
  | some soe => if countsAsHeard e p.silenceLimit r.heard && decide (p.reserveFloor < soe) then r.discharge.getD 0 else 0
  | none => 0

/-- R111: S_chg. -/
def chargeOffer (e : Epoch) (p : PlantRecord) (r : StorageRecord) : Nat :=
  match r.soe with
  | some soe => if countsAsHeard e p.silenceLimit r.heard && decide (soe < p.reserveCeiling) then r.charge.getD 0 else 0
  | none => 0

/-- R108: the values as they stand at that moment, the storage's owed flag among them. Where the epoch rule of R137 clears that flag at the
same epoch, the order of the two decides whether R123 finds it set, though R137 has the dispatch come out the same (log 34). -/
def takeSnapshot (e : Epoch) (p : PlantRecord) (s : State) : Snapshot :=
  { blocks := allBlocks.filterMap (snapBlock s), capped := s.table.capped, rotation := s.table.rotation,
    groups := s.gov.groups, groupCapture := s.table.groupCapture,
    sDis := dischargeOffer e p s.nodes.storage, sChg := chargeOffer e p s.nodes.storage,
    commanded := s.nodes.storage.commanded, storageOwed := s.nodes.storage.owed, warnings := s.front.warnings,
    hold := s.hold }

/-- R105, R107: the dispatch in flight is ended, then adoption, sample and band, and snapshot follow as one whole. The committed
plant record is present whenever the part runs (R48, R38). -/
def openDispatch (e : Epoch) (s : State) : State :=
  let s1 := adopt (overrunDispatch s)
  match s1.gov.plant with
  | none => s1
  | some p =>
    let (s2, sample) := sampleAndBand e p s1
    s2.onGov fun g => { g with phase := .computing { epoch := e, sample, snapshot := takeSnapshot e p s2 } }

/-! ## Staging (R123 to R125) -/

/-- The lease length a packet of the part's own is sent with. -/
def leaseLength (s : State) : Nat :=
  match s.gov.plant with
  | some p => p.leaseLength
  | none => 0

/-- R136: a power of 0 is sent with lease 0, any other with the committed lease length. -/
def storeLease (power : Int) (s : State) : Nat :=
  if power = 0 then 0 else leaseLength s

/-- R124: a stale decision. -/
def staleDecision (s : State) : State :=
  raise .staleDecision (s.onGov fun g => { g with staleDecisions := saturate max32 g.staleDecisions })

/-- R124, R125: a block decision, `none` while the queue has no room for its CAP. The revision is checked as the CAP is about to
enter. `limit` is absent in a release; `counted` counts the decision, and `effect` is R15, R16 or R17. -/
def stageBlock (e : Epoch) (b : BlockIx) (revision : Half) (limit : Option Nat) (lease : Nat)
    (counted : StagedCounts → StagedCounts) (effect : State → State) (counts : StagedCounts) (s : State) :
    Option (StagedCounts × State) :=
  if capAdmissible b (e + 1) s.ring then
    if (s.block b).revision = revision then
      (offerCap b (e + 1) limit lease s).map fun s' => (counted counts, effect s')
    else some ({ counts with stale := counts.stale + 1 }, staleDecision s)
  else none

/-- R123, R124: one decision of dispatch e, `none` while it must wait. -/
def stageDecision (e : Epoch) (d : Decision) (counts : StagedCounts) (s : State) : Option (StagedCounts × State) :=
  match d with
  | .store power => (offerStore (e + 1) power (storeLease power s) s).map fun s' => ({ counts with storeStaged := true }, s')
  | .capture b cap rev =>
    stageBlock e b rev (some cap) (leaseLength s) (fun c => { c with captures := c.captures + 1 }) (takeCapture b cap e) counts s
  | .capChange b cap rev =>
    stageBlock e b rev (some cap) (leaseLength s) (fun c => { c with capChanges := c.capChanges + 1 }) (takeCapChange b cap)
      counts s
  | .release b rev =>
    stageBlock e b rev none 0 (fun c => { c with releases := c.releases + 1 }) (takeRelease b e) counts s

/-- R123, R125, R129: decisions are staged in order until one must wait, or the dispatch completes. -/
def stageAll (o : Opened) (supply : SupplyFigures) (plan : PlanFigures) : List Decision → StagedCounts → State → State
  | [], counts, s => completeDispatch (stagingStatus .complete o supply plan [] counts) s
  | d :: rest, counts, s =>
    match stageDecision o.epoch d counts s with
    | some (counts', s') => stageAll o supply plan rest counts' s'
    | none => s.onGov fun g => { g with phase := .staging o supply plan (d :: rest) counts }

/-! ## The end of computing (R106, R114, R116, R121, R126) -/

/-- R116: under a FREEZE the target is the held target, or the sample where that is absent, and the dispatch completes FROZEN. -/
def frozenEnd (p : PlantRecord) (o : Opened) (s : State) : State :=
  let target := s.gov.heldTarget.getD o.sample.sample
  completeDispatch
    { epoch := o.epoch, outcome := .frozen, sample := o.sample, supply := some (supplyFigures p o target), plan := none,
      hold := o.snapshot.hold, counts := noCounts, discarded := 0 }
    (s.onGov fun g => { g with heldTarget := some target })

/-- R114: the condition of a target path. -/
def raisePath (path : TargetPath) (s : State) : State :=
  match path with
  | .within => s
  | .short => raise .supplyShort s
  | .late => raise .glideLate s

/-- R106, R126: the held target, the conditions, and then staging, which needs the ring UP. -/
def plannedEnd (o : Opened) (pl : Plan) (s : State) : State :=
  let s1 := s.onGov fun g =>
    { g with heldTarget := some pl.supply.target, phase := .staging o pl.supply pl.plan pl.todo noCounts }
  let s2 := raiseIf (decide (pl.plan.placed < pl.plan.curtailment)) .captureShort (raisePath pl.plan.path s1)
  if s2.ring.state = .up then stageAll o pl.supply pl.plan pl.todo noCounts s2 else ringDownDispatch s2

/-- R106. -/
def computingEnd (s : State) : State :=
  match s.gov.phase, s.gov.plant with
  | .computing o, some p =>
    if o.snapshot.hold = .freeze then frozenEnd p o s else plannedEnd o (planOf p o) s
  | _, _ => s

/-- R125: staging goes on as far as the queue has room. -/
def resumeStaging (s : State) : State :=
  match s.gov.phase with
  | .staging o supply plan todo counts => stageAll o supply plan todo counts s
  | .idle | .computing _ => s

/-! ## READ_PLANT (R131) -/

def DispatchPhase.epoch : DispatchPhase → Option Epoch
  | .idle => none
  | .computing o => some o.epoch
  | .staging o _ _ _ _ => some o.epoch

def holdBytesOf (h : Hold) : List Byte :=
  codeByte (some h.code) ++ optBytes 4 h.value

/-- 12.4: Ac, F, Pa, S_dis, S_chg, G, T. -/
def supplyBytes : Option SupplyFigures → List Byte
  | some f =>
    leBytes 4 f.controllable ++ leBytes 4 f.fixed ++ leBytes 4 f.available ++ leBytes 4 f.sDis ++ leBytes 4 f.sChg
      ++ optBytes 4 f.glide ++ leBytes 4 f.target
  | none => absentBytes 28

/-- 12.4: storage command, C, C'. -/
def planBytes : Option PlanFigures → List Byte
  | some f => optIntBytes (some f.command) ++ leBytes 4 f.curtailment ++ leBytes 4 f.placed
  | none => absentBytes 13

/-- 12.4: the plant status record, 82 bytes, every field absent until the first completion. -/
def statusBytes : Option PlantStatus → List Byte
  | some r =>
    optEpochBytes (some r.epoch) ++ codeByte (some r.outcome.code)
      ++ leBytes 4 r.sample.sample ++ codeByte (some r.sample.source.code) ++ leBytes 2 r.sample.count
      ++ leBytes 4 r.sample.wmax ++ leBytes 4 r.sample.wmin ++ leBytes 4 r.sample.band.low ++ leBytes 4 r.sample.band.high
      ++ supplyBytes r.supply ++ codeByte (r.plan.map fun f => f.path.code) ++ holdBytesOf r.hold ++ planBytes r.plan
      ++ leBytes 1 r.counts.captures ++ leBytes 1 r.counts.capChanges ++ leBytes 1 r.counts.releases
      ++ flagByte r.counts.storeStaged ++ leBytes 1 r.counts.stale ++ leBytes 1 r.discarded
  | none => absentBytes 82

/-- 12.4: the reply data of READ_PLANT. -/
def plantData (s : State) : List Byte :=
  codeByte (some s.run.state.code) ++ epochBytes s.timer.epoch ++ holdBytesOf s.hold
    ++ codeByte (some s.gov.phase.code) ++ optEpochBytes s.gov.phase.epoch ++ optBytes 4 s.gov.heldTarget
    ++ statusBytes s.gov.status
    ++ leBytes 4 s.gov.upBreaches ++ leBytes 4 s.gov.downBreaches ++ leBytes 4 s.gov.overruns
    ++ leBytes 4 s.gov.staleDecisions

/-- READ_PLANT (R131). -/
def serveReadPlant (s : State) : Served :=
  servedWith (plantData s) s

/-! ## The rows -/

def execReadPlant (tag : Byte) (s : State) : Result :=
  execRequest 0x18 tag serveReadPlant s

def execDispatchComputingEnd (s : State) : Result :=
  execEvent computingEnd s

def execStagingResumed (s : State) : Result :=
  execEvent resumeStaging s

end Sys2Proof.Machine
end

