-- ==== Sys2Proof/Machine/Lease.lean ====
section
/-! DEFINITION. The Lease Scheduler (spec/10_caps_leases_and_field_reports.md, R162 to R169): what is due, the epoch rule, and the
judgement of returned CAP and STORE packets. -/

namespace Sys2Proof.Machine

/-! ## What is due (R162, R163) -/

/-- R163: owed, without a lease expiry, or e plus half the lease at or after the expiry. -/
def refreshDue (e : Epoch) (lease : Nat) (owed : Bool) (expiry : Option Epoch) : Bool :=
  owed ||
    match expiry with
    | none => true
    | some x => atOrAfter (e + BitVec.ofNat 32 (lease / 2)) x

/-- What the scheduler has to send: the limit or power and the lease. -/
inductive CapDue where
  | nothing
  | cap (limit : Nat)
  | release
  deriving DecidableEq, Repr

/-- R162, R164: what a block is sent at epoch e. -/
def BlockRecord.due (e : Epoch) (lease : Nat) (r : BlockRecord) : CapDue :=
  match r.state with
  | .empty => .nothing
  | .capped | .pinned => if refreshDue e lease r.owed r.leaseExpiry then .cap (r.cap.getD 0) else .nothing
  | .free | .resting | .silent | .barred | .out => if r.owed then .release else .nothing

/-- R164: whether the storage is sent its command or its release at epoch e. -/
def StorageRecord.due (e : Epoch) (lease : Nat) (r : StorageRecord) : Bool :=
  if r.commanded = 0 then r.owed else refreshDue e lease r.owed r.leaseExpiry

/-! ## Aging (R164) -/

/-- R164: a label or expiry between 2^30 and 2^31 epochs behind becomes absent. -/
def ageField (e : Epoch) (x : Option Epoch) : Option Epoch :=
  match x with
  | some v => if 2 ^ 30 ≤ epochsSince e v ∧ epochsSince e v < 2 ^ 31 then none else some v
  | none => none

def ageBlock (e : Epoch) (s : State) (b : BlockIx) : State :=
  modifyBlock b (fun r => { r with capLabel := ageField e r.capLabel, leaseExpiry := ageField e r.leaseExpiry }) s

def ageFields (e : Epoch) (s : State) : State :=
  (allBlocks.foldl (ageBlock e) s).onStorage fun r =>
    { r with commandLabel := ageField e r.commandLabel, leaseExpiry := ageField e r.leaseExpiry }

/-! ## The epoch rule (R164, R165) -/

/-- R165: the storage's packet, `none` where the queue refuses it. -/
def offerStorageDue (e : Epoch) (s : State) : Option State :=
  let r := s.nodes.storage
  if s.ring.queue.any (OwnPacket.isStoreAt (e + 1)) || !r.due e (leaseLength s) then some s
  else offerStore (e + 1) r.commanded (storeLease r.commanded s) s

/-- R165: one block's packet, `none` where the queue refuses it. -/
def offerBlockDue (e : Epoch) (b : BlockIx) (s : State) : Option State :=
  if s.ring.queue.any (OwnPacket.isCapAt b (e + 1)) then some s
  else
    match (s.block b).due e (leaseLength s) with
    | .nothing => some s
    | .cap limit => offerCap b (e + 1) (some limit) (leaseLength s) s
    | .release => offerCap b (e + 1) none 0 s

/-- R165: the blocks in order, up to the first refused offer. -/
def offerBlocks (e : Epoch) : List BlockIx → State → State
  | [], s => s
  | b :: rest, s =>
    match offerBlockDue e b s with
    | some s' => offerBlocks e rest s'
    | none => s

/-- R164, R165: the epoch rule. -/
def leaseEpochRule (e : Epoch) (s : State) : State :=
  let s1 := ageFields e s
  match offerStorageDue e s1 with
  | some s2 => offerBlocks e allBlocks s2
  | none => s1

/-! ## Delivery (R166 to R169) -/

/-- R167: the payload is what the block is owed as it now stands. -/
def BlockRecord.isOwed (limit lease : Nat) (r : BlockRecord) : Bool :=
  if r.state.holdsCap then lease != 0 && r.cap == some limit else lease == 0

/-- R167: the lease expiry after a delivery under label `label`. -/
def BlockRecord.expiryAfter (label : Epoch) (lease : Nat) (r : BlockRecord) : Option Epoch :=
  if lease = 0 then none
  else if r.state.holdsCap then some (label + BitVec.ofNat 32 lease)
  else r.leaseExpiry

/-- R167. -/
def BlockRecord.delivered (label : Epoch) (limit lease : Nat) (r : BlockRecord) : BlockRecord :=
  { r with undeliveredRun := 0, leaseExpiry := r.expiryAfter label lease, owed := r.owed && !r.isOwed limit lease }

/-- R168. -/
def BlockRecord.undelivered (r : BlockRecord) : BlockRecord :=
  { r with undeliveredRun := saturate 255 r.undeliveredRun, owed := true }

/-- R166 to R168: a returned CAP; a superseded one changes nothing. -/
def capReturn (b : BlockIx) (label : Epoch) (limit lease : Nat) (taken : Bool) (s : State) : State :=
  if (s.block b).capLabel = some label then
    if taken then modifyBlock b (BlockRecord.delivered label limit lease) s
    else raise .capUndelivered (modifyBlock b BlockRecord.undelivered s)
  else s

/-- R169: the lease expiry after the delivery of a STORE. -/
def StorageRecord.expiryAfter (label : Epoch) (power : Int) (lease : Nat) (r : StorageRecord) : Option Epoch :=
  if power = 0 ∧ lease = 0 then none
  else if power ≠ 0 ∧ r.commanded ≠ 0 then some (label + BitVec.ofNat 32 lease)
  else r.leaseExpiry

/-- R169. -/
def StorageRecord.delivered (label : Epoch) (power : Int) (lease : Nat) (r : StorageRecord) : StorageRecord :=
  { r with leaseExpiry := r.expiryAfter label power lease, owed := r.owed && power != r.commanded }

/-- R166, R169: a returned STORE. -/
def storeReturn (label : Epoch) (power : Int) (lease : Nat) (taken : Bool) (s : State) : State :=
  if s.nodes.storage.commandLabel = some label then
    if taken then s.onStorage (StorageRecord.delivered label power lease)
    else raise .capUndelivered (s.onStorage fun r => { r with owed := true })
  else s

end Sys2Proof.Machine
end

