-- ==== Sys2Proof/Machine/Nodes.lean ====
section
/-! DEFINITION. Storage and meter nodes (spec/08_storage_and_meter_nodes.md): reports, silence, STOP and START at the records, and
READ_NODES. -/

namespace Sys2Proof.Machine

/-! ## Reports (R133 to R135) -/

/-- 12.5: a REPORT of node 49, and of node 50, which fills its export into `measured`. -/
structure NodeReport where
  epoch : Epoch
  measured : Option Int
  soe : Option Nat
  discharge : Option Nat
  charge : Option Nat
  mode : Option UnitMode
  applied : Option Int
  deriving DecidableEq, Repr

/-- R133: a power is taken at the nearer bound. -/
def boundPower (v : Int) : Int :=
  clampInt (-3000000) 3000000 v

/-- R133: the update every storage report makes. -/
def StorageRecord.updated (rep : NodeReport) (now : Epoch) (r : StorageRecord) : StorageRecord :=
  { r with measured := rep.measured.map boundPower, soe := rep.soe.map (min · 1000),
           discharge := rep.discharge.map (min · 3000000), charge := rep.charge.map (min · 3000000),
           unitMode := rep.mode, applied := rep.applied.map boundPower, heard := some now, hearing := .heard }

/-- R134: a report is current if its epoch is at or after the command label, or if that is absent. -/
def StorageRecord.current (rep : NodeReport) (r : StorageRecord) : Bool :=
  match r.commandLabel with
  | some l => atOrAfter rep.epoch l
  | none => true

/-- R134: a lapse keeps the commanded power. -/
def StorageRecord.lapsed (r : StorageRecord) : StorageRecord :=
  { r with leaseExpiry := none, owed := true, lapseCount := saturate 65535 r.lapseCount }

def storageOwed (s : State) : State :=
  s.onStorage fun r => { r with owed := true }

/-- R134: a current report is judged against the commanded power. An absent applied power differs from it (log 16). -/
def judgeStorage (s : State) : State :=
  let r := s.nodes.storage
  match r.unitMode with
  | none => s
  | some .free => if r.commanded ≠ 0 then s.onStorage StorageRecord.lapsed else s
  | some .capped =>
    if r.commanded = 0 then raise .strayCap (storageOwed s)
    else if r.applied = some r.commanded then s
    else storageOwed s

/-- R133, R134. -/
def storageReport (rep : NodeReport) (s : State) : State :=
  let s' := s.onStorage (StorageRecord.updated rep s.timer.epoch)
  if s.nodes.storage.current rep then judgeStorage s' else s'

/-- R132: the range of the meter's export. A report of -2^31, which lies outside it, is taken at the nearer bound (log 24). -/
def boundExport (v : Int) : Int :=
  clampInt (-(2 ^ 31) + 1) (2 ^ 31 - 1) v

/-- R135. -/
def meterReport (rep : NodeReport) (s : State) : State :=
  s.onMeter fun r => { r with exported := rep.measured.map boundExport, heard := some s.timer.epoch, hearing := .heard }

/-! ## Silence (R137, R138) -/

/-- R137: the hearing of a node at epoch e. -/
def hearingAt (e : Epoch) (limit : Nat) (hearing : Hearing) (heard : Option Epoch) : Hearing :=
  match hearing with
  | .heard => if countsAsHeard e limit heard then .heard else .silent
  | .waiting => if limit < e.toNat then .silent else .waiting
  | .silent => .silent

/-- R137: the storage record at a move into SILENT. -/
def StorageRecord.silenced (r : StorageRecord) : StorageRecord :=
  { r with hearing := .silent, leaseExpiry := none, owed := false }

/-- R137. -/
def storageEpochRule (e : Epoch) (limit : Nat) (s : State) : State :=
  let r := s.nodes.storage
  if r.hearing ≠ .silent ∧ hearingAt e limit r.hearing r.heard = .silent then
    raise .storageSilent (s.onStorage StorageRecord.silenced)
  else s

/-- R138. -/
def meterEpochRule (e : Epoch) (limit : Nat) (s : State) : State :=
  s.onMeter fun r => { r with hearing := hearingAt e limit r.hearing r.heard }

/-- R137, R138: the epoch rule of the Node Records. -/
def nodeEpochRule (e : Epoch) (s : State) : State :=
  match s.gov.plant with
  | some p => meterEpochRule e p.silenceLimit (storageEpochRule e p.silenceLimit s)
  | none => s

/-! ## STOP and START (R139, R140) -/

/-- R139: whatever the option and the ring state. -/
def stopStorage (s : State) : State :=
  s.onStorage fun r => { r with commanded := 0 }

/-- R140. -/
def startNodes (s : State) : State :=
  (s.onStorage fun r => { r with heard := none, hearing := .waiting, commandLabel := none, leaseExpiry := none }).onMeter
    fun r => { r with heard := none, hearing := .waiting }

/-! ## READ_NODES (R141) -/

/-- 12.4: the reply data of READ_NODES. -/
def nodeData (n : NodeRecords) : List Byte :=
  let r := n.storage
  optEpochBytes r.heard ++ codeByte (some r.hearing.code) ++ optIntBytes r.measured ++ optBytes 2 r.soe
    ++ optBytes 4 r.discharge ++ optBytes 4 r.charge ++ codeByte (r.unitMode.map UnitMode.code) ++ optIntBytes r.applied
    ++ intBytes r.commanded ++ optEpochBytes r.commandLabel ++ optEpochBytes r.leaseExpiry ++ flagByte r.owed
    ++ leBytes 2 r.lapseCount
    ++ optEpochBytes n.meter.heard ++ codeByte (some n.meter.hearing.code) ++ optIntBytes n.meter.exported

def serveReadNodes (s : State) : Served :=
  servedWith (nodeData s.nodes) s

def execReadNodes (tag : Byte) (s : State) : Result :=
  execRequest 0x19 tag serveReadNodes s

end Sys2Proof.Machine
end

