-- ==== Sys2Proof/Machine/Ring.lean ====
section
/-! DEFINITION. The Block Ring (spec/09_the_block_ring.md): ring states and probing, the ring requests, packets arriving on RING_IN and
the out port. The outbound queue itself is in Machine/Queue.lean. -/

namespace Sys2Proof.Machine

/-! ## Ring states (R143 to R148) -/

/-- R144: the Ring Controller enters DOWN, from any state. -/
def RingController.enterDown (now : Time) (r : RingController) : RingController :=
  let r' := if r.state = .up then r.purge else r
  { r' with state := .down, queue := [], forward := [], probe := .absent, settleFrom := now }

/-- R146: a PROBE with the next probe number goes to the tail of the queue. -/
def RingController.placeProbe (r : RingController) : RingController :=
  { r with queue := r.queue ++ [.probe r.nextProbe], nextProbe := r.nextProbe + 1, probe := .queued }

/-- R144, R146: the Ring Controller enters PROBING, from DOWN or from UP. -/
def RingController.enterProbing (r : RingController) : RingController :=
  let r' := if r.state = .up then r.purge else r
  { r' with state := .probing, probe := .absent }.placeProbe

/-- R126, R144: a dispatch that is STAGING completes as the ring leaves UP. -/
def endStagingIfUp (before : RingState) (s : State) : State :=
  if before = .up then ringDownDispatch s else s

/-- R144: entry into DOWN. -/
def goDown (s : State) : State :=
  endStagingIfUp s.ring.state (s.onRing (RingController.enterDown s.now))

/-- R143: RING_SIG goes inactive. -/
def signalLoss (s : State) : State :=
  if s.ring.signalSeen then
    let s' := s.onRing fun r => { r with signalSeen := false }
    match s.ring.state with
    | .down => s'.onRing fun r => { r with settleFrom := s.now }
    | .probing | .up => raise .ringLoss (goDown s')
  else s

/-- R143: RING_SIG becomes active, and the settle measure runs. -/
def signalPresent (s : State) : State :=
  if s.ring.signalSeen then s else s.onRing fun r => { r with signalSeen := true, settleFrom := s.now }

/-- R145. -/
def settleTime (r : RingController) : Time :=
  r.settleFrom + ms 10

/-- R145: the settle measure reaches 10 ms (log 3). -/
def settle (s : State) : State :=
  if s.ring.state = .down ∧ s.ring.signalSeen = true ∧ s.ring.nodes ≠ [] then
    (s.atTime (settleTime s.ring)).onRing RingController.enterProbing
  else s

/-- R146: the return window. -/
def windowTime (sentAt : Time) : Time :=
  sentAt + ms 20

/-- R146: the retry. -/
def retryTime (sentAt : Time) : Time :=
  sentAt + ms 200

def RingController.failProbe (r : RingController) : RingController :=
  { r with lastOutcome := some .failed, probeFailures := saturate max32 r.probeFailures }

/-- R146, R148: the return window of the outstanding probe runs out (log 3). -/
def windowExpiry (s : State) : State :=
  match s.ring.probe with
  | .outstanding n at_ false =>
    let s1 := (s.atTime (windowTime at_)).onRing RingController.failProbe
    match s.ring.state with
    | .up => raise .ringLoss (ringDownDispatch (s1.onRing RingController.enterProbing))
    | .probing => s1.onRing fun r => { r with probe := .outstanding n at_ true }
    | .down => s
  | _ => s

/-- R146: 200 ms after an unreturned probe was sent, a new one is placed (log 3). -/
def retryExpiry (s : State) : State :=
  match s.ring.state, s.ring.probe with
  | .probing, .outstanding _ at_ true => (s.atTime (retryTime at_)).onRing RingController.placeProbe
  | _, _ => s

/-- R147: the returned probe is the one outstanding, within its window. -/
def RingController.awaits (n : Byte) (now : Time) (r : RingController) : Bool :=
  match r.probe with
  | .outstanding m at_ false => m == n && decide (now ≤ windowTime at_)
  | _ => false

/-- R146 to R148: a PROBE of the part's own returns; a late return has no effect. -/
def probeReturn (n : Byte) (s : State) : State :=
  if s.ring.awaits n s.now then
    let s' := s.onRing fun r => { r with lastOutcome := some .returned, probe := .absent }
    match s.ring.state with
    | .probing => raise .ringUp (s'.onRing fun r => { r with state := .up })
    | .up | .down => s'
  else s

/-! ## Requests (R149 to R151) -/

/-- PROBE_RING (R149). -/
def serveProbeRing (s : State) : Served :=
  if s.ring.state ≠ .up ∨ s.ring.probe ≠ .absent then refuse .wrongState s
  else if hasRoom s.ring.queue then served (s.onRing RingController.placeProbe)
  else refuse .full s

/-- R150: every ID from 1 to 50, and none twice. -/
def nodesValid (ids : List Byte) : Bool :=
  ids.all (fun n => inRange 1 50 n.toNat) && ids.Nodup

/-- R150: the list, the alert queues, RING_LOSS and the entry into DOWN. The rule has them happen together; the queues are emptied before
the raise, so a notice that RING_LOSS readies shows the four alert levels clear (log 31). -/
def loadNodes (ids : List Byte) (s : State) : State :=
  goDown (raise .ringLoss (emptyAllAlerts (s.onRing fun r => { r with nodes := ids.map BitVec.toNat })))

/-- LOAD_RING (R150); the length check is the Host Link Port's (R181). -/
def serveLoadRing (ids : List Byte) (s : State) : Served :=
  if wfNodes ids then
    if nodesValid ids then served (loadNodes ids s) else refuse .badValue s
  else refuse .badLength s

/-- R151: the epoch carried by the MARK in the queue. -/
def queuedMark : List OwnPacket → Option Epoch
  | [] => none
  | .mark e :: _ => some e
  | _ :: rest => queuedMark rest

/-- 12.4: the reply data of READ_RING. -/
def ringData (r : RingController) : List Byte :=
  codeByte (some r.state.code) ++ flagByte r.signalSeen ++ leBytes 1 r.nodes.length
    ++ r.nodes.flatMap (leBytes 1) ++ absentBytes (50 - r.nodes.length)
    ++ leBytes 1 r.queue.length ++ leBytes 1 (r.queue.filter OwnPacket.isCap).length
    ++ leBytes 1 (r.queue.filter OwnPacket.isStore).length ++ leBytes 1 (r.queue.filter OwnPacket.isMark).length
    ++ leBytes 1 (r.queue.filter OwnPacket.isProbe).length ++ optEpochBytes (queuedMark r.queue)
    ++ codeByte r.probe.code ++ optBytes 1 r.probe.number ++ codeByte (r.lastOutcome.map ProbeOutcome.code)
    ++ leBytes 4 r.purged ++ leBytes 4 r.rogue ++ leBytes 4 r.discarded ++ leBytes 4 r.unknownOrigin ++ leBytes 4 r.late
    ++ leBytes 4 r.probeFailures

/-- READ_RING (R151). -/
def serveReadRing (s : State) : Served :=
  servedWith (ringData s.ring) s

/-! ## Arriving packets (R152 to R154) -/

/-- The payload of a packet of 4 header bytes and 2 CRC bytes (12.5). -/
def payloadOf (bs : List Byte) : List Byte :=
  (bs.drop 4).take (bs.length - 6)

/-- R152: the pass mark, bit 0 of the flags byte; clear where the packet ends before it (log 17). -/
def passMark (bs : List Byte) : Bool :=
  (byteAt bs 2).getLsbD 0

/-- 12.5: the taken flag, bit 1 of the flags byte. -/
def takenFlag (bs : List Byte) : Bool :=
  (byteAt bs 2).getLsbD 1

/-- R152: the packet with its pass mark set and its contents otherwise as received. -/
def setPassMark (bs : List Byte) : List Byte :=
  bs.modify 2 (· ||| 1#8)

/-- R152, 12.5: the payload length a kind from an origin requires, absent where the origin does not fit the kind or the kind is
none of the six. -/
def lengthFor (kind origin : Nat) : Option Nat :=
  match kind with
  | 1 => if origin = 0 then some 9 else none
  | 2 => if origin = 0 then some 10 else none
  | 3 => if origin = 0 then some 4 else none
  | 4 => if origin = 0 then some 1 else none
  | 5 => if inRange 1 48 origin then some 17 else if inRange 49 50 origin then some 27 else none
  | 6 => if inRange 1 50 origin then some 5 else none
  | _ => none

/-- R152: the CRC over origin, kind and payload matches (R191). -/
def ringCrcMatches (bs : List Byte) : Bool :=
  crc16 (byteAt bs 0 :: byteAt bs 1 :: payloadOf bs)
    == crcOf (byteAt bs (bs.length - 2)) (byteAt bs (bs.length - 1))

/-- R152: an ALERT's class byte, and a REPORT's unit mode byte. -/
def contentsValid (kind origin : Nat) (payload : List Byte) : Bool :=
  match kind with
  | 5 =>
    if inRange 1 48 origin then (UnitMode.ofCode (byteAt payload 12)).isSome
    else (UnitMode.ofCode (byteAt payload 19)).isSome || byteAt payload 19 == 0xFF#8
  | 6 => (AlertClass.ofCode (byteAt payload 0)).isSome
  | _ => true

/-- R152, step 2. -/
def checkPacket (bs : List Byte) : Bool :=
  match lengthFor (byteAt bs 1).toNat (byteAt bs 0).toNat with
  | some n =>
    bs.length == n + 6 && ringCrcMatches bs && contentsValid (byteAt bs 1).toNat (byteAt bs 0).toNat (payloadOf bs)
  | none => false

/-- R153: a packet of the part's own. A CAP for a block byte outside 1 to 48 has no record to be judged against. -/
def ownPacket (bs : List Byte) (s : State) : State :=
  let p := payloadOf bs
  match (byteAt bs 1).toNat with
  | 1 =>
    match blockOf (byteAt p 0) with
    | some b => capReturn b (wordAt p 1) (halfAt p 5).toNat (halfAt p 7).toNat (takenFlag bs) s
    | none => s
  | 2 => storeReturn (wordAt p 0) (wordAt p 4).toInt (halfAt p 8).toNat (takenFlag bs) s
  | 3 => raiseIf (decide ((byteAt bs 3).toNat < s.ring.nodes.length)) .markShort s
  | 4 => probeReturn (byteAt p 0) s
  | _ => s

/-- 12.5: a REPORT of nodes 1 to 48. -/
def blockReportOf (mode : UnitMode) (p : List Byte) : BlockReport :=
  { epoch := wordAt p 0, measured := optNatAt p 4 4, available := optNatAt p 8 4, mode, applied := optNatAt p 13 2,
    leaseLeft := (halfAt p 15).toNat }

/-- 12.5: a REPORT of nodes 49 and 50. -/
def nodeReportOf (p : List Byte) : NodeReport :=
  { epoch := wordAt p 0, measured := optIntAt p 4, soe := optNatAt p 9 2, discharge := optNatAt p 11 4,
    charge := optNatAt p 15 4, mode := UnitMode.ofCode (byteAt p 19), applied := optIntAt p 20 }

/-- R154: a REPORT goes to the Block Table or to the Node Records. -/
def applyReport (origin : Nat) (p : List Byte) (s : State) : State :=
  match blockOfNode origin with
  | some b =>
    match UnitMode.ofCode (byteAt p 12) with
    | some mode => blockReport b (blockReportOf mode p) s
    | none => s
  | none => if origin = 49 then storageReport (nodeReportOf p) s else meterReport (nodeReportOf p) s

/-- R154. -/
def applyPacket (bs : List Byte) (s : State) : State :=
  let p := payloadOf bs
  let origin := (byteAt bs 0).toNat
  if (byteAt bs 1).toNat = 5 then applyReport origin p s
  else
    match AlertClass.ofCode (byteAt p 0) with
    | some cls => alertIntake origin cls (wordAt p 1) s
    | none => s

/-- R152, R155: the packet waits to be forwarded, its pass mark set. -/
def forwardPacket (bs : List Byte) (s : State) : State :=
  s.onRing fun r => { r with forward := r.forward ++ [setPassMark bs] }

/-- R152: the five steps. -/
def takePacket (bs : List Byte) (s : State) : State :=
  if passMark bs then raise .rogueRemoved (s.onRing fun r => { r with rogue := saturate max32 r.rogue })
  else if !checkPacket bs then
    forwardPacket bs (raise .packetDiscarded (s.onRing fun r => { r with discarded := saturate max32 r.discarded }))
  else if byteAt bs 0 = 0 then ownPacket bs s
  else if (s.ring.nodes.contains (byteAt bs 0).toNat) = false then
    forwardPacket bs (s.onRing fun r => { r with unknownOrigin := saturate max32 r.unknownOrigin })
  else forwardPacket bs (applyPacket bs s)

/-- R143, R152: a packet received whole; in DOWN it is discarded without count, an alert that comes after a LOAD_RING among them (R150,
R177; log 30). -/
def receivePacket (bs : List Byte) (s : State) : State :=
  match s.ring.state with
  | .down => s
  | .probing | .up => takePacket bs s

/-! ## The out port (R155) -/

/-- R146, R155: an own packet leaves the head of the queue; a PROBE becomes OUTSTANDING as it is sent. -/
def sendOwn (p : OwnPacket) (rest : List OwnPacket) (now : Time) (r : RingController) : RingController :=
  { r with
    queue := rest
    sending := some p.bytes
    probe := match p with
      | .probe n => .outstanding n now false
      | _ => r.probe }

/-- R155: the port is given to the oldest forwarded packet, or else to the head of the outbound queue. -/
def RingController.nextPacket (now : Time) (r : RingController) : RingController :=
  match r.forward, r.queue with
  | p :: rest, _ => { r with forward := rest, sending := some p }
  | [], p :: rest => sendOwn p rest now r
  | [], [] => { r with sending := none }

/-- R155: the port becomes free. -/
def portFree (s : State) : State :=
  s.onRing (RingController.nextPacket s.now)

/-! ## The rows -/

def execProbeRing (tag : Byte) (s : State) : Result :=
  execRequest 0x1A tag serveProbeRing s

def execLoadRing (tag : Byte) (ids : List Byte) (s : State) : Result :=
  execRequest 0x1B tag (serveLoadRing ids) s

def execReadRing (tag : Byte) (s : State) : Result :=
  execRequest 0x1C tag serveReadRing s

def execRingSettled (s : State) : Result :=
  execEvent settle s

def execProbeWindowExpiry (s : State) : Result :=
  execEvent windowExpiry s

def execProbeRetryExpiry (s : State) : Result :=
  execEvent retryExpiry s

def execRingPacketReceived (bytes : List Byte) (s : State) : Result :=
  execEvent (receivePacket bytes) s

def execOutPortFree (s : State) : Result :=
  execEvent portFree s

/-- While RESET_N is low only the level of RING_SIG is followed, since a full reset leaves it as it stands (R142, R189, log 9). -/
def followSignal (seen : Bool) (s : State) : State :=
  s.onRing fun r => { r with signalSeen := seen }

/-- RING_SIGNAL_LOSS (R143). -/
def execRingSignalLoss (s : State) : Result :=
  .next (if s.resetLow then followSignal false s else signalLoss s)

/-- RING_SIGNAL_PRESENT (R143). -/
def execRingSignalPresent (s : State) : Result :=
  .next (if s.resetLow then followSignal true s else signalPresent s)

end Sys2Proof.Machine
end

