-- ==== Sys2Proof/Machine/Front.lean ====
section
/-! DEFINITION. The Front Tracker (spec/05_lead_map_and_shade_warnings.md): the two lead maps, the warnings list with its opening,
ordering, deepening and expiry, and its requests. -/

namespace Sys2Proof.Machine

/-! ## The lead map (R77 to R80) -/

/-- R77: entries a map holds at most, and entries of one station. -/
def leadCapacity : Nat := 192

def leadsPerStation : Nat := 8

/-- LEADS_BEGIN (R78). -/
def serveLeadsBegin (s : State) : Served :=
  served (s.onFront fun f => { f with staging := [] })

def LeadEntry.samePair (a b : LeadEntry) : Bool :=
  a.station == b.station && a.block == b.block

/-- R79, step 1: the map with the entries appended, absent at an entry out of range or a pair already held. -/
def appendLeads (map : List LeadEntry) : List LeadBody → Option (List LeadEntry)
  | [] => some map
  | e :: rest =>
    match checkLead e with
    | some x => if map.any x.samePair then none else appendLeads (map ++ [x]) rest
    | none => none

def entriesOf (t : StationIx) (map : List LeadEntry) : List LeadEntry :=
  map.filter fun x => x.station == t

/-- R79, step 2, and R77. -/
def leadsFit (map : List LeadEntry) : Bool :=
  map.length ≤ leadCapacity && (List.finRange 24).all fun t => (entriesOf t map).length ≤ leadsPerStation

/-- LEADS_ADD (R79); the length check is the Host Link Port's (R181). -/
def serveLeadsAdd (entries : List LeadBody) (s : State) : Served :=
  if wfLeads entries then
    match appendLeads s.front.staging entries with
    | none => refuse .badValue s
    | some map =>
      if leadsFit map then servedWith (leBytes 1 map.length) (s.onFront fun f => { f with staging := map })
      else refuse .full s
  else refuse .badLength s

/-- LEADS_COMMIT (R80). -/
def serveLeadsCommit (s : State) : Served :=
  servedWith (leBytes 1 s.front.staging.length) (s.onFront fun f => { f with active := f.staging, staging := [] })

/-! ## The warnings list (R82 to R84) -/

/-- R83: warnings the list holds at most. -/
def warningCapacity : Nat := 32

/-- R76: the Front Tracker sets and clears the warning held flag of a station record. -/
def setHeld (t : StationIx) (held : Bool) (s : State) : State :=
  s.onSky fun u => { u with stations := u.stations.set t { u.stations[t] with warningHeld := held } }

/-- R84: the ID after this one, from 255 to 1. -/
def stepId (id : Nat) : Nat :=
  if id = 255 then 1 else id + 1

/-- R84: the first ID from `id` on that no listed warning holds, tried over at most `n` places. -/
def freeId (listed : List Warning) : Nat → Nat → Nat
  | 0, id => id
  | n + 1, id => if listed.any fun w => w.id == id then freeId listed n (stepId id) else id

/-- R86: behind every warning whose earliest arrival is the same or earlier, ahead of every one whose is later. -/
def insertWarning (w : Warning) : List Warning → List Warning
  | [] => [w]
  | x :: rest => if laterThan x.earliest w.earliest then w :: x :: rest else x :: insertWarning w rest

/-- R86, R84: a warning is listed; its ID is given here. -/
def listWarning (w : Warning) (s : State) : State :=
  let id := freeId s.front.warnings 255 s.front.nextId
  raise .warningOpened (setHeld w.station true
    (s.onFront fun f => { f with warnings := insertWarning { w with id } f.warnings, nextId := stepId id }))

/-- R85, step 1: the station's own warning leaves the list. -/
def removeOwn (t : StationIx) (s : State) : State :=
  if s.front.warnings.any fun w => w.station == t then
    setHeld t false (s.onFront fun f => { f with warnings := f.warnings.filter fun w => w.station != t })
  else s

/-- R82: the earliest of the arrival epochs. -/
def earliestOf (first : Epoch) (rest : List (BlockIx × Epoch)) : Epoch :=
  rest.foldl (fun m a => if laterThan m a.2 then a.2 else m) first

/-- R85, step 3: the warning built from a station's entries, absent when it has none. Its ID is given when it is listed. -/
def buildWarning (t : StationIx) (depth : Nat) (now : Epoch) (entries : List LeadEntry) : Option Warning :=
  match entries.map fun x => (x.block, now + BitVec.ofNat 32 x.lead) with
  | [] => none
  | a :: rest =>
    some { id := 0, station := t, depth, opened := now, arrivals := a :: rest, earliest := earliestOf a.2 rest }

/-- R87: a warning built while the list is full; `last` is the warning at its end. -/
def judgeFull (w last : Warning) (s : State) : State :=
  if laterThan last.earliest w.earliest then
    raise .warningDropped (listWarning w (setHeld last.station false
      (s.onFront fun f => { f with warnings := f.warnings.dropLast })))
  else raise .warningDropped s

/-- R86, R87. -/
def enterWarning (w : Warning) (s : State) : State :=
  if s.front.warnings.length < warningCapacity then listWarning w s
  else
    match s.front.warnings.getLast? with
    | some last => judgeFull w last s
    | none => s

/-- R85: an open request. -/
def openRequest (t : StationIx) (depth : Nat) (s : State) : State :=
  let s' := removeOwn t s
  if s.run.state.inRun then
    match buildWarning t depth s.timer.epoch (entriesOf t s.front.active) with
    | some w => enterWarning w s'
    | none => s'
  else s'

/-- R88: a deepen request. -/
def deepenRequest (t : StationIx) (depth : Nat) (s : State) : State :=
  s.onFront fun f =>
    { f with warnings := f.warnings.map fun w => if w.station = t then { w with depth := max w.depth depth } else w }

/-! ## Expiry and removal (R89 to R91) -/

/-- R89: e is at or after each of the arrival epochs. -/
def Warning.expiredAt (e : Epoch) (w : Warning) : Bool :=
  w.arrivals.all fun a => atOrAfter e a.2

/-- R89: the epoch rule of the Front Tracker. -/
def frontEpochRule (e : Epoch) (s : State) : State :=
  let expired := s.front.warnings.filter (Warning.expiredAt e)
  expired.foldl (fun s w => setHeld w.station false s)
    (s.onFront fun f => { f with warnings := f.warnings.filter fun w => !w.expiredAt e })

def clearHeldFlags (s : State) : State :=
  (List.finRange 24).foldl (fun s t => setHeld t false s) s

/-- R90, R91: the warnings list is emptied and every warning held flag cleared. -/
def emptyWarnings (s : State) : State :=
  clearHeldFlags (s.onFront fun f => { f with warnings := [] })

/-- FLUSH_WARNINGS (R91). -/
def serveFlushWarnings (s : State) : Served :=
  served (emptyWarnings s)

/-! ## READ_WARNING (R92) -/

/-- 12.4: eight places of block 1 and arrival 5, unused places absent. -/
def arrivalPlaces (arrivals : List (BlockIx × Epoch)) : List Byte :=
  arrivals.flatMap (fun a => blockByte a.1 :: optEpochBytes (some a.2)) ++ absentBytes (6 * (8 - arrivals.length))

/-- 12.4: the reply data of READ_WARNING. -/
def warningData (count : Nat) (w : Warning) : List Byte :=
  leBytes 1 count ++ leBytes 1 w.id ++ leBytes 1 (w.station.val + 1) ++ leBytes 1 w.depth ++ epochBytes w.opened
    ++ epochBytes w.earliest ++ leBytes 1 w.arrivals.length ++ arrivalPlaces w.arrivals

/-- READ_WARNING (R92). -/
def serveReadWarning (index : Byte) (s : State) : Served :=
  if 31 < index.toNat then refuse .badValue s
  else
    match s.front.warnings[index.toNat]? with
    | some w => servedWith (warningData s.front.warnings.length w) s
    | none => refuse .notFound s

/-! ## The rows -/

def execLeadsBegin (tag : Byte) (s : State) : Result :=
  execRequest 0x13 tag serveLeadsBegin s

def execLeadsAdd (tag : Byte) (entries : List LeadBody) (s : State) : Result :=
  execRequest 0x14 tag (serveLeadsAdd entries) s

def execLeadsCommit (tag : Byte) (s : State) : Result :=
  execRequest 0x15 tag serveLeadsCommit s

def execFlushWarnings (tag : Byte) (s : State) : Result :=
  execRequest 0x16 tag serveFlushWarnings s

def execReadWarning (tag index : Byte) (s : State) : Result :=
  execRequest 0x17 tag (serveReadWarning index) s

end Sys2Proof.Machine
end

