-- ==== Sys2Proof/Machine/Sky.lean ====
section
/-! DEFINITION. Sky stations and the sensor port (spec/04_sky_stations_and_the_sensor_port.md): samples, the shading detector, frame
processing, the loss monitor, and the three requests. Frame syncs are in Machine/Epochs.lean. -/

namespace Sys2Proof.Machine

/-! ## Stations -/

def modifyStation (t : StationIx) (f : Station → Station) (s : State) : State :=
  s.onSky fun u => { u with stations := u.stations.set t (f u.stations[t]) }

def State.station (s : State) (t : StationIx) : Station :=
  s.sky.stations[t]

/-! ## The slot word and the sample (R64, 12.6) -/

def irradianceOf (w : Half) : Nat :=
  (w >>> 4).toNat

def stationValid (w : Half) : Bool :=
  w.getLsbD 3

def sequenceOf (w : Half) : BitVec 3 :=
  w.setWidth 3

/-- R64: the sample a received word gives, absent where it is invalid. -/
def sampleOf (last : Option (BitVec 3)) (w : Half) : Option Nat :=
  if stationValid w && decide (irradianceOf w ≤ 1600) && last != some (sequenceOf w) then some (irradianceOf w) else none

/-! ## The detector (R65, R70 to R74) -/

/-- R70: the greatest sample of the history. -/
def Station.bestOf (st : Station) : Option Nat :=
  st.history.max?

/-- R70: the depth of a sample against a reference. -/
def depthOf (x ref : Nat) : Nat :=
  min 255 ((ref - x) * 256 / ref)

/-- R70. -/
def Station.push (x : Nat) (st : Station) : Station :=
  { st with history := st.history.drop (st.history.length + 1 - st.historyLength) ++ [x] }

/-- R71, R72: the drop test against a reference. -/
def Station.isDrop (x ref : Nat) (st : Station) : Bool :=
  st.drop * ref ≤ (ref - x) * 256

/-- What the detector asks of the Front Tracker (R69). -/
inductive FrontRequest where
  | nothing
  | opening (depth : Nat)
  | deepening (depth : Nat)
  deriving DecidableEq, Repr

/-- R71, R72: the station passes to SHADED, and asks for a warning. -/
def Station.shade (ref depth : Nat) (st : Station) : Station × FrontRequest :=
  ({ st with detector := .shaded, reference := some ref, depth := some depth, pendingCount := none }, .opening depth)

/-- R65, R72, R73: the frozen reference, the candidate depth and the pending count become absent. -/
def Station.unfreeze (state : Detector) (st : Station) : Station :=
  { st with detector := state, reference := none, depth := none, pendingCount := none }

/-- R71. -/
def Station.judgeClear (x : Nat) (st : Station) : Station × FrontRequest :=
  match st.bestOf with
  | none => (st, .nothing)
  | some ref =>
    if 0 < ref ∧ st.isDrop x ref then
      if st.persistence = 1 then st.shade ref (depthOf x ref)
      else
        ({ st with detector := .pending, reference := some ref, depth := some (depthOf x ref), pendingCount := some 1 },
          .nothing)
    else (st, .nothing)

/-- R72. -/
def Station.judgePending (x : Nat) (st : Station) : Station × FrontRequest :=
  let ref := st.reference.getD 0
  if st.isDrop x ref then
    let count := st.pendingCount.getD 0 + 1
    let depth := max (st.depth.getD 0) (depthOf x ref)
    if count = st.persistence then st.shade ref depth
    else ({ st with pendingCount := some count, depth := some depth }, .nothing)
  else (st.unfreeze .clear, .nothing)

/-- R73: deepening first, then clearing. Whether the depth exceeds the listed one is judged as the request is taken (R88). -/
def Station.judgeShaded (x : Nat) (st : Station) : Station × FrontRequest :=
  let ref := st.reference.getD 0
  let request := if st.warningHeld then FrontRequest.deepening (depthOf x ref) else .nothing
  (if ref * (256 - st.clear) ≤ x * 256 then st.unfreeze .clear else st, request)

/-- R71 to R73: the judgement of a valid sample outside LOST. -/
def Station.judge (x : Nat) (st : Station) : Station × FrontRequest :=
  match st.detector with
  | .clear => st.judgeClear x
  | .pending => st.judgePending x
  | .shaded => st.judgeShaded x
  | .lost => (st, .nothing)

/-- R74. -/
def Station.recover (x : Nat) (st : Station) : Station :=
  { st with history := [x], detector := .clear, invalidRun := 0 }

def askFront (t : StationIx) (q : FrontRequest) (s : State) : State :=
  match q with
  | .nothing => s
  | .opening depth => openRequest t depth s
  | .deepening depth => deepenRequest t depth s

/-- R65, R70 to R74: the detector takes a valid sample. The judgement's request is made before the sample is pushed. -/
def validSample (t : StationIx) (x : Nat) (s : State) : State :=
  let st := s.station t
  match st.detector with
  | .lost => modifyStation t (Station.recover x) s
  | .clear | .pending | .shaded =>
    let j := { st with invalidRun := 0 }.judge x
    modifyStation t (Station.push x) (askFront t j.2 (modifyStation t (fun _ => j.1) s))

/-- R65: a station made LOST by its fifth consecutive invalid sample, or by a sensor loss (R63). -/
def Station.lose (st : Station) : Station :=
  { st.unfreeze .lost with invalidRun := 5 }

/-- R65. -/
def invalidSample (t : StationIx) (s : State) : State :=
  let st := s.station t
  match st.detector with
  | .lost => s
  | .clear | .pending | .shaded =>
    if st.invalidRun < 4 then modifyStation t (fun st => { st with invalidRun := st.invalidRun + 1 }) s
    else raise .stationLost (modifyStation t Station.lose s)

/-! ## Frames (R60, R62, R63) -/

/-- R62, R64: one station takes its slot of a closed frame. -/
def takeSlot (frame : List Half) (s : State) (t : StationIx) : State :=
  let st := s.station t
  if st.enabled then
    match frame[st.slot]? with
    | none => invalidSample t s
    | some w =>
      let s' := modifyStation t (fun st => { st with lastSequence := some (sequenceOf w) }) s
      match sampleOf st.lastSequence w with
      | some x => validSample t x s'
      | none => invalidSample t s'
  else s

/-- R62: a closed frame is processed as one whole, in ascending station ID. -/
def processFrame (frame : List Half) (s : State) : State :=
  (List.finRange 24).foldl (takeSlot frame) s

/-- R60: slots of a frame. -/
def frameSlots : Nat := 64

/-- R60: a complete word is stored as the next slot; the word of slot 63 closes the frame (log 6). -/
def takeWord (w : Half) (s : State) : State :=
  match s.sky.enabled, s.sky.frame with
  | true, some words =>
    if words.length + 1 < frameSlots then s.onSky fun u => { u with frame := some (words ++ [w]) }
    else processFrame (words ++ [w]) (s.onSky fun u => { u with frame := none })
  | _, _ => s

/-- R60: the word of slot 63 closes the frame; without 63 words in progress there is no such event (log 6). -/
def fillFrame (w : Half) (s : State) : State :=
  match s.sky.frame with
  | some words => if words.length + 1 = frameSlots then takeWord w s else s
  | none => s

/-- R63: a station becomes LOST by a sensor loss. -/
def loseStation (s : State) (t : StationIx) : State :=
  if (s.station t).enabled ∧ (s.station t).detector ≠ .lost then modifyStation t Station.lose s else s

/-- R63: the instant at which the time since the last frame sync exceeds three frame periods. -/
def lossTime (u : SkyUnit) : Time :=
  u.measureFrom + 3 * ms u.framePeriod + 1

/-- R63: the armed monitor trips (log 3). -/
def tripLoss (s : State) : State :=
  if s.sky.loss = .armed then
    (List.finRange 24).foldl loseStation
      (raise .sensorLoss ((s.atTime (lossTime s.sky)).onSky fun u => { u with loss := .tripped, frame := none }))
  else s

/-- R63: the armed monitor is past its limit. -/
def lossDue (s : State) : Bool :=
  s.sky.loss == .armed && decide (lossTime s.sky ≤ s.now)

/-- R63: a monitor past its limit trips before the frame sync that would restart its measure (log 3). -/
def tripLossDue (s : State) : State :=
  if lossDue s then tripLoss s else s

/-! ## Requests (R59, R67, R68) -/

/-- R59: what the port does by case. -/
def SkyUnit.setSensor (period : Nat) (enable : Bool) (now : Time) (u : SkyUnit) : SkyUnit :=
  match u.enabled, enable with
  | false, true => { u with enabled := true, framePeriod := period, loss := .armed, measureFrom := now }
  | true, true => { u with framePeriod := period }
  | true, false => { u with enabled := false, framePeriod := period, frame := none, loss := .disarmed }
  | false, false => { u with framePeriod := period }

/-- SET_SENSOR (R59). -/
def serveSetSensor (period : Half) (enable : Byte) (s : State) : Served :=
  match flagOfByte enable with
  | some en =>
    if inRange 10 1000 period.toNat then served (s.onSky (SkyUnit.setSensor period.toNat en s.now))
    else refuse .badValue s
  | none => refuse .badValue s

/-- R67, step 3: another enabled station already names the slot. -/
def slotTaken (u : SkyUnit) (t : StationIx) (slot : Nat) : Bool :=
  (List.finRange 24).any fun x => x != t && u.stations[x].enabled && u.stations[x].slot == slot

/-- R67: the parameters are replaced and the detector restarts; the warning held flag is kept. -/
def Station.load (b : StationBody) (st : Station) : Station :=
  { slot := b.slot.toNat, enabled := b.enabled == 1#8, historyLength := b.historyLength.toNat, drop := b.drop.toNat,
    persistence := b.persistence.toNat, clear := b.clear.toNat, detector := .clear, history := [], reference := none,
    depth := none, pendingCount := none, invalidRun := 0, lastSequence := none, warningHeld := st.warningHeld }

/-- LOAD_STATION (R67). -/
def serveLoadStation (station : Byte) (b : StationBody) (s : State) : Served :=
  match stationOf station with
  | none => refuse .badValue s
  | some t =>
    if !stationInRanges b then refuse .badValue s
    else if b.enabled == 1#8 && slotTaken s.sky t b.slot.toNat then refuse .badValue s
    else served (modifyStation t (Station.load b) s)

/-- 12.4: the reply data of READ_STATION. -/
def stationData (t : StationIx) (st : Station) : List Byte :=
  leBytes 1 (t.val + 1) ++ leBytes 1 st.slot ++ flagByte st.enabled ++ leBytes 1 st.historyLength ++ leBytes 1 st.drop
    ++ leBytes 1 st.persistence ++ leBytes 1 st.clear ++ codeByte (some st.detector.code) ++ leBytes 1 st.history.length
    ++ optBytes 2 st.bestOf ++ optBytes 2 st.reference ++ optBytes 1 st.depth ++ optBytes 1 st.pendingCount
    ++ leBytes 1 st.invalidRun ++ optBytes 1 (st.lastSequence.map BitVec.toNat) ++ flagByte st.warningHeld

/-- READ_STATION (R68). -/
def serveReadStation (station : Byte) (s : State) : Served :=
  match stationOf station with
  | some t => servedWith (stationData t (s.station t)) s
  | none => refuse .badValue s

/-! ## The rows -/

def execSetSensor (tag : Byte) (period : Half) (enable : Byte) (s : State) : Result :=
  execRequest 0x10 tag (serveSetSensor period enable) s

def execLoadStation (tag station : Byte) (body : StationBody) (s : State) : Result :=
  execRequest 0x11 tag (serveLoadStation station body) s

def execReadStation (tag station : Byte) (s : State) : Result :=
  execRequest 0x12 tag (serveReadStation station) s

def execSensorFrameFull (word : Half) (s : State) : Result :=
  execEvent (fillFrame word) s

def execSensorWordReceived (word : Half) (s : State) : Result :=
  execEvent (takeWord word) s

def execSensorLoss (s : State) : Result :=
  execEvent tripLoss s

end Sys2Proof.Machine
end

