-- ==== Sys2Proof/Machine/Epochs.lean ====
section
/-! DEFINITION. Epochs and run control (spec/03_epochs_run_control_and_hold_lines.md): the epoch event, its sources and stall monitor,
the trigger, SET_EPOCH, START, STOP, and the frame sync, which reaches the sensor port, the timer and Run Control. -/

namespace Sys2Proof.Machine

/-! ## The stall monitor (R46) -/

/-- R45: the nominal period of a source that can stall, in milliseconds; INTERNAL never stalls (R46). -/
def nominalPeriod (s : State) : Option Nat :=
  match s.timer.source with
  | .internal => none
  | .epochLine => some s.timer.period
  | .sensor => some (s.timer.divisor * s.sky.framePeriod)

/-- R46: the instant at which the time since the last epoch exceeds four nominal periods. -/
def stallTime (s : State) : Option Time :=
  (nominalPeriod s).map fun p => s.timer.lastEpochAt + 4 * ms p + 1

/-- R46: the armed monitor trips (log 3). -/
def tripStall (s : State) : State :=
  match stallTime s with
  | some t =>
    if s.timer.stall = .armed ∧ s.timer.running = true then
      raise .epochStall ((s.atTime t).onTimer fun x => { x with stall := .tripped })
    else s
  | none => s

/-- R46: the armed monitor is past its limit. -/
def stallDue (s : State) : Bool :=
  match stallTime s with
  | some t => s.timer.stall == .armed && s.timer.running && decide (t ≤ s.now)
  | none => false

/-- R46: a monitor past its limit trips before the epoch that would re-arm it (log 3). -/
def tripStallDue (s : State) : State :=
  if stallDue s then tripStall s else s

/-! ## The epoch event (R45, 00_scope) -/

/-- One block acts on epoch e under its own rule. -/
def applyEpochRule (e : Epoch) (s : State) (rule : EpochRule) : State :=
  match rule with
  | .runControl => runControlEpochRule s
  | .frontTracker => frontEpochRule e s
  | .ringMarker => placeMarker e s
  | .governor => if s.run.state.inRun then openDispatch e s else s
  | .blockTable => if s.run.state.inRun then blockEpochRule e s else s
  | .nodeRecords => if s.run.state.inRun then nodeEpochRule e s else s
  | .leaseScheduler => if s.run.state.inRun then leaseEpochRule e s else s

/-- R45, R46: the timer at an epoch: the number increases by one, the period and the stall measure restart, and a tripped monitor
is armed again. -/
def EpochTimer.next (now : Time) (t : EpochTimer) : EpochTimer :=
  { t with epoch := t.epoch + 1, lastEpochAt := now, syncCount := 0, stall := .armed }

/-- R45: the epoch has its number, and reaches the seven blocks in the order given (log 4). The new number and the opening of dispatch e
are one command, so no report taken at epoch number e precedes that opening (R97; log 29). -/
def takeEpoch (order : EpochOrder) (s : State) : State :=
  let s' := s.onTimer (EpochTimer.next s.now)
  (completeOrder order).foldl (applyEpochRule s'.timer.epoch) s'

/-- R45, R46: an epoch occurs. One that comes past the stall limit finds the monitor tripped. -/
def epochEvent (order : EpochOrder) (s : State) : State :=
  takeEpoch order (tripStallDue s)

/-! ## The trigger (R49) -/

/-- R49: the timer when the trigger is taken. -/
def EpochTimer.triggered (now : Time) (t : EpochTimer) : EpochTimer :=
  { t with running := true, stall := .armed, epoch := 0, lastEpochAt := now, lastEdgeAt := now, syncCount := 0 }

/-- R49: HOLDING with HOLD_BEGUN if any latch is set, RUNNING otherwise. -/
def enterRun (s : State) : State :=
  if s.run.anyLatch then raise .holdBegun (s.onRun fun c => { c with state := .holding, trigger := none })
  else s.onRun fun c => { c with state := .running, trigger := none }

/-- R49: the trigger is taken, and epoch 1 occurs. HOLD_BEGUN is raised before the number becomes 1, so a notice it readies carries epoch
number 0 (R186; log 28). -/
def takeTrigger (order : EpochOrder) (s : State) : State :=
  epochEvent order (enterRun (s.onTimer (EpochTimer.triggered s.now)))

/-- R49: the event of a trigger source comes. -/
def triggerOn (t : Trigger) (order : EpochOrder) (s : State) : State :=
  if s.run.state = .armed ∧ s.run.trigger = some t then takeTrigger order s else s

/-! ## Epoch sources (R45) -/

/-- R45: the INTERNAL period runs from the last epoch. -/
def periodEnd (t : EpochTimer) : Time :=
  t.lastEpochAt + ms t.period

/-- R45: the INTERNAL period expires (log 3). -/
def periodExpiry (order : EpochOrder) (s : State) : State :=
  if s.timer.running = true ∧ s.timer.source = .internal then epochEvent order (s.atTime (periodEnd s.timer)) else s

/-- R45: an edge of EPOCH_IN, `since` after the previous accepted edge, is accepted from 10 ms on. -/
def epochEdge (since : Time) (order : EpochOrder) (s : State) : State :=
  if s.timer.running = true ∧ s.timer.source = .epochLine then
    let s' := s.atTime (s.timer.lastEdgeAt + since)
    if s.timer.lastEdgeAt + ms 10 ≤ s'.now then
      epochEvent order (s'.onTimer fun t => { t with lastEdgeAt := s'.now })
    else s'
  else s

/-- R45: a frame sync is counted, and every N-th one is an epoch. -/
def countSync (order : EpochOrder) (s : State) : State :=
  if s.timer.running = true ∧ s.timer.source = .sensor then
    if s.timer.divisor ≤ s.timer.syncCount + 1 then epochEvent order s
    else s.onTimer fun t => { t with syncCount := t.syncCount + 1 }
  else s

/-- R49, R61: a frame sync is the trigger, or else is counted. -/
def syncEvent (order : EpochOrder) (s : State) : State :=
  if s.run.state = .armed ∧ s.run.trigger = some .firstFrame then takeTrigger order s else countSync order s

/-- R61: the frame in progress, if any, closes short. -/
def closeFrame (frame : Option (List Half)) (s : State) : State :=
  match frame with
  | some words => processFrame words s
  | none => s

/-- R61: a frame sync begins a new frame and restarts the loss measure, at an enabled port. -/
def beginFrame (s : State) : State :=
  s.onSky fun u => { u with frame := some [], loss := .armed, measureFrom := s.now }

/-- R61: a frame sync taken at the enabled port. One that comes past the loss limit finds the monitor tripped (R63). The short frame and
the epoch or trigger come in the order the operand gives (log 4). -/
def frameSync (frameFirst : Bool) (order : EpochOrder) (s : State) : State :=
  if s.sky.enabled then
    let v := tripLossDue s
    if frameFirst then syncEvent order (closeFrame v.sky.frame (beginFrame v))
    else closeFrame v.sky.frame (syncEvent order (beginFrame v))
  else s

/-! ## SET_EPOCH (R44) -/

/-- R44: the ranges of period and divisor. -/
def timingInRange (period divisor : Nat) : Bool :=
  inRange 10 1000 period && period % 10 == 0 && inRange 1 16 divisor

/-- SET_EPOCH (R44). -/
def serveSetEpoch (source : Byte) (period : Half) (divisor : Byte) (s : State) : Served :=
  match EpochSource.ofCode source with
  | none => refuse .badValue s
  | some src =>
    if !timingInRange period.toNat divisor.toNat then refuse .badValue s
    else if s.run.state ≠ .stopped then refuse .wrongState s
    else served (s.onTimer fun t => { t with source := src, period := period.toNat, divisor := divisor.toNat })

/-! ## START (R48) -/

/-- R94, R104: what START does to the Governor after the adoption. -/
def Governor.restarted (g : Governor) : Governor :=
  { g with window := [], lastBand := none, source := .waiting, upBreaches := 0, downBreaches := 0, overruns := 0,
           heldTarget := none }

/-- R160: the outbound queue at START; the marker rule's memory of the old run goes with it (log 13). -/
def clearRun (s : State) : State :=
  (dropQueue s).onRing fun r => { r with lastMark := none }

/-- R48: the effects of START up to the recording of the trigger. -/
def prepareRun (s : State) : State :=
  (startNodes (startBlocks (clearRun (emptyWarnings ((adopt s).onGov Governor.restarted))))).onTimer fun t =>
    { t with epoch := 0 }

/-- R48, R49: an IMMEDIATE trigger is taken within the request; otherwise the part waits in ARMED. -/
def startWith (t : Trigger) (order : EpochOrder) (s : State) : State :=
  match t with
  | .immediate => takeTrigger order (prepareRun s)
  | .startLine | .firstFrame => (prepareRun s).onRun fun c => { c with state := .armed, trigger := some t }

/-- START (R48). -/
def serveStart (trigger : Byte) (order : EpochOrder) (s : State) : Served :=
  match Trigger.ofCode trigger with
  | none => refuse .badValue s
  | some t =>
    if s.run.state ≠ .stopped then refuse .wrongState s
    else if s.store.configured = false then refuse .notConfigured s
    else served (startWith t order s)

/-! ## STOP (R50, R51) -/

/-- R50: STOP taken in ARMED. -/
def disarm (s : State) : State :=
  s.onRun fun c => { c with state := .stopped, trigger := none }

/-- R50, R27, R139: STOP taken in RUNNING or HOLDING, less the packets of R51. -/
def endRun (s : State) : State :=
  stopStorage (stopBlocks (dropQueue (abandonDispatch
    ((s.onRun fun c => { c with state := .stopped }).onTimer fun t => { t with running := false, stall := .disarmed }))))

/-- R51, R160: the release of one block that was CAPPED goes to the tail with the label it is given, never late. After the removals
of R50 the queue has room for it, and holds no CAP that it would replace (R157). -/
def sendRelease (label : Epoch) (s : State) (b : BlockIx) : State :=
  let same := OwnPacket.isCapAt b label
  if s.ring.queue.any same || hasRoom s.ring.queue then
    capEnters b label 0 (s.onRing fun r => { r with queue := enqueue same (.cap b label none 0) r.queue })
  else s

/-- R51, R160: the storage release. -/
def sendStorageRelease (label : Epoch) (s : State) : State :=
  let same := OwnPacket.isStoreAt label
  if s.ring.queue.any same || hasRoom s.ring.queue then
    storeEnters label 0 (s.onRing fun r => { r with queue := enqueue same (.store label 0 0) r.queue })
  else s

/-- R51: the releases, the storage release and the closing MARK, at the tail. -/
def sendReleases (label : Epoch) (blocks : List BlockIx) (s : State) : State :=
  (sendStorageRelease label (blocks.foldl (sendRelease label) s)).onRing fun r => { r with queue := r.queue ++ [.mark label] }

/-- R50, R51. -/
def stopRun (release : Bool) (s : State) : State :=
  if release ∧ s.ring.state = .up then sendReleases (s.timer.epoch + 1) s.table.capped (endRun s) else endRun s

/-- STOP (R50). -/
def serveStop (option : Byte) (s : State) : Served :=
  match stopReleaseOfCode option with
  | none => refuse .badValue s
  | some release =>
    match s.run.state with
    | .stopped => refuse .wrongState s
    | .armed => served (disarm s)
    | .running | .holding => served (stopRun release s)

/-! ## The rows -/

def execSetEpoch (tag source : Byte) (period : Half) (divisor : Byte) (s : State) : Result :=
  execRequest 0x0C tag (serveSetEpoch source period divisor) s

def execStart (tag trigger : Byte) (order : EpochOrder) (s : State) : Result :=
  execRequest 0x0D tag (serveStart trigger order) s

def execStop (tag option : Byte) (s : State) : Result :=
  execRequest 0x0E tag (serveStop option) s

def execInternalPeriodExpiry (order : EpochOrder) (s : State) : Result :=
  execEvent (periodExpiry order) s

def execEpochInEdge (since : Time) (order : EpochOrder) (s : State) : Result :=
  execEvent (epochEdge since order) s

def execEpochStall (s : State) : Result :=
  execEvent tripStall s

def execStartInEdge (order : EpochOrder) (s : State) : Result :=
  execEvent (triggerOn .startLine order) s

def execSensorFrameSync (frameFirst : Bool) (order : EpochOrder) (s : State) : Result :=
  execEvent (frameSync frameFirst order) s

end Sys2Proof.Machine
end

