-- ==== Sys2Proof/Machine/HostLink.lean ====
section
/-! DEFINITION. The Host Link Port (spec/11_host_link_conditions_and_notices.md, R178 to R182, R189): the receiver, complete frames,
requests taken and held, the transmitter, and the full reset. -/

namespace Sys2Proof.Machine

/-! ## The owners of the requests (R181, 11.4) -/

/-- RESET (R189): the full reset waits for the reply to leave. -/
def serveReset (s : State) : Served :=
  served (s.onLink fun l => { l with resetScheduled := true })

/-- The request index: each request goes to its owner. `order` is used by an IMMEDIATE START alone (log 4). -/
def serve (order : EpochOrder) (r : Request) (s : State) : Served :=
  match r with
  | .enroll b rated g => serveEnroll b rated g s
  | .profile b rated g => serveProfile b rated g s
  | .withdraw b => serveWithdraw b s
  | .pin b cap => servePin b cap s
  | .unpin b => serveUnpin b s
  | .bar b => serveBar b s
  | .unbar b => serveUnbar b s
  | .readBlock b => serveReadBlock b s
  | .setPlant body => serveSetPlant body s
  | .setGroup g body => serveSetGroup g body s
  | .readSettings => serveReadSettings s
  | .setEpoch source period divisor => serveSetEpoch source period divisor s
  | .start t => serveStart t order s
  | .stop o => serveStop o s
  | .clearHold l => serveClearHold l s
  | .setSensor period enable => serveSetSensor period enable s
  | .loadStation t body => serveLoadStation t body s
  | .readStation t => serveReadStation t s
  | .leadsBegin => serveLeadsBegin s
  | .leadsAdd entries => serveLeadsAdd entries s
  | .leadsCommit => serveLeadsCommit s
  | .flushWarnings => serveFlushWarnings s
  | .readWarning i => serveReadWarning i s
  | .readPlant => serveReadPlant s
  | .readNodes => serveReadNodes s
  | .probeRing => serveProbeRing s
  | .loadRing ids => serveLoadRing ids s
  | .readRing => serveReadRing s
  | .alertTake c => serveAlertTake c s
  | .alertPeek c i => serveAlertPeek c i s
  | .alertFlush c => serveAlertFlush c s
  | .readConditions => serveReadConditions s
  | .clearConditions w => serveClearConditions w s
  | .setNoticeMask w => serveSetNoticeMask w s
  | .noticeRearm => serveNoticeRearm s
  | .reset => serveReset s

/-- R181: BAD_KIND, BAD_LENGTH, then the owner's checks and effects. -/
def serveHostRequest (order : EpochOrder) (r : HostRequest) (s : State) : Served :=
  match Request.parse r.kind r.body with
  | .ok q => serve order q s
  | .error st => refuse st s

/-- R181: a request received as a frame is taken. -/
def takeHostRequest (order : EpochOrder) (r : HostRequest) (s : State) : State :=
  takeRequest r.kind r.tag (serveHostRequest order r) s

/-! ## In hand and waiting (R180) -/

/-- R180: a request is in hand or a reply waits to be sent; with a RESET taken no further request is (R189). -/
def HostLink.busy (l : HostLink) : Bool :=
  l.inHand.isSome || l.resetScheduled || l.waiting.any fun f => !f.isNotice

/-- R180: a request in the holding slot is taken once the one in hand has left that role. -/
def takeHeld (order : EpochOrder) (s : State) : State :=
  match s.link.holding with
  | some r => if s.link.busy then s else takeHostRequest order r (s.onLink fun l => { l with holding := none })
  | none => s

/-- R180: a complete request is taken, held or dropped. -/
def acceptRequest (order : EpochOrder) (r : HostRequest) (s : State) : State :=
  if s.link.holding.isSome then linkError s
  else if s.link.busy then s.onLink fun l => { l with holding := some r }
  else takeHostRequest order r s

/-! ## Frames (R178, R179) -/

/-- 12.1: the CRC of a received frame matches. -/
def frameCrcMatches (f : RxFrame) : Bool :=
  crc16 (BitVec.ofNat 8 f.body.length :: f.kind :: f.tag :: f.body) == crcOf f.crcHigh f.crcLow

/-- R178: the receiver goes back to HUNT. -/
def huntAgain (s : State) : State :=
  s.onLink fun l => { l with receiver := .hunt }

/-- R178: a frame is abandoned. -/
def abandonFrame (s : State) : State :=
  linkError (huntAgain s)

/-- R178 to R180: a frame is complete. One whose length byte would be above 250 has been abandoned at that byte, and one whose CRC
does not match or whose kind is no request's is dropped and counted. A held request that is due is taken first (log 7). Bytes that the
receiver has in COLLECT, be their gap past 5 ms or not, are dropped uncounted, and the receiver hunts (log 32). -/
def frameComplete (f : RxFrame) (order : EpochOrder) (s : State) : State :=
  let s' := takeHeld order (huntAgain s)
  if wfFrame f && frameCrcMatches f && decide (f.kind.toNat < 0x7F) then
    acceptRequest order { kind := f.kind, tag := f.tag, body := f.body } s'
  else linkError s'

/-- The frame that the bytes after the start byte spell, once they are all there. -/
def frameOf (bytes : List Byte) : RxFrame :=
  { kind := byteAt bytes 1, tag := byteAt bytes 2, body := fieldAt bytes 3 (byteAt bytes 0).toNat,
    crcHigh := byteAt bytes ((byteAt bytes 0).toNat + 3), crcLow := byteAt bytes ((byteAt bytes 0).toNat + 4) }

/-- R178: a byte in COLLECT, with a stop bit. `bytes` are those after the start byte, the new one among them. -/
def collectByte (bytes : List Byte) (order : EpochOrder) (s : State) : State :=
  if 250 < (byteAt bytes 0).toNat then abandonFrame s
  else if bytes.length < (byteAt bytes 0).toNat + 5 then
    s.onLink fun l => { l with receiver := .collect bytes s.now }
  else frameComplete (frameOf bytes) order s

/-- R178: the instant at which more than 5 ms have passed since the gap timer was restarted. -/
def gapTime (last : Time) : Time :=
  last + ms 5 + 1

/-- R178: the gap timer runs out (log 3). -/
def gapTimeout (s : State) : State :=
  match s.link.receiver with
  | .collect _ last => abandonFrame (s.atTime (gapTime last))
  | .hunt => s

/-- R178: a gap that has already lasted more than 5 ms ends the frame before the next byte. -/
def gapIfDue (s : State) : State :=
  match s.link.receiver with
  | .collect _ last => if gapTime last ≤ s.now then gapTimeout s else s
  | .hunt => s

/-- R178: the receiver's table. -/
def receiveByte (byte : Byte) (stopBit : Bool) (order : EpochOrder) (s : State) : State :=
  let s' := gapIfDue s
  match s'.link.receiver with
  | .hunt =>
    if stopBit && byte == 0xC3#8 then s'.onLink fun l => { l with receiver := .collect [] s'.now } else s'
  | .collect bytes _ => if stopBit then collectByte (bytes ++ [byte]) order s' else abandonFrame s'

/-! ## Full reset (R189) -/

/-- R189: every block at its reset values, with RING_SIG as it stands and the straps as given. The queue of commands and the clock
are outside the part. -/
def fullReset (p : Straps) (s : State) : State :=
  .afterReset s.pending s.now s.freeCount s.ring.signalSeen p

/-- R189: RESET_N goes low and the part is held in reset; the straps are read when it returns high (log 9). -/
def holdInReset (s : State) : State :=
  if s.resetLow then s
  else { (fullReset s.straps s).onLink fun l => { l with rate := s.link.rate } with resetLow := true }

/-- R189: RESET_N returns high. -/
def leaveReset (p : Straps) (s : State) : State :=
  if s.resetLow then fullReset p s else s

/-- R182, R189: the frame being sent is the OK reply of the RESET taken. A refusal of an earlier RESET frame is another reply. -/
def resetReplyLeaving (l : HostLink) : Bool :=
  l.resetScheduled &&
    match l.sending with
    | some f => f == replyFrame 0x24 f.tag .ok []
    | none => false

/-- R189: the last byte of the reply to RESET has left. -/
def finishReset (p : Straps) (s : State) : State :=
  if resetReplyLeaving s.link then fullReset p s else s

/-! ## The transmitter (R182) -/

/-- R182, R180: the next waiting frame begins; a reply that begins takes its request out of hand. -/
def HostLink.nextFrame (l : HostLink) : HostLink :=
  match l.waiting with
  | [] => { l with sending := none }
  | f :: rest => { l with sending := some f, waiting := rest, inHand := if f.isNotice then l.inHand else none }

/-- R182, R189: the frame being sent has ended. -/
def frameSent (s : State) : State :=
  if resetReplyLeaving s.link then finishReset s.straps s else s.onLink HostLink.nextFrame

/-! ## The rows -/

def execReset (tag : Byte) (s : State) : Result :=
  execRequest 0x24 tag serveReset s

def execHostFrameComplete (frame : RxFrame) (order : EpochOrder) (s : State) : Result :=
  execEvent (frameComplete frame order) s

def execHostFrameGapTimeout (s : State) : Result :=
  execEvent gapTimeout s

def execHeldRequestTaken (order : EpochOrder) (s : State) : Result :=
  execEvent (takeHeld order) s

def execHostFrameSent (s : State) : Result :=
  execEvent frameSent s

def execHostByteReceived (byte : Byte) (stopBit : Bool) (order : EpochOrder) (s : State) : Result :=
  execEvent (receiveByte byte stopBit order) s

def execResetReplySent (straps : Straps) (s : State) : Result :=
  execEvent (finishReset straps) s

def execResetNAsserted (s : State) : Result :=
  .next (holdInReset s)

def execResetNReleased (straps : Straps) (s : State) : Result :=
  .next (leaveReset straps s)

end Sys2Proof.Machine
end

