-- ==== Sys2Proof/Machine/Clock.lean ====
section
/-! DEFINITION. The model's clock (logs 1, 3, 7): what happens by itself. On an empty queue the clock advances by one microsecond, and
the commands of the part's own timers that are due then, and of the steps it takes at once, enter the queue. -/

namespace Sys2Proof.Machine

/-- A command that is due if `p` holds. -/
def dueIf (p : Bool) (c : Instr) : List Instr :=
  if p then [c] else []

/-- R178. -/
def gapDue (s : State) : Bool :=
  match s.link.receiver with
  | .collect _ last => gapTime last ≤ s.now
  | .hunt => false

/-- R45. -/
def periodDue (s : State) : Bool :=
  s.timer.running && s.timer.source == .internal && decide (periodEnd s.timer ≤ s.now)

/-- R145. -/
def settleDue (s : State) : Bool :=
  s.ring.state == .down && s.ring.signalSeen && !s.ring.nodes.isEmpty && decide (settleTime s.ring ≤ s.now)

/-- R146, R148. -/
def windowDue (s : State) : Bool :=
  match s.ring.probe with
  | .outstanding _ at_ false => windowTime at_ ≤ s.now
  | _ => false

/-- R146. -/
def retryDue (s : State) : Bool :=
  match s.ring.state, s.ring.probe with
  | .probing, .outstanding _ at_ true => retryTime at_ ≤ s.now
  | _, _ => false

/-- R180. -/
def heldDue (s : State) : Bool :=
  s.link.holding.isSome && !s.link.busy

/-- R125: the waiting packet can enter. -/
def stagingDue (s : State) : Bool :=
  match s.gov.phase with
  | .staging o _ _ (d :: _) _ =>
    match d with
    | .store _ => storeAdmissible (o.epoch + 1) s.ring
    | .capture b _ _ | .capChange b _ _ | .release b _ => capAdmissible b (o.epoch + 1) s.ring
  | _ => false

/-- R155: the port is idle and a packet waits. -/
def portDue (s : State) : Bool :=
  s.ring.sending.isNone && (!s.ring.forward.isEmpty || !s.ring.queue.isEmpty)

/-- The commands that are due. -/
def dueCommands (s : State) : List Instr :=
  dueIf (gapDue s) .hostFrameGapTimeout
    ++ dueIf (periodDue s) (.internalPeriodExpiry (Config.epochOrder s.now))
    ++ dueIf (stallDue s) .epochStall
    ++ dueIf (lossDue s) .sensorLoss
    ++ dueIf (settleDue s) .ringSettled
    ++ dueIf (windowDue s) .probeWindowExpiry
    ++ dueIf (retryDue s) .probeRetryExpiry
    ++ dueIf (heldDue s) (.heldRequestTaken (Config.epochOrder s.now))
    ++ dueIf (stagingDue s) .stagingResumed
    ++ dueIf (portDue s) .outPortFree

/-- One microsecond passes. While RESET_N is low nothing is due (R189). -/
def tick (s : State) : State :=
  let s' := { s with now := s.now + 1 }
  if s.resetLow then s' else { s' with pending := dueCommands s' }

end Sys2Proof.Machine
end

