-- ==== Sys2Proof/Machine/Dispatch.lean ====
section
/-! DEFINITION. One arm per command. -/

namespace Sys2Proof.Machine

def exec (i : Instr) (s : State) : Host.Outcome State Fault Refusal :=
  match i with
  | .enroll tag block rated group => Sys2Proof.Machine.execEnroll tag block rated group s
  | .profile tag block rated group => Sys2Proof.Machine.execProfile tag block rated group s
  | .withdraw tag block => Sys2Proof.Machine.execWithdraw tag block s
  | .pin tag block cap => Sys2Proof.Machine.execPin tag block cap s
  | .unpin tag block => Sys2Proof.Machine.execUnpin tag block s
  | .bar tag block => Sys2Proof.Machine.execBar tag block s
  | .unbar tag block => Sys2Proof.Machine.execUnbar tag block s
  | .readBlock tag block => Sys2Proof.Machine.execReadBlock tag block s
  | .setPlant tag body => Sys2Proof.Machine.execSetPlant tag body s
  | .setGroup tag group body => Sys2Proof.Machine.execSetGroup tag group body s
  | .readSettings tag => Sys2Proof.Machine.execReadSettings tag s
  | .setEpoch tag source period divisor => Sys2Proof.Machine.execSetEpoch tag source period divisor s
  | .start tag trigger order => Sys2Proof.Machine.execStart tag trigger order s
  | .stop tag option => Sys2Proof.Machine.execStop tag option s
  | .clearHold tag line => Sys2Proof.Machine.execClearHold tag line s
  | .setSensor tag period enable => Sys2Proof.Machine.execSetSensor tag period enable s
  | .loadStation tag station body => Sys2Proof.Machine.execLoadStation tag station body s
  | .readStation tag station => Sys2Proof.Machine.execReadStation tag station s
  | .leadsBegin tag => Sys2Proof.Machine.execLeadsBegin tag s
  | .leadsAdd tag entries => Sys2Proof.Machine.execLeadsAdd tag entries s
  | .leadsCommit tag => Sys2Proof.Machine.execLeadsCommit tag s
  | .flushWarnings tag => Sys2Proof.Machine.execFlushWarnings tag s
  | .readWarning tag index => Sys2Proof.Machine.execReadWarning tag index s
  | .readPlant tag => Sys2Proof.Machine.execReadPlant tag s
  | .readNodes tag => Sys2Proof.Machine.execReadNodes tag s
  | .probeRing tag => Sys2Proof.Machine.execProbeRing tag s
  | .loadRing tag ids => Sys2Proof.Machine.execLoadRing tag ids s
  | .readRing tag => Sys2Proof.Machine.execReadRing tag s
  | .alertTake tag cls => Sys2Proof.Machine.execAlertTake tag cls s
  | .alertPeek tag cls index => Sys2Proof.Machine.execAlertPeek tag cls index s
  | .alertFlush tag cls => Sys2Proof.Machine.execAlertFlush tag cls s
  | .readConditions tag => Sys2Proof.Machine.execReadConditions tag s
  | .clearConditions tag named => Sys2Proof.Machine.execClearConditions tag named s
  | .setNoticeMask tag mask => Sys2Proof.Machine.execSetNoticeMask tag mask s
  | .noticeRearm tag => Sys2Proof.Machine.execNoticeRearm tag s
  | .reset tag => Sys2Proof.Machine.execReset tag s
  | .hostFrameComplete frame order => Sys2Proof.Machine.execHostFrameComplete frame order s
  | .hostFrameGapTimeout => Sys2Proof.Machine.execHostFrameGapTimeout s
  | .heldRequestTaken order => Sys2Proof.Machine.execHeldRequestTaken order s
  | .hostFrameSent => Sys2Proof.Machine.execHostFrameSent s
  | .resetReplySent straps => Sys2Proof.Machine.execResetReplySent straps s
  | .resetNAsserted => Sys2Proof.Machine.execResetNAsserted s
  | .resetNReleased straps => Sys2Proof.Machine.execResetNReleased straps s
  | .internalPeriodExpiry order => Sys2Proof.Machine.execInternalPeriodExpiry order s
  | .epochInEdge since order => Sys2Proof.Machine.execEpochInEdge since order s
  | .epochStall => Sys2Proof.Machine.execEpochStall s
  | .startInEdge order => Sys2Proof.Machine.execStartInEdge order s
  | .holdLineAsserted line => Sys2Proof.Machine.execHoldLineAsserted line s
  | .holdLineInactive line => Sys2Proof.Machine.execHoldLineInactive line s
  | .dispatchComputingEnd => Sys2Proof.Machine.execDispatchComputingEnd s
  | .stagingResumed => Sys2Proof.Machine.execStagingResumed s
  | .sensorFrameSync frameFirst order => Sys2Proof.Machine.execSensorFrameSync frameFirst order s
  | .sensorFrameFull word => Sys2Proof.Machine.execSensorFrameFull word s
  | .sensorLoss => Sys2Proof.Machine.execSensorLoss s
  | .ringSignalLoss => Sys2Proof.Machine.execRingSignalLoss s
  | .ringSignalPresent => Sys2Proof.Machine.execRingSignalPresent s
  | .ringSettled => Sys2Proof.Machine.execRingSettled s
  | .probeWindowExpiry => Sys2Proof.Machine.execProbeWindowExpiry s
  | .probeRetryExpiry => Sys2Proof.Machine.execProbeRetryExpiry s
  | .ringPacketReceived bytes => Sys2Proof.Machine.execRingPacketReceived bytes s
  | .outPortFree => Sys2Proof.Machine.execOutPortFree s
  | .hostByteReceived byte stopBit order => Sys2Proof.Machine.execHostByteReceived byte stopBit order s
  | .sensorWordReceived word => Sys2Proof.Machine.execSensorWordReceived word s

end Sys2Proof.Machine
end

