-- ==== Sys2Proof/Safety.lean ====
section
/-! DEFINITION. What the statements speak of: the invariants the manual gives the state, when a request can be taken, how it is
answered, and what a command leaves unchanged. -/

namespace Sys2Proof.Machine

/-! ## Invariants -/

/-- R4: the capped list holds exactly the CAPPED blocks and the rotation queue exactly the FREE blocks, each once. -/
def CollectionsAgree (t : BlockTable) : Prop :=
  t.capped.Nodup ∧ t.rotation.Nodup ∧ (∀ b : BlockIx, b ∈ t.capped ↔ t.blocks[b].state = .capped)
    ∧ ∀ b : BlockIx, b ∈ t.rotation ↔ t.blocks[b].state = .free

/-- R157: two CAPs for one block with one label, or two STOREs with one label. -/
def OwnPacket.sameTarget : OwnPacket → OwnPacket → Bool
  | .cap b l _ _, .cap b' l' _ _ => b == b' && l == l'
  | .store l _ _, .store l' _ _ => l == l'
  | _, _ => false

/-- The label of a CAP or STORE. -/
def OwnPacket.label? : OwnPacket → Option Epoch
  | .cap _ l _ _ => some l
  | .store l _ _ => some l
  | _ => none

/-- R142, R156, R157: at most one MARK and 63 other packets; at most one CAP for a block and label, and one STORE for a label; while the
ring is not UP nothing but PROBEs, and nothing at all in DOWN; one PROBE exactly while the probe record is QUEUED (R146, R149). -/
def QueueLawful (r : RingController) : Prop :=
  (r.queue.filter OwnPacket.isMark).length ≤ 1 ∧ (r.queue.filter fun p => !p.isMark).length ≤ 63
    ∧ (r.state ≠ .up → ∀ p ∈ r.queue, p.isProbe = true) ∧ (r.state = .down → r.queue = [] ∧ r.probe = .absent)
    ∧ (r.queue.filter OwnPacket.isProbe).length = (if r.probe = .queued then 1 else 0)
    ∧ r.queue.Pairwise fun p q => p.sameTarget q = false

/-- R156: packet `q` may stand behind packet `p`: it is no CAP or STORE behind a MARK whose epoch is equal to or later than its label. -/
def MayFollow (p q : OwnPacket) : Prop :=
  ∀ e l : Epoch, p = .mark e → q.label? = some l → atOrAfter e l = false

/-- R156, R158, R160: no CAP or STORE stands behind a MARK whose epoch is equal to or later than its label. Outside STOPPED a MARK in the
queue is the last one placed, by which offers are judged late (R159, log 13). -/
def MarksLead (run : RunState) (r : RingController) : Prop :=
  r.queue.Pairwise MayFollow ∧ (run ≠ .stopped → ∀ e, .mark e ∈ r.queue → r.lastMark = some e)

/-- R186, R188: while the gate is OPEN no condition is both set and in the mask. -/
def GateQuiet (c : ConditionUnit) : Prop :=
  c.gate = .opened → c.conditions &&& c.mask = 0

/-- R172, R173: each level condition is set exactly while its queue holds an entry, and the queues keep their bounds. -/
def LevelsFollow (s : State) : Prop :=
  ∀ c : AlertClass, conditionSet s.cond.conditions c.level = !(s.alerts.get c).entries.isEmpty
    ∧ (s.alerts.get c).entries.length ≤ alertCapacity ∧ (s.alerts.get c).overflow ≤ 255

/-- R43, R46, R47, R104: the timer runs in RUNNING and HOLDING and in no other run state, the stall monitor is disarmed while it
does not run, a start trigger is held exactly in ARMED, and no dispatch is in flight in STOPPED or ARMED. -/
def RunLawful (s : State) : Prop :=
  s.timer.running = s.run.state.inRun ∧ (s.timer.stall ≠ .disarmed → s.timer.running = true)
    ∧ (s.run.trigger.isSome = true ↔ s.run.state = .armed) ∧ (s.gov.phase ≠ .idle → s.run.state.inRun = true)

/-- R58, R60: while the port is disabled there is no frame in progress and the loss monitor is disarmed; a frame in progress has not
closed full. -/
def PortLawful (u : SkyUnit) : Prop :=
  (u.loss = .disarmed ↔ u.enabled = false) ∧ ∀ words, u.frame = some words → u.enabled = true ∧ words.length < frameSlots

/-- R66, R72: the ranges of a station record's fields. -/
def Station.InRange (st : Station) : Prop :=
  st.slot ≤ 63 ∧ st.historyLength ≤ 32 ∧ (8 ≤ st.drop ∧ st.drop ≤ 255) ∧ (1 ≤ st.persistence ∧ st.persistence ≤ 15)
    ∧ (8 ≤ st.clear ∧ st.clear ≤ 255) ∧ (∀ x ∈ st.history, x ≤ 1600) ∧ (∀ r, st.reference = some r → 1 ≤ r ∧ r ≤ 1600)
    ∧ (∀ d, st.depth = some d → 1 ≤ d ∧ d ≤ 255) ∧ ∀ n, st.pendingCount = some n → 1 ≤ n ∧ n < st.persistence

/-- R65, R66, R70: what a station record holds, by its detector state. -/
def Station.Lawful (st : Station) : Prop :=
  st.InRange ∧ 4 ≤ st.historyLength ∧ st.history.length ≤ st.historyLength
    ∧ (st.reference.isSome = true ↔ st.detector = .pending ∨ st.detector = .shaded)
    ∧ (st.depth.isSome = true ↔ st.detector = .pending ∨ st.detector = .shaded)
    ∧ (st.pendingCount.isSome = true ↔ st.detector = .pending) ∧ st.invalidRun ≤ 5
    ∧ (st.detector = .lost ↔ st.invalidRun = 5)

/-- R58, R66: the port and every station record, and no two enabled stations with one slot. -/
def SkyLawful (u : SkyUnit) : Prop :=
  PortLawful u ∧ (∀ t : StationIx, u.stations[t].Lawful)
    ∧ ∀ t x : StationIx, t ≠ x → u.stations[t].enabled = true → u.stations[x].enabled = true →
        u.stations[t].slot ≠ u.stations[x].slot

/-- R77: the limits of a lead map. -/
def MapLawful (map : List LeadEntry) : Prop :=
  map.length ≤ leadCapacity ∧ (∀ t : StationIx, (entriesOf t map).length ≤ leadsPerStation)
    ∧ map.Pairwise (fun a b => b.samePair a = false) ∧ ∀ x ∈ map, 1 ≤ x.lead ∧ x.lead ≤ 255

/-- R76, R77, R82 to R84: both lead maps within their limits; at most 32 warnings, one for each station, with distinct IDs from 1 to
255 and 1 to 8 arrivals. -/
def FrontLawful (f : FrontTracker) : Prop :=
  MapLawful f.active ∧ MapLawful f.staging ∧ f.warnings.length ≤ warningCapacity
    ∧ (f.warnings.map (·.station)).Nodup ∧ (f.warnings.map (·.id)).Nodup
    ∧ (∀ w ∈ f.warnings, (1 ≤ w.id ∧ w.id ≤ 255) ∧ 1 ≤ w.arrivals.length ∧ w.arrivals.length ≤ leadsPerStation)
    ∧ 1 ≤ f.nextId ∧ f.nextId ≤ 255

/-- R83: a station's warning held flag is set while the list holds a warning of that station, and clear otherwise. -/
def FlagsFollow (s : State) : Prop :=
  ∀ x : StationIx, (s.station x).warningHeld = s.front.warnings.any fun w => w.station == x

/-- R82, R85, R89: a warning that has not expired at epoch e. It was opened less than 255 epochs before, its arrivals lie 1 to 255 epochs
after its opening, and its earliest arrival is the first of them. -/
def WarningStands (e : Epoch) (w : Warning) : Prop :=
  (e - w.opened).toNat < 255 ∧ (∃ a ∈ w.arrivals, a.2 = w.earliest)
    ∧ ∀ a ∈ w.arrivals, 1 ≤ (a.2 - w.opened).toNat ∧ (a.2 - w.opened).toNat ≤ 255
        ∧ (w.earliest - w.opened).toNat ≤ (a.2 - w.opened).toNat

/-- R83: warning v may stand ahead of warning w at epoch e: its earliest arrival is not later, and where the two are equal it was not
listed later. -/
def StandsAhead (e : Epoch) (v w : Warning) : Prop :=
  laterThan v.earliest w.earliest = false ∧ (v.earliest = w.earliest → (e - w.opened).toNat ≤ (e - v.opened).toNat)

/-- R82, R83, R89, R90: the warnings stand in order of earliest arrival, those of one arrival in the order in which they were listed. START
leaves none, and none is listed in ARMED. -/
def WarningsOrdered (s : State) : Prop :=
  (s.run.state = .armed → s.front.warnings = []) ∧ (∀ w ∈ s.front.warnings, WarningStands s.timer.epoch w)
    ∧ s.front.warnings.Pairwise (StandsAhead s.timer.epoch)

/-- R98, R99, R101: the ramp window holds at most the committed W samples, and a recorded band is never inverted. -/
def WindowLawful (g : Governor) : Prop :=
  (∀ p, g.plant = some p → g.window.length ≤ p.windowLength) ∧ ∀ b, g.lastBand = some b → b.low ≤ b.high

/-! ## Taking and answering -/

/-- The part takes requests: it is not held in reset, and no RESET waits to be carried out (R189). -/
def Ready (s : State) : Prop :=
  s.resetLow = false ∧ s.link.resetScheduled = false

/-- The part takes events: it is not held in reset (R189). -/
def Awake (s : State) : Prop :=
  s.resetLow = false

/-- R180 to R182: the request is in hand and its reply, the last frame readied, has been handed to the transmitter. -/
def Answered (kind tag : Byte) (st : Status) (data : List Byte) (s t : State) : Prop :=
  t.link = HostLink.ready (replyFrame kind tag st data) { s.link with inHand := some (kind, tag) }

/-- Only the Host Link Port changed: a read, or a refused request. -/
def OnlyLink (s t : State) : Prop :=
  t = { s with link := t.link }

/-- Only the Host Link Port and the Block Table changed, and of the Block Table only the record of `b` and the two collections. -/
def OnlyBlock (b : BlockIx) (s t : State) : Prop :=
  t = { s with link := t.link, table := t.table } ∧ (∀ x : BlockIx, x ≠ b → t.block x = s.block x)
    ∧ t.table.groupCapture = s.table.groupCapture

/-- The records of the blocks other than `b`, and the group capture records, as they stood. -/
def OthersKept (b : BlockIx) (s t : State) : Prop :=
  (∀ x : BlockIx, x ≠ b → t.block x = s.block x) ∧ t.table.groupCapture = s.table.groupCapture

/-- R4: the capped list and the rotation queue as they stood. -/
def CollectionsKept (s t : State) : Prop :=
  t.table.capped = s.table.capped ∧ t.table.rotation = s.table.rotation

/-- R181: the request is refused. The reply is the status alone, and nothing but the Host Link Port has changed. -/
def Refused (kind tag : Byte) (st : Status) (s t : State) : Prop :=
  OnlyLink s t ∧ Answered kind tag st [] s t

/-- R183: `c` is raised, and nothing else happens. RaiseFollowsTheGate says what a raise does, the notice it may ready included. -/
def OnlyRaised (c : Condition) (s t : State) : Prop :=
  t = raise c s

/-- R178, R179, R180: the receiver hunts, the link error count has grown by one, saturating, and LINK_ERROR is raised. -/
def LinkErrorTaken (s t : State) : Prop :=
  OnlyRaised .linkError
    { s with link := { s.link with receiver := .hunt, linkErrors := min (s.link.linkErrors + 1) 65535 } } t

/-- R180: a request is in hand, or a reply waits to be sent. -/
def PortBusy (s : State) : Prop :=
  s.link.inHand ≠ none ∨ ∃ f ∈ s.link.waiting, f.kind ≠ 0x7F#8

/-- R180: a complete request is taken at once: no request is in hand, no reply waits, and the holding slot is empty. -/
def PortFree (s : State) : Prop :=
  ¬PortBusy s ∧ s.link.holding = none

/-- R178: the receiver hunts again, and all else is as it was. -/
def Hunting (s : State) : State :=
  { s with link := { s.link with receiver := .hunt } }

/-- R182, R189: the OK reply of a RESET taken is the frame being sent. -/
def ResetReplyLeaving (s : State) : Prop :=
  s.link.resetScheduled = true ∧ ∃ tag, s.link.sending = some { kind := 0xA4#8, tag, body := [0#8] }

/-! ## The ring and its queue -/

/-- R159: two packets of one kind for one target, whatever their labels: CAPs for one block, or STOREs. -/
def OwnPacket.sameHolder : OwnPacket → OwnPacket → Bool
  | .cap b _ _ _, .cap b' _ _ _ => b == b'
  | .store .., .store .. => true
  | _, _ => false

/-- R126, R144: a dispatch that was STAGING as the ring left UP has completed with outcome RING_DOWN; any other stands. -/
def RingLeft (s u : State) : Prop :=
  (∀ o sup pl todo counts, s.ring.state = .up → s.gov.phase = .staging o sup pl todo counts →
    u.gov = { s.gov with
      phase := .idle,
      status := some { epoch := o.epoch, outcome := .ringDown, sample := o.sample, supply := some sup, plan := some pl,
                       hold := o.snapshot.hold, counts, discarded := todo.length } })
  ∧ (s.ring.state ≠ .up ∨ (∀ o sup pl todo counts, s.gov.phase ≠ .staging o sup pl todo counts) → u.gov = s.gov)

/-- R156, R157: the queue admits the CAP or STORE `p`: the ring is UP, and `p` replaces a queued packet or finds room. -/
def QueueAdmits (r : RingController) (p : OwnPacket) : Prop :=
  r.state = .up ∧ ((∃ q ∈ r.queue, q.sameTarget p = true) ∨ (r.queue.filter fun q => !q.isMark).length < 63)

/-- R156, R157, R159: packet `p`, offered with `label`, has entered the queue: at the tail, or in the place of the queued packet of its
target and label. Only a late packet counts, and raises CAP_LATE. -/
def QueueEntered (s u : State) (label : Epoch) (p : OwnPacket) : Prop :=
  u = { s with link := u.link, cond := u.cond, gov := u.gov, table := u.table, nodes := u.nodes,
               ring := { s.ring with queue := u.ring.queue, late := u.ring.late } }
    ∧ u.ring.queue = (if ∃ q ∈ s.ring.queue, q.sameTarget p = true
        then s.ring.queue.map (fun q => if q.sameTarget p then p else q) else s.ring.queue ++ [p])
    ∧ (lateLabel s.ring label = none → u.ring.late = s.ring.late ∧ u.link = s.link ∧ u.cond = s.cond)
    ∧ (lateLabel s.ring label ≠ none → u.ring.late = min (s.ring.late + 1) (2 ^ 32 - 1)
        ∧ u.link = (raise .capLate s).link ∧ u.cond = (raise .capLate s).cond)

/-- R14: a CAP offered with `label` has entered, and its block's record has followed. -/
def CapEntered (b : BlockIx) (label : Epoch) (limit : Option Nat) (lease : Nat) (s u : State) : Prop :=
  QueueEntered s u label (.cap b (enteringLabel s.ring label) limit lease) ∧ u.gov = s.gov ∧ u.nodes = s.nodes
    ∧ u.table = { s.table with blocks := u.table.blocks } ∧ (∀ x : BlockIx, x ≠ b → u.block x = s.block x)
    ∧ u.block b = { s.block b with capLabel := some (enteringLabel s.ring label),
                                   owed := (s.block b).owed || decide (lease ≠ 0) }

/-- R136: a STORE offered with `label` has entered, and the storage record has followed. -/
def StoreEntered (label : Epoch) (power : Int) (lease : Nat) (s u : State) : Prop :=
  QueueEntered s u label (.store (enteringLabel s.ring label) power lease) ∧ u.gov = s.gov ∧ u.table = s.table
    ∧ u.nodes = { s.nodes with storage := { s.nodes.storage with
        commanded := power, commandLabel := some (enteringLabel s.ring label),
        owed := s.nodes.storage.owed || decide (power ≠ 0) } }

/-! ## Epochs -/

/-- R48: the hold latch of a line after the adoption of START: a line that the adoption disables loses it, and one that it newly
enables while seen asserted gains it (R40, R52). -/
def adoptedLatch (before after : Bool) (h : HoldState) : Bool :=
  if before = true ∧ after = false then false
  else if before = false ∧ after = true ∧ h.seen = some .asserted then true
  else h.latch

/-- R49: the trigger has been taken, and epoch 1 is about to occur. -/
def TriggerTaken (s u : State) : Prop :=
  ∃ v, v = { s with
              timer := { s.timer with running := true, stall := .armed, epoch := 0, lastEpochAt := s.now,
                                      lastEdgeAt := s.now, syncCount := 0 },
              run := { s.run with state := if s.run.lineA.latch = true ∨ s.run.lineB.latch = true then .holding else .running,
                                  trigger := none } }
    ∧ u = if s.run.lineA.latch = true ∨ s.run.lineB.latch = true then raise .holdBegun v else v

/-! ## The rules of an epoch, one by one -/

/-- R53, R54: a line in EPOCH mode that is in force and is seen inactive. -/
def EpochLineEnds (plant : Option PlantRecord) (line : HoldLine) (h : HoldState) : Prop :=
  ∃ p, plant = some p ∧ (p.line line).enabled = true ∧ (p.line line).mode = .epoch ∧ h.latch = true ∧ h.seen = some .inactive

/-- R54: the Run Control epoch rule: first the latches, then the end of the hold. -/
def HoldRuleTaken (s t : State) : Prop :=
  ∃ (a b : Bool) (v : State),
    (a = true ↔ s.run.lineA.latch = true ∧ ¬EpochLineEnds s.gov.plant .a s.run.lineA)
    ∧ (b = true ↔ s.run.lineB.latch = true ∧ ¬EpochLineEnds s.gov.plant .b s.run.lineB)
    ∧ v = { s with run := { s.run with lineA := { s.run.lineA with latch := a }, lineB := { s.run.lineB with latch := b } } }
    ∧ (s.run.state = .holding → a = false → b = false →
        t = raise .holdEnded { v with run := { v.run with state := .running } })
    ∧ (s.run.state ≠ .holding ∨ a = true ∨ b = true → t = v)

/-- R89: the warnings that have expired at epoch e leave the list, and their stations no longer hold one. -/
def WarningsExpired (e : Epoch) (s t : State) : Prop :=
  t = { s with front := { s.front with warnings := s.front.warnings.filter fun w => !(w.arrivals.all fun a => atOrAfter e a.2) },
               sky := { s.sky with stations := t.sky.stations } }
    ∧ ∀ x : StationIx, t.station x = { s.station x with
        warningHeld := (s.station x).warningHeld
          && !(s.front.warnings.any fun w => w.station == x && w.arrivals.all fun a => atOrAfter e a.2) }

/-- R159: the late packet `p` at place `i` of the queue `q` is removed: the queue holds a packet of its kind and target with label
e + 1, or an earlier late packet of its kind and target, which has been given that label or found one that has it. -/
def lateRemoved (e : Epoch) (q : List OwnPacket) (p : OwnPacket) (i : Nat) : Bool :=
  q.any (p.sameTargetAt (e + 1)) || (q.take i).any fun r => r.lateAt e && r.sameHolder p

/-- R158, R159: the marker rule at epoch e, of a ring that is UP. `q` is the queue less its MARKs, and `moved` are the late packets that
are relabelled, as they were before. -/
def MarkerPlaced (e : Epoch) (s t : State) : Prop :=
  ∃ (q moved : List OwnPacket) (n : Nat) (v : State),
    q = s.ring.queue.filter (fun p => !p.isMark)
    ∧ moved = q.zipIdx.filterMap (fun x => if x.1.lateAt e && !lateRemoved e q x.1 x.2 then some x.1 else none)
    ∧ n = (s.ring.queue.filter OwnPacket.isMark).length + (q.filter (OwnPacket.lateAt e)).length
    ∧ v = { s with
              table := { s.table with blocks := v.table.blocks },
              nodes := { s.nodes with storage := { s.nodes.storage with commandLabel := v.nodes.storage.commandLabel } },
              ring := { s.ring with
                lastMark := some e,
                queue := .mark e :: q.zipIdx.filterMap fun x =>
                  if !x.1.lateAt e then some x.1 else if lateRemoved e q x.1 x.2 then none else some (x.1.relabel (e + 1)) } }
    ∧ (∀ b : BlockIx, ∃ l, v.block b = { s.block b with capLabel := l }
        ∧ ((∃ old limit lease, .cap b old limit lease ∈ moved ∧ (s.block b).capLabel = some old) → l = some (e + 1))
        ∧ ((∀ old limit lease, .cap b old limit lease ∈ moved → (s.block b).capLabel ≠ some old) → l = (s.block b).capLabel))
    ∧ ((∃ old power lease, .store old power lease ∈ moved ∧ s.nodes.storage.commandLabel = some old) →
        v.nodes.storage.commandLabel = some (e + 1))
    ∧ ((∀ old power lease, .store old power lease ∈ moved → s.nodes.storage.commandLabel ≠ some old) →
        v.nodes.storage.commandLabel = s.nodes.storage.commandLabel)
    ∧ (n = 0 → t = v)
    ∧ (n ≠ 0 → t = raise .capLate { v with ring := { v.ring with late := min (s.ring.late + n) (2 ^ 32 - 1) } })

/-- R26: a record that is silent at epoch e, under a silence limit. -/
def SilentAt (e : Epoch) (limit : Nat) (r : BlockRecord) : Prop :=
  r.state ∈ [BlockState.free, .capped, .resting, .pinned]
    ∧ ((∃ h, r.heard = some h ∧ limit < (e - h).toNat) ∨ (r.heard = none ∧ ∃ w, r.watch = some w ∧ limit < (e - w).toNat))

/-- R26: the Block Table's epoch rule: silence, watch epochs and rest. -/
def BlocksJudged (e : Epoch) (s t : State) : Prop :=
  ∀ p, s.gov.plant = some p → ∃ (silent rested unheard : BlockIx → Bool) (v : State),
    (∀ b, silent b = true ↔ SilentAt e p.silenceLimit (s.block b))
    ∧ (∀ b, rested b = true ↔ (s.block b).state = .resting ∧ silent b = false
        ∧ ∃ l f, (s.block b).lastRelease = some l ∧ (s.block b).profile = some f ∧ s.gov.groups[f.group].rest ≤ (e - l).toNat)
    ∧ (∀ b, unheard b = true ↔ (s.block b).state ≠ .empty ∧ (s.block b).heard = none ∧ (s.block b).watch = none)
    ∧ v = { s with table := v.table } ∧ v.table.groupCapture = s.table.groupCapture
    ∧ v.table.capped = s.table.capped.filter (fun b => !(silent b && (s.block b).state == .capped))
    ∧ v.table.rotation = s.table.rotation.filter (fun b => !(silent b && (s.block b).state == .free)) ++ allBlocks.filter rested
    ∧ (∀ b, (silent b = true → v.block b = { s.block b with
              state := .silent, cap := none, captureEpoch := none, leaseExpiry := none, owed := false, nonFollowRun := 0,
              revision := (s.block b).revision + 1 })
        ∧ (silent b = false → v.block b = { s.block b with
              watch := if unheard b then some e else (s.block b).watch, state := if rested b then .free else (s.block b).state,
              revision := if rested b then (s.block b).revision + 1 else (s.block b).revision }))
    ∧ ((∃ b, silent b = true) → t = raise .blockSilent v) ∧ ((∀ b, silent b = false) → t = v)

/-- R95, R111: a node counts as heard at epoch e. -/
def HeardAt (e : Epoch) (limit : Nat) (heard : Option Epoch) : Prop :=
  ∃ h, heard = some h ∧ (e - h).toNat ≤ limit

/-- R137: a node that moves into SILENT at epoch e. -/
def FallsSilent (e : Epoch) (limit : Nat) (hearing : Hearing) (heard : Option Epoch) : Prop :=
  (hearing = .heard ∧ ¬HeardAt e limit heard) ∨ (hearing = .waiting ∧ limit < e.toNat)

/-- R137, R138: the Node Records' epoch rule. -/
def NodesJudged (e : Epoch) (s t : State) : Prop :=
  ∀ p, s.gov.plant = some p → ∃ (m : MeterRecord) (v : State),
    (FallsSilent e p.silenceLimit s.nodes.meter.hearing s.nodes.meter.heard → m = { s.nodes.meter with hearing := .silent })
    ∧ (¬FallsSilent e p.silenceLimit s.nodes.meter.hearing s.nodes.meter.heard → m = s.nodes.meter)
    ∧ v = { s with nodes := { s.nodes with meter := m } }
    ∧ (FallsSilent e p.silenceLimit s.nodes.storage.hearing s.nodes.storage.heard →
        t = raise .storageSilent { v with nodes := { v.nodes with
              storage := { s.nodes.storage with hearing := .silent, leaseExpiry := none, owed := false } } })
    ∧ (¬FallsSilent e p.silenceLimit s.nodes.storage.hearing s.nodes.storage.heard → t = v)

/-! ### The Lease Scheduler's rule -/

/-- R163: a standing cap or command is due at epoch e, under lease length n. -/
def DueAt (e : Epoch) (n : Nat) (owed : Bool) (expiry : Option Epoch) : Prop :=
  owed = true ∨ expiry = none ∨ ∃ x, expiry = some x ∧ atOrAfter (e + BitVec.ofNat 32 (n / 2)) x = true

/-- R164: a label or expiry at epoch e, absent once it lies between 2^30 and 2^31 epochs back. -/
def agedField (e : Epoch) (x : Option Epoch) : Option Epoch :=
  x.filter fun l => decide ((e - l).toNat < 2 ^ 30) || decide (2 ^ 31 ≤ (e - l).toNat)

/-- R164: the ageing. -/
def LabelsAged (e : Epoch) (s t : State) : Prop :=
  t = { s with
        table := { s.table with blocks := t.table.blocks },
        nodes := { s.nodes with storage := { s.nodes.storage with
          commandLabel := agedField e s.nodes.storage.commandLabel, leaseExpiry := agedField e s.nodes.storage.leaseExpiry } } }
    ∧ ∀ b : BlockIx, t.block b
        = { s.block b with capLabel := agedField e (s.block b).capLabel, leaseExpiry := agedField e (s.block b).leaseExpiry }

/-- R164, R165: the offer for one holder at epoch e. `sends` is what it has to send, if anything, and `queued` says that a packet of
its own with label e + 1 is in the queue. An offer that the queue refuses leaves no state: it ends the rule. -/
def OfferMade (sends : Option OwnPacket) (queued : Prop) (entered : OwnPacket → State → Prop) (s : State) (t : Option State) : Prop :=
  (queued ∨ sends = none → t = some s)
    ∧ ∀ p, ¬queued → sends = some p →
      (QueueAdmits s.ring p → ∃ v, t = some v ∧ entered p v) ∧ (¬QueueAdmits s.ring p → t = none)

/-- R164, R165: the storage's offer at epoch e, under lease length n. -/
def StorageOffered (e : Epoch) (n : Nat) (s : State) (t : Option State) : Prop :=
  ∀ (r : StorageRecord) (l : Epoch), r = s.nodes.storage → l = enteringLabel s.ring (e + 1) →
    ∃ sends, OfferMade sends (∃ power lease, .store (e + 1) power lease ∈ s.ring.queue)
        (fun p v => ∃ power lease, p = .store l power lease ∧ StoreEntered (e + 1) power lease s v) s t
      ∧ (r.commanded ≠ 0 → DueAt e n r.owed r.leaseExpiry → sends = some (.store l r.commanded n))
      ∧ (r.commanded ≠ 0 → ¬DueAt e n r.owed r.leaseExpiry → sends = none)
      ∧ (r.commanded = 0 → r.owed = true → sends = some (.store l 0 0))
      ∧ (r.commanded = 0 → r.owed = false → sends = none)

/-- R164, R165: one block's offer at epoch e, under lease length n. -/
def BlockOffered (e : Epoch) (n : Nat) (b : BlockIx) (s : State) (t : Option State) : Prop :=
  ∀ (r : BlockRecord) (l : Epoch), r = s.block b → l = enteringLabel s.ring (e + 1) →
    ∃ sends, OfferMade sends (∃ limit lease, .cap b (e + 1) limit lease ∈ s.ring.queue)
        (fun p v => ∃ limit lease, p = .cap b l limit lease ∧ CapEntered b (e + 1) limit lease s v) s t
      ∧ (r.state = .capped ∨ r.state = .pinned →
          (DueAt e n r.owed r.leaseExpiry → ∀ c, r.cap = some c → sends = some (.cap b l (some c) n))
          ∧ (¬DueAt e n r.owed r.leaseExpiry → sends = none))
      ∧ (r.state ∈ [BlockState.free, .resting, .silent, .barred, .out] →
          (r.owed = true → sends = some (.cap b l none 0)) ∧ (r.owed = false → sends = none))
      ∧ (r.state = .empty → sends = none)

/-- R165: the blocks' offers in their order, up to the first that the queue refuses. -/
def BlocksOffered (e : Epoch) (n : Nat) : List BlockIx → State → State → Prop
  | [], s, t => t = s
  | b :: rest, s, t => ∃ u, BlockOffered e n b s u ∧ (u = none → t = s) ∧ ∀ v, u = some v → BlocksOffered e n rest v t

/-- R164, R165: the Lease Scheduler's epoch rule: the ageing, the storage's offer, and the blocks' offers in ascending ID. -/
def LeasesOffered (e : Epoch) (s t : State) : Prop :=
  ∀ p, s.gov.plant = some p → ∃ v u, LabelsAged e s v ∧ StorageOffered e p.leaseLength v u ∧ (u = none → t = v)
    ∧ ∀ w, u = some w → BlocksOffered e p.leaseLength allBlocks w t

/-! ### The opening step of a dispatch -/

/-- R39, R40, R52, R99: adoption of everything staged, while no dispatch is in flight. -/
def AdoptionTaken (s t : State) : Prop :=
  ∀ staged : Prop, (staged ↔ s.store.plant.isSome = true ∨ ∃ g : GroupIx, (s.store.groups[g]).isSome = true) →
    (¬staged → t = s)
    ∧ (staged → ∃ (gov : Governor) (a b : Bool) (v : State) (begins : Prop),
      gov = { s.gov with plant := s.store.plant.or s.gov.plant, groups := gov.groups, window := gov.window }
      ∧ (∀ g : GroupIx, gov.groups[g] = (s.store.groups[g]).getD s.gov.groups[g])
      ∧ (∀ p, gov.plant = some p → gov.window = s.gov.window.drop (s.gov.window.length - p.windowLength))
      ∧ (gov.plant = none → gov.window = s.gov.window)
      ∧ a = adoptedLatch (lineEnabled s.gov.plant .a) (lineEnabled gov.plant .a) s.run.lineA
      ∧ b = adoptedLatch (lineEnabled s.gov.plant .b) (lineEnabled gov.plant .b) s.run.lineB
      ∧ v = { s with
                gov, store := { plant := none, groups := Vector.replicate 8 none, configured := s.store.configured },
                table := { s.table with blocks := v.table.blocks },
                run := { s.run with lineA := { s.run.lineA with latch := a }, lineB := { s.run.lineB with latch := b } } }
      ∧ (∀ (x : BlockIx) (floor : Nat), (∀ f, (s.block x).profile = some f → floor = f.rated * gov.groups[f.group].floorPercent / 100) →
          ((s.block x).profile = none → floor = 0) →
          v.block x = if (s.block x).state = .capped ∧ (s.block x).cap.getD 0 < floor
            then { s.block x with cap := some floor, owed := true, revision := (s.block x).revision + 1 } else s.block x)
      ∧ (begins ↔ s.run.state = .running ∧ (a = true ∧ s.run.lineA.latch = false ∨ b = true ∧ s.run.lineB.latch = false))
      ∧ (begins → t = raise .holdBegun { v with run := { v.run with state := .holding } })
      ∧ (¬begins → t = v))

/-- R95: the sample P, from the meter or by fallback. Where a heard node's figure is absent the manual states no value (log 11). -/
def SampleFormed (e : Epoch) (p : PlantRecord) (s : State) (sample : Nat) (meter : Bool) : Prop :=
  (meter = true ↔ HeardAt e p.silenceLimit s.nodes.meter.heard)
    ∧ (meter = true → ∀ x, s.nodes.meter.exported = some x → (sample : Int) = max 0 x)
    ∧ (meter = false → ∀ term : Int,
        (HeardAt e p.silenceLimit s.nodes.storage.heard → s.nodes.storage.measured = some term) →
        (¬HeardAt e p.silenceLimit s.nodes.storage.heard → term = 0) →
        (sample : Int) = max 0 (((allBlocks.map fun b =>
          if (s.block b).state = .empty then 0 else (s.block b).measured.getD 0).sum : Nat) + term))

/-- R100, R101: the band from the sample and the extremes of the window. -/
def BandComputed (p : PlantRecord) (sample wmax wmin : Nat) (band : Band) : Prop :=
  ∃ low high : Nat, (low : Int) = max 0 (max ((sample : Int) - p.stepDown) ((wmax : Int) - p.windowDown))
    ∧ high = min (sample + p.stepUp) (wmin + p.windowUp)
    ∧ (low ≤ high → band = { low, high }) ∧ (high < low → band = { low := sample, high := sample })

/-- R95 to R103: the sample and band stage of dispatch e. The free value counter is the model's own (log 11). -/
def SampleTaken (e : Epoch) (p : PlantRecord) (s t : State) (o : SampleBand) : Prop :=
  ∃ (meter : Bool) (window : List Nat) (u v : State),
    SampleFormed e p s o.sample meter
    -- R96
    ∧ (meter = true → o.source = .meter)
    ∧ (meter = false → s.gov.source = .waiting → e.toNat ≤ p.silenceLimit → o.source = .waiting)
    ∧ (meter = false → s.gov.source ≠ .waiting ∨ p.silenceLimit < e.toNat → o.source = .fallback)
    ∧ (o.source = .fallback → s.gov.source ≠ .fallback →
        u = raise .meterSilent { s with freeCount := t.freeCount, gov := { s.gov with source := o.source } })
    ∧ (o.source ≠ .fallback ∨ s.gov.source = .fallback →
        u = { s with freeCount := t.freeCount, gov := { s.gov with source := o.source } })
    -- R98, R100, R103
    ∧ window = (s.gov.window ++ [o.sample]).drop (s.gov.window.length + 1 - p.windowLength) ∧ o.count = window.length
    ∧ (o.sample :: window).max? = some o.wmax ∧ (o.sample :: window).min? = some o.wmin
    ∧ BandComputed p o.sample o.wmax o.wmin o.band
    -- R102
    ∧ (s.gov.lastBand = none → v = u)
    ∧ (∀ last, s.gov.lastBand = some last →
        (o.sample < last.low →
          v = raise .bandBreach { u with gov := { u.gov with downBreaches := min (s.gov.downBreaches + 1) (2 ^ 32 - 1) } })
        ∧ (last.low ≤ o.sample → last.high < o.sample →
          v = raise .bandBreach { u with gov := { u.gov with upBreaches := min (s.gov.upBreaches + 1) (2 ^ 32 - 1) } })
        ∧ (last.low ≤ o.sample → o.sample ≤ last.high → v = u))
    ∧ t = { v with gov := { v.gov with window, lastBand := some o.band } }

/-- R2: the usable available of a record. -/
def UsableIs (r : BlockRecord) (n : Nat) : Prop :=
  (r.state = .empty ∨ r.available = none → n = 0)
    ∧ ∀ a f, r.state ≠ .empty → r.available = some a → r.profile = some f →
      (r.derate = none → n = min a f.rated) ∧ ∀ d, r.derate = some d → n = min (min a d) f.rated

/-- R111: what the storage offers: its figure if it is heard and its SoE is on the right side of the reserve, and 0 otherwise. -/
def StorageOffers (e : Epoch) (p : PlantRecord) (r : StorageRecord) (good : Nat → Prop) (figure : Option Nat) (n : Nat) : Prop :=
  (∀ soe, HeardAt e p.silenceLimit r.heard → r.soe = some soe → good soe → n = figure.getD 0)
    ∧ (¬HeardAt e p.silenceLimit r.heard ∨ (∀ soe, r.soe = some soe → ¬good soe) → n = 0)

/-- R108, R111: the snapshot of dispatch e. -/
def SnapshotTaken (e : Epoch) (p : PlantRecord) (s : State) (n : Snapshot) : Prop :=
  n.blocks.map (·.id) = allBlocks.filter (fun b => (s.block b).state != .empty && (s.block b).profile.isSome)
    ∧ (∀ x ∈ n.blocks, ∀ r, r = s.block x.id →
        x.state = r.state ∧ x.revision = r.revision ∧ r.profile = some x.profile
        ∧ x.floor = x.profile.rated * s.gov.groups[x.profile.group].floorPercent / 100 ∧ UsableIs r x.usable
        ∧ x.measured = r.measured.getD 0 ∧ x.cap = r.cap ∧ x.captureEpoch = r.captureEpoch ∧ x.lastRelease = r.lastRelease)
    ∧ n.capped = s.table.capped ∧ n.rotation = s.table.rotation ∧ n.groups = s.gov.groups
    ∧ n.groupCapture = s.table.groupCapture ∧ n.commanded = s.nodes.storage.commanded ∧ n.storageOwed = s.nodes.storage.owed
    ∧ n.warnings = s.front.warnings ∧ n.hold = s.hold
    ∧ StorageOffers e p s.nodes.storage (fun soe => p.reserveFloor < soe) s.nodes.storage.discharge n.sDis
    ∧ StorageOffers e p s.nodes.storage (fun soe => soe < p.reserveCeiling) s.nodes.storage.charge n.sChg

/-- R105, R107: the dispatch in flight is ended, and dispatch e opens: adoption, sample and band, snapshot, as one whole. -/
def DispatchOpened (e : Epoch) (s t : State) : Prop :=
  ∃ v w, (s.gov.phase = .idle → v = s)
    ∧ (s.gov.phase ≠ .idle →
        v = raise .dispatchOverrun { s with gov := { s.gov with phase := .idle, overruns := min (s.gov.overruns + 1) (2 ^ 32 - 1) } })
    ∧ AdoptionTaken v w ∧ (w.gov.plant = none → t = w)
    ∧ ∀ p, w.gov.plant = some p → ∃ x o n, SampleTaken e p w x o ∧ SnapshotTaken e p x n
        ∧ t = { x with gov := { x.gov with phase := .computing { epoch := e, sample := o, snapshot := n } } }

/-! ### The epoch -/

/-- R45, R105: one of the seven blocks has acted on epoch e. -/
def RuleTaken (e : Epoch) (rule : EpochRule) (s t : State) : Prop :=
  match rule with
  | .runControl => HoldRuleTaken s t
  | .frontTracker => WarningsExpired e s t
  | .ringMarker => (s.ring.state ≠ .up → t = s) ∧ (s.ring.state = .up → MarkerPlaced e s t)
  | .governor => DispatchOpened e s t
  | .blockTable => BlocksJudged e s t
  | .nodeRecords => NodesJudged e s t
  | .leaseScheduler => LeasesOffered e s t

/-- The blocks have acted on epoch e in this order. -/
def RulesTaken (e : Epoch) : List EpochRule → State → State → Prop
  | [], s, t => t = s
  | rule :: rest, s, t => ∃ u, RuleTaken e rule s u ∧ RulesTaken e rest u t

/-- R45, R46, R105, R89, R158: what epoch e leaves, in whatever order it reaches the seven blocks. The timer carries the new number
and its measures restart; everything staged is adopted; a dispatch is open; the warnings that have expired are gone; MARK e stands
at the head of the outbound queue if the ring is UP, and a ring that is not UP is as it was. -/
def EpochLeaves (e : Epoch) (s t : State) : Prop :=
  t = { s with
          freeCount := t.freeCount, link := t.link, cond := t.cond, timer := t.timer, run := t.run, store := t.store,
          gov := t.gov, table := t.table, sky := { s.sky with stations := t.sky.stations },
          front := { s.front with warnings := t.front.warnings }, nodes := t.nodes, ring := t.ring }
    ∧ t.timer = { s.timer with epoch := e, lastEpochAt := s.now, syncCount := 0, stall := .armed }
    ∧ t.run.state.inRun = true ∧ t.run.trigger = s.run.trigger
    ∧ t.store = { plant := none, groups := Vector.replicate 8 none, configured := s.store.configured }
    ∧ t.gov.plant = s.store.plant.or s.gov.plant
    ∧ (∀ g : GroupIx, t.gov.groups[g] = (s.store.groups[g]).getD s.gov.groups[g])
    ∧ ((s.store.plant.or s.gov.plant).isSome = true → ∃ o, t.gov.phase = .computing o ∧ o.epoch = e)
    ∧ t.front.warnings = s.front.warnings.filter (fun w => !(w.arrivals.all fun a => atOrAfter e a.2))
    ∧ (s.ring.state = .up → ∃ rest, t.ring.queue = .mark e :: rest ∧ ∀ p ∈ rest, p.isMark = false)
    ∧ (s.ring.state ≠ .up → t.ring = s.ring)

/-- R46: the time since the last epoch exceeds four nominal periods, under an armed monitor. INTERNAL never stalls. -/
def StallOverdue (s : State) : Prop :=
  s.timer.stall = .armed ∧ s.timer.running = true
    ∧ ∃ nominal, (s.timer.source = .epochLine ∧ nominal = s.timer.period
        ∨ s.timer.source = .sensor ∧ nominal = s.timer.divisor * s.sky.framePeriod)
      ∧ s.timer.lastEpochAt + 4000 * nominal < s.now

/-- R46: an overdue stall monitor has tripped, with EPOCH_STALL; any other stands. -/
def StallJudged (s t : State) : Prop :=
  (StallOverdue s → OnlyRaised .epochStall { s with timer := { s.timer with stall := .tripped } } t) ∧ (¬StallOverdue s → t = s)

/-- R45: the timer carries the number e and its measures restart, and the seven blocks act on epoch e, each once, in the order given where
that names them all (log 4). -/
def EpochTaken (order : EpochOrder) (e : Epoch) (s t : State) : Prop :=
  (∃ full : List EpochRule, full.Perm allEpochRules ∧ (order.Perm allEpochRules → full = order)
      ∧ RulesTaken e full
          { s with timer := { s.timer with epoch := e, lastEpochAt := s.now, syncCount := 0, stall := .armed } } t)
    ∧ EpochLeaves e s t

/-- R45, R46: epoch e occurs. A monitor that is past its limit by then trips first, and the epoch arms it again. -/
def EpochOccurs (order : EpochOrder) (e : Epoch) (s t : State) : Prop :=
  ∃ u, StallJudged s u ∧ EpochTaken order e u t

/-- R45, R49, R61: what a frame sync that the enabled port has taken is beside the end of a short frame: the trigger, a counted sync, the
N-th one and so an epoch, or nothing. -/
def SyncTaken (order : EpochOrder) (s t : State) : Prop :=
  (s.run.state = .armed → s.run.trigger = some .firstFrame → ∃ u, TriggerTaken s u ∧ EpochOccurs order 1 u t)
    ∧ (s.timer.running = true → s.timer.source = .sensor →
        (s.timer.divisor ≤ s.timer.syncCount + 1 → EpochOccurs order (s.timer.epoch + 1) s t)
        ∧ (s.timer.syncCount + 1 < s.timer.divisor →
            t = { s with timer := { s.timer with syncCount := s.timer.syncCount + 1 } }))
    ∧ (s.timer.running = false ∨ s.timer.source ≠ .sensor → s.run.state ≠ .armed ∨ s.run.trigger ≠ some .firstFrame → t = s)

/-! ## Frames of the sensor port -/

/-- R64: the sample of a received word is valid. -/
def ValidSample (st : Station) (w : Half) : Prop :=
  w.getLsbD 3 = true ∧ w.toNat / 16 ≤ 1600 ∧ st.lastSequence ≠ some (w.setWidth 3)

/-- R65: what an invalid sample makes of a station record. -/
def InvalidTaken (st st' : Station) : Prop :=
  (st.detector = .lost → st' = st)
  ∧ (st.detector ≠ .lost → st.invalidRun < 4 → st' = { st with invalidRun := st.invalidRun + 1 })
  ∧ (st.detector ≠ .lost → 4 ≤ st.invalidRun →
      st' = { st with detector := .lost, reference := none, depth := none, pendingCount := none, invalidRun := 5 })

/-- R70: the drop of sample x below a reference r, in parts of 256 r. -/
def fallOf (x r : Nat) : Int :=
  ((r : Int) - x) * 256

/-- R65, R70 to R74: what a valid sample x makes of a station record. Where r - x would fall below 0 the depth is 0. -/
def ValidTaken (x : Nat) (st st' : Station) : Prop :=
  (st.detector = .lost → st' = { st with history := [x], detector := .clear, invalidRun := 0 })
  ∧ ∀ (h : List Nat) (depth : Nat → Nat), h = (st.history ++ [x]).drop (st.history.length + 1 - st.historyLength) →
    (∀ r, depth r = min 255 ((r - x) * 256 / r)) →
    -- R71
    (st.detector = .clear →
      (∀ r, st.history.max? = some r → 0 < r → (st.drop * r : Int) ≤ fallOf x r →
        (st.persistence = 1 → st' = { st with invalidRun := 0, history := h, detector := .shaded, reference := some r,
                                              depth := some (depth r), pendingCount := none })
        ∧ (st.persistence ≠ 1 → st' = { st with invalidRun := 0, history := h, detector := .pending, reference := some r,
                                                depth := some (depth r), pendingCount := some 1 }))
      ∧ ((∀ r, st.history.max? = some r → 0 < r → fallOf x r < (st.drop * r : Int)) →
          st' = { st with invalidRun := 0, history := h }))
    -- R72
    ∧ (st.detector = .pending → ∀ r d n, st.reference = some r → st.depth = some d → st.pendingCount = some n →
      ((st.drop * r : Int) ≤ fallOf x r →
        (n + 1 = st.persistence → st' = { st with invalidRun := 0, history := h, detector := .shaded,
                                                  depth := some (max d (depth r)), pendingCount := none })
        ∧ (n + 1 ≠ st.persistence → st' = { st with invalidRun := 0, history := h, depth := some (max d (depth r)),
                                                    pendingCount := some (n + 1) }))
      ∧ (fallOf x r < (st.drop * r : Int) →
          st' = { st with invalidRun := 0, history := h, detector := .clear, reference := none, depth := none,
                          pendingCount := none }))
    -- R73
    ∧ (st.detector = .shaded → ∀ r, st.reference = some r →
      ((r : Int) * (256 - st.clear) ≤ x * 256 →
        st' = { st with invalidRun := 0, history := h, detector := .clear, reference := none, depth := none,
                        pendingCount := none })
      ∧ ((x * 256 : Int) < r * (256 - st.clear) → st' = { st with invalidRun := 0, history := h }))

/-- Station x has the record `st`, and all else is as it was. -/
def withStation (x : StationIx) (st : Station) (s : State) : State :=
  { s with sky := { s.sky with stations := s.sky.stations.set x st } }

/-- R65: station x, whose record is `r`, has taken an invalid sample; a station that becomes LOST raises STATION_LOST. -/
def InvalidSampleTaken (x : StationIx) (r : Station) (s t : State) : Prop :=
  ∃ st, InvalidTaken r st
    ∧ (r.detector = .lost ∨ r.invalidRun < 4 → t = withStation x st s)
    ∧ (r.detector ≠ .lost → 4 ≤ r.invalidRun → t = raise .stationLost (withStation x st s))

/-- R69 to R74: station x, whose record is `r`, has taken the valid sample v. A station that passes to SHADED makes an open request with
its candidate depth; one that is SHADED and holds a warning makes a deepen request with the depth of the sample, which is taken where
that exceeds the warning's (R88). -/
def ValidSampleTaken (x : StationIx) (v : Nat) (r : Station) (s t : State) : Prop :=
  ∃ st, ValidTaken v r st
    ∧ (r.detector ≠ .shaded → st.detector = .shaded → ∀ d, st.depth = some d → t = openRequest x d (withStation x st s))
    ∧ (r.detector = .shaded → r.warningHeld = true → ∀ f, r.reference = some f →
        t = deepenRequest x (min 255 ((f - v) * 256 / f)) (withStation x st s))
    ∧ (r.detector ≠ .shaded ∧ st.detector ≠ .shaded ∨ r.detector = .shaded ∧ r.warningHeld = false → t = withStation x st s)

/-- R62, R64: station x has taken its slot of a closed frame. -/
def SlotOfFrameTaken (words : List Half) (x : StationIx) (s t : State) : Prop :=
  ((s.station x).enabled = false → t = s)
    ∧ ((s.station x).enabled = true → words[(s.station x).slot]? = none → InvalidSampleTaken x (s.station x) s t)
    ∧ ((s.station x).enabled = true → ∀ w, words[(s.station x).slot]? = some w →
        (ValidSample (s.station x) w →
          ValidSampleTaken x (w.toNat / 16) { s.station x with lastSequence := some (w.setWidth 3) } s t)
        ∧ (¬ValidSample (s.station x) w →
          InvalidSampleTaken x { s.station x with lastSequence := some (w.setWidth 3) } s t))

/-- R62: the stations take their slots in this order. -/
def SlotsOfFrameTaken (words : List Half) : List StationIx → State → State → Prop
  | [], s, t => t = s
  | x :: rest, s, t => ∃ u, SlotOfFrameTaken words x s u ∧ SlotsOfFrameTaken words rest u t

/-- R62, R64, R65: what a closed frame leaves. Every enabled station took the word of its slot, or a missing sample where the
frame is too short. Beside the station records, the frame can have opened and deepened warnings, raised conditions and readied
notices; the warning held flag of a station is the Front Tracker's. -/
def FrameLeaves (words : List Half) (s t : State) : Prop :=
  t = { s with link := t.link, cond := t.cond, sky := { s.sky with stations := t.sky.stations },
               front := { s.front with warnings := t.front.warnings, nextId := t.front.nextId } }
    ∧ ∀ x : StationIx, ∃ st, t.station x = { st with warningHeld := (t.station x).warningHeld }
        ∧ ((s.station x).enabled = false → st = s.station x)
        ∧ ((s.station x).enabled = true → words[(s.station x).slot]? = none → InvalidTaken (s.station x) st)
        ∧ ((s.station x).enabled = true → ∀ w, words[(s.station x).slot]? = some w →
            (ValidSample (s.station x) w →
              ValidTaken (w.toNat / 16) { s.station x with lastSequence := some (w.setWidth 3) } st)
            ∧ (¬ValidSample (s.station x) w →
              InvalidTaken { s.station x with lastSequence := some (w.setWidth 3) } st))

/-- R62: a closed frame has been processed, as one whole: the stations took their slots in ascending ID. -/
def FrameProcessed (words : List Half) (s t : State) : Prop :=
  SlotsOfFrameTaken words (List.finRange 24) s t ∧ FrameLeaves words s t

/-- R63: the loss monitor trips: SENSOR_LOSS, the frame in progress discarded, and every enabled station LOST. -/
def SensorsLost (s t : State) : Prop :=
  OnlyRaised .sensorLoss { s with sky := { s.sky with loss := .tripped, frame := none, stations := t.sky.stations } } t
    ∧ ∀ x : StationIx, t.station x =
        if (s.station x).enabled = true ∧ (s.station x).detector ≠ .lost then
          { s.station x with detector := .lost, reference := none, depth := none, pendingCount := none, invalidRun := 5 }
        else s.station x

/-- R63: the time since the last frame sync exceeds three frame periods, under an armed monitor. -/
def LossOverdue (s : State) : Prop :=
  s.sky.loss = .armed ∧ s.sky.measureFrom + 3000 * s.sky.framePeriod < s.now

/-- R63: an overdue loss monitor has tripped; any other stands. -/
def LossJudged (s t : State) : Prop :=
  (LossOverdue s → SensorsLost s t) ∧ (¬LossOverdue s → t = s)

/-- R61, R63: a frame sync has begun a new frame and restarted the loss measure. A monitor that is past its limit by then has tripped
first; `frame` is the frame in progress that is left to close. -/
def SyncBegun (s : State) (frame : Option (List Half)) (u : State) : Prop :=
  ∃ b, LossJudged s b ∧ frame = b.sky.frame
    ∧ u = { b with sky := { b.sky with frame := some [], loss := .armed, measureFrom := s.now } }

/-- R61: the frame in progress as a frame sync comes, if any, closes short. -/
def ShortFrameTaken (frame : Option (List Half)) (s t : State) : Prop :=
  (frame = none → t = s) ∧ ∀ words, frame = some words → FrameProcessed words s t

/-! ## What a dispatch computes -/

/-- R110: the contribution of a block of the snapshot. -/
def Contributes (b : SnapBlock) (controllable fixed : Nat) : Prop :=
  (b.state ∈ [BlockState.free, .capped, .resting] → controllable = b.usable ∧ fixed = 0)
    ∧ (b.state = .pinned → controllable = 0 ∧ fixed = min (b.cap.getD 0) b.usable)
    ∧ (b.state ∈ [BlockState.barred, .silent] → controllable = 0 ∧ fixed = b.measured)
    ∧ (b.state ∈ [BlockState.out, .empty] → controllable = 0 ∧ fixed = 0)

/-- R112: warning `w` names block b with the arrival epoch `a`, later than e. -/
def NamedLater (e : Epoch) (b : BlockIx) (w : Warning) (a : Epoch) : Prop :=
  (b, a) ∈ w.arrivals ∧ a ≠ e ∧ atOrAfter a e = true

/-- R112: a block of contribution c has an arrival at distance d from e, with loss l: the earliest later arrival that names it, and its
contribution times the greatest depth of the warnings that name it so, in parts of 256. -/
def ShadowFalls (e : Epoch) (warnings : List Warning) (b : BlockIx) (c d l : Nat) : Prop :=
  c ≠ 0 ∧ (∃ w ∈ warnings, ∃ a, NamedLater e b w a ∧ d = (a - e).toNat)
    ∧ (∀ w ∈ warnings, ∀ a, NamedLater e b w a → d ≤ (a - e).toNat)
    ∧ ∃ depth, (∃ w ∈ warnings, (∃ a, NamedLater e b w a) ∧ depth = w.depth)
        ∧ (∀ w ∈ warnings, (∃ a, NamedLater e b w a) → w.depth ≤ depth) ∧ l = c * depth / 256

/-- R110 to R113: the figures of the supply and glide ceiling stages, under the step down limit d. L(a) never exceeds Pa (R113), so the
difference is one of numbers from 0 on. -/
def SupplyComputed (d : Nat) (o : Opened) (f : SupplyFigures) : Prop :=
  ∃ (ac fx : SnapBlock → Nat) (shadow : SnapBlock → Option (Nat × Nat)) (lossBy : Nat → Nat) (shadows : List (Nat × Nat)),
    (∀ b, Contributes b (ac b) (fx b))
    ∧ f.controllable = (o.snapshot.blocks.map ac).sum ∧ f.fixed = (o.snapshot.blocks.map fx).sum
    ∧ f.available = f.controllable + f.fixed ∧ f.sDis = o.snapshot.sDis ∧ f.sChg = o.snapshot.sChg
    -- R112
    ∧ (∀ b arrival loss, shadow b = some (arrival, loss) ↔
        ShadowFalls o.epoch o.snapshot.warnings b.id (ac b + fx b) arrival loss)
    -- R113
    ∧ shadows = o.snapshot.blocks.filterMap shadow
    ∧ (∀ a, lossBy a = ((shadows.filter fun x => decide (x.1 ≤ a)).map (·.2)).sum)
    ∧ (f.glide = none ↔ shadows = [])
    ∧ ∀ ceiling, f.glide = some ceiling →
        (∀ a l, (a, l) ∈ shadows → ceiling ≤ f.available - lossBy a + f.sDis + a * d)
        ∧ ∃ a l, (a, l) ∈ shadows ∧ ceiling = f.available - lossBy a + f.sDis + a * d

/-- A walk along `l` that takes the blocks which pass `test`, given those it has taken before, and leaves the others. -/
def Walked (test : List SnapBlock → SnapBlock → Prop) (l taken left : List SnapBlock) : Prop :=
  ∃ marks : List (SnapBlock × Bool), marks.map (·.1) = l ∧ taken = (marks.filter (·.2)).map (·.1)
    ∧ left = (marks.filter fun m => !m.2).map (·.1)
    ∧ ∀ before x m after, marks = before ++ (x, m) :: after → (m = true ↔ test ((before.filter (·.2)).map (·.1)) x)

/-- At least n epochs lie between a recorded epoch and e. -/
def AgedBy (e : Epoch) (n : Nat) (since : Option Epoch) : Prop :=
  ∃ x, since = some x ∧ n ≤ (e - x).toNat

/-- R118: a CAPPED block that its group's maximum capped forces out. -/
def ForcedOut (e : Epoch) (g : GroupRecord) (b : SnapBlock) : Prop :=
  g.maxCapped ≠ 0 ∧ AgedBy e g.maxCapped b.captureEpoch

/-- R119: the tests that the capture walk makes of a block, given the blocks it has captured. -/
def Capturable (e : Epoch) (sn : Snapshot) (g : GroupRecord) (taken : List SnapBlock) (b : SnapBlock) : Prop :=
  (∀ y ∈ taken, y.profile.group ≠ b.profile.group)
    ∧ (sn.groupCapture[b.profile.group] = none ∨ AgedBy e g.spacing sn.groupCapture[b.profile.group])
    ∧ (b.lastRelease = none ∨ AgedBy e g.rest b.lastRelease) ∧ 0 < b.capacity

/-- R118 to R120: the set K in its order and the blocks marked for release in theirs, for the curtailment C. S is a capacity sum. -/
def Allocated (e : Epoch) (sn : Snapshot) (c : Nat) (members released : List SnapBlock) : Prop :=
  ∃ (group : SnapBlock → GroupRecord) (capped kept forced : List SnapBlock),
    (∀ b, group b = sn.groups[b.profile.group])
    ∧ capped = sn.capped.filterMap (fun b => sn.blocks.find? fun x => x.id == b)
    ∧ Walked (fun _ b => ForcedOut e (group b) b) capped forced kept
    ∧ (capacitySum kept < c → ∃ captured passed,
        Walked (fun taken b => capacitySum kept + capacitySum taken < c ∧ Capturable e sn (group b) taken b)
          (sn.rotation.filterMap fun b => sn.blocks.find? fun x => x.id == b) captured passed
        ∧ members = kept ++ captured ∧ released = forced)
    ∧ (c ≤ capacitySum kept → ∃ voluntary,
        Walked (fun taken b => AgedBy e (group b).minCapped b.captureEpoch
            ∧ c + b.capacity + capacitySum taken ≤ capacitySum kept) kept voluntary members
        ∧ released = forced ++ voluntary)

/-- R122, R123: the decision list from the storage command, the members of K with their shares, and the blocks to release. The new cap of
a member is the larger of its floor and its usable available less its share. -/
def DecisionsFormed (sn : Snapshot) (command : Int) (shares : List (SnapBlock × Nat)) (released : List SnapBlock)
    (todo : List Decision) : Prop :=
  ∃ (cap : SnapBlock × Nat → Nat) (store : List Decision),
    (∀ m, cap m = max m.1.floor (m.1.usable - m.2))
    ∧ (command ≠ sn.commanded ∨ sn.storageOwed = true → store = [.store command])
    ∧ (command = sn.commanded → sn.storageOwed = false → store = [])
    ∧ todo = store
        ++ ((shares.filter fun m => m.1.state != .capped).map fun m => .capture m.1.id (cap m) m.1.revision)
        ++ ((shares.filter fun m => m.1.state == .capped && decide (cap m < m.1.cap.getD 0)).map fun m =>
              .capChange m.1.id (cap m) m.1.revision)
        ++ ((shares.filter fun m => m.1.state == .capped && decide (m.1.cap.getD 0 < cap m)).map fun m =>
              .capChange m.1.id (cap m) m.1.revision)
        ++ released.map fun b => .release b.id b.revision

/-- R110 to R123: the computing of a dispatch that is not under FREEZE. The target, the split and the shares are those of the statements
BandTargetAndSplit and SharesPlaceTheCurtailment. -/
def PlanComputed (p : PlantRecord) (o : Opened) (pl : Plan) : Prop :=
  SupplyComputed p.stepDown o pl.supply
    ∧ ∃ (t : Target) (r : Split) (members released : List SnapBlock),
      t = Target.under o.snapshot.hold (targetOf o.sample.band (pl.supply.available + pl.supply.sDis) pl.supply.glide)
      ∧ r = splitOf p.absorb t.target pl.supply.available pl.supply.sChg
      ∧ Allocated o.epoch o.snapshot r.curtailment members released
      ∧ pl.supply.target = t.target
      ∧ pl.plan = { path := t.path, command := r.command, curtailment := r.curtailment,
                    placed := min r.curtailment (capacitySum members) }
      ∧ DecisionsFormed o.snapshot r.command (sharesOf pl.plan.placed members) released pl.todo

/-! ## The fields of a reply -/

/-- 12.4, R190: the bytes are these fields in this order, each with its width and its value, least significant byte first, or absent with
every bit set. -/
def Fields : List Byte → List (Nat × Option Nat) → Prop
  | bs, [] => bs = []
  | bs, (n, v) :: rest => n ≤ bs.length ∧ (∀ x, v = some x → leNat (bs.take n) = x % 256 ^ n)
      ∧ (v = none → bs.take n = List.replicate n 0xFF#8) ∧ Fields (bs.drop n) rest

/-- An epoch number as a field of 5 bytes, which may be absent. -/
def epochField (e : Option Epoch) : Nat × Option Nat :=
  (5, e.map BitVec.toNat)

/-- A signed power as a field of 5 bytes, which may be absent: two's complement in its low 4 bytes. -/
def powerField (v : Option Int) : Nat × Option Nat :=
  (5, v.map fun x => (x % 2 ^ 32).toNat)

/-- A flag: 0 for no and 1 for yes. -/
def flagField (b : Bool) : Nat × Option Nat :=
  (1, some (if b then 1 else 0))

/-- A byte of a request. -/
def byteField (b : Byte) : Nat × Option Nat :=
  (1, some b.toNat)

/-- Two bytes of a request. -/
def halfField (h : Half) : Nat × Option Nat :=
  (2, some h.toNat)

/-- Four bytes of a request. -/
def wordField (w : Word) : Nat × Option Nat :=
  (4, some w.toNat)

/-- 12.2: a hold configuration of a request. -/
def holdBodyFields (h : HoldBody) : List (Nat × Option Nat) :=
  [byteField h.enabled, byteField h.mode, byteField h.action, wordField h.ceiling]

/-- 12.2: the kind of a request, and the fields of its body in order. -/
def Request.layout : Request → Nat × List (Nat × Option Nat)
  | .enroll b rated g => (0x01, [byteField b, halfField rated, byteField g])
  | .profile b rated g => (0x02, [byteField b, halfField rated, byteField g])
  | .withdraw b => (0x03, [byteField b])
  | .pin b cap => (0x04, [byteField b, halfField cap])
  | .unpin b => (0x05, [byteField b])
  | .bar b => (0x06, [byteField b])
  | .unbar b => (0x07, [byteField b])
  | .readBlock b => (0x08, [byteField b])
  | .setPlant p => (0x09,
      [halfField p.stepUp, halfField p.stepDown, halfField p.windowLength, wordField p.windowUp, wordField p.windowDown,
        halfField p.tolerance, byteField p.nonFollowLimit, byteField p.silenceLimit, halfField p.leaseLength,
        byteField p.lagMultiplier, byteField p.absorb, halfField p.reserveFloor, halfField p.reserveCeiling]
        ++ holdBodyFields p.lineA ++ holdBodyFields p.lineB)
  | .setGroup g r => (0x0A,
      [byteField g, byteField r.lag, byteField r.floorPercent, halfField r.minCapped, halfField r.maxCapped, halfField r.rest,
        byteField r.spacing])
  | .readSettings => (0x0B, [])
  | .setEpoch source period divisor => (0x0C, [byteField source, halfField period, byteField divisor])
  | .start t => (0x0D, [byteField t])
  | .stop o => (0x0E, [byteField o])
  | .clearHold l => (0x0F, [byteField l])
  | .setSensor period enable => (0x10, [halfField period, byteField enable])
  | .loadStation t b => (0x11,
      [byteField t, byteField b.slot, byteField b.enabled, byteField b.historyLength, byteField b.drop, byteField b.persistence,
        byteField b.clear])
  | .readStation t => (0x12, [byteField t])
  | .leadsBegin => (0x13, [])
  | .leadsAdd es => (0x14, es.flatMap fun e => [byteField e.station, byteField e.block, byteField e.lead])
  | .leadsCommit => (0x15, [])
  | .flushWarnings => (0x16, [])
  | .readWarning i => (0x17, [byteField i])
  | .readPlant => (0x18, [])
  | .readNodes => (0x19, [])
  | .probeRing => (0x1A, [])
  | .loadRing ids => (0x1B, ids.map byteField)
  | .readRing => (0x1C, [])
  | .alertTake c => (0x1D, [byteField c])
  | .alertPeek c i => (0x1E, [byteField c, byteField i])
  | .alertFlush c => (0x1F, [byteField c])
  | .readConditions => (0x20, [])
  | .clearConditions w => (0x21, [wordField w])
  | .setNoticeMask w => (0x22, [wordField w])
  | .noticeRearm => (0x23, [])
  | .reset => (0x24, [])

/-- 12.2: a hold configuration. -/
def holdFields (h : HoldConfig) : List (Nat × Option Nat) :=
  [flagField h.enabled, (1, some h.mode.code), (1, some h.action.code), (4, some h.ceiling)]

/-- 12.2: the plant record, absent as a whole until one is committed. -/
def plantFields : Option PlantRecord → List (Nat × Option Nat)
  | some p =>
    [(2, some p.stepUp), (2, some p.stepDown), (2, some p.windowLength), (4, some p.windowUp), (4, some p.windowDown),
      (2, some p.tolerance), (1, some p.nonFollowLimit), (1, some p.silenceLimit), (2, some p.leaseLength),
      (1, some p.lagMultiplier), flagField p.absorb, (2, some p.reserveFloor), (2, some p.reserveCeiling)]
      ++ holdFields p.lineA ++ holdFields p.lineB
  | none => [(40, none)]

/-- 12.2: a group record. -/
def groupFields (g : GroupRecord) : List (Nat × Option Nat) :=
  [(1, some g.lag), (1, some g.floorPercent), (2, some g.minCapped), (2, some g.maxCapped), (2, some g.rest), (1, some g.spacing)]

/-- 12.4: one of the eight places of a warning's arrivals. -/
def arrivalFields (a : Option (BlockIx × Epoch)) : List (Nat × Option Nat) :=
  [(1, a.map fun x => x.1.val + 1), epochField (a.map (·.2))]

/-- 12.4: Ac, F, Pa, S_dis, S_chg, G and T. -/
def supplyFields (f : Option SupplyFigures) : List (Nat × Option Nat) :=
  [(4, f.map (·.controllable)), (4, f.map (·.fixed)), (4, f.map (·.available)), (4, f.map (·.sDis)), (4, f.map (·.sChg)),
    (4, f.bind (·.glide)), (4, f.map (·.target))]

/-- 12.4: the plant status record, 82 bytes, every field absent until the first completion. -/
def statusFields : Option PlantStatus → List (Nat × Option Nat)
  | some r =>
    [epochField (some r.epoch), (1, some r.outcome.code),
      (4, some r.sample.sample), (1, some r.sample.source.code), (2, some r.sample.count), (4, some r.sample.wmax),
      (4, some r.sample.wmin), (4, some r.sample.band.low), (4, some r.sample.band.high)]
      ++ supplyFields r.supply
      ++ [(1, r.plan.map fun f => f.path.code), (1, some r.hold.code), (4, r.hold.value),
        powerField (r.plan.map (·.command)), (4, r.plan.map (·.curtailment)), (4, r.plan.map (·.placed)),
        (1, some r.counts.captures), (1, some r.counts.capChanges), (1, some r.counts.releases), flagField r.counts.storeStaged,
        (1, some r.counts.stale), (1, some r.discarded)]
  | none => [(82, none)]

/-! ## Packets that come back -/

/-- R153, 12.5: a packet of the part's own as it comes round, with the flags byte and the mark count that units gave it. -/
def returnedBytes (p : OwnPacket) (flags marks : Byte) : List Byte :=
  (p.bytes.set 2 flags).set 3 marks

/-- R190: a received field is absent only when every byte of it is set. -/
def readField (bs : List Byte) : Option Nat :=
  if bs = List.replicate bs.length 0xFF#8 then none else some (leNat bs)

/-- R190: a received power of 5 bytes is absent only when every byte is set, and is otherwise read from its low 4 bytes, in two's
complement, whatever its fifth byte holds. -/
def readPower (bs : List Byte) : Option Int :=
  if bs = List.replicate bs.length 0xFF#8 then none else some (BitVec.ofNat 32 (leNat (bs.take 4))).toInt

/-- R152, 12.5: the kind of a packet fits its origin, its payload has the length of its kind, the unit mode byte of a REPORT is FREE or
CAPPED, or absent from nodes 49 and 50, and the class byte of an ALERT is at most 3. -/
def PacketFits (origin kind : Byte) (payload : List Byte) : Prop :=
  origin.toNat = 0 ∧ (kind.toNat, payload.length) ∈ [(1, 9), (2, 10), (3, 4), (4, 1)]
    ∨ (1 ≤ origin.toNat ∧ origin.toNat ≤ 48) ∧ kind.toNat = 5 ∧ payload.length = 17 ∧ (byteAt payload 12).toNat ≤ 1
    ∨ (origin.toNat = 49 ∨ origin.toNat = 50) ∧ kind.toNat = 5 ∧ payload.length = 27
        ∧ ((byteAt payload 19).toNat ≤ 1 ∨ (byteAt payload 19).toNat = 255)
    ∨ (1 ≤ origin.toNat ∧ origin.toNat ≤ 50) ∧ kind.toNat = 6 ∧ payload.length = 5 ∧ (byteAt payload 0).toNat ≤ 3

/-- R152: a received packet goes no further than its check: its pass mark is clear and the check holds. -/
def PassesCheck (bs : List Byte) : Prop :=
  passMark bs = false ∧ checkPacket bs = true

/-! ## What is due (logs 1, 3, 7) -/

/-- A packet of the target that a decision of the staged list names, with label l. -/
def Decision.target (l : Epoch) : Decision → OwnPacket
  | .store power => .store l power 0
  | .capture b _ _ => .cap b l none 0
  | .capChange b _ _ => .cap b l none 0
  | .release b _ => .cap b l none 0

/-- The commands of the part's own that are due in state s, whose clock counts microseconds, each with the rule that sets its instant. An
epoch carries the order in which it reaches the seven blocks, which the manual leaves open (log 4). -/
def DueNow (s : State) : Instr → Prop
  -- R178: more than 5 ms with no byte while a frame is collected
  | .hostFrameGapTimeout => ∃ bytes last, s.link.receiver = .collect bytes last ∧ last + 5000 < s.now
  -- R45: the INTERNAL period, measured from the last epoch
  | .internalPeriodExpiry order => order = Config.epochOrder s.now ∧ s.timer.running = true ∧ s.timer.source = .internal
      ∧ s.timer.lastEpochAt + 1000 * s.timer.period ≤ s.now
  -- R46
  | .epochStall => StallOverdue s
  -- R63
  | .sensorLoss => LossOverdue s
  -- R145: 10 ms of signal in DOWN, with a ring node list that is not empty
  | .ringSettled => s.ring.state = .down ∧ s.ring.signalSeen = true ∧ s.ring.nodes ≠ [] ∧ s.ring.settleFrom + 10000 ≤ s.now
  -- R146, R148: 20 ms after the outstanding probe was sent
  | .probeWindowExpiry => ∃ n sent, s.ring.probe = .outstanding n sent false ∧ sent + 20000 ≤ s.now
  -- R146: in PROBING, 200 ms after a probe that has not returned was sent
  | .probeRetryExpiry => s.ring.state = .probing ∧ ∃ n sent, s.ring.probe = .outstanding n sent true ∧ sent + 200000 ≤ s.now
  -- R180, R189: a request held, and the port no longer busy
  | .heldRequestTaken order => order = Config.epochOrder s.now ∧ s.link.holding ≠ none ∧ ¬PortBusy s
      ∧ s.link.resetScheduled = false
  -- R125: room for the packet of the decision at the head
  | .stagingResumed => ∃ o sup pl d rest counts, s.gov.phase = .staging o sup pl (d :: rest) counts
      ∧ QueueAdmits s.ring (d.target (enteringLabel s.ring (o.epoch + 1)))
  -- R155: the port idle, and a packet for it
  | .outPortFree => s.ring.sending = none ∧ (s.ring.forward ≠ [] ∨ s.ring.queue ≠ [])
  | _ => False

/-! ## Compliance -/

/-- R22, R170: the record `v` of block b, CAPPED in the capped list `capped`, has met a current report: with its cap label absent nothing
is judged, a report earlier than the cap label plus the effective lag leaves the record, and a later one is judged. -/
def ComplianceTaken (b : BlockIx) (rep : BlockReport) (capped : List BlockIx) (v : BlockRecord) (s t : State) : Prop :=
  OthersKept b s t ∧ t.table.rotation = s.table.rotation
    ∧ (v.capLabel = none → t.block b = v ∧ t.table.capped = capped ∧ t = { s with table := t.table })
    ∧ ∀ (p : PlantRecord) (l : Epoch) (f : Profile) (late : Bool), s.gov.plant = some p → v.capLabel = some l → v.profile = some f →
      late = atOrAfter rep.epoch (l + BitVec.ofNat 32 (s.gov.groups[f.group].lag * p.lagMultiplier)) →
      (late = false → t.block b = v ∧ t.table.capped = capped ∧ t = { s with table := t.table })
      ∧ ∀ c m : Nat, late = true → v.cap = some c → v.measured = some m →
        (m ≤ c + p.tolerance →
          t.block b = { v with nonFollowRun := 0 } ∧ t.table.capped = capped ∧ t = { s with table := t.table })
        ∧ (c + p.tolerance < m → v.nonFollowRun + 1 < p.nonFollowLimit →
          t.block b = { v with nonFollowRun := v.nonFollowRun + 1 } ∧ t.table.capped = capped ∧ t = { s with table := t.table })
        ∧ (c + p.tolerance < m → p.nonFollowLimit ≤ v.nonFollowRun + 1 →
          t.block b = { v with state := .barred, barCause := some .noFollow, cap := none, captureEpoch := none, owed := true,
                               nonFollowRun := v.nonFollowRun + 1, revision := v.revision + 1 }
            ∧ t.table.capped = capped.filter (· != b) ∧ OnlyRaised .blockNoFollow { s with table := t.table } t)

/-! ## Requests and the frames that carry them -/

/-- The row of the opcode table that a request stands for; `order` is START's operand. -/
def Request.row (order : EpochOrder) (tag : Byte) : Request → Instr
  | .enroll b rated g => .enroll tag b rated g
  | .profile b rated g => .profile tag b rated g
  | .withdraw b => .withdraw tag b
  | .pin b cap => .pin tag b cap
  | .unpin b => .unpin tag b
  | .bar b => .bar tag b
  | .unbar b => .unbar tag b
  | .readBlock b => .readBlock tag b
  | .setPlant body => .setPlant tag body
  | .setGroup g body => .setGroup tag g body
  | .readSettings => .readSettings tag
  | .setEpoch source period divisor => .setEpoch tag source period divisor
  | .start t => .start tag t order
  | .stop o => .stop tag o
  | .clearHold l => .clearHold tag l
  | .setSensor period enable => .setSensor tag period enable
  | .loadStation t body => .loadStation tag t body
  | .readStation t => .readStation tag t
  | .leadsBegin => .leadsBegin tag
  | .leadsAdd entries => .leadsAdd tag entries
  | .leadsCommit => .leadsCommit tag
  | .flushWarnings => .flushWarnings tag
  | .readWarning i => .readWarning tag i
  | .readPlant => .readPlant tag
  | .readNodes => .readNodes tag
  | .probeRing => .probeRing tag
  | .loadRing ids => .loadRing tag ids
  | .readRing => .readRing tag
  | .alertTake c => .alertTake tag c
  | .alertPeek c i => .alertPeek tag c i
  | .alertFlush c => .alertFlush tag c
  | .readConditions => .readConditions tag
  | .clearConditions w => .clearConditions tag w
  | .setNoticeMask w => .setNoticeMask tag w
  | .noticeRearm => .noticeRearm tag
  | .reset => .reset tag

/-- 12.1: a frame with its CRC. -/
def frameWithCrc (kind tag : Byte) (body : List Byte) : RxFrame :=
  let crc := crc16 (BitVec.ofNat 8 body.length :: kind :: tag :: body)
  { kind, tag, body, crcHigh := (crc >>> 8).setWidth 8, crcLow := crc.setWidth 8 }

/-- The frame that carries a request. -/
def Request.frame (tag : Byte) (r : Request) : RxFrame :=
  frameWithCrc r.kind tag r.body

/-! ## Records in range -/

/-- R34: the ranges of a hold configuration. -/
def HoldInRange (h : HoldBody) : Prop :=
  h.enabled.toNat ≤ 1 ∧ h.mode.toNat ≤ 1 ∧ h.action.toNat ≤ 1 ∧ h.ceiling.toNat ≤ 3000000

/-- R33, R34: the ranges of a plant record. -/
def PlantInRange (p : PlantBody) : Prop :=
  1 ≤ p.stepUp.toNat ∧ 1 ≤ p.stepDown.toNat ∧ (2 ≤ p.windowLength.toNat ∧ p.windowLength.toNat ≤ 600)
    ∧ (1 ≤ p.windowUp.toNat ∧ p.windowUp.toNat ≤ 3000000) ∧ (1 ≤ p.windowDown.toNat ∧ p.windowDown.toNat ≤ 3000000)
    ∧ (1 ≤ p.nonFollowLimit.toNat ∧ p.nonFollowLimit.toNat ≤ 15) ∧ (2 ≤ p.silenceLimit.toNat ∧ p.silenceLimit.toNat ≤ 50)
    ∧ (4 ≤ p.leaseLength.toNat ∧ p.leaseLength.toNat ≤ 600) ∧ (p.lagMultiplier.toNat = 1 ∨ p.lagMultiplier.toNat = 2)
    ∧ p.absorb.toNat ≤ 1 ∧ p.reserveFloor.toNat ≤ 999
    ∧ (p.reserveFloor.toNat < p.reserveCeiling.toNat ∧ p.reserveCeiling.toNat ≤ 1000)
    ∧ HoldInRange p.lineA ∧ HoldInRange p.lineB

/-- The hold configuration that a body in range stands for (12.3). -/
def recordOfHold (h : HoldBody) : HoldConfig :=
  { enabled := h.enabled == 1#8, mode := if h.mode = 0#8 then .latched else .epoch,
    action := if h.action = 0#8 then .freeze else .ceiling, ceiling := h.ceiling.toNat }

/-- The plant record that a body in range stands for. -/
def recordOfPlant (p : PlantBody) : PlantRecord :=
  { stepUp := p.stepUp.toNat, stepDown := p.stepDown.toNat, windowLength := p.windowLength.toNat,
    windowUp := p.windowUp.toNat, windowDown := p.windowDown.toNat, tolerance := p.tolerance.toNat,
    nonFollowLimit := p.nonFollowLimit.toNat, silenceLimit := p.silenceLimit.toNat, leaseLength := p.leaseLength.toNat,
    lagMultiplier := p.lagMultiplier.toNat, absorb := p.absorb == 1#8, reserveFloor := p.reserveFloor.toNat,
    reserveCeiling := p.reserveCeiling.toNat, lineA := recordOfHold p.lineA, lineB := recordOfHold p.lineB }

/-- R31: the ranges of a group record. -/
def GroupInRange (g : GroupBody) : Prop :=
  g.lag.toNat ≤ 7 ∧ g.floorPercent.toNat ≤ 100 ∧ (1 ≤ g.minCapped.toNat ∧ g.minCapped.toNat ≤ 600)
    ∧ (g.maxCapped.toNat = 0 ∨ g.minCapped.toNat < g.maxCapped.toNat ∧ g.maxCapped.toNat ≤ 3000)
    ∧ g.rest.toNat ≤ 600 ∧ (1 ≤ g.spacing.toNat ∧ g.spacing.toNat ≤ 100)

/-- The group record that a body stands for. -/
def recordOfGroup (g : GroupBody) : GroupRecord :=
  { lag := g.lag.toNat, floorPercent := g.floorPercent.toNat, minCapped := g.minCapped.toNat,
    maxCapped := g.maxCapped.toNat, rest := g.rest.toNat, spacing := g.spacing.toNat }

/-- R66: the ranges of a station's parameters. -/
def StationInRange (b : StationBody) : Prop :=
  b.slot.toNat ≤ 63 ∧ b.enabled.toNat ≤ 1 ∧ (4 ≤ b.historyLength.toNat ∧ b.historyLength.toNat ≤ 32)
    ∧ 8 ≤ b.drop.toNat ∧ (1 ≤ b.persistence.toNat ∧ b.persistence.toNat ≤ 15) ∧ 8 ≤ b.clear.toNat

/-- A block ID outside 1 to 48 (R12). -/
def NoBlock (block : Byte) : Prop :=
  block.toNat = 0 ∨ 48 < block.toNat

/-- A rated power outside 1 to 65,000 kW, or a group outside 1 to 8 (R12). -/
def NoProfile (rated : Half) (group : Byte) : Prop :=
  rated.toNat = 0 ∨ 65000 < rated.toNat ∨ group.toNat = 0 ∨ 8 < group.toNat

end Sys2Proof.Machine
end

