-- ==== Sys2Proof/Certificates/Slice0/Obligations.lean ====
section
/-! DEFINITION. The statements for the provers. `Ready`, `Awake`, `Answered`, `Refused`, `OnlyLink`, `OnlyBlock` and the invariants are
those of Safety.lean. -/

section ModelStatements

open Sys2Proof Sys2Proof.Machine

/-! ## The machine -/

/-- A step runs the command at the front of the queue, on the rest of the queue. -/
def Obligations.StepRunsFrontCommand : Prop :=
  ∀ (c : Instr) (rest : List Instr) (s : State), s.pending = c :: rest → step s = exec c { s with pending := rest }

/-- R45, R46, R63, R125, R145, R146, R148, R155, R178, R180: on an empty queue the clock moves on by one microsecond, and exactly the
commands due then enter the queue, but none while RESET_N is low (R189). That the model has a clock of microseconds, and takes due commands
in this order, is its choice (log 1), as is that these happenings are commands of their own (logs 3, 7), the order that an epoch carries a
free value (log 4), and the label of a staged packet judged by the last MARK kept (log 13). -/
def Obligations.IdleStepAdvancesClock : Prop :=
  ∀ s : State, s.pending = [] →
    ∃ t, step s = .next t ∧ t = { s with now := s.now + 1, pending := t.pending }
      ∧ (s.resetLow = true → t.pending = [])
      ∧ (s.resetLow = false →
        (∀ c, c ∈ t.pending ↔ DueNow { s with now := s.now + 1 } c)
        ∧ t.pending.Sublist
            [.hostFrameGapTimeout, .internalPeriodExpiry (Config.epochOrder (s.now + 1)), .epochStall, .sensorLoss, .ringSettled,
              .probeWindowExpiry, .probeRetryExpiry, .heldRequestTaken (Config.epochOrder (s.now + 1)), .stagingResumed, .outPortFree])

/-- Every command answers a next state: the manual gives every command an effect. -/
def Obligations.NoCommandStops : Prop :=
  ∀ (c : Instr) (s : State), ∃ t, exec c s = .next t

/-- The values after every full reset, the one the machine starts from among them. Where the manual gives no value (the clock, the level
of RING_SIG, the straps) the statement holds for every value; that `State.reset` starts with an empty queue, at time 0, with
RING_SIG inactive and both straps low is the model's choice (log 10), as is that no last MARK is kept (log 13). -/
def Obligations.FullResetLeavesItsValues : Prop :=
  (∃ k, State.reset = State.afterReset [] 0 k false { lrate1 := false, lrate0 := false })
  -- R178: the line rates of the straps
  ∧ [(false, false), (false, true), (true, false), (true, true)].map (fun x => LineRate.ofStraps { lrate1 := x.1, lrate0 := x.2 })
      = [.baud115200, .baud230400, .baud460800, .baud921600]
  -- R1: an EMPTY record
  ∧ (∀ revision : Half, BlockRecord.emptyAt revision =
      { state := .empty, profile := none, revision, measured := none, available := none, derate := none, cap := none,
        capLabel := none, leaseExpiry := none, owed := false, captureEpoch := none, lastRelease := none, heard := none,
        watch := none, unitMode := none, nonFollowRun := 0, undeliveredRun := 0, barCause := none, tripFlag := false,
        lapseCount := 0 })
  ∧ ∀ (pending : List Instr) (now : Time) (k : Nat) (signal : Bool) (p : Straps) (s : State),
    s = State.afterReset pending now k signal p →
    -- R43, R47, R52
    (s.timer.source = .internal ∧ s.timer.period = 100 ∧ s.timer.divisor = 1 ∧ s.timer.running = false ∧ s.timer.epoch = 0
      ∧ s.timer.stall = .disarmed)
    ∧ (s.run.state = .stopped ∧ s.run.trigger = none ∧ s.run.lineA.latch = false ∧ s.run.lineB.latch = false
      ∧ s.run.lineA.seen = none ∧ s.run.lineB.seen = none)
    -- R1, R4, R30
    ∧ ((∀ b, s.block b = BlockRecord.emptyAt 0) ∧ s.table.capped = [] ∧ s.table.rotation = []
      ∧ ∀ g : GroupIx, s.table.groupCapture[g] = none)
    -- R31, R33, R35, R38
    ∧ (s.gov.plant = none ∧ (∀ g : GroupIx, s.gov.groups[g] =
          { lag := 0, floorPercent := 0, minCapped := 10, maxCapped := 0, rest := 20, spacing := 1 })
      ∧ s.store.plant = none ∧ (∀ g : GroupIx, s.store.groups[g] = none) ∧ s.store.configured = false)
    -- R94, R104, R130
    ∧ (s.gov.window = [] ∧ s.gov.lastBand = none ∧ s.gov.source = .waiting ∧ s.gov.upBreaches = 0 ∧ s.gov.downBreaches = 0
      ∧ s.gov.phase = .idle ∧ s.gov.heldTarget = none ∧ s.gov.status = none ∧ s.gov.overruns = 0 ∧ s.gov.staleDecisions = 0)
    -- R58, R66
    ∧ (s.sky.enabled = false ∧ s.sky.framePeriod = 100 ∧ s.sky.frame = none ∧ s.sky.loss = .disarmed)
    ∧ (∀ t : StationIx, s.station t =
        { slot := t.val, enabled := false, historyLength := 16, drop := 64, persistence := 3, clear := 32, detector := .clear,
          history := [], reference := none, depth := none, pendingCount := none, invalidRun := 0, lastSequence := none,
          warningHeld := false })
    -- R76
    ∧ (s.front.active = [] ∧ s.front.staging = [] ∧ s.front.warnings = [] ∧ s.front.nextId = 1)
    -- R132
    ∧ s.nodes = { storage := { heard := none, hearing := .waiting, measured := none, soe := none, discharge := none,
                               charge := none, unitMode := none, applied := none, commanded := 0, commandLabel := none,
                               leaseExpiry := none, owed := false, lapseCount := 0 },
                  meter := { heard := none, hearing := .waiting, exported := none } }
    -- R142
    ∧ (s.ring.state = .down ∧ s.ring.nodes = [] ∧ s.ring.signalSeen = signal ∧ s.ring.settleFrom = now ∧ s.ring.queue = []
      ∧ s.ring.forward = [] ∧ s.ring.sending = none ∧ s.ring.lastMark = none ∧ s.ring.probe = .absent
      ∧ s.ring.nextProbe = 0 ∧ s.ring.lastOutcome = none ∧ s.ring.purged = 0
      ∧ s.ring.rogue = 0 ∧ s.ring.discarded = 0 ∧ s.ring.unknownOrigin = 0 ∧ s.ring.late = 0 ∧ s.ring.probeFailures = 0)
    -- R172
    ∧ (∀ c : AlertClass, s.alerts.get c = { entries := [], overflow := 0 })
    -- R178, R183, R186, R189
    ∧ (s.link.receiver = .hunt ∧ s.link.inHand = none ∧ s.link.holding = none ∧ s.link.sending = none ∧ s.link.waiting = []
      ∧ s.link.linkErrors = 0 ∧ s.link.rate = .ofStraps p ∧ s.link.resetScheduled = false ∧ s.resetLow = false)
    ∧ (s.cond.conditions = 0 ∧ s.cond.mask = 0 ∧ s.cond.gate = .opened)

/-! ## Invariants -/

/-- R4. -/
def Obligations.CollectionsAgreeAtEveryStep : Prop :=
  ∀ s t : State, CollectionsAgree s.table → step s = .next t → CollectionsAgree t.table

/-- R142, R146, R149, R156 to R160: the limits of the outbound queue, at most one packet for each target and label, and no CAP or STORE
behind a MARK whose epoch is equal to or later than its label. The second clause rests on the last MARK placed, by which the model judges
offers late (log 13). -/
def Obligations.QueueLawfulAtEveryStep : Prop :=
  (∀ s t : State, QueueLawful s.ring → step s = .next t → QueueLawful t.ring)
  ∧ ∀ s t : State, RunLawful s → MarksLead s.run.state s.ring → step s = .next t → MarksLead t.run.state t.ring

/-- R186, R188. -/
def Obligations.GateQuietAtEveryStep : Prop :=
  ∀ s t : State, GateQuiet s.cond → step s = .next t → GateQuiet t.cond

/-- R172, R173. -/
def Obligations.AlertLevelsFollowAtEveryStep : Prop :=
  ∀ s t : State, LevelsFollow s → step s = .next t → LevelsFollow t

/-- R43, R46, R47, R104. -/
def Obligations.RunLawfulAtEveryStep : Prop :=
  ∀ s t : State, RunLawful s → step s = .next t → RunLawful t

/-- R58, R60, R65, R66, R70. -/
def Obligations.SkyLawfulAtEveryStep : Prop :=
  ∀ s t : State, SkyLawful s.sky → step s = .next t → SkyLawful t.sky

/-- R76, R77, R82 to R90: the limits of the lead maps and of the warnings list, the agreement of each station's warning held flag with the
list, and the order of the list. -/
def Obligations.FrontLawfulAtEveryStep : Prop :=
  (∀ s t : State, FrontLawful s.front → step s = .next t → FrontLawful t.front)
  ∧ (∀ s t : State, FrontLawful s.front → FlagsFollow s → step s = .next t → FlagsFollow t)
  ∧ ∀ s t : State, RunLawful s → FrontLawful s.front → WarningsOrdered s → step s = .next t → WarningsOrdered t

/-- R98, R99, R101. -/
def Obligations.WindowLawfulAtEveryStep : Prop :=
  ∀ s t : State, WindowLawful s.gov → step s = .next t → WindowLawful t.gov

/-- R4, R30, R43, R47, R58, R66, R76, R94, R104, R142, R172, R186: the invariants hold in the machine right after reset.
R60, R77, R82, R83, R172: the numbers that they name. -/
def Obligations.InvariantsHoldAtReset : Prop :=
  CollectionsAgree State.reset.table ∧ QueueLawful State.reset.ring ∧ GateQuiet State.reset.cond ∧ LevelsFollow State.reset
    ∧ RunLawful State.reset ∧ SkyLawful State.reset.sky ∧ FrontLawful State.reset.front ∧ WindowLawful State.reset.gov
    ∧ MarksLead State.reset.run.state State.reset.ring ∧ FlagsFollow State.reset ∧ WarningsOrdered State.reset
    ∧ (frameSlots = 64 ∧ leadCapacity = 192 ∧ leadsPerStation = 8 ∧ warningCapacity = 32 ∧ alertCapacity = 32)
    ∧ (∀ r : RunState, r.inRun = true ↔ r = .running ∨ r = .holding)
    ∧ ∀ (x : StationIx) (map : List LeadEntry), entriesOf x map = map.filter fun y => y.station == x

/-! ## Block requests -/

/-- R5 to R7: ENROLL in EMPTY, PROFILE in FREE and SILENT, WITHDRAW in FREE, SILENT, BARRED and OUT. -/
def Obligations.BlockEnrolledProfiledWithdrawn : Prop :=
  (∀ (tag block : Byte) (rated : Half) (group : Byte) (s : State) (b : BlockIx) (g : GroupIx), Ready s →
    block.toNat = b.val + 1 → 1 ≤ rated.toNat → rated.toNat ≤ 65000 → group.toNat = g.val + 1 → (s.block b).state = .empty →
    ∃ t, exec (.enroll tag block rated group) s = .next t ∧ OnlyBlock b s t ∧ Answered 0x01 tag .ok [] s t ∧ CollectionsKept s t
      ∧ t.block b = { BlockRecord.emptyAt ((s.block b).revision + 1) with
                        state := .silent, profile := some { rated := rated.toNat, group := g },
                        watch := if (s.run.state = .running ∨ s.run.state = .holding) ∧ s.ring.state = .up
                          then some s.timer.epoch else none })
  ∧ (∀ (tag block : Byte) (rated : Half) (group : Byte) (s : State) (b : BlockIx) (g : GroupIx), Ready s →
    block.toNat = b.val + 1 → 1 ≤ rated.toNat → rated.toNat ≤ 65000 → group.toNat = g.val + 1 →
    (s.block b).state = .free ∨ (s.block b).state = .silent →
    ∃ t, exec (.profile tag block rated group) s = .next t ∧ OnlyBlock b s t ∧ Answered 0x02 tag .ok [] s t ∧ CollectionsKept s t
      ∧ t.block b = { s.block b with profile := some { rated := rated.toNat, group := g },
                                     revision := (s.block b).revision + 1 })
  ∧ (∀ (tag block : Byte) (s : State) (b : BlockIx), Ready s → block.toNat = b.val + 1 →
    (s.block b).state = .free ∨ (s.block b).state = .silent ∨ (s.block b).state = .barred ∨ (s.block b).state = .out →
    ∃ t, exec (.withdraw tag block) s = .next t ∧ OnlyBlock b s t ∧ Answered 0x03 tag .ok [] s t
      ∧ t.table.capped = s.table.capped
      ∧ t.table.rotation = (if (s.block b).state = .free then s.table.rotation.filter (· != b) else s.table.rotation)
      ∧ t.block b = BlockRecord.emptyAt ((s.block b).revision + 1))

/-- R8, R9: PIN in FREE, CAPPED and RESTING at a cap up to the rated power; UNPIN in PINNED. -/
def Obligations.PinAndUnpinTaken : Prop :=
  (∀ (tag block : Byte) (cap : Half) (s : State) (b : BlockIx) (p : Profile), Ready s → block.toNat = b.val + 1 →
    (s.block b).profile = some p → cap.toNat ≤ p.rated →
    (s.block b).state = .free ∨ (s.block b).state = .capped ∨ (s.block b).state = .resting →
    ∃ t, exec (.pin tag block cap) s = .next t ∧ OnlyBlock b s t ∧ Answered 0x04 tag .ok [] s t
      ∧ t.table.capped = (if (s.block b).state = .capped then s.table.capped.filter (· != b) else s.table.capped)
      ∧ t.table.rotation = (if (s.block b).state = .free then s.table.rotation.filter (· != b) else s.table.rotation)
      ∧ t.block b = { s.block b with state := .pinned, cap := some cap.toNat, captureEpoch := none, owed := true,
                                     revision := (s.block b).revision + 1 })
  ∧ (∀ (tag block : Byte) (s : State) (b : BlockIx) (p : Profile) (c floor : Nat), Ready s → block.toNat = b.val + 1 →
    (s.block b).state = .pinned → (s.block b).profile = some p → (s.block b).cap = some c →
    floor = p.rated * s.gov.groups[p.group].floorPercent / 100 →
    ∃ t, exec (.unpin tag block) s = .next t ∧ OnlyBlock b s t ∧ Answered 0x05 tag .ok [] s t
      ∧ t.table.capped = s.table.capped ++ [b] ∧ t.table.rotation = s.table.rotation
      ∧ t.block b = { s.block b with state := .capped, cap := some (max floor (min p.rated c)),
                                     captureEpoch := some s.timer.epoch, nonFollowRun := 0,
                                     owed := (s.block b).owed || decide (max floor (min p.rated c) ≠ c),
                                     revision := (s.block b).revision + 1 })

/-- R10, R11: BAR in every state but BARRED and EMPTY; UNBAR in BARRED, to OUT if the trip flag is set and to FREE otherwise. -/
def Obligations.BarAndUnbarTaken : Prop :=
  (∀ (tag block : Byte) (s : State) (b : BlockIx), Ready s → block.toNat = b.val + 1 →
    (s.block b).state ≠ .barred → (s.block b).state ≠ .empty →
    ∃ t, exec (.bar tag block) s = .next t ∧ OnlyBlock b s t ∧ Answered 0x06 tag .ok [] s t
      ∧ t.table.capped = (if (s.block b).state = .capped then s.table.capped.filter (· != b) else s.table.capped)
      ∧ t.table.rotation = (if (s.block b).state = .free then s.table.rotation.filter (· != b) else s.table.rotation)
      ∧ t.block b = { s.block b with
                        state := .barred, barCause := some .host, cap := none, captureEpoch := none,
                        owed := (s.block b).owed || (s.block b).state == .capped || (s.block b).state == .pinned,
                        revision := (s.block b).revision + 1 })
  ∧ (∀ (tag block : Byte) (s : State) (b : BlockIx), Ready s → block.toNat = b.val + 1 → (s.block b).state = .barred →
    ∃ t, exec (.unbar tag block) s = .next t ∧ OnlyBlock b s t ∧ Answered 0x07 tag .ok [] s t
      ∧ t.table.capped = s.table.capped
      ∧ t.table.rotation = (if (s.block b).tripFlag then s.table.rotation else s.table.rotation ++ [b])
      ∧ t.block b = { s.block b with
                        state := if (s.block b).tripFlag then .out else .free, barCause := none,
                        nonFollowRun := if (s.block b).barCause = some .noFollow then 0 else (s.block b).nonFollowRun,
                        revision := (s.block b).revision + 1 })

/-- R12: the block requests are refused at the first check that fails, and a refused request changes no state. -/
def Obligations.BlockRequestsRefused : Prop :=
  ∀ (tag block : Byte) (rated cap : Half) (group : Byte) (s : State), Ready s →
    -- step 1: a block ID outside 1 to 48
    (NoBlock block →
      (∃ t, exec (.enroll tag block rated group) s = .next t ∧ Refused 0x01 tag .badValue s t)
      ∧ (∃ t, exec (.profile tag block rated group) s = .next t ∧ Refused 0x02 tag .badValue s t)
      ∧ (∃ t, exec (.withdraw tag block) s = .next t ∧ Refused 0x03 tag .badValue s t)
      ∧ (∃ t, exec (.pin tag block cap) s = .next t ∧ Refused 0x04 tag .badValue s t)
      ∧ (∃ t, exec (.unpin tag block) s = .next t ∧ Refused 0x05 tag .badValue s t)
      ∧ (∃ t, exec (.bar tag block) s = .next t ∧ Refused 0x06 tag .badValue s t)
      ∧ (∃ t, exec (.unbar tag block) s = .next t ∧ Refused 0x07 tag .badValue s t)
      ∧ (∃ t, exec (.readBlock tag block) s = .next t ∧ Refused 0x08 tag .badValue s t))
    ∧ ∀ b : BlockIx, block.toNat = b.val + 1 →
      -- step 2: a rated power outside 1 to 65,000 kW or a group outside 1 to 8
      (NoProfile rated group →
        (∃ t, exec (.enroll tag block rated group) s = .next t ∧ Refused 0x01 tag .badValue s t)
        ∧ ∃ t, exec (.profile tag block rated group) s = .next t ∧ Refused 0x02 tag .badValue s t)
      -- step 3: a state in which the request is not taken
      ∧ (¬NoProfile rated group → (s.block b).state ≠ .empty →
        ∃ t, exec (.enroll tag block rated group) s = .next t ∧ Refused 0x01 tag .wrongState s t)
      ∧ (¬NoProfile rated group → (s.block b).state ≠ .free → (s.block b).state ≠ .silent →
        ∃ t, exec (.profile tag block rated group) s = .next t ∧ Refused 0x02 tag .notFree s t)
      ∧ ((s.block b).state ∈ [BlockState.capped, .resting, .pinned, .empty] →
        ∃ t, exec (.withdraw tag block) s = .next t ∧ Refused 0x03 tag .notFree s t)
      ∧ ((s.block b).state ∈ [BlockState.silent, .pinned, .barred, .out, .empty] →
        ∃ t, exec (.pin tag block cap) s = .next t ∧ Refused 0x04 tag .wrongState s t)
      ∧ ((s.block b).state ≠ .pinned → ∃ t, exec (.unpin tag block) s = .next t ∧ Refused 0x05 tag .wrongState s t)
      ∧ ((s.block b).state ∈ [BlockState.barred, .empty] →
        ∃ t, exec (.bar tag block) s = .next t ∧ Refused 0x06 tag .wrongState s t)
      ∧ ((s.block b).state ≠ .barred → ∃ t, exec (.unbar tag block) s = .next t ∧ Refused 0x07 tag .wrongState s t)
      -- step 4: for PIN, a cap above the rated power
      ∧ ∀ p : Profile, (s.block b).profile = some p → p.rated < cap.toNat →
          (s.block b).state ∈ [BlockState.free, .capped, .resting] →
          ∃ t, exec (.pin tag block cap) s = .next t ∧ Refused 0x04 tag .badValue s t

/-! ## Reads -/

/-- R42, R131, R141, R151, R184: the reads that carry no value are answered in every state, and change nothing but the Host Link
Port. -/
def Obligations.PlainReadsAnswer : Prop :=
  ∀ (tag : Byte) (s : State), Ready s →
    (∃ t, exec (.readSettings tag) s = .next t ∧ OnlyLink s t ∧ Answered 0x0B tag .ok (settingsData s.gov s.store) s t)
    ∧ (∃ t, exec (.readPlant tag) s = .next t ∧ OnlyLink s t ∧ Answered 0x18 tag .ok (plantData s) s t)
    ∧ (∃ t, exec (.readNodes tag) s = .next t ∧ OnlyLink s t ∧ Answered 0x19 tag .ok (nodeData s.nodes) s t)
    ∧ (∃ t, exec (.readRing tag) s = .next t ∧ OnlyLink s t ∧ Answered 0x1C tag .ok (ringData s.ring) s t)
    ∧ (∃ t, exec (.readConditions tag) s = .next t ∧ OnlyLink s t
        ∧ Answered 0x20 tag .ok (conditionData s.cond s.link.linkErrors) s t)

/-- R13, R68, R92, R175: the reads that name a record, with their refusals. -/
def Obligations.NamedReadsAnswer : Prop :=
  ∀ (tag : Byte) (s : State), Ready s →
    (∀ (block : Byte) (b : BlockIx), block.toNat = b.val + 1 →
      ∃ t, exec (.readBlock tag block) s = .next t ∧ OnlyLink s t ∧ Answered 0x08 tag .ok (blockData s.table b) s t)
    ∧ (∀ (station : Byte) (x : StationIx), station.toNat = x.val + 1 →
      ∃ t, exec (.readStation tag station) s = .next t ∧ OnlyLink s t
        ∧ Answered 0x12 tag .ok (stationData x (s.station x)) s t)
    ∧ (∀ station : Byte, station.toNat = 0 ∨ 24 < station.toNat →
      ∃ t, exec (.readStation tag station) s = .next t ∧ Refused 0x12 tag .badValue s t)
    ∧ (∀ (index : Byte) (w : Warning), index.toNat ≤ 31 → s.front.warnings[index.toNat]? = some w →
      ∃ t, exec (.readWarning tag index) s = .next t ∧ OnlyLink s t
        ∧ Answered 0x17 tag .ok (warningData s.front.warnings.length w) s t)
    ∧ (∀ index : Byte, 31 < index.toNat → ∃ t, exec (.readWarning tag index) s = .next t ∧ Refused 0x17 tag .badValue s t)
    ∧ (∀ index : Byte, index.toNat ≤ 31 → s.front.warnings.length ≤ index.toNat →
      ∃ t, exec (.readWarning tag index) s = .next t ∧ Refused 0x17 tag .notFound s t)
    ∧ (∀ (cls index : Byte) (c : AlertClass) (a : AlertEntry), AlertClass.ofCode cls = some c → index.toNat ≤ 31 →
      (s.alerts.get c).entries[index.toNat]? = some a →
      ∃ t, exec (.alertPeek tag cls index) s = .next t ∧ OnlyLink s t
        ∧ Answered 0x1E tag .ok (alertData a (s.alerts.get c)) s t)
    ∧ (∀ cls index : Byte, 3 < cls.toNat ∨ 31 < index.toNat →
      ∃ t, exec (.alertPeek tag cls index) s = .next t ∧ Refused 0x1E tag .badValue s t)
    ∧ (∀ (cls index : Byte) (c : AlertClass), AlertClass.ofCode cls = some c → index.toNat ≤ 31 →
      (s.alerts.get c).entries = [] → ∃ t, exec (.alertPeek tag cls index) s = .next t ∧ Refused 0x1E tag .empty s t)
    ∧ (∀ (cls index : Byte) (c : AlertClass), AlertClass.ofCode cls = some c → index.toNat ≤ 31 →
      (s.alerts.get c).entries ≠ [] → (s.alerts.get c).entries.length ≤ index.toNat →
      ∃ t, exec (.alertPeek tag cls index) s = .next t ∧ Refused 0x1E tag .notFound s t)

/-- 12.3, 12.4, R190: the reply data hold the fields of their tables in order, each with its width and its value, and so have the widths of
those tables; the codes run from 0 in the order of 12.3. The list of READ_WARNING needs at most 8 arrivals (R82), and that of READ_RING at
most 50 node IDs (R142). R181, 12.1: what a reply is, and the codes of its status. 12.3: the bits of the condition set. -/
def Obligations.ReplyDataHaveTheirWidths : Prop :=
  -- a number least significant byte first
  (leNat [] = 0 ∧ (∀ (b : Byte) (bs : List Byte), leNat (b :: bs) = b.toNat + 256 * leNat bs)
    ∧ (∀ n x : Nat, Fields (leBytes n x) [(n, some x)]) ∧ ∀ e : Epoch, Fields (epochBytes e) [(4, some e.toNat)])
  -- a reply: the kind of its request plus 0x80, its tag, the status byte first, and the data for OK alone
  ∧ (∀ (kind tag : Byte) (st : Status) (data : List Byte),
    (replyFrame kind tag st data).kind = kind + 0x80#8 ∧ (replyFrame kind tag st data).tag = tag
    ∧ (replyFrame kind tag st data).body = st.code :: (if st = .ok then data else []))
  ∧ [Status.ok, .badKind, .badLength, .badValue, .wrongState, .notFree, .notFound, .full, .empty, .lineActive, .notConfigured].map
      (fun st => st.code.toNat) = List.range 11
  -- READ_BLOCK
  ∧ (∀ (t : BlockTable) (b : BlockIx) (r : BlockRecord), r = t.blocks[b] →
    (blockData t b).length = 62
    ∧ ∃ usable, UsableIs r usable
      ∧ Fields (blockData t b)
          [(1, some (b.val + 1)), (1, some r.state.code), (2, r.profile.map (·.rated)), (1, r.profile.map fun p => p.group.val + 1),
            (2, some r.revision.toNat), (4, r.measured), (4, r.available), (2, r.derate), (2, r.cap), epochField r.capLabel,
            epochField r.leaseExpiry, flagField r.owed, epochField r.captureEpoch, epochField r.lastRelease, epochField r.heard,
            epochField r.watch, (1, r.unitMode.map (·.code)), (1, some r.nonFollowRun), (1, some r.undeliveredRun),
            (1, r.barCause.map (·.code)), flagField r.tripFlag, (2, some r.lapseCount), (4, some usable),
            (1, (t.capped.idxOf? b).or (t.rotation.idxOf? b))])
  -- READ_SETTINGS
  ∧ (∀ (g : Governor) (st : SettingsStore),
    (settingsData g st).length = 115
    ∧ ∃ marker : Nat, marker.testBit 0 = st.plant.isSome ∧ (∀ x : GroupIx, marker.testBit (x.val + 1) = (st.groups[x]).isSome)
      ∧ marker < 512
      ∧ Fields (settingsData g st)
          (plantFields g.plant ++ g.groups.toList.flatMap groupFields ++ [flagField st.configured, (2, some marker)]))
  -- READ_STATION
  ∧ (∀ (x : StationIx) (st : Station),
    (stationData x st).length = 18
    ∧ Fields (stationData x st)
        [(1, some (x.val + 1)), (1, some st.slot), flagField st.enabled, (1, some st.historyLength), (1, some st.drop),
          (1, some st.persistence), (1, some st.clear), (1, some st.detector.code), (1, some st.history.length),
          (2, st.history.max?), (2, st.reference), (1, st.depth), (1, st.pendingCount), (1, some st.invalidRun),
          (1, st.lastSequence.map BitVec.toNat), flagField st.warningHeld])
  -- READ_WARNING
  ∧ (∀ (n : Nat) (w : Warning), w.arrivals.length ≤ 8 →
    (warningData n w).length = 61
    ∧ Fields (warningData n w)
        ([(1, some n), (1, some w.id), (1, some (w.station.val + 1)), (1, some w.depth), (4, some w.opened.toNat),
            (4, some w.earliest.toNat), (1, some w.arrivals.length)]
          ++ w.arrivals.flatMap (fun a => arrivalFields (some a))
          ++ (List.replicate (8 - w.arrivals.length) none).flatMap arrivalFields))
  -- READ_PLANT
  ∧ (∀ s : State,
    (plantData s).length = 118
    ∧ Fields (plantData s)
        ([(1, some s.run.state.code), (4, some s.timer.epoch.toNat), (1, some s.hold.code), (4, s.hold.value),
            (1, some s.gov.phase.code), epochField s.gov.phase.epoch, (4, s.gov.heldTarget)]
          ++ statusFields s.gov.status
          ++ [(4, some s.gov.upBreaches), (4, some s.gov.downBreaches), (4, some s.gov.overruns), (4, some s.gov.staleDecisions)]))
  -- READ_NODES
  ∧ (∀ (n : NodeRecords) (r : StorageRecord), r = n.storage →
    (nodeData n).length = 55
    ∧ Fields (nodeData n)
        [epochField r.heard, (1, some r.hearing.code), powerField r.measured, (2, r.soe), (4, r.discharge), (4, r.charge),
          (1, r.unitMode.map (·.code)), powerField r.applied, (4, some (r.commanded % 2 ^ 32).toNat), epochField r.commandLabel,
          epochField r.leaseExpiry, flagField r.owed, (2, some r.lapseCount), epochField n.meter.heard,
          (1, some n.meter.hearing.code), powerField n.meter.exported])
  -- READ_RING
  ∧ (∀ r : RingController, r.nodes.length ≤ 50 →
    (ringData r).length = 90
    ∧ ∃ mark, (mark = none ↔ ∀ e, .mark e ∉ r.queue) ∧ (∀ e, mark = some e → .mark e ∈ r.queue)
      ∧ Fields (ringData r)
          ([(1, some r.state.code), flagField r.signalSeen, (1, some r.nodes.length)]
            ++ r.nodes.map (fun n => (1, some n)) ++ List.replicate (50 - r.nodes.length) (1, none)
            ++ [(1, some r.queue.length), (1, some (r.queue.filter OwnPacket.isCap).length),
              (1, some (r.queue.filter OwnPacket.isStore).length), (1, some (r.queue.filter OwnPacket.isMark).length),
              (1, some (r.queue.filter OwnPacket.isProbe).length), epochField mark, (1, r.probe.code), (1, r.probe.number),
              (1, r.lastOutcome.map (·.code)), (4, some r.purged), (4, some r.rogue), (4, some r.discarded),
              (4, some r.unknownOrigin), (4, some r.late), (4, some r.probeFailures)]))
  -- READ_CONDITIONS
  ∧ (∀ (c : ConditionUnit) (n : Nat),
    (conditionData c n).length = 11
    ∧ Fields (conditionData c n) [(4, some c.conditions.toNat), (4, some c.mask.toNat), (1, some c.gate.code), (2, some n)])
  -- ALERT_TAKE and ALERT_PEEK
  ∧ (∀ (a : AlertEntry) (q : AlertQueue),
    (alertData a q).length = 12
    ∧ Fields (alertData a q)
        [(1, some a.node), (1, some a.cls.code), (4, some a.data.toNat), (4, some a.arrival.toNat), (1, some q.entries.length),
          (1, some q.overflow)])
  -- 12.3
  ∧ ([BlockState.empty, .silent, .free, .capped, .resting, .pinned, .barred, .out].map (·.code) = List.range 8
    ∧ [UnitMode.free, .capped].map (·.code) = List.range 2 ∧ [BarCause.host, .noFollow].map (·.code) = List.range 2
    ∧ [RunState.stopped, .armed, .running, .holding].map (·.code) = List.range 4
    ∧ [HoldMode.latched, .epoch].map (·.code) = List.range 2 ∧ [HoldAction.freeze, .ceiling].map (·.code) = List.range 2
    ∧ (∀ c, [Hold.none, .freeze, .ceiling c].map (fun h => (h.code, h.value)) = [(0, none), (1, none), (2, some c)])
    ∧ (∀ o sup pl todo counts, [DispatchPhase.idle, .computing o, .staging o sup pl todo counts].map (fun x => (x.code, x.epoch))
        = [(0, none), (1, some o.epoch), (2, some o.epoch)])
    ∧ [Outcome.complete, .frozen, .cut, .ringDown].map (·.code) = List.range 4
    ∧ [TargetPath.within, .short, .late].map (·.code) = List.range 3
    ∧ [SampleSource.waiting, .meter, .fallback].map (·.code) = List.range 3
    ∧ [Hearing.waiting, .heard, .silent].map (·.code) = List.range 3
    ∧ [Detector.clear, .pending, .shaded, .lost].map (·.code) = List.range 4
    ∧ [RingState.down, .probing, .up].map (·.code) = List.range 3
    ∧ (∀ n sent over_, [ProbeRecord.absent, .queued, .outstanding n sent over_].map (fun x => (x.code, x.number))
        = [(none, none), (some 0, none), (some 1, some n.toNat)])
    ∧ [ProbeOutcome.returned, .failed].map (·.code) = List.range 2
    ∧ [AlertClass.trip, .derate, .restore, .note].map (·.code) = List.range 4
    ∧ [Gate.closed, .opened].map (·.code) = List.range 2)
  -- the condition set: bits 0 to 31 in order, and what setting and clearing one leave of the others
  ∧ ([Condition.ringLoss, .ringUp, .rogueRemoved, .packetDiscarded, .tripPending, .deratePending, .restorePending, .notePending,
      .alertOverflow, .bandBreach, .glideLate, .supplyShort, .captureShort, .dispatchOverrun, .holdBegun, .holdEnded,
      .sensorLoss, .stationLost, .warningOpened, .warningDropped, .blockLapsed, .blockSilent, .blockNoFollow, .strayCap,
      .capUndelivered, .capLate, .meterSilent, .storageSilent, .epochStall, .linkError, .markShort, .staleDecision].map (·.bit)
        = List.range 32
    ∧ (∀ (w : Word) (c : Condition), conditionSet w c = w.getLsbD c.bit
      ∧ ∀ i : Nat, i < 32 → (setCondition w c).getLsbD i = (decide (i = c.bit) || w.getLsbD i)
        ∧ (clearCondition w c).getLsbD i = (w.getLsbD i && !decide (i = c.bit)))
    ∧ [AlertClass.trip, .derate, .restore, .note].map (·.level)
        = [Condition.tripPending, .deratePending, .restorePending, .notePending])

/-! ## Conditions and notices -/

/-- R183, R186: a raise of a set condition changes nothing; a raise of a clear one sets it, and readies a notice and closes the gate if
the gate is OPEN and some condition is then both set and in the mask. -/
def Obligations.RaiseFollowsTheGate : Prop :=
  ∀ (c : Condition) (s : State),
    (conditionSet s.cond.conditions c = true → raise c s = s)
    ∧ ∀ set : Word, conditionSet s.cond.conditions c = false → set = setCondition s.cond.conditions c →
      (s.cond.gate = .opened → set &&& s.cond.mask ≠ 0 →
        raise c s = { s with cond := { conditions := set, mask := s.cond.mask, gate := .closed },
                             link := HostLink.readyNotice (leBytes 4 set.toNat ++ epochBytes s.timer.epoch) s.link })
      ∧ (s.cond.gate = .closed ∨ set &&& s.cond.mask = 0 →
        raise c s = { s with cond := { s.cond with conditions := set } })

/-- R185: CLEAR_CONDITIONS, and a raise taken after it. -/
def Obligations.ClearConditionsTaken : Prop :=
  (∀ (tag : Byte) (named : Word) (s : State), Ready s →
    ∃ t, exec (.clearConditions tag named) s = .next t
      ∧ t = { s with link := t.link, cond := { s.cond with conditions := t.cond.conditions } }
      ∧ (∀ c : Condition, conditionSet t.cond.conditions c =
          if c ∈ [Condition.tripPending, .deratePending, .restorePending, .notePending] then conditionSet s.cond.conditions c
          else conditionSet s.cond.conditions c && !conditionSet named c)
      ∧ Answered 0x21 tag .ok (leBytes 4 t.cond.conditions.toNat) s t)
  ∧ ∀ (c : Condition) (s : State), conditionSet (raise c s).cond.conditions c = true

/-- R187: SET_NOTICE_MASK. A notice that the new mask brings is readied ahead of the reply. -/
def Obligations.SetNoticeMaskTaken : Prop :=
  ∀ (tag : Byte) (mask : Word) (s : State) (held : HostLink), Ready s → held = { s.link with inHand := some (0x22, tag) } →
    ∃ t, exec (.setNoticeMask tag mask) s = .next t ∧ t = { s with link := t.link, cond := t.cond }
      ∧ (s.cond.gate = .opened → s.cond.conditions &&& mask ≠ 0 →
          t.cond = { conditions := s.cond.conditions, mask, gate := .closed }
          ∧ t.link = HostLink.ready (replyFrame 0x22 tag .ok [])
              (HostLink.readyNotice (leBytes 4 s.cond.conditions.toNat ++ epochBytes s.timer.epoch) held))
      ∧ (s.cond.gate = .closed ∨ s.cond.conditions &&& mask = 0 →
          t.cond = { s.cond with mask } ∧ t.link = HostLink.ready (replyFrame 0x22 tag .ok []) held)

/-- R188: NOTICE_REARM. Taken while the gate is OPEN, and its last evaluation left it so, it changes nothing. -/
def Obligations.NoticeRearmTaken : Prop :=
  ∀ (tag : Byte) (s : State) (held : HostLink), Ready s → held = { s.link with inHand := some (0x23, tag) } →
    ∃ t, exec (.noticeRearm tag) s = .next t ∧ t = { s with link := t.link, cond := t.cond }
      ∧ (s.cond.conditions &&& s.cond.mask ≠ 0 →
          t.cond = { s.cond with gate := .closed }
          ∧ t.link = HostLink.ready (replyFrame 0x23 tag .ok [])
              (HostLink.readyNotice (leBytes 4 s.cond.conditions.toNat ++ epochBytes s.timer.epoch) held))
      ∧ (s.cond.conditions &&& s.cond.mask = 0 →
          t.cond = { s.cond with gate := .opened } ∧ t.link = HostLink.ready (replyFrame 0x23 tag .ok []) held)
      ∧ (s.cond.gate = .opened → GateQuiet s.cond → t.cond = s.cond)

/-! ## Settings -/

/-- R36 to R38: SET_PLANT and SET_GROUP, taken in every run state. -/
def Obligations.SettingsStaged : Prop :=
  (∀ (tag : Byte) (body : PlantBody) (s : State), Ready s →
    (PlantInRange body →
      ∃ t, exec (.setPlant tag body) s = .next t ∧ Answered 0x09 tag .ok [] s t
        ∧ t = { s with link := t.link, store := { s.store with plant := some (recordOfPlant body), configured := true } })
    ∧ (¬PlantInRange body → ∃ t, exec (.setPlant tag body) s = .next t ∧ Refused 0x09 tag .badValue s t))
  ∧ ∀ (tag group : Byte) (body : GroupBody) (s : State), Ready s →
    (∀ g : GroupIx, group.toNat = g.val + 1 → GroupInRange body →
      ∃ t, exec (.setGroup tag group body) s = .next t ∧ Answered 0x0A tag .ok [] s t
        ∧ t = { s with link := t.link, store := { s.store with groups := s.store.groups.set g (some (recordOfGroup body)) } })
    ∧ (group.toNat = 0 ∨ 8 < group.toNat ∨ ¬GroupInRange body →
      ∃ t, exec (.setGroup tag group body) s = .next t ∧ Refused 0x0A tag .badValue s t)

/-! ## Host link -/

/-- 12.2, R190: every request has the kind and the body that the index gives it, and its body reads back as that request. -/
def Obligations.RequestBodiesReadBack : Prop :=
  ∀ r : Request, r.wellFormed = true →
    Request.parse r.kind r.body = .ok r ∧ r.kind.toNat = r.layout.1 ∧ Fields r.body r.layout.2

/-- R179, R180, R181, 12.1, 12.2: the frame of a request, complete while the port is free, does what the request's own row does. What a
request's own row is, the taking of the request by its owner (log 5), and that a receiver in COLLECT drops what it has collected and hunts
(log 32), is the model's choice. -/
def Obligations.FramedRequestIsItsRow : Prop :=
  ∀ (r : Request) (tag : Byte) (order : EpochOrder) (s : State), r.wellFormed = true → Ready s → PortFree s →
    ∃ t, exec (.hostFrameComplete (r.frame tag) order) s = .next t ∧ exec (r.row order tag) (Hunting s) = .next t

/-- R180: a request in the holding slot is taken once the port is no longer busy, and until then it stays. That the taking is the taking of
the request's own row (log 5), that it is a command of its own (log 7), and that this changes nothing with an empty slot (log 2), is the
model's choice. -/
def Obligations.HeldRequestIsTaken : Prop :=
  ∀ (order : EpochOrder) (s : State),
    (∀ (r : Request) (tag : Byte), r.wellFormed = true → Ready s → ¬PortBusy s →
      s.link.holding = some { kind := r.kind, tag, body := r.body } →
      ∃ t, exec (.heldRequestTaken order) s = .next t
        ∧ exec (r.row order tag) { s with link := { s.link with holding := none } } = .next t)
    ∧ (PortBusy s ∨ s.link.holding = none → exec (.heldRequestTaken order) s = .next s)

/-- R180: while a request is in hand or a reply waits, a complete request waits in the holding slot, and is dropped and counted if the
slot is full. That a receiver in COLLECT drops what it has collected and hunts is the model's choice (log 32). -/
def Obligations.BusyPortHoldsOrDrops : Prop :=
  ∀ (kind tag : Byte) (body : List Byte) (order : EpochOrder) (s : State), Awake s → PortBusy s → kind.toNat < 0x7F →
    body.length ≤ 250 →
    (s.link.holding = none →
      ∃ t, exec (.hostFrameComplete (frameWithCrc kind tag body) order) s = .next t
        ∧ t = { s with link := { s.link with receiver := .hunt, holding := some { kind, tag, body } } })
    ∧ (s.link.holding ≠ none →
      ∃ t, exec (.hostFrameComplete (frameWithCrc kind tag body) order) s = .next t ∧ LinkErrorTaken s t)

/-- R181: a request of a kind outside the index is refused with BAD_KIND, and one of a length that no body of its kind has with
BAD_LENGTH. That a receiver in COLLECT drops what it has collected and hunts is the model's choice (log 32). -/
def Obligations.BadKindOrLengthRefused : Prop :=
  ∀ (kind tag : Byte) (body : List Byte) (order : EpochOrder) (s : State), Ready s → PortFree s → kind.toNat < 0x7F →
    body.length ≤ 250 →
    (kind.toNat = 0 ∨ 0x24 < kind.toNat →
      ∃ t, exec (.hostFrameComplete (frameWithCrc kind tag body) order) s = .next t
        ∧ Refused kind tag .badKind (Hunting s) t)
    ∧ (1 ≤ kind.toNat → kind.toNat ≤ 0x24 →
      (∀ r : Request, r.wellFormed = true → r.kind = kind → r.body.length ≠ body.length) →
      ∃ t, exec (.hostFrameComplete (frameWithCrc kind tag body) order) s = .next t
        ∧ Refused kind tag .badLength (Hunting s) t)

/-- R178, R179: a frame whose CRC does not match or whose kind is 0x7F or above is dropped and counted, and so is a frame whose gap
timer runs out. That the clock moves to the first microsecond past 5 ms as the gap timer runs out (logs 3, 1), that the event changes
nothing in HUNT (log 2), and that a whole frame drops uncounted what a receiver in COLLECT has collected (log 32), is the model's choice. -/
def Obligations.BadFramesAreCounted : Prop :=
  (∀ (f : RxFrame) (order : EpochOrder) (s : State), Awake s → (PortBusy s ∨ s.link.holding = none) →
    crc16 (BitVec.ofNat 8 f.body.length :: f.kind :: f.tag :: f.body) ≠ f.crcHigh ++ f.crcLow ∨ 0x7F ≤ f.kind.toNat →
    ∃ t, exec (.hostFrameComplete f order) s = .next t ∧ LinkErrorTaken s t)
  ∧ (∀ (bytes : List Byte) (last : Time) (s : State), Awake s → s.link.receiver = .collect bytes last →
    ∃ t, exec .hostFrameGapTimeout s = .next t ∧ LinkErrorTaken { s with now := max s.now (last + 5001) } t)
  ∧ ∀ s : State, s.link.receiver = .hunt → exec .hostFrameGapTimeout s = .next s

/-- R178: the receiver's table, one byte at a time. A byte that comes when the gap timer has run out meets the receiver that the gap
left. That the length byte restarts the gap timer as a byte of the frame does (log 23), and that the last byte does what
HOST_FRAME_COMPLETE, whatever the receiver has collected, does as a command of its own (logs 6, 32), is the model's choice. -/
def Obligations.ReceiverFollowsItsTable : Prop :=
  (∀ (byte : Byte) (stop : Bool) (order : EpochOrder) (s : State), Awake s → s.link.receiver = .hunt →
    ∃ t, exec (.hostByteReceived byte stop order) s = .next t
      ∧ t = if stop = true ∧ byte = 0xC3#8 then { s with link := { s.link with receiver := .collect [] s.now } } else s)
  ∧ (∀ (bytes : List Byte) (last : Time) (byte : Byte) (stop : Bool) (order : EpochOrder) (s : State), Awake s →
    s.link.receiver = .collect bytes last → s.now ≤ last + 5000 →
    -- no stop bit
    (stop = false → ∃ t, exec (.hostByteReceived byte stop order) s = .next t ∧ LinkErrorTaken s t)
    -- the length byte
    ∧ (stop = true → bytes = [] →
      (250 < byte.toNat → ∃ t, exec (.hostByteReceived byte stop order) s = .next t ∧ LinkErrorTaken s t)
      ∧ (byte.toNat ≤ 250 → ∃ t, exec (.hostByteReceived byte stop order) s = .next t
          ∧ t = { s with link := { s.link with receiver := .collect [byte] s.now } }))
    ∧ ∀ (length : Byte) (rest : List Byte), stop = true → bytes = length :: rest → length.toNat ≤ 250 →
      -- a byte before the last
      (rest.length < length.toNat + 3 → ∃ t, exec (.hostByteReceived byte stop order) s = .next t
        ∧ t = { s with link := { s.link with receiver := .collect (bytes ++ [byte]) s.now } })
      -- the last byte of the CRC
      ∧ ∀ (kind tag high : Byte) (body : List Byte), rest = kind :: tag :: body ++ [high] → body.length = length.toNat →
          ∃ t, exec (.hostByteReceived byte stop order) s = .next t
            ∧ exec (.hostFrameComplete { kind, tag, body, crcHigh := high, crcLow := byte } order) s = .next t)
  ∧ ∀ (bytes : List Byte) (last : Time) (byte : Byte) (stop : Bool) (order : EpochOrder) (s : State), Awake s →
    s.link.receiver = .collect bytes last → last + 5000 < s.now →
    ∃ u t, exec .hostFrameGapTimeout s = .next u ∧ exec (.hostByteReceived byte stop order) u = .next t
      ∧ exec (.hostByteReceived byte stop order) s = .next t

/-- R182: frames leave in the order in which they were readied; a reply that begins to leave takes its request out of hand. -/
def Obligations.TransmitterSendsInOrder : Prop :=
  ∀ s : State, Awake s → ¬ResetReplyLeaving s →
    (s.link.waiting = [] →
      ∃ t, exec .hostFrameSent s = .next t ∧ t = { s with link := { s.link with sending := none } })
    ∧ ∀ (f : TxFrame) (rest : List TxFrame), s.link.waiting = f :: rest →
      ∃ t, exec .hostFrameSent s = .next t
        ∧ t = { s with link := { s.link with sending := some f, waiting := rest,
                                             inHand := if f.kind = 0x7F#8 then s.link.inHand else none } }

/-- R182, R186: what the transmitter does with a frame that is readied. -/
def Obligations.ReadiedFramesQueue : Prop :=
  ∀ (f : TxFrame) (body : List Byte) (l : HostLink),
    (l.sending = none →
      HostLink.ready f l = { l with sending := some f, inHand := if f.kind = 0x7F#8 then l.inHand else none })
    ∧ (l.sending ≠ none → HostLink.ready f l = { l with waiting := l.waiting ++ [f] })
    ∧ ((∀ g ∈ l.waiting, g.kind ≠ 0x7F#8) →
        HostLink.readyNotice body l = HostLink.ready { kind := 0x7F#8, tag := 0#8, body } l)
    ∧ ∀ (before rest : List TxFrame) (g : TxFrame), l.waiting = before ++ g :: rest → g.kind = 0x7F#8 →
        (∀ x ∈ before ++ rest, x.kind ≠ 0x7F#8) →
        HostLink.readyNotice body l = { l with waiting := before ++ { g with body } :: rest }

/-- R189: RESET is answered like any other request, no further request is taken (log 8), and the full reset takes place when the last
byte of its reply has left. That RESET_REPLY_SENT changes nothing where no reply of a RESET is leaving is the model's choice (log 2). -/
def Obligations.ResetRequestTaken : Prop :=
  (∀ (tag : Byte) (s : State), Ready s →
    ∃ t, exec (.reset tag) s = .next t ∧ OnlyLink s t
      ∧ t.link = HostLink.ready (replyFrame 0x24 tag .ok []) { s.link with inHand := some (0x24, tag), resetScheduled := true })
  ∧ (∀ (r : Request) (tag : Byte) (order : EpochOrder) (s : State), s.link.resetScheduled = true →
    exec (r.row order tag) s = .next s ∧ exec (.heldRequestTaken order) s = .next s)
  ∧ (∀ (p : Straps) (s : State), Awake s → ResetReplyLeaving s →
    exec (.resetReplySent p) s = .next (State.afterReset s.pending s.now s.freeCount s.ring.signalSeen p)
    ∧ exec .hostFrameSent s = .next (State.afterReset s.pending s.now s.freeCount s.ring.signalSeen s.straps))
  ∧ ∀ (p : Straps) (s : State), ¬ResetReplyLeaving s → exec (.resetReplySent p) s = .next s

/-- R189: the part is held in reset while RESET_N is low, everything but the level of RING_SIG is ignored (logs 8, 9), and it begins work
in its reset values when RESET_N returns high. That RESET_N_RELEASED changes nothing where RESET_N is not low is the model's choice
(log 2). -/
def Obligations.ResetPinHoldsThePart : Prop :=
  (∀ s : State, s.resetLow = false →
    ∃ u t, u = State.afterReset s.pending s.now s.freeCount s.ring.signalSeen s.straps ∧ exec .resetNAsserted s = .next t
      ∧ t = { u with resetLow := true, link := { u.link with rate := s.link.rate } })
  ∧ (∀ (p : Straps) (s : State), s.resetLow = true →
    exec (.resetNReleased p) s = .next (State.afterReset s.pending s.now s.freeCount s.ring.signalSeen p)
    ∧ exec .ringSignalLoss s = .next { s with ring := { s.ring with signalSeen := false } }
    ∧ exec .ringSignalPresent s = .next { s with ring := { s.ring with signalSeen := true } })
  ∧ (∀ (c : Instr) (s : State), s.resetLow = true → c ≠ .ringSignalLoss → c ≠ .ringSignalPresent →
    (∀ p, c ≠ .resetNReleased p) → exec c s = .next s)
  ∧ ∀ (p : Straps) (s : State), s.resetLow = false → exec (.resetNReleased p) s = .next s

/-- R191: the CRC-16 of both links, bit by bit. -/
def Obligations.CrcIsTheManuals : Prop :=
  crc16 [] = 0xFFFF#16
    ∧ (∀ (bytes : List Byte) (b : Byte), crc16 (bytes ++ [b]) = (List.range 8).foldl
        (fun (c : Half) i => if c.getLsbD 15 ^^ b.getLsbD (7 - i) then (c <<< 1) ^^^ 0x1021#16 else c <<< 1) (crc16 bytes))
    ∧ crc16 [0x31, 0x32, 0x33, 0x34, 0x35, 0x36, 0x37, 0x38, 0x39] = 0x29B1#16
    -- host frames
    ∧ (∀ f : RxFrame, frameCrcMatches f = true ↔
        f.crcHigh ++ f.crcLow = crc16 (BitVec.ofNat 8 f.body.length :: f.kind :: f.tag :: f.body))
    -- ring packets
    ∧ ∀ (origin kind flags marks high low : Byte) (payload : List Byte),
        ringCrcMatches ([origin, kind, flags, marks] ++ payload ++ [high, low]) = true ↔
          high ++ low = crc16 (origin :: kind :: payload)

/-- R155, 12.1, 12.5: a frame that leaves on HTX carries the CRC that a received frame must carry, and every packet of the part's own
leaves with its pass mark clear and passes the check that R152 makes of it when it returns. Its payload holds the fields of 12.5. The cap
field of a release is a free value (log 12). -/
def Obligations.SentFramesAndPacketsPassTheirChecks : Prop :=
  (∀ f : TxFrame, f.bytes = [0xC3#8, BitVec.ofNat 8 f.body.length, f.kind, f.tag] ++ f.body
      ++ [(frameWithCrc f.kind f.tag f.body).crcHigh, (frameWithCrc f.kind f.tag f.body).crcLow])
    ∧ (∀ (kind tag : Byte) (body : List Byte), frameCrcMatches (frameWithCrc kind tag body) = true)
    ∧ (∀ p : OwnPacket, passMark p.bytes = false ∧ takenFlag p.bytes = false ∧ checkPacket p.bytes = true
        ∧ byteAt p.bytes 0 = 0#8 ∧ byteAt p.bytes 1 = p.kindCode ∧ byteAt p.bytes 3 = 0#8 ∧ payloadOf p.bytes = p.payload)
    ∧ (∀ (b : BlockIx) (label : Epoch) (cap lease : Nat),
      (OwnPacket.cap b label (some cap) lease).kindCode.toNat = 1
      ∧ Fields (OwnPacket.cap b label (some cap) lease).payload
          [(1, some (b.val + 1)), (4, some label.toNat), (2, some cap), (2, some lease)]
      ∧ (OwnPacket.cap b label none lease).kindCode.toNat = 1
      ∧ Fields (OwnPacket.cap b label none lease).payload
          [(1, some (b.val + 1)), (4, some label.toNat), (2, some (Config.releaseCapField b label).toNat), (2, some lease)])
    ∧ (∀ (label : Epoch) (power : Int) (lease : Nat),
      (OwnPacket.store label power lease).kindCode.toNat = 2
      ∧ Fields (OwnPacket.store label power lease).payload
          [(4, some label.toNat), (4, some (power % 2 ^ 32).toNat), (2, some lease)])
    ∧ (∀ e : Epoch, (OwnPacket.mark e).kindCode.toNat = 3 ∧ Fields (OwnPacket.mark e).payload [(4, some e.toNat)])
    ∧ ∀ n : Byte, (OwnPacket.probe n).kindCode.toNat = 4 ∧ Fields (OwnPacket.probe n).payload [(1, some n.toNat)]

/-! ## Epochs and run control -/

/-- R44. -/
def Obligations.SetEpochTaken : Prop :=
  ∀ (tag source : Byte) (period : Half) (divisor : Byte) (s : State), Ready s →
    (∀ src : EpochSource, (source.toNat, src) ∈ [(0, EpochSource.internal), (1, .epochLine), (2, .sensor)] →
      10 ≤ period.toNat → period.toNat ≤ 1000 → period.toNat % 10 = 0 → 1 ≤ divisor.toNat → divisor.toNat ≤ 16 →
      (s.run.state = .stopped →
        ∃ t, exec (.setEpoch tag source period divisor) s = .next t ∧ Answered 0x0C tag .ok [] s t
          ∧ t = { s with link := t.link,
                         timer := { s.timer with source := src, period := period.toNat, divisor := divisor.toNat } })
      ∧ (s.run.state ≠ .stopped →
        ∃ t, exec (.setEpoch tag source period divisor) s = .next t ∧ Refused 0x0C tag .wrongState s t))
    ∧ (2 < source.toNat ∨ period.toNat < 10 ∨ 1000 < period.toNat ∨ period.toNat % 10 ≠ 0 ∨ divisor.toNat = 0
        ∨ 16 < divisor.toNat →
      ∃ t, exec (.setEpoch tag source period divisor) s = .next t ∧ Refused 0x0C tag .badValue s t)

/-- R48, with R28, R52, R90, R94, R104, R140 and R160: START with a trigger to wait for, and its refusals. Adoption, the emptied window and
warnings list, the queue, the records made ready for the new numbering, and epoch number 0. That the last MARK placed is forgotten at START
(lastMark := none) is the model's choice (log 13). -/
def Obligations.StartArmsThePart : Prop :=
  -- R32: the floor of a block, and 0 while it has no profile
  (∀ (r : BlockRecord) (groups : Vector GroupRecord 8), (r.profile = none → r.floor groups = 0)
    ∧ ∀ f : Profile, r.profile = some f → r.floor groups = f.rated * groups[f.group].floorPercent / 100)
  ∧ (∀ (tag trigger : Byte) (order : EpochOrder) (tr : Trigger) (s : State), Ready s → RunLawful s → s.run.state = .stopped →
    s.store.configured = true → (trigger.toNat, tr) ∈ [(1, Trigger.startLine), (2, .firstFrame)] →
    ∃ t, exec (.start tag trigger order) s = .next t ∧ Answered 0x0D tag .ok [] s t
      ∧ t = { s with
                link := t.link, run := t.run, timer := { s.timer with epoch := 0 }, store := t.store, gov := t.gov,
                table := t.table, sky := { s.sky with stations := t.sky.stations }, front := { s.front with warnings := [] },
                nodes := { storage := { s.nodes.storage with heard := none, hearing := .waiting, commandLabel := none,
                                                             leaseExpiry := none },
                           meter := { s.nodes.meter with heard := none, hearing := .waiting } },
                ring := { s.ring with queue := s.ring.queue.filter OwnPacket.isProbe, lastMark := none } }
      ∧ t.run = { state := .armed, trigger := some tr,
                  lineA := { s.run.lineA with latch := adoptedLatch (lineEnabled s.gov.plant .a) (lineEnabled t.gov.plant .a)
                                                         s.run.lineA },
                  lineB := { s.run.lineB with latch := adoptedLatch (lineEnabled s.gov.plant .b) (lineEnabled t.gov.plant .b)
                                                         s.run.lineB } }
      ∧ t.store = { plant := none, groups := Vector.replicate 8 none, configured := true }
      ∧ t.gov = { s.gov with plant := s.store.plant.or s.gov.plant, groups := t.gov.groups, window := [], lastBand := none,
                             source := .waiting, upBreaches := 0, downBreaches := 0, overruns := 0, heldTarget := none }
      ∧ (∀ g : GroupIx, t.gov.groups[g] = (s.store.groups[g]).getD s.gov.groups[g])
      ∧ (∀ x : StationIx, t.station x = { s.station x with warningHeld := false })
      ∧ t.table.capped = s.table.capped ∧ t.table.rotation = s.table.rotation
      ∧ (∀ g : GroupIx, t.table.groupCapture[g] = none)
      ∧ ∀ (b : BlockIx) (floor : Nat) (r : BlockRecord), floor = (s.block b).floor t.gov.groups →
          r = (if (s.store.plant.isSome = true ∨ ∃ g : GroupIx, (s.store.groups[g]).isSome = true)
                  ∧ (s.block b).state = .capped ∧ (s.block b).cap.getD 0 < floor
                then { s.block b with cap := some floor, owed := true, revision := (s.block b).revision + 1 }
                else s.block b) →
          t.block b = if r.state = .empty then r
            else { r with heard := none, watch := none, capLabel := none, leaseExpiry := none, lastRelease := none,
                          captureEpoch := if r.state = .capped then some 0 else r.captureEpoch,
                          owed := r.owed || r.state == .capped || r.state == .pinned })
  ∧ ∀ (tag trigger : Byte) (order : EpochOrder) (s : State), Ready s →
    (2 < trigger.toNat → ∃ t, exec (.start tag trigger order) s = .next t ∧ Refused 0x0D tag .badValue s t)
    ∧ (trigger.toNat ≤ 2 → s.run.state ≠ .stopped →
      ∃ t, exec (.start tag trigger order) s = .next t ∧ Refused 0x0D tag .wrongState s t)
    ∧ (trigger.toNat ≤ 2 → s.run.state = .stopped → s.store.configured = false →
      ∃ t, exec (.start tag trigger order) s = .next t ∧ Refused 0x0D tag .notConfigured s t)

/-- R48, R49, R61: the three triggers. An IMMEDIATE START does what a START that arms the part does, takes the trigger, and is answered
after epoch 1. A frame sync that is the trigger also closes the frame in progress, if any, before or after the trigger as its operand says
(log 4). That HOLD_BEGUN is raised before the epoch number becomes 1 (log 28), that a loss monitor past its limit as the sync comes trips
first (log 3), that the order of the snapshot and of the storage's silence decides whether the snapshot holds its owed flag (log 34), and the
order in which one rule of an epoch raises its conditions (log 22), is the model's choice. -/
def Obligations.TriggerStartsTheRun : Prop :=
  (∀ (tag : Byte) (order : EpochOrder) (s : State), Ready s → RunLawful s → s.run.state = .stopped →
    s.store.configured = true →
    ∃ p u v t, exec (.start tag 1#8 order) s = .next p
      ∧ TriggerTaken { p with link := { s.link with inHand := some (0x0D, tag) } } u ∧ EpochOccurs order 1 u v
      ∧ exec (.start tag 0#8 order) s = .next t
      ∧ t = { v with link := HostLink.ready (replyFrame 0x0D tag .ok []) v.link })
  ∧ (∀ (order : EpochOrder) (s : State), Awake s → s.run.state = .armed → s.run.trigger = some .startLine →
    ∃ u t, exec (.startInEdge order) s = .next t ∧ TriggerTaken s u ∧ EpochOccurs order 1 u t)
  ∧ (∀ (order : EpochOrder) (s : State), s.run.state ≠ .armed ∨ s.run.trigger ≠ some .startLine →
    exec (.startInEdge order) s = .next s)
  ∧ ∀ (frameFirst : Bool) (order : EpochOrder) (s : State), Awake s → SkyLawful s.sky → s.run.state = .armed →
    s.run.trigger = some .firstFrame → s.sky.enabled = true →
    ∃ frame u t, SyncBegun s frame u ∧ exec (.sensorFrameSync frameFirst order) s = .next t
      ∧ (frameFirst = true → ∃ v w, ShortFrameTaken frame u v ∧ TriggerTaken v w ∧ EpochOccurs order 1 w t)
      ∧ (frameFirst = false → ∃ v w, TriggerTaken u v ∧ EpochOccurs order 1 v w ∧ ShortFrameTaken frame w t)

/-- R45, R61: the three epoch sources. Each epoch carries the next number, wrapping. A frame sync also closes the frame in progress, if
any, before or after what it is to the Epoch Timer and Run Control, as its operand says (log 4). That the clock moves to the instant of a
period's end and to that of an edge, given by the time since the last accepted one (log 3), that the expiry, the edge and the sync change
nothing where nothing counts them (log 2), that the new number and the opening of its dispatch are one command (log 29), that a monitor
past its limit as an epoch or a sync comes trips first (log 3), that offers are judged by the last MARK kept (log 13), that the order
of the snapshot and of the storage's silence decides whether the snapshot holds its owed flag (log 34), and the order in
which one rule of an epoch raises its conditions (log 22), is the model's choice. -/
def Obligations.EpochsComeFromTheirSource : Prop :=
  -- the blocks in order, and the seven rules of an epoch
  (allBlocks = List.finRange 48
    ∧ allEpochRules = [.runControl, .governor, .blockTable, .frontTracker, .nodeRecords, .ringMarker, .leaseScheduler])
  -- R159: the late packets, those of one target with the label given, and what a relabel leaves
  ∧ (∀ (e : Epoch) (p q : OwnPacket),
    (p.lateAt e = true ↔ ∃ l, p.label? = some l ∧ atOrAfter e l = true)
    ∧ (p.sameTargetAt e q = true ↔ (p.relabel e).sameTarget q = true)
    ∧ (∀ b l limit lease, p = .cap b l limit lease → p.relabel e = .cap b e limit lease)
    ∧ ∀ l power lease, p = .store l power lease → p.relabel e = .store e power lease)
  ∧ (∀ (order : EpochOrder) (s : State), Awake s → RunLawful s →
    (s.timer.running = true → s.timer.source = .internal →
      ∃ t, exec (.internalPeriodExpiry order) s = .next t
        ∧ EpochOccurs order (s.timer.epoch + 1) { s with now := max s.now (s.timer.lastEpochAt + 1000 * s.timer.period) } t)
    ∧ (s.timer.running = false ∨ s.timer.source ≠ .internal → exec (.internalPeriodExpiry order) s = .next s))
  ∧ (∀ (since now : Time) (order : EpochOrder) (s : State), Awake s → RunLawful s →
    now = max s.now (s.timer.lastEdgeAt + since) →
    (s.timer.running = true → s.timer.source = .epochLine →
      (s.timer.lastEdgeAt + 10000 ≤ now →
        ∃ t, exec (.epochInEdge since order) s = .next t
          ∧ EpochOccurs order (s.timer.epoch + 1) { s with now := now, timer := { s.timer with lastEdgeAt := now } } t)
      ∧ (now < s.timer.lastEdgeAt + 10000 → exec (.epochInEdge since order) s = .next { s with now := now }))
    ∧ (s.timer.running = false ∨ s.timer.source ≠ .epochLine → exec (.epochInEdge since order) s = .next s))
  ∧ ∀ (frameFirst : Bool) (order : EpochOrder) (s : State), Awake s → RunLawful s → SkyLawful s.sky →
    (s.sky.enabled = true →
      ∃ frame u t, SyncBegun s frame u ∧ exec (.sensorFrameSync frameFirst order) s = .next t
        ∧ (frameFirst = true → ∃ v, ShortFrameTaken frame u v ∧ SyncTaken order v t)
        ∧ (frameFirst = false → ∃ v, SyncTaken order u v ∧ ShortFrameTaken frame v t))
    ∧ (s.sky.enabled = false → exec (.sensorFrameSync frameFirst order) s = .next s)

/-- R46, R63: the two monitors trip once, and are armed again by the next epoch and the next frame sync. That the clock moves to the first
microsecond past the limit as a monitor trips (logs 3, 1), and that a monitor that is not armed changes nothing (log 2), is the model's
choice. -/
def Obligations.MonitorsTripOnce : Prop :=
  (∀ (s : State) (nominal : Nat), Awake s →
    (s.timer.source = .epochLine ∧ nominal = s.timer.period
      ∨ s.timer.source = .sensor ∧ nominal = s.timer.divisor * s.sky.framePeriod) →
    s.timer.stall = .armed → s.timer.running = true →
    ∃ t, exec .epochStall s = .next t
      ∧ OnlyRaised .epochStall { s with now := max s.now (s.timer.lastEpochAt + 4000 * nominal + 1),
                                        timer := { s.timer with stall := .tripped } } t)
  ∧ (∀ s : State, s.timer.source = .internal ∨ s.timer.stall ≠ .armed ∨ s.timer.running = false →
    exec .epochStall s = .next s)
  ∧ (∀ s : State, Awake s → s.sky.loss = .armed →
    ∃ t, exec .sensorLoss s = .next t
      ∧ SensorsLost { s with now := max s.now (s.sky.measureFrom + 3000 * s.sky.framePeriod + 1) } t)
  ∧ ∀ s : State, s.sky.loss ≠ .armed → exec .sensorLoss s = .next s

/-! ## Hold lines -/

/-- R52, R53, R56, R127, R129: a hold line comes to be seen asserted, or inactive. A dispatch that the hold cuts is recorded whole; that one
cut while it computes has 0 decisions discarded is the model's reading (log 21). -/
def Obligations.HoldLinesSeen : Prop :=
  -- the two lines, and when one is enabled
  (∀ (p : PlantRecord) (c : RunControl) (h : HoldState),
    p.line .a = p.lineA ∧ p.line .b = p.lineB ∧ c.line .a = c.lineA ∧ c.line .b = c.lineB
      ∧ c.setLine .a h = { c with lineA := h } ∧ c.setLine .b h = { c with lineB := h })
  ∧ (∀ (plant : Option PlantRecord) (line : HoldLine),
    lineEnabled plant line = true ↔ ∃ p, plant = some p ∧ (p.line line).enabled = true)
  ∧ (∀ (line : HoldLine) (s : State), Awake s → (s.run.line line).seen ≠ some .asserted →
    lineEnabled s.gov.plant line = false ∨ (s.run.line line).latch = true →
    ∃ t, exec (.holdLineAsserted line) s = .next t
      ∧ t = { s with run := s.run.setLine line { s.run.line line with seen := some .asserted } })
  ∧ (∀ (line : HoldLine) (s : State), Awake s → (s.run.line line).seen ≠ some .asserted →
    lineEnabled s.gov.plant line = true → (s.run.line line).latch = false →
    ∃ t, exec (.holdLineAsserted line) s = .next t
      ∧ t = { s with link := t.link, cond := t.cond, run := t.run, gov := t.gov }
      ∧ t.run = { s.run.setLine line { latch := true, seen := some .asserted } with
                    state := if s.run.state = .running then .holding else s.run.state }
      ∧ (s.run.state = .running → OnlyRaised .holdBegun { s with run := t.run, gov := t.gov } t)
      ∧ (s.run.state ≠ .running → t.link = s.link ∧ t.cond = s.cond)
      ∧ (s.hold ≠ .freeze → t.hold = .freeze → s.gov.phase ≠ .idle →
          ∃ st, t.gov = { s.gov with phase := .idle, status := some st }
            ∧ (∀ o, s.gov.phase = .computing o →
                st = { epoch := o.epoch, outcome := .cut, sample := o.sample, supply := none, plan := none,
                       hold := o.snapshot.hold,
                       counts := { captures := 0, capChanges := 0, releases := 0, storeStaged := false, stale := 0 },
                       discarded := 0 })
            ∧ (∀ o sup pl todo counts, s.gov.phase = .staging o sup pl todo counts →
                st = { epoch := o.epoch, outcome := .cut, sample := o.sample, supply := some sup, plan := some pl,
                       hold := o.snapshot.hold, counts, discarded := todo.length }))
      ∧ (s.hold = .freeze ∨ t.hold ≠ .freeze ∨ s.gov.phase = .idle → t.gov = s.gov))
  ∧ (∀ (line : HoldLine) (s : State), (s.run.line line).seen = some .asserted →
    exec (.holdLineAsserted line) s = .next s)
  ∧ ∀ (line : HoldLine) (s : State), Awake s →
    ∃ t, exec (.holdLineInactive line) s = .next t
      ∧ t = { s with run := s.run.setLine line { s.run.line line with seen := some .inactive } }

/-- R53: the hold in force, from the lines in force. -/
def Obligations.HoldInForceFollowsTheLines : Prop :=
  ∀ (p : PlantRecord) (run : RunControl) (a b : Prop),
    (a ↔ p.lineA.enabled = true ∧ run.lineA.latch = true) → (b ↔ p.lineB.enabled = true ∧ run.lineB.latch = true) →
    holdInForce none run = .none
    ∧ (¬a → ¬b → holdInForce (some p) run = .none)
    ∧ (a ∧ p.lineA.action = .freeze ∨ b ∧ p.lineB.action = .freeze → holdInForce (some p) run = .freeze)
    ∧ (a → ¬b → p.lineA.action = .ceiling → holdInForce (some p) run = .ceiling p.lineA.ceiling)
    ∧ (¬a → b → p.lineB.action = .ceiling → holdInForce (some p) run = .ceiling p.lineB.ceiling)
    ∧ (a → b → p.lineA.action = .ceiling → p.lineB.action = .ceiling →
        holdInForce (some p) run = .ceiling (min p.lineA.ceiling p.lineB.ceiling))

/-- R55. -/
def Obligations.ClearHoldTaken : Prop :=
  ∀ (tag line : Byte) (s : State), Ready s →
    (1 < line.toNat → ∃ t, exec (.clearHold tag line) s = .next t ∧ Refused 0x0F tag .badValue s t)
    ∧ ∀ l : HoldLine, (line.toNat, l) ∈ [(0, HoldLine.a), (1, .b)] →
      ((s.run.line l).seen = some .asserted →
        ∃ t, exec (.clearHold tag line) s = .next t ∧ Refused 0x0F tag .lineActive s t)
      ∧ ((s.run.line l).seen ≠ some .asserted →
        ∃ t, exec (.clearHold tag line) s = .next t ∧ Answered 0x0F tag .ok [] s t
          ∧ t = { s with link := t.link, run := s.run.setLine l { s.run.line l with latch := false } }
          ∧ t.hold = holdInForce s.gov.plant (s.run.setLine l { s.run.line l with latch := false }))

/-! ## STOP -/

/-- R27, R50, R51, R139, R160: STOP in every run state, under each option. -/
def Obligations.StopEndsTheRun : Prop :=
  ∀ (tag option : Byte) (s : State), Ready s →
    (1 < option.toNat → ∃ t, exec (.stop tag option) s = .next t ∧ Refused 0x0E tag .badValue s t)
    ∧ (option.toNat ≤ 1 → s.run.state = .stopped →
      ∃ t, exec (.stop tag option) s = .next t ∧ Refused 0x0E tag .wrongState s t)
    ∧ (option.toNat ≤ 1 → s.run.state = .armed →
      ∃ t, exec (.stop tag option) s = .next t ∧ Answered 0x0E tag .ok [] s t
        ∧ t = { s with link := t.link, run := { s.run with state := .stopped, trigger := none } })
    ∧ ∀ (release : Prop) (label : Epoch), option.toNat ≤ 1 → s.run.state = .running ∨ s.run.state = .holding →
      CollectionsAgree s.table → QueueLawful s.ring → (release ↔ option.toNat = 1 ∧ s.ring.state = .up) →
      label = s.timer.epoch + 1 →
      ∃ t, exec (.stop tag option) s = .next t ∧ Answered 0x0E tag .ok [] s t
        ∧ t = { s with
                  link := t.link, run := { s.run with state := .stopped },
                  timer := { s.timer with running := false, stall := .disarmed }, gov := { s.gov with phase := .idle },
                  table := t.table, ring := { s.ring with queue := t.ring.queue },
                  nodes := { s.nodes with
                    storage := { s.nodes.storage with commanded := 0, commandLabel := t.nodes.storage.commandLabel } } }
        ∧ (release → t.nodes.storage.commandLabel = some label
            ∧ t.ring.queue = s.ring.queue.filter OwnPacket.isProbe
                ++ (s.table.capped.map fun b => .cap b label none 0) ++ [.store label 0 0, .mark label])
        ∧ (¬release → t.nodes.storage.commandLabel = s.nodes.storage.commandLabel
            ∧ t.ring.queue = s.ring.queue.filter OwnPacket.isProbe)
        ∧ t.table.capped = [] ∧ t.table.groupCapture = s.table.groupCapture
        ∧ t.table.rotation = s.table.rotation ++ s.table.capped
            ++ allBlocks.filter (fun b => (s.block b).state == .resting)
        ∧ ∀ b : BlockIx,
          ((s.block b).state = .capped → ∃ l, (release → l = some label) ∧ (¬release → l = (s.block b).capLabel)
            ∧ t.block b = { s.block b with state := .free, cap := none, captureEpoch := none, capLabel := l,
                                           revision := (s.block b).revision + 1 })
          ∧ ((s.block b).state = .resting →
            t.block b = { s.block b with state := .free, cap := none, captureEpoch := none,
                                         revision := (s.block b).revision + 1 })
          ∧ ((s.block b).state ≠ .capped → (s.block b).state ≠ .resting → t.block b = s.block b)

/-! ## Sky stations -/

/-- R59, R67: the four cases of SET_SENSOR, and LOAD_STATION. -/
def Obligations.SensorPortSetAndStationLoaded : Prop :=
  (∀ (tag : Byte) (period : Half) (enable : Byte) (s : State), Ready s →
    (10 ≤ period.toNat → period.toNat ≤ 1000 → enable.toNat ≤ 1 →
      ∃ t u, exec (.setSensor tag period enable) s = .next t ∧ Answered 0x10 tag .ok [] s t ∧ t = { s with link := t.link, sky := u }
        ∧ (s.sky.enabled = false → enable.toNat = 1 →
            u = { s.sky with enabled := true, framePeriod := period.toNat, loss := .armed, measureFrom := s.now })
        ∧ (s.sky.enabled = true → enable.toNat = 1 → u = { s.sky with framePeriod := period.toNat })
        ∧ (s.sky.enabled = true → enable.toNat = 0 →
            u = { s.sky with enabled := false, framePeriod := period.toNat, frame := none, loss := .disarmed })
        ∧ (s.sky.enabled = false → enable.toNat = 0 → u = { s.sky with framePeriod := period.toNat }))
    ∧ (period.toNat < 10 ∨ 1000 < period.toNat ∨ 1 < enable.toNat →
      ∃ t, exec (.setSensor tag period enable) s = .next t ∧ Refused 0x10 tag .badValue s t))
  ∧ (∀ (tag station : Byte) (body : StationBody) (s : State) (x : StationIx), Ready s → station.toNat = x.val + 1 →
    (StationInRange body → (body.enabled.toNat = 1 → ∀ y : StationIx, y ≠ x → (s.station y).enabled = true →
        (s.station y).slot ≠ body.slot.toNat) →
      ∃ t, exec (.loadStation tag station body) s = .next t ∧ Answered 0x11 tag .ok [] s t
        ∧ t = { s with link := t.link, sky := { s.sky with stations := t.sky.stations } }
        ∧ (∀ y : StationIx, y ≠ x → t.station y = s.station y)
        ∧ t.station x = { slot := body.slot.toNat, enabled := decide (body.enabled.toNat = 1),
                          historyLength := body.historyLength.toNat, drop := body.drop.toNat,
                          persistence := body.persistence.toNat, clear := body.clear.toNat, detector := .clear, history := [],
                          reference := none, depth := none, pendingCount := none, invalidRun := 0, lastSequence := none,
                          warningHeld := (s.station x).warningHeld })
    ∧ (¬StationInRange body ∨ (body.enabled.toNat = 1 ∧ ∃ y : StationIx, y ≠ x ∧ (s.station y).enabled = true
          ∧ (s.station y).slot = body.slot.toNat) →
      ∃ t, exec (.loadStation tag station body) s = .next t ∧ Refused 0x11 tag .badValue s t))
  ∧ ∀ (tag station : Byte) (body : StationBody) (s : State), Ready s → station.toNat = 0 ∨ 24 < station.toNat →
    ∃ t, exec (.loadStation tag station body) s = .next t ∧ Refused 0x11 tag .badValue s t

/-! ## Lead map and warnings -/

/-- R78, R79, R80, R91. The answer to a LEADS_ADD row of no entries or of more than 60, which no frame carries, is the model's choice
(log 21). -/
def Obligations.LeadMapStagedAndCommitted : Prop :=
  (∀ x y : LeadEntry, x.samePair y = true ↔ x.station = y.station ∧ x.block = y.block)
  ∧ (∀ (tag : Byte) (s : State), Ready s →
    ∃ t, exec (.leadsBegin tag) s = .next t ∧ Answered 0x13 tag .ok [] s t
      ∧ t = { s with link := t.link, front := { s.front with staging := [] } })
  ∧ (∀ (tag : Byte) (s : State), Ready s →
    ∃ t, exec (.leadsCommit tag) s = .next t ∧ Answered 0x15 tag .ok (leBytes 1 s.front.staging.length) s t
      ∧ t = { s with link := t.link, front := { s.front with active := s.front.staging, staging := [] } })
  ∧ (∀ (tag : Byte) (s : State), Ready s →
    ∃ t, exec (.flushWarnings tag) s = .next t ∧ Answered 0x16 tag .ok [] s t
      ∧ t = { s with link := t.link, front := { s.front with warnings := [] },
                     sky := { s.sky with stations := t.sky.stations } }
      ∧ ∀ x : StationIx, t.station x = { s.station x with warningHeld := false })
  ∧ ∀ (tag : Byte) (entries : List LeadBody) (s : State), Ready s →
    (entries.length = 0 ∨ 60 < entries.length →
      ∃ t, exec (.leadsAdd tag entries) s = .next t ∧ Refused 0x14 tag .badLength s t)
    ∧ (1 ≤ entries.length → entries.length ≤ 60 →
      -- `new` are the entries as they stand for themselves
      (∀ (new map : List LeadEntry), map = s.front.staging ++ new →
        entries.map (fun e => (e.station.toNat, e.block.toNat, e.lead.toNat))
          = new.map (fun x => (x.station.val + 1, x.block.val + 1, x.lead)) →
        (∀ x ∈ new, 1 ≤ x.lead) →
        ((∀ x ∈ new, ∀ y ∈ s.front.staging, x.samePair y = false) ∧ new.Pairwise (fun x y => y.samePair x = false) →
          (map.length ≤ 192 ∧ (∀ x : StationIx, (map.filter fun y => y.station == x).length ≤ 8) →
            ∃ t, exec (.leadsAdd tag entries) s = .next t ∧ Answered 0x14 tag .ok (leBytes 1 map.length) s t
              ∧ t = { s with link := t.link, front := { s.front with staging := map } })
          ∧ (192 < map.length ∨ (∃ x : StationIx, 8 < (map.filter fun y => y.station == x).length) →
            ∃ t, exec (.leadsAdd tag entries) s = .next t ∧ Refused 0x14 tag .full s t))
        ∧ ((∃ x ∈ new, ∃ y ∈ s.front.staging, x.samePair y = true) ∨ ¬new.Pairwise (fun x y => y.samePair x = false) →
          ∃ t, exec (.leadsAdd tag entries) s = .next t ∧ Refused 0x14 tag .badValue s t))
      ∧ ((∃ e ∈ entries, e.station.toNat = 0 ∨ 24 < e.station.toNat ∨ e.block.toNat = 0 ∨ 48 < e.block.toNat ∨ e.lead.toNat = 0) →
        ∃ t, exec (.leadsAdd tag entries) s = .next t ∧ Refused 0x14 tag .badValue s t))

/-! ## Band, target, split and shares -/

/-- R95 to R103, R114, R115, R117: the sample and band stage of a dispatch, whose extremes are those of the window; the band from the
sample and the window, the target from the band, and the split of what the target leaves. Differences of numbers are formed so that none
falls below 0. -/
def Obligations.BandTargetAndSplit : Prop :=
  (∀ (e : Epoch) (p : PlantRecord) (s : State), SampleTaken e p s (sampleAndBand e p s).1 (sampleAndBand e p s).2)
  ∧ (∀ (p : PlantRecord) (sample wmax wmin low high : Nat),
    (low : Int) = max 0 (max ((sample : Int) - p.stepDown) ((wmax : Int) - p.windowDown)) →
    high = min (sample + p.stepUp) (wmin + p.windowUp) →
    (low ≤ high → bandOf p sample wmax wmin = { low, high })
    ∧ (high < low → bandOf p sample wmax wmin = { low := sample, high := sample }))
  ∧ (∀ (band : Band) (available sDis t1 : Nat) (glide : Option Nat),
    (glide = none ∧ t1 = min band.high (available + sDis)
      ∨ ∃ g, glide = some g ∧ t1 = min (min band.high (available + sDis)) g) →
    (band.low ≤ t1 → targetOf band (available + sDis) glide = { target := t1, path := .within })
    ∧ (t1 < band.low → available + sDis < band.low →
        targetOf band (available + sDis) glide = { target := available + sDis, path := .short })
    ∧ (t1 < band.low → band.low ≤ available + sDis →
        targetOf band (available + sDis) glide = { target := band.low, path := .late })
    ∧ (targetOf band (available + sDis) glide).target ≤ available + sDis)
  ∧ (∀ (t : Target) (c : Nat), Target.under (.ceiling c) t = { target := min t.target c, path := t.path } ∧ Target.under .none t = t)
  ∧ ∀ (absorb : Bool) (target available sDis sChg : Nat) (r : Split), target ≤ available + sDis →
    r = splitOf absorb target available sChg →
    (available ≤ target → r.command = (target : Int) - available ∧ r.curtailment = 0)
    ∧ (target < available → absorb = true →
        r.command = -(min ((available : Int) - target) sChg)
          ∧ (r.curtailment : Int) = available - target - min ((available : Int) - target) sChg)
    ∧ (target < available → absorb = false → r.command = 0 ∧ (r.curtailment : Int) = available - target)
    ∧ -(sChg : Int) ≤ r.command ∧ r.command ≤ sDis ∧ r.curtailment ≤ available

/-- R121: whatever the members of K and whatever the curtailment placed, up to their capacity: the shares are those of K in K order, each
starts from its rounded part of C', and the remainder goes 1 kW each to the first members in K order whose rounded part is below their
capacity. No share exceeds its block's capacity, and the shares sum to C', in one pass over K. -/
def Obligations.SharesPlaceTheCurtailment : Prop :=
  (∀ b : SnapBlock, b.capacity = b.usable - b.floor)
  ∧ (∀ k : List SnapBlock, capacitySum k = (k.map fun b => b.usable - b.floor).sum)
  ∧ ∀ (placed : Nat) (k : List SnapBlock) (first : List (SnapBlock × Nat)) (remainder : Nat), placed ≤ capacitySum k →
    first = k.map (fun b => (b, if capacitySum k = 0 then 0 else placed * b.capacity / capacitySum k)) →
    remainder = placed - (first.map (·.2)).sum →
    (sharesOf placed k).map (·.1) = k
    ∧ (∀ before b share after, first = before ++ (b, share) :: after →
        (sharesOf placed k)[before.length]? = some (b,
          if share < b.capacity ∧ (before.filter fun m => decide (m.2 < m.1.capacity)).length < remainder
            then share + 1 else share))
    ∧ (∀ m ∈ sharesOf placed k, m.2 ≤ m.1.capacity)
    ∧ ((sharesOf placed k).map (·.2)).sum = placed
    ∧ (first.map (·.2)).sum ≤ placed ∧ (k ≠ [] → remainder < k.length)

/-! ## Frames and warnings -/

/-- R60 to R65, R69: words fill the frame in progress, the word of slot 63 closes it, and a frame sync that is neither counted nor the
trigger closes a short one, unless the loss monitor was past its limit by then (R63, log 3); the stations take their slots of a closed
frame in ascending ID, with the requests they make of the Front Tracker and STATION_LOST. That the closing word can come as either
command, and that SENSOR_FRAME_FULL has no effect without 63 words in progress, is the model's choice (log 6). -/
def Obligations.SensorWordsReachTheStations : Prop :=
  (∀ (w : Half) (words : List Half) (s : State), Awake s → SkyLawful s.sky → s.sky.enabled = true → s.sky.frame = some words →
    (words.length < 63 →
      exec (.sensorWordReceived w) s = .next { s with sky := { s.sky with frame := some (words ++ [w]) } })
    ∧ (words.length = 63 →
      ∃ t, exec (.sensorWordReceived w) s = .next t ∧ exec (.sensorFrameFull w) s = .next t
        ∧ FrameProcessed (words ++ [w]) { s with sky := { s.sky with frame := none } } t))
  ∧ (∀ (w : Half) (s : State), s.sky.enabled = false ∨ s.sky.frame = none → exec (.sensorWordReceived w) s = .next s)
  ∧ (∀ (w : Half) (s : State), s.sky.enabled = false ∨ (∀ words, s.sky.frame = some words → words.length ≠ 63) →
    exec (.sensorFrameFull w) s = .next s)
  ∧ ∀ (frameFirst : Bool) (order : EpochOrder) (s : State), Awake s → SkyLawful s.sky →
    s.sky.enabled = true → s.timer.running = false ∨ s.timer.source ≠ .sensor →
    s.run.state ≠ .armed ∨ s.run.trigger ≠ some .firstFrame →
    ∃ frame u t, SyncBegun s frame u ∧ exec (.sensorFrameSync frameFirst order) s = .next t ∧ ShortFrameTaken frame u t

/-- R84 to R88: an open request and a deepen request. `kept` is the list without the station's own warning. With one warning for each of
24 stations (R83) no run fills the list to 32; the full list of R87 is stated all the same. That WARNING_OPENED is raised before
WARNING_DROPPED where the last warning is removed, which a notice's body can show, is the model's choice (log 22). -/
def Obligations.WarningsOpenedAndDeepened : Prop :=
  -- R18, R83: which of two arrivals is later
  (∀ a b : Epoch, laterThan a b = true ↔ a ≠ b ∧ (a - b).toNat < 2 ^ 31)
  -- R84: the IDs tried, from the next one on, up to the first that no listed warning holds
  ∧ (∀ (listed : List Warning) (next : Nat), 1 ≤ next → next ≤ 255 → listed.length ≤ 32 →
    ∃ k, freeId listed 255 next = (next - 1 + k) % 255 + 1 ∧ (∀ y ∈ listed, y.id ≠ (next - 1 + k) % 255 + 1)
      ∧ ∀ j < k, ∃ y ∈ listed, y.id = (next - 1 + j) % 255 + 1)
  ∧ (∀ (x : StationIx) (depth : Nat) (s t : State) (kept : List Warning) (entries : List LeadEntry), MapLawful s.front.active →
    1 ≤ s.front.nextId → s.front.nextId ≤ 255 → kept = s.front.warnings.filter (fun w => w.station != x) →
    entries = s.front.active.filter (fun y => y.station == x) → t = openRequest x depth s →
    (s.run.state = .stopped ∨ s.run.state = .armed ∨ entries = [] →
      t = { s with front := { s.front with warnings := kept }, sky := { s.sky with stations := t.sky.stations } }
        ∧ (∀ y : StationIx, y ≠ x → t.station y = s.station y)
        ∧ t.station x = { s.station x with
            warningHeld := (s.station x).warningHeld && !s.front.warnings.any fun w => w.station == x })
    ∧ ∀ (w : Warning) (first : Nat), s.run.state = .running ∨ s.run.state = .holding →
      (entries.map (·.lead)).min? = some first →
      w.station = x → w.depth = depth → w.opened = s.timer.epoch →
      w.arrivals = entries.map (fun y => (y.block, s.timer.epoch + BitVec.ofNat 32 y.lead)) →
      w.earliest = s.timer.epoch + BitVec.ofNat 32 first → w.id = freeId kept 255 s.front.nextId →
      (kept.length < 32 →
        (∃ before after, kept = before ++ after ∧ t.front.warnings = before ++ w :: after
          ∧ (∀ y ∈ before, laterThan y.earliest w.earliest = false) ∧ ∀ y ∈ after.head?, laterThan y.earliest w.earliest = true)
        ∧ t.front.nextId = (if w.id = 255 then 1 else w.id + 1) ∧ (1 ≤ w.id ∧ w.id ≤ 255) ∧ (∀ y ∈ kept, y.id ≠ w.id)
        ∧ OnlyRaised .warningOpened { s with
            sky := { s.sky with stations := t.sky.stations },
            front := { s.front with warnings := t.front.warnings, nextId := t.front.nextId } } t
        ∧ (∀ y : StationIx, y ≠ x → t.station y = s.station y) ∧ t.station x = { s.station x with warningHeld := true })
      ∧ ∀ (last : Warning), kept = s.front.warnings → kept.length = 32 → kept.getLast? = some last →
        (laterThan last.earliest w.earliest = false →
          OnlyRaised .warningDropped s t)
        ∧ (laterThan last.earliest w.earliest = true →
          (∃ before after, kept.dropLast = before ++ after
            ∧ t.front.warnings = before ++ { w with id := freeId kept.dropLast 255 s.front.nextId } :: after
            ∧ (∀ y ∈ before, laterThan y.earliest w.earliest = false)
            ∧ ∀ y ∈ after.head?, laterThan y.earliest w.earliest = true)
          ∧ t.front.nextId = (if freeId kept.dropLast 255 s.front.nextId = 255 then 1 else freeId kept.dropLast 255 s.front.nextId + 1)
          ∧ OnlyRaised .warningDropped (raise .warningOpened { s with
              sky := { s.sky with stations := t.sky.stations },
              front := { s.front with warnings := t.front.warnings, nextId := t.front.nextId } }) t
          ∧ (∀ y : StationIx, y ≠ x → y ≠ last.station → t.station y = s.station y)
          ∧ (t.station x).warningHeld = true ∧ (t.station last.station).warningHeld = false))
  ∧ ∀ (x : StationIx) (depth : Nat) (s : State),
    deepenRequest x depth s = { s with front := { s.front with
      warnings := s.front.warnings.map fun w => if w.station = x ∧ w.depth < depth then { w with depth := depth } else w } }

/-! ## The dispatch -/

/-- R106, R110 to R123, R126, R129: the end of computing, with the figures, the allocation and the decision list that it leaves. A dispatch
under FREEZE completes FROZEN; with the ring not UP the dispatch completes RING_DOWN; with the ring UP it goes on as a dispatch that stages
its whole decision list. That the end of computing is a command of its own, given by the sender (log 25), that it changes nothing outside
COMPUTING (log 2), and that SUPPLY_SHORT or GLIDE_LATE is raised before CAPTURE_SHORT, which a notice's body can show (log 22), is the
model's choice. -/
def Obligations.ComputingEnds : Prop :=
  noCounts = { captures := 0, capChanges := 0, releases := 0, storeStaged := false, stale := 0 }
  ∧ (∀ (o : Opened) (p : PlantRecord) (s : State), Awake s → s.gov.phase = .computing o → s.gov.plant = some p →
    (o.snapshot.hold = .freeze → ∀ target, target = s.gov.heldTarget.getD o.sample.sample →
      ∃ f, SupplyComputed p.stepDown o f ∧ f.target = target
        ∧ exec .dispatchComputingEnd s = .next { s with gov := { s.gov with
            phase := .idle, heldTarget := some target,
            status := some { epoch := o.epoch, outcome := .frozen, sample := o.sample, supply := some f, plan := none,
                             hold := .freeze,
                             counts := { captures := 0, capChanges := 0, releases := 0, storeStaged := false, stale := 0 },
                             discarded := 0 } } })
    ∧ (o.snapshot.hold ≠ .freeze →
      ∃ pl v u t, PlanComputed p o pl ∧ exec .dispatchComputingEnd s = .next t
        -- SUPPLY_SHORT and GLIDE_LATE, and then CAPTURE_SHORT
        ∧ v = raiseIf (pl.plan.path == .late) .glideLate (raiseIf (pl.plan.path == .short) .supplyShort { s with gov := { s.gov with
            heldTarget := some pl.supply.target, phase := .staging o pl.supply pl.plan pl.todo noCounts } })
        ∧ (pl.plan.placed < pl.plan.curtailment → u = raise .captureShort v)
        ∧ (pl.plan.curtailment ≤ pl.plan.placed → u = v)
        ∧ (s.ring.state = .up → exec .stagingResumed u = .next t)
        ∧ (s.ring.state ≠ .up →
          t = { u with gov := { u.gov with
            phase := .idle,
            status := some { epoch := o.epoch, outcome := .ringDown, sample := o.sample, supply := some pl.supply,
                             plan := some pl.plan, hold := o.snapshot.hold, counts := noCounts,
                             discarded := pl.todo.length } } })))
  ∧ ∀ s : State, (∀ o, s.gov.phase ≠ .computing o) → exec .dispatchComputingEnd s = .next s

/-- R14 to R17, R123 to R125, R129: staging takes the decisions in order. A decision that enters leaves a state from which staging goes on
with the rest; one that finds no room waits; the last one completes the dispatch. `l` is the label the packet enters with: e + 1, unless
R159 makes it late. That the last MARK placed is kept when it has left the queue (log 13), and that staging goes on by a command of its own
(log 7), which changes nothing while nothing is staging (log 2), is the model's choice. -/
def Obligations.StagedDecisionTakesEffect : Prop :=
  -- R159: an offer at or before the last MARK placed is late, and enters with the label after that MARK's epoch
  (∀ (r : RingController) (label : Epoch),
    (∀ m, r.lastMark = some m → atOrAfter m label = true → enteringLabel r label = m + 1 ∧ lateLabel r label ≠ none)
    ∧ ((∀ m, r.lastMark = some m → atOrAfter m label = false) → enteringLabel r label = label ∧ lateLabel r label = none))
  ∧ (∀ (o : Opened) (sup : SupplyFigures) (pl : PlanFigures) (counts : StagedCounts) (s : State), Awake s →
    s.gov.phase = .staging o sup pl [] counts →
    exec .stagingResumed s = .next { s with gov := { s.gov with
      phase := .idle,
      status := some { epoch := o.epoch, outcome := .complete, sample := o.sample, supply := some sup, plan := some pl,
                       hold := o.snapshot.hold, counts, discarded := 0 } } })
  ∧ (∀ s : State, (∀ o sup pl todo counts, s.gov.phase ≠ .staging o sup pl todo counts) → exec .stagingResumed s = .next s)
  ∧ ∀ (o : Opened) (sup : SupplyFigures) (pl : PlanFigures) (d : Decision) (rest : List Decision) (counts : StagedCounts)
    (s : State) (p : PlantRecord) (l : Epoch), Awake s → s.gov.phase = .staging o sup pl (d :: rest) counts →
    s.gov.plant = some p → l = enteringLabel s.ring (o.epoch + 1) →
    -- the STORE
    (∀ power, d = .store power →
      (¬QueueAdmits s.ring (.store l power (if power = 0 then 0 else p.leaseLength)) → exec .stagingResumed s = .next s)
      ∧ (QueueAdmits s.ring (.store l power (if power = 0 then 0 else p.leaseLength)) →
        ∃ u, exec .stagingResumed s = exec .stagingResumed u
          ∧ QueueEntered s u (o.epoch + 1) (.store l power (if power = 0 then 0 else p.leaseLength))
          ∧ u.gov = { s.gov with phase := .staging o sup pl rest { counts with storeStaged := true } }
          ∧ u.table = s.table
          ∧ u.nodes = { s.nodes with storage := { s.nodes.storage with
              commanded := power, commandLabel := some l, owed := s.nodes.storage.owed || decide (power ≠ 0) } }))
    -- a block decision
    ∧ (∀ (b : BlockIx) (rev : Half) (limit : Option Nat) (lease : Nat) (counted : StagedCounts)
        (after : BlockRecord → BlockRecord),
      ((∃ cap, d = .capture b cap rev ∧ limit = some cap ∧ lease = p.leaseLength
          ∧ counted = { counts with captures := counts.captures + 1 }
          ∧ after = fun r => { r with state := .capped, cap := some cap, captureEpoch := some o.epoch, nonFollowRun := 0 })
        ∨ (∃ cap, d = .capChange b cap rev ∧ limit = some cap ∧ lease = p.leaseLength
          ∧ counted = { counts with capChanges := counts.capChanges + 1 } ∧ after = fun r => { r with cap := some cap })
        ∨ (d = .release b rev ∧ limit = none ∧ lease = 0 ∧ counted = { counts with releases := counts.releases + 1 }
          ∧ after = fun r => { r with state := .resting, cap := none, captureEpoch := none, lastRelease := some o.epoch })) →
      (¬QueueAdmits s.ring (.cap b l limit lease) → exec .stagingResumed s = .next s)
      ∧ (QueueAdmits s.ring (.cap b l limit lease) → (s.block b).revision ≠ rev →
        ∃ u, exec .stagingResumed s = exec .stagingResumed u
          ∧ OnlyRaised .staleDecision { s with gov := { s.gov with
              phase := .staging o sup pl rest { counts with stale := counts.stale + 1 },
              staleDecisions := min (s.gov.staleDecisions + 1) (2 ^ 32 - 1) } } u)
      ∧ (QueueAdmits s.ring (.cap b l limit lease) → (s.block b).revision = rev →
        ∃ u, exec .stagingResumed s = exec .stagingResumed u
          ∧ QueueEntered s u (o.epoch + 1) (.cap b l limit lease)
          ∧ u.gov = { s.gov with phase := .staging o sup pl rest counted } ∧ u.nodes = s.nodes
          ∧ (∀ x : BlockIx, x ≠ b → u.block x = s.block x)
          ∧ u.block b = { after { s.block b with capLabel := some l, owed := (s.block b).owed || decide (lease ≠ 0) } with
                            revision := rev + 1 }
          ∧ ((∃ cap, d = .capture b cap rev) → (s.block b).state = .free →
              u.table.capped = s.table.capped ++ [b] ∧ u.table.rotation = s.table.rotation.filter (· != b)
              ∧ ∀ g : GroupIx, u.table.groupCapture[g]
                  = if (s.block b).profile.map (·.group) = some g then some o.epoch else s.table.groupCapture[g])
          ∧ ((∃ cap, d = .capChange b cap rev) →
              u.table.capped = s.table.capped ∧ u.table.rotation = s.table.rotation ∧ u.table.groupCapture = s.table.groupCapture)
          ∧ (d = .release b rev → (s.block b).state = .capped →
              u.table.capped = s.table.capped.filter (· != b) ∧ u.table.rotation = s.table.rotation
              ∧ u.table.groupCapture = s.table.groupCapture)))

/-! ## The ring -/

/-- R126, R144, R149, R150, R172, R173: PROBE_RING and LOAD_RING. LOAD_RING raises RING_LOSS before its reply is readied. That the
notice so readied shows the four alert levels clear is the model's choice (log 31). -/
def Obligations.RingRequestsTaken : Prop :=
  (∀ (tag : Byte) (s : State), Ready s →
    (s.ring.state ≠ .up ∨ s.ring.probe ≠ .absent →
      ∃ t, exec (.probeRing tag) s = .next t ∧ Refused 0x1A tag .wrongState s t)
    ∧ (s.ring.state = .up → s.ring.probe = .absent →
      (63 ≤ (s.ring.queue.filter fun p => !p.isMark).length →
        ∃ t, exec (.probeRing tag) s = .next t ∧ Refused 0x1A tag .full s t)
      ∧ ((s.ring.queue.filter fun p => !p.isMark).length < 63 →
        ∃ t, exec (.probeRing tag) s = .next t ∧ Answered 0x1A tag .ok [] s t
          ∧ t = { s with link := t.link, ring := { s.ring with
              queue := s.ring.queue ++ [.probe s.ring.nextProbe], nextProbe := s.ring.nextProbe + 1, probe := .queued } })))
  ∧ ∀ (tag : Byte) (ids : List Byte) (s : State), Ready s →
    (50 < ids.length → ∃ t, exec (.loadRing tag ids) s = .next t ∧ Refused 0x1B tag .badLength s t)
    ∧ (ids.length ≤ 50 → (∃ n ∈ ids, n.toNat = 0 ∨ 50 < n.toNat) ∨ ¬ids.Nodup →
      ∃ t, exec (.loadRing tag ids) s = .next t ∧ Refused 0x1B tag .badValue s t)
    ∧ (ids.length ≤ 50 → (∀ n ∈ ids, 1 ≤ n.toNat ∧ n.toNat ≤ 50) → ids.Nodup →
      ∃ u t set, exec (.loadRing tag ids) s = .next t
        ∧ t = { u with link := HostLink.ready (replyFrame 0x1B tag .ok []) u.link }
        ∧ OnlyRaised .ringLoss { s with
            link := { s.link with inHand := some (0x1B, tag) }, cond := { s.cond with conditions := set },
            gov := u.gov, alerts := u.alerts,
            ring := { s.ring with
              nodes := ids.map BitVec.toNat, state := .down, queue := [], forward := [], probe := .absent,
              settleFrom := s.now, purged := u.ring.purged } } u
        ∧ u.ring.purged = (if s.ring.state = .up
            then min (s.ring.purged + (s.ring.queue.filter fun p => !p.isProbe).length) (2 ^ 32 - 1) else s.ring.purged)
        ∧ (∀ c : AlertClass, u.alerts.get c = { s.alerts.get c with entries := [] })
        ∧ (∀ c : Condition, conditionSet set c = (conditionSet s.cond.conditions c
              && !(c == .tripPending || c == .deratePending || c == .restorePending || c == .notePending)))
        ∧ RingLeft s u)

/-- R143 to R148: the signal, the settle measure and the probe. That the clock moves to the instant at which the settle measure, the return
window or the retry runs out (log 3), and that these events change nothing outside their premise (log 2), is the model's choice. -/
def Obligations.RingStateEvents : Prop :=
  (∀ s : State, Awake s →
    (s.ring.signalSeen = true → exec .ringSignalPresent s = .next s)
    ∧ (s.ring.signalSeen = false →
      exec .ringSignalPresent s = .next { s with ring := { s.ring with signalSeen := true, settleFrom := s.now } }
      ∧ exec .ringSignalLoss s = .next s)
    ∧ (s.ring.signalSeen = true →
      (s.ring.state = .down →
        exec .ringSignalLoss s = .next { s with ring := { s.ring with signalSeen := false, settleFrom := s.now } })
      ∧ (s.ring.state ≠ .down →
        ∃ t u, exec .ringSignalLoss s = .next t ∧ OnlyRaised .ringLoss u t ∧ RingLeft s u
          ∧ u = { s with gov := u.gov, ring := { s.ring with
              signalSeen := false, state := .down, queue := [], forward := [], probe := .absent, settleFrom := s.now,
              purged := if s.ring.state = .up
                then min (s.ring.purged + (s.ring.queue.filter fun p => !p.isProbe).length) (2 ^ 32 - 1) else s.ring.purged } }))
    ∧ (s.ring.state = .down → s.ring.signalSeen = true → s.ring.nodes ≠ [] → QueueLawful s.ring →
      exec .ringSettled s = .next { s with
        now := max s.now (s.ring.settleFrom + 10000),
        ring := { s.ring with state := .probing, probe := .queued, queue := [.probe s.ring.nextProbe],
                              nextProbe := s.ring.nextProbe + 1 } })
    ∧ (s.ring.state ≠ .down ∨ s.ring.signalSeen = false ∨ s.ring.nodes = [] → exec .ringSettled s = .next s))
  ∧ (∀ (n : Byte) (sent : Time) (s : State), Awake s → s.ring.probe = .outstanding n sent false →
    (s.ring.state = .probing →
      exec .probeWindowExpiry s = .next { s with
        now := max s.now (sent + 20000),
        ring := { s.ring with probe := .outstanding n sent true, lastOutcome := some .failed,
                              probeFailures := min (s.ring.probeFailures + 1) (2 ^ 32 - 1) } })
    ∧ (s.ring.state = .up →
      ∃ t u, exec .probeWindowExpiry s = .next t ∧ OnlyRaised .ringLoss u t ∧ RingLeft s u
        ∧ u = { s with now := max s.now (sent + 20000), gov := u.gov, ring := { s.ring with
            state := .probing, probe := .queued, queue := s.ring.queue.filter OwnPacket.isProbe ++ [.probe s.ring.nextProbe],
            nextProbe := s.ring.nextProbe + 1, lastOutcome := some .failed,
            probeFailures := min (s.ring.probeFailures + 1) (2 ^ 32 - 1),
            purged := min (s.ring.purged + (s.ring.queue.filter fun p => !p.isProbe).length) (2 ^ 32 - 1) } }))
  ∧ (∀ s : State, (∀ n sent, s.ring.probe ≠ .outstanding n sent false) → exec .probeWindowExpiry s = .next s)
  ∧ (∀ (n : Byte) (sent : Time) (s : State), Awake s → s.ring.probe = .outstanding n sent true → s.ring.state = .probing →
    exec .probeRetryExpiry s = .next { s with
      now := max s.now (sent + 200000),
      ring := { s.ring with probe := .queued, queue := s.ring.queue ++ [.probe s.ring.nextProbe],
                            nextProbe := s.ring.nextProbe + 1 } })
  ∧ ∀ s : State, s.ring.state ≠ .probing ∨ (∀ n sent, s.ring.probe ≠ .outstanding n sent true) →
    exec .probeRetryExpiry s = .next s

/-- R143, R146 to R148, R152 to R155, R169, 12.5: the five steps of an arriving packet, the bytes at which its payload holds its fields, the
packets of the part's own that come round, and the out port. That a packet too short for its flags byte has its pass mark clear (log 17),
that a lease left field with every bit set is the number 65,535 (log 18), and that OUT_PORT_FREE with nothing to send leaves the port idle
(log 2), is the model's choice. The cap field of a returned release is a free value (log 12). -/
def Obligations.PacketsHandled : Prop :=
  -- the bytes of a packet in order
  (∀ (bs : List Byte) (i : Nat), byteAt bs i = bs.getD i 0#8)
  -- step 1: the pass mark is bit 0 of the flags byte, and the taken flag bit 1; what is forwarded has bit 0 set and all else as received
  ∧ (∀ (origin kind flags : Byte) (rest : List Byte),
    passMark (origin :: kind :: flags :: rest) = flags.getLsbD 0 ∧ takenFlag (origin :: kind :: flags :: rest) = flags.getLsbD 1
      ∧ setPassMark (origin :: kind :: flags :: rest) = origin :: kind :: (flags ||| 1#8) :: rest)
  ∧ (∀ bs : List Byte, bs.length < 3 → passMark bs = false ∧ setPassMark bs = bs)
  -- step 2: the CRC, the kind with its length and its origin, a REPORT's unit mode byte and an ALERT's class byte
  ∧ (∀ (origin kind flags marks high low : Byte) (payload : List Byte),
    checkPacket ([origin, kind, flags, marks] ++ payload ++ [high, low]) = true ↔
      high ++ low = crc16 (origin :: kind :: payload) ∧ PacketFits origin kind payload)
  ∧ (∀ bs : List Byte, bs.length < 6 → checkPacket bs = false)
  -- the payload stands between four bytes of header and two of CRC
  ∧ (∀ header payload crc : List Byte, header.length = 4 → crc.length = 2 → payloadOf (header ++ payload ++ crc) = payload)
  ∧ (∀ (u : Byte) (mode : UnitMode), UnitMode.ofCode u = some mode ↔ u.toNat = mode.code)
  ∧ (∀ (c : Byte) (cls : AlertClass), AlertClass.ofCode c = some cls ↔ c.toNat = cls.code)
  -- a REPORT of nodes 1 to 48: epoch, measured, available, unit mode, applied cap, lease left
  ∧ (∀ (mode : UnitMode) (e m a c l : List Byte) (u : Byte), e.length = 4 → m.length = 4 → a.length = 4 → c.length = 2 →
    l.length = 2 →
      byteAt (e ++ m ++ a ++ [u] ++ c ++ l) 12 = u
      ∧ blockReportOf mode (e ++ m ++ a ++ [u] ++ c ++ l)
        = { epoch := BitVec.ofNat 32 (leNat e), measured := readField m, available := readField a, mode, applied := readField c,
            leaseLeft := leNat l })
  -- a REPORT of nodes 49 and 50: epoch, measured, SoE, discharge available, charge available, unit mode, applied power, lease left
  ∧ (∀ (e m soe d c p l : List Byte) (u : Byte), e.length = 4 → m.length = 5 → soe.length = 2 → d.length = 4 → c.length = 4 →
    p.length = 5 → l.length = 2 →
      nodeReportOf (e ++ m ++ soe ++ d ++ c ++ [u] ++ p ++ l)
        = { epoch := BitVec.ofNat 32 (leNat e), measured := readPower m, soe := readField soe, discharge := readField d,
            charge := readField c, mode := UnitMode.ofCode u, applied := readPower p })
  -- an ALERT: class, data
  ∧ (∀ (c : Byte) (d : List Byte), d.length = 4 →
    byteAt (c :: d) 0 = c ∧ (wordAt (c :: d) 1).toNat = leNat d)
  ∧ (∀ (bs : List Byte) (s : State), Awake s →
    (s.ring.state = .down → exec (.ringPacketReceived bs) s = .next s)
    ∧ (s.ring.state ≠ .down →
      (passMark bs = true →
        ∃ t, exec (.ringPacketReceived bs) s = .next t
          ∧ OnlyRaised .rogueRemoved { s with ring := { s.ring with rogue := min (s.ring.rogue + 1) (2 ^ 32 - 1) } } t)
      ∧ (passMark bs = false → checkPacket bs = false →
        ∃ t, exec (.ringPacketReceived bs) s = .next t
          ∧ OnlyRaised .packetDiscarded { s with ring := { s.ring with
              discarded := min (s.ring.discarded + 1) (2 ^ 32 - 1), forward := s.ring.forward ++ [setPassMark bs] } } t)
      ∧ (PassesCheck bs → (byteAt bs 0).toNat ≠ 0 → (byteAt bs 0).toNat ∉ s.ring.nodes →
        exec (.ringPacketReceived bs) s = .next { s with ring := { s.ring with
          unknownOrigin := min (s.ring.unknownOrigin + 1) (2 ^ 32 - 1), forward := s.ring.forward ++ [setPassMark bs] } })
      ∧ (PassesCheck bs → (byteAt bs 0).toNat ≠ 0 → (byteAt bs 0).toNat ∈ s.ring.nodes →
        ∃ u t, exec (.ringPacketReceived bs) s = .next t
          ∧ t = { u with ring := { s.ring with forward := s.ring.forward ++ [setPassMark bs] } }
          ∧ ((byteAt bs 1).toNat = 6 → ∀ cls, AlertClass.ofCode (byteAt (payloadOf bs) 0) = some cls →
              u = alertIntake (byteAt bs 0).toNat cls (wordAt (payloadOf bs) 1) s)
          ∧ ((byteAt bs 1).toNat = 5 → (byteAt bs 0).toNat = 49 → u = storageReport (nodeReportOf (payloadOf bs)) s)
          ∧ ((byteAt bs 1).toNat = 5 → (byteAt bs 0).toNat = 50 → u = meterReport (nodeReportOf (payloadOf bs)) s)
          ∧ ((byteAt bs 1).toNat = 5 → ∀ (b : BlockIx) (mode : UnitMode), (byteAt bs 0).toNat = b.val + 1 →
              UnitMode.ofCode (byteAt (payloadOf bs) 12) = some mode → u = blockReport b (blockReportOf mode (payloadOf bs)) s))))
  ∧ (∀ (flags marks : Byte) (taken : Bool) (s : State), Awake s → s.ring.state ≠ .down →
    flags.getLsbD 0 = false → taken = flags.getLsbD 1 →
    (∀ (b : BlockIx) (label : Epoch) (limit lease : Nat), limit < 65536 → lease < 65536 →
      exec (.ringPacketReceived (returnedBytes (.cap b label (some limit) lease) flags marks)) s
        = .next (capReturn b label limit lease taken s))
    -- a returned release, whose cap field is a free value (log 12)
    ∧ (∀ (b : BlockIx) (label : Epoch),
      exec (.ringPacketReceived (returnedBytes (.cap b label none 0) flags marks)) s
        = .next (capReturn b label (Config.releaseCapField b label).toNat 0 taken s))
    ∧ (∀ (label : Epoch) (power : Int) (lease : Nat), -3000000 ≤ power → power ≤ 3000000 → lease < 65536 →
      exec (.ringPacketReceived (returnedBytes (.store label power lease) flags marks)) s
        = .next (storeReturn label power lease taken s))
    ∧ (∀ e : Epoch,
      (s.ring.nodes.length ≤ marks.toNat → exec (.ringPacketReceived (returnedBytes (.mark e) flags marks)) s = .next s)
      ∧ (marks.toNat < s.ring.nodes.length →
        ∃ t, exec (.ringPacketReceived (returnedBytes (.mark e) flags marks)) s = .next t ∧ OnlyRaised .markShort s t))
    ∧ (∀ (n : Byte) (sent : Time), s.ring.probe = .outstanding n sent false → s.now ≤ sent + 20000 →
      ∃ t, exec (.ringPacketReceived (returnedBytes (.probe n) flags marks)) s = .next t
        ∧ (s.ring.state = .up → t = { s with ring := { s.ring with probe := .absent, lastOutcome := some .returned } })
        ∧ (s.ring.state = .probing → OnlyRaised .ringUp
            { s with ring := { s.ring with state := .up, probe := .absent, lastOutcome := some .returned } } t))
    ∧ (∀ n : Byte, (∀ sent, s.ring.probe = .outstanding n sent false → sent + 20000 < s.now) →
      exec (.ringPacketReceived (returnedBytes (.probe n) flags marks)) s = .next s))
  ∧ ∀ s : State, Awake s →
    (∀ (p : List Byte) (rest : List (List Byte)), s.ring.forward = p :: rest →
      exec .outPortFree s = .next { s with ring := { s.ring with forward := rest, sending := some p } })
    ∧ (∀ (p : OwnPacket) (rest : List OwnPacket), s.ring.forward = [] → s.ring.queue = p :: rest →
      ∃ probe, exec .outPortFree s
          = .next { s with ring := { s.ring with queue := rest, sending := some p.bytes, probe := probe } }
        ∧ (∀ n, p = .probe n → probe = .outstanding n s.now false) ∧ (p.isProbe = false → probe = s.ring.probe))
    ∧ (s.ring.forward = [] → s.ring.queue = [] →
      exec .outPortFree s = .next { s with ring := { s.ring with sending := none } })

/-- R18 to R22, R132 to R135, R166 to R169: what the reports and the returns that R152 hands on do to the records, and what they leave. That
an adoption is followed by the judgement of R22 in the same report (log 14), with a second increase of the revision where that bars the
block (log 27), and that a meter's export of -2^31 is taken at the nearer bound (log 24), is the model's choice. -/
def Obligations.ReportsAndReturnsTaken : Prop :=
  (∀ a b : Epoch, atOrAfter a b = true ↔ (a - b).toNat < 2 ^ 31)
  -- R18 to R22
  ∧ (∀ (b : BlockIx) (rep : BlockReport) (s : State), (s.block b).state = .empty → blockReport b rep s = s)
  ∧ (∀ (b : BlockIx) (rep : BlockReport) (s t : State) (u : BlockRecord), (s.block b).state ≠ .empty →
    t = blockReport b rep s →
    u = { s.block b with measured := rep.measured.map (min · 65000), available := rep.available.map (min · 65000),
                         unitMode := some rep.mode, heard := some s.timer.epoch, watch := none } →
    ((∃ l, (s.block b).capLabel = some l ∧ atOrAfter rep.epoch l = false) →
      t.block b = u ∧ OnlyBlock b s t ∧ CollectionsKept s t ∧ t.link = s.link)
    ∧ ((∀ l, (s.block b).capLabel = some l → atOrAfter rep.epoch l = true) →
      (rep.mode = .free → u.state = .silent →
        t.block b = { u with state := .free, revision := u.revision + 1 } ∧ OnlyBlock b s t ∧ t.link = s.link
          ∧ t.table.rotation = s.table.rotation ++ [b] ∧ t.table.capped = s.table.capped)
      ∧ (rep.mode = .free → u.state = .capped →
        t.block b = { u with state := .free, cap := none, captureEpoch := none, leaseExpiry := none, owed := false,
                             lapseCount := min (u.lapseCount + 1) 65535, revision := u.revision + 1 }
          ∧ OthersKept b s t
          ∧ t.table.capped = s.table.capped.filter (· != b) ∧ t.table.rotation = s.table.rotation ++ [b]
          ∧ OnlyRaised .blockLapsed { s with table := t.table } t)
      ∧ (rep.mode = .free → u.state = .pinned →
        t.block b = { u with leaseExpiry := none, owed := true, lapseCount := min (u.lapseCount + 1) 65535 }
          ∧ OthersKept b s t ∧ CollectionsKept s t ∧ OnlyRaised .blockLapsed { s with table := t.table } t)
      ∧ (rep.mode = .capped → u.state = .free ∨ u.state = .resting ∨ u.state = .barred ∨ u.state = .out →
        t.block b = { u with owed := true } ∧ OthersKept b s t ∧ CollectionsKept s t ∧ OnlyRaised .strayCap { s with table := t.table } t)
      ∧ (rep.mode = .free → u.state = .free ∨ u.state = .resting ∨ u.state = .barred ∨ u.state = .out →
        t.block b = u ∧ OnlyBlock b s t ∧ CollectionsKept s t ∧ t.link = s.link)
      ∧ (rep.mode = .capped → u.state = .pinned →
        t.block b = u ∧ OnlyBlock b s t ∧ CollectionsKept s t ∧ t.link = s.link)
      ∧ (rep.mode = .capped → u.state = .capped → ComplianceTaken b rep s.table.capped u s t)
      ∧ (rep.mode = .capped → u.state = .silent → ∀ (f : Profile) (applied cap floor : Nat), u.profile = some f →
        applied = rep.applied.getD 0 → floor = f.rated * s.gov.groups[f.group].floorPercent / 100 →
        cap = max floor (min f.rated applied) →
        ComplianceTaken b rep (s.table.capped ++ [b])
          { u with state := .capped, cap := some cap, captureEpoch := some s.timer.epoch,
                   leaseExpiry := some (s.timer.epoch + BitVec.ofNat 32 rep.leaseLeft), nonFollowRun := 0,
                   owed := u.owed || decide (cap ≠ applied), revision := u.revision + 1 } s t)))
  -- R133, R134
  ∧ (∀ (rep : NodeReport) (s t : State) (u : StorageRecord), t = storageReport rep s →
    u = { s.nodes.storage with
            measured := rep.measured.map (fun v => max (-3000000) (min 3000000 v)), soe := rep.soe.map (min · 1000),
            discharge := rep.discharge.map (min · 3000000), charge := rep.charge.map (min · 3000000), unitMode := rep.mode,
            applied := rep.applied.map (fun v => max (-3000000) (min 3000000 v)), heard := some s.timer.epoch,
            hearing := .heard } →
    ((∃ l, u.commandLabel = some l ∧ atOrAfter rep.epoch l = false) →
      t = { s with nodes := { s.nodes with storage := u } })
    ∧ ((∀ l, u.commandLabel = some l → atOrAfter rep.epoch l = true) →
      (rep.mode = some .free → u.commanded ≠ 0 →
        t = { s with nodes := { s.nodes with storage :=
          { u with leaseExpiry := none, owed := true, lapseCount := min (u.lapseCount + 1) 65535 } } })
      ∧ (rep.mode = some .capped → u.commanded = 0 →
        OnlyRaised .strayCap { s with nodes := { s.nodes with storage := { u with owed := true } } } t)
      ∧ (rep.mode = some .capped → u.commanded ≠ 0 → ∀ v, u.applied = some v → v ≠ u.commanded →
        t = { s with nodes := { s.nodes with storage := { u with owed := true } } })
      ∧ (rep.mode = none ∨ (rep.mode = some .free ∧ u.commanded = 0)
          ∨ (rep.mode = some .capped ∧ u.commanded ≠ 0 ∧ u.applied = some u.commanded) →
        t = { s with nodes := { s.nodes with storage := u } })))
  -- R135
  ∧ (∀ (rep : NodeReport) (s : State),
    meterReport rep s = { s with nodes := { s.nodes with
      meter := { heard := some s.timer.epoch, hearing := .heard,
                 exported := rep.measured.map fun v => max (-(2 ^ 31) + 1) (min (2 ^ 31 - 1) v) } } })
  -- R166 to R168
  ∧ (∀ (b : BlockIx) (label : Epoch) (limit lease : Nat) (taken : Bool) (s t : State),
    t = capReturn b label limit lease taken s →
    ((s.block b).capLabel ≠ some label → t = s)
    ∧ ((s.block b).capLabel = some label → taken = true → ∀ holds : Prop,
      (holds ↔ (s.block b).state = .capped ∨ (s.block b).state = .pinned) →
      OnlyBlock b s t ∧ CollectionsKept s t ∧ t.link = s.link
        ∧ ∃ expiry owed, t.block b = { s.block b with undeliveredRun := 0, leaseExpiry := expiry, owed := owed }
          ∧ (lease = 0 → expiry = none)
          ∧ (lease ≠ 0 → holds → expiry = some (label + BitVec.ofNat 32 lease))
          ∧ (lease ≠ 0 → ¬holds → expiry = (s.block b).leaseExpiry)
          ∧ ((holds ∧ lease ≠ 0 ∧ (s.block b).cap = some limit ∨ ¬holds ∧ lease = 0) → owed = false)
          ∧ (¬(holds ∧ lease ≠ 0 ∧ (s.block b).cap = some limit ∨ ¬holds ∧ lease = 0) → owed = (s.block b).owed))
    ∧ ((s.block b).capLabel = some label → taken = false →
      t.block b = { s.block b with undeliveredRun := min ((s.block b).undeliveredRun + 1) 255, owed := true }
        ∧ OthersKept b s t ∧ CollectionsKept s t ∧ OnlyRaised .capUndelivered { s with table := t.table } t))
  -- R166, R169
  ∧ ∀ (label : Epoch) (power : Int) (lease : Nat) (taken : Bool) (s t : State) (r : StorageRecord), r = s.nodes.storage →
    t = storeReturn label power lease taken s →
    (r.commandLabel ≠ some label → t = s)
    ∧ (r.commandLabel = some label → taken = true →
      ∃ expiry owed, t = { s with nodes := { s.nodes with storage := { r with leaseExpiry := expiry, owed := owed } } }
        ∧ (power ≠ 0 → r.commanded ≠ 0 → expiry = some (label + BitVec.ofNat 32 lease))
        ∧ (power = 0 → lease = 0 → expiry = none)
        ∧ (power ≠ 0 → r.commanded = 0 → expiry = r.leaseExpiry)
        ∧ (power = r.commanded → owed = false) ∧ (power ≠ r.commanded → owed = r.owed))
    ∧ (r.commandLabel = some label → taken = false →
      OnlyRaised .capUndelivered { s with nodes := { s.nodes with storage := { r with owed := true } } } t)

/-! ## Alerts -/

/-- R23 to R25, R171 to R176: the intake of an alert, its effect on a block, and the two requests that remove entries. -/
def Obligations.AlertsStoredTakenFlushed : Prop :=
  (∀ (node : Nat) (cls : AlertClass) (data : Word) (s t : State), LevelsFollow s → t = alertIntake node cls data s →
    t.alerts = s.alerts.set cls
      (if (s.alerts.get cls).entries.length < 32
        then { s.alerts.get cls with
                 entries := (s.alerts.get cls).entries ++ [{ node, cls, data, arrival := s.timer.epoch }] }
        else { s.alerts.get cls with overflow := min ((s.alerts.get cls).overflow + 1) 255 })
    ∧ OnlyRaised (if (s.alerts.get cls).entries.length < 32 then cls.level else .alertOverflow)
        { s with table := t.table, alerts := t.alerts } t
    ∧ (48 < node ∨ node = 0 ∨ cls = .note → t.table = s.table)
    ∧ ∀ b : BlockIx, node = b.val + 1 →
      OthersKept b s t ∧ ((s.block b).state = .empty → t.table = s.table)
      ∧ (cls = .trip →
        ((s.block b).state = .barred ∨ (s.block b).state = .out → t.block b = { s.block b with tripFlag := true } ∧ CollectionsKept s t)
        ∧ ((s.block b).state ∈ [BlockState.free, .capped, .resting, .pinned, .silent] →
          t.table.capped = (if (s.block b).state = .capped then s.table.capped.filter (· != b) else s.table.capped)
          ∧ t.table.rotation = (if (s.block b).state = .free then s.table.rotation.filter (· != b) else s.table.rotation)
          ∧ t.block b = { s.block b with
            state := .out, tripFlag := true, cap := none, captureEpoch := none, revision := (s.block b).revision + 1,
            owed := (s.block b).owed || decide ((s.block b).state = .capped ∨ (s.block b).state = .pinned) }))
      ∧ (cls = .restore →
        ((s.block b).state = .out →
          t.block b = { s.block b with state := .free, tripFlag := false, revision := (s.block b).revision + 1 }
          ∧ t.table.capped = s.table.capped ∧ t.table.rotation = s.table.rotation ++ [b])
        ∧ ((s.block b).state = .barred → t.block b = { s.block b with tripFlag := false } ∧ CollectionsKept s t)
        ∧ ((s.block b).state ≠ .out → (s.block b).state ≠ .barred → t.block b = s.block b ∧ CollectionsKept s t))
      ∧ (cls = .derate → (s.block b).state ≠ .empty → ∀ limit : Option Nat,
        (data.toNat = 65535 ∧ limit = none ∨ data.toNat < 65535 ∧ limit = some data.toNat
          ∨ 65535 < data.toNat ∧ limit = some 65534) →
        CollectionsKept s t ∧ t.block b = { s.block b with
          derate := limit,
          revision := if (s.block b).derate = limit then (s.block b).revision else (s.block b).revision + 1 }))
  ∧ (∀ (tag cls : Byte) (s : State), Ready s → LevelsFollow s →
    (3 < cls.toNat →
      (∃ t, exec (.alertTake tag cls) s = .next t ∧ Refused 0x1D tag .badValue s t)
      ∧ ∃ t, exec (.alertFlush tag cls) s = .next t ∧ Refused 0x1F tag .badValue s t)
    ∧ ∀ c : AlertClass, (cls.toNat, c) ∈ [(0, AlertClass.trip), (1, .derate), (2, .restore), (3, .note)] →
      ((s.alerts.get c).entries = [] → ∃ t, exec (.alertTake tag cls) s = .next t ∧ Refused 0x1D tag .empty s t)
      ∧ (∀ (a : AlertEntry) (rest : List AlertEntry), (s.alerts.get c).entries = a :: rest →
        ∃ t, exec (.alertTake tag cls) s = .next t
          ∧ Answered 0x1D tag .ok (leBytes 1 a.node ++ leBytes 1 a.cls.code ++ leBytes 4 a.data.toNat ++ leBytes 4 a.arrival.toNat
              ++ leBytes 1 rest.length ++ leBytes 1 (s.alerts.get c).overflow) s t
          ∧ t = { s with link := t.link, alerts := s.alerts.set c { s.alerts.get c with entries := rest },
                         cond := { s.cond with conditions := t.cond.conditions } }
          ∧ t.cond.conditions
              = if rest = [] then clearCondition s.cond.conditions c.level else s.cond.conditions)
      ∧ ∃ t, exec (.alertFlush tag cls) s = .next t ∧ Answered 0x1F tag .ok [] s t
          ∧ t = { s with link := t.link, alerts := s.alerts.set c { entries := [], overflow := 0 },
                         cond := { s.cond with conditions := clearCondition s.cond.conditions c.level } })

end ModelStatements
end

