-- ==== Sys2Proof/Laws/State.lean ====
section
/-! SUPPORT. One lemma per field per update of `State`, so that no proof unfolds a record update. -/

namespace Sys2Proof.Machine

variable (s : State)

/-! ### `State.onLink` -/

@[simp] theorem State.onLink_pending (f : HostLink → HostLink) : (s.onLink f).pending = s.pending := rfl
@[simp] theorem State.onLink_now (f : HostLink → HostLink) : (s.onLink f).now = s.now := rfl
@[simp] theorem State.onLink_freeCount (f : HostLink → HostLink) : (s.onLink f).freeCount = s.freeCount := rfl
@[simp] theorem State.onLink_resetLow (f : HostLink → HostLink) : (s.onLink f).resetLow = s.resetLow := rfl
@[simp] theorem State.onLink_straps (f : HostLink → HostLink) : (s.onLink f).straps = s.straps := rfl
@[simp] theorem State.onLink_link (f : HostLink → HostLink) : (s.onLink f).link = f s.link := rfl
@[simp] theorem State.onLink_cond (f : HostLink → HostLink) : (s.onLink f).cond = s.cond := rfl
@[simp] theorem State.onLink_timer (f : HostLink → HostLink) : (s.onLink f).timer = s.timer := rfl
@[simp] theorem State.onLink_run (f : HostLink → HostLink) : (s.onLink f).run = s.run := rfl
@[simp] theorem State.onLink_store (f : HostLink → HostLink) : (s.onLink f).store = s.store := rfl
@[simp] theorem State.onLink_gov (f : HostLink → HostLink) : (s.onLink f).gov = s.gov := rfl
@[simp] theorem State.onLink_table (f : HostLink → HostLink) : (s.onLink f).table = s.table := rfl
@[simp] theorem State.onLink_sky (f : HostLink → HostLink) : (s.onLink f).sky = s.sky := rfl
@[simp] theorem State.onLink_front (f : HostLink → HostLink) : (s.onLink f).front = s.front := rfl
@[simp] theorem State.onLink_nodes (f : HostLink → HostLink) : (s.onLink f).nodes = s.nodes := rfl
@[simp] theorem State.onLink_ring (f : HostLink → HostLink) : (s.onLink f).ring = s.ring := rfl
@[simp] theorem State.onLink_alerts (f : HostLink → HostLink) : (s.onLink f).alerts = s.alerts := rfl

/-! ### `State.onCond` -/

@[simp] theorem State.onCond_pending (f : ConditionUnit → ConditionUnit) : (s.onCond f).pending = s.pending := rfl
@[simp] theorem State.onCond_now (f : ConditionUnit → ConditionUnit) : (s.onCond f).now = s.now := rfl
@[simp] theorem State.onCond_freeCount (f : ConditionUnit → ConditionUnit) : (s.onCond f).freeCount = s.freeCount := rfl
@[simp] theorem State.onCond_resetLow (f : ConditionUnit → ConditionUnit) : (s.onCond f).resetLow = s.resetLow := rfl
@[simp] theorem State.onCond_straps (f : ConditionUnit → ConditionUnit) : (s.onCond f).straps = s.straps := rfl
@[simp] theorem State.onCond_link (f : ConditionUnit → ConditionUnit) : (s.onCond f).link = s.link := rfl
@[simp] theorem State.onCond_cond (f : ConditionUnit → ConditionUnit) : (s.onCond f).cond = f s.cond := rfl
@[simp] theorem State.onCond_timer (f : ConditionUnit → ConditionUnit) : (s.onCond f).timer = s.timer := rfl
@[simp] theorem State.onCond_run (f : ConditionUnit → ConditionUnit) : (s.onCond f).run = s.run := rfl
@[simp] theorem State.onCond_store (f : ConditionUnit → ConditionUnit) : (s.onCond f).store = s.store := rfl
@[simp] theorem State.onCond_gov (f : ConditionUnit → ConditionUnit) : (s.onCond f).gov = s.gov := rfl
@[simp] theorem State.onCond_table (f : ConditionUnit → ConditionUnit) : (s.onCond f).table = s.table := rfl
@[simp] theorem State.onCond_sky (f : ConditionUnit → ConditionUnit) : (s.onCond f).sky = s.sky := rfl
@[simp] theorem State.onCond_front (f : ConditionUnit → ConditionUnit) : (s.onCond f).front = s.front := rfl
@[simp] theorem State.onCond_nodes (f : ConditionUnit → ConditionUnit) : (s.onCond f).nodes = s.nodes := rfl
@[simp] theorem State.onCond_ring (f : ConditionUnit → ConditionUnit) : (s.onCond f).ring = s.ring := rfl
@[simp] theorem State.onCond_alerts (f : ConditionUnit → ConditionUnit) : (s.onCond f).alerts = s.alerts := rfl

/-! ### `State.onTimer` -/

@[simp] theorem State.onTimer_pending (f : EpochTimer → EpochTimer) : (s.onTimer f).pending = s.pending := rfl
@[simp] theorem State.onTimer_now (f : EpochTimer → EpochTimer) : (s.onTimer f).now = s.now := rfl
@[simp] theorem State.onTimer_freeCount (f : EpochTimer → EpochTimer) : (s.onTimer f).freeCount = s.freeCount := rfl
@[simp] theorem State.onTimer_resetLow (f : EpochTimer → EpochTimer) : (s.onTimer f).resetLow = s.resetLow := rfl
@[simp] theorem State.onTimer_straps (f : EpochTimer → EpochTimer) : (s.onTimer f).straps = s.straps := rfl
@[simp] theorem State.onTimer_link (f : EpochTimer → EpochTimer) : (s.onTimer f).link = s.link := rfl
@[simp] theorem State.onTimer_cond (f : EpochTimer → EpochTimer) : (s.onTimer f).cond = s.cond := rfl
@[simp] theorem State.onTimer_timer (f : EpochTimer → EpochTimer) : (s.onTimer f).timer = f s.timer := rfl
@[simp] theorem State.onTimer_run (f : EpochTimer → EpochTimer) : (s.onTimer f).run = s.run := rfl
@[simp] theorem State.onTimer_store (f : EpochTimer → EpochTimer) : (s.onTimer f).store = s.store := rfl
@[simp] theorem State.onTimer_gov (f : EpochTimer → EpochTimer) : (s.onTimer f).gov = s.gov := rfl
@[simp] theorem State.onTimer_table (f : EpochTimer → EpochTimer) : (s.onTimer f).table = s.table := rfl
@[simp] theorem State.onTimer_sky (f : EpochTimer → EpochTimer) : (s.onTimer f).sky = s.sky := rfl
@[simp] theorem State.onTimer_front (f : EpochTimer → EpochTimer) : (s.onTimer f).front = s.front := rfl
@[simp] theorem State.onTimer_nodes (f : EpochTimer → EpochTimer) : (s.onTimer f).nodes = s.nodes := rfl
@[simp] theorem State.onTimer_ring (f : EpochTimer → EpochTimer) : (s.onTimer f).ring = s.ring := rfl
@[simp] theorem State.onTimer_alerts (f : EpochTimer → EpochTimer) : (s.onTimer f).alerts = s.alerts := rfl

/-! ### `State.onRun` -/

@[simp] theorem State.onRun_pending (f : RunControl → RunControl) : (s.onRun f).pending = s.pending := rfl
@[simp] theorem State.onRun_now (f : RunControl → RunControl) : (s.onRun f).now = s.now := rfl
@[simp] theorem State.onRun_freeCount (f : RunControl → RunControl) : (s.onRun f).freeCount = s.freeCount := rfl
@[simp] theorem State.onRun_resetLow (f : RunControl → RunControl) : (s.onRun f).resetLow = s.resetLow := rfl
@[simp] theorem State.onRun_straps (f : RunControl → RunControl) : (s.onRun f).straps = s.straps := rfl
@[simp] theorem State.onRun_link (f : RunControl → RunControl) : (s.onRun f).link = s.link := rfl
@[simp] theorem State.onRun_cond (f : RunControl → RunControl) : (s.onRun f).cond = s.cond := rfl
@[simp] theorem State.onRun_timer (f : RunControl → RunControl) : (s.onRun f).timer = s.timer := rfl
@[simp] theorem State.onRun_run (f : RunControl → RunControl) : (s.onRun f).run = f s.run := rfl
@[simp] theorem State.onRun_store (f : RunControl → RunControl) : (s.onRun f).store = s.store := rfl
@[simp] theorem State.onRun_gov (f : RunControl → RunControl) : (s.onRun f).gov = s.gov := rfl
@[simp] theorem State.onRun_table (f : RunControl → RunControl) : (s.onRun f).table = s.table := rfl
@[simp] theorem State.onRun_sky (f : RunControl → RunControl) : (s.onRun f).sky = s.sky := rfl
@[simp] theorem State.onRun_front (f : RunControl → RunControl) : (s.onRun f).front = s.front := rfl
@[simp] theorem State.onRun_nodes (f : RunControl → RunControl) : (s.onRun f).nodes = s.nodes := rfl
@[simp] theorem State.onRun_ring (f : RunControl → RunControl) : (s.onRun f).ring = s.ring := rfl
@[simp] theorem State.onRun_alerts (f : RunControl → RunControl) : (s.onRun f).alerts = s.alerts := rfl

/-! ### `State.onStore` -/

@[simp] theorem State.onStore_pending (f : SettingsStore → SettingsStore) : (s.onStore f).pending = s.pending := rfl
@[simp] theorem State.onStore_now (f : SettingsStore → SettingsStore) : (s.onStore f).now = s.now := rfl
@[simp] theorem State.onStore_freeCount (f : SettingsStore → SettingsStore) : (s.onStore f).freeCount = s.freeCount := rfl
@[simp] theorem State.onStore_resetLow (f : SettingsStore → SettingsStore) : (s.onStore f).resetLow = s.resetLow := rfl
@[simp] theorem State.onStore_straps (f : SettingsStore → SettingsStore) : (s.onStore f).straps = s.straps := rfl
@[simp] theorem State.onStore_link (f : SettingsStore → SettingsStore) : (s.onStore f).link = s.link := rfl
@[simp] theorem State.onStore_cond (f : SettingsStore → SettingsStore) : (s.onStore f).cond = s.cond := rfl
@[simp] theorem State.onStore_timer (f : SettingsStore → SettingsStore) : (s.onStore f).timer = s.timer := rfl
@[simp] theorem State.onStore_run (f : SettingsStore → SettingsStore) : (s.onStore f).run = s.run := rfl
@[simp] theorem State.onStore_store (f : SettingsStore → SettingsStore) : (s.onStore f).store = f s.store := rfl
@[simp] theorem State.onStore_gov (f : SettingsStore → SettingsStore) : (s.onStore f).gov = s.gov := rfl
@[simp] theorem State.onStore_table (f : SettingsStore → SettingsStore) : (s.onStore f).table = s.table := rfl
@[simp] theorem State.onStore_sky (f : SettingsStore → SettingsStore) : (s.onStore f).sky = s.sky := rfl
@[simp] theorem State.onStore_front (f : SettingsStore → SettingsStore) : (s.onStore f).front = s.front := rfl
@[simp] theorem State.onStore_nodes (f : SettingsStore → SettingsStore) : (s.onStore f).nodes = s.nodes := rfl
@[simp] theorem State.onStore_ring (f : SettingsStore → SettingsStore) : (s.onStore f).ring = s.ring := rfl
@[simp] theorem State.onStore_alerts (f : SettingsStore → SettingsStore) : (s.onStore f).alerts = s.alerts := rfl

/-! ### `State.onGov` -/

@[simp] theorem State.onGov_pending (f : Governor → Governor) : (s.onGov f).pending = s.pending := rfl
@[simp] theorem State.onGov_now (f : Governor → Governor) : (s.onGov f).now = s.now := rfl
@[simp] theorem State.onGov_freeCount (f : Governor → Governor) : (s.onGov f).freeCount = s.freeCount := rfl
@[simp] theorem State.onGov_resetLow (f : Governor → Governor) : (s.onGov f).resetLow = s.resetLow := rfl
@[simp] theorem State.onGov_straps (f : Governor → Governor) : (s.onGov f).straps = s.straps := rfl
@[simp] theorem State.onGov_link (f : Governor → Governor) : (s.onGov f).link = s.link := rfl
@[simp] theorem State.onGov_cond (f : Governor → Governor) : (s.onGov f).cond = s.cond := rfl
@[simp] theorem State.onGov_timer (f : Governor → Governor) : (s.onGov f).timer = s.timer := rfl
@[simp] theorem State.onGov_run (f : Governor → Governor) : (s.onGov f).run = s.run := rfl
@[simp] theorem State.onGov_store (f : Governor → Governor) : (s.onGov f).store = s.store := rfl
@[simp] theorem State.onGov_gov (f : Governor → Governor) : (s.onGov f).gov = f s.gov := rfl
@[simp] theorem State.onGov_table (f : Governor → Governor) : (s.onGov f).table = s.table := rfl
@[simp] theorem State.onGov_sky (f : Governor → Governor) : (s.onGov f).sky = s.sky := rfl
@[simp] theorem State.onGov_front (f : Governor → Governor) : (s.onGov f).front = s.front := rfl
@[simp] theorem State.onGov_nodes (f : Governor → Governor) : (s.onGov f).nodes = s.nodes := rfl
@[simp] theorem State.onGov_ring (f : Governor → Governor) : (s.onGov f).ring = s.ring := rfl
@[simp] theorem State.onGov_alerts (f : Governor → Governor) : (s.onGov f).alerts = s.alerts := rfl

/-! ### `State.onTable` -/

@[simp] theorem State.onTable_pending (f : BlockTable → BlockTable) : (s.onTable f).pending = s.pending := rfl
@[simp] theorem State.onTable_now (f : BlockTable → BlockTable) : (s.onTable f).now = s.now := rfl
@[simp] theorem State.onTable_freeCount (f : BlockTable → BlockTable) : (s.onTable f).freeCount = s.freeCount := rfl
@[simp] theorem State.onTable_resetLow (f : BlockTable → BlockTable) : (s.onTable f).resetLow = s.resetLow := rfl
@[simp] theorem State.onTable_straps (f : BlockTable → BlockTable) : (s.onTable f).straps = s.straps := rfl
@[simp] theorem State.onTable_link (f : BlockTable → BlockTable) : (s.onTable f).link = s.link := rfl
@[simp] theorem State.onTable_cond (f : BlockTable → BlockTable) : (s.onTable f).cond = s.cond := rfl
@[simp] theorem State.onTable_timer (f : BlockTable → BlockTable) : (s.onTable f).timer = s.timer := rfl
@[simp] theorem State.onTable_run (f : BlockTable → BlockTable) : (s.onTable f).run = s.run := rfl
@[simp] theorem State.onTable_store (f : BlockTable → BlockTable) : (s.onTable f).store = s.store := rfl
@[simp] theorem State.onTable_gov (f : BlockTable → BlockTable) : (s.onTable f).gov = s.gov := rfl
@[simp] theorem State.onTable_table (f : BlockTable → BlockTable) : (s.onTable f).table = f s.table := rfl
@[simp] theorem State.onTable_sky (f : BlockTable → BlockTable) : (s.onTable f).sky = s.sky := rfl
@[simp] theorem State.onTable_front (f : BlockTable → BlockTable) : (s.onTable f).front = s.front := rfl
@[simp] theorem State.onTable_nodes (f : BlockTable → BlockTable) : (s.onTable f).nodes = s.nodes := rfl
@[simp] theorem State.onTable_ring (f : BlockTable → BlockTable) : (s.onTable f).ring = s.ring := rfl
@[simp] theorem State.onTable_alerts (f : BlockTable → BlockTable) : (s.onTable f).alerts = s.alerts := rfl

/-! ### `State.onSky` -/

@[simp] theorem State.onSky_pending (f : SkyUnit → SkyUnit) : (s.onSky f).pending = s.pending := rfl
@[simp] theorem State.onSky_now (f : SkyUnit → SkyUnit) : (s.onSky f).now = s.now := rfl
@[simp] theorem State.onSky_freeCount (f : SkyUnit → SkyUnit) : (s.onSky f).freeCount = s.freeCount := rfl
@[simp] theorem State.onSky_resetLow (f : SkyUnit → SkyUnit) : (s.onSky f).resetLow = s.resetLow := rfl
@[simp] theorem State.onSky_straps (f : SkyUnit → SkyUnit) : (s.onSky f).straps = s.straps := rfl
@[simp] theorem State.onSky_link (f : SkyUnit → SkyUnit) : (s.onSky f).link = s.link := rfl
@[simp] theorem State.onSky_cond (f : SkyUnit → SkyUnit) : (s.onSky f).cond = s.cond := rfl
@[simp] theorem State.onSky_timer (f : SkyUnit → SkyUnit) : (s.onSky f).timer = s.timer := rfl
@[simp] theorem State.onSky_run (f : SkyUnit → SkyUnit) : (s.onSky f).run = s.run := rfl
@[simp] theorem State.onSky_store (f : SkyUnit → SkyUnit) : (s.onSky f).store = s.store := rfl
@[simp] theorem State.onSky_gov (f : SkyUnit → SkyUnit) : (s.onSky f).gov = s.gov := rfl
@[simp] theorem State.onSky_table (f : SkyUnit → SkyUnit) : (s.onSky f).table = s.table := rfl
@[simp] theorem State.onSky_sky (f : SkyUnit → SkyUnit) : (s.onSky f).sky = f s.sky := rfl
@[simp] theorem State.onSky_front (f : SkyUnit → SkyUnit) : (s.onSky f).front = s.front := rfl
@[simp] theorem State.onSky_nodes (f : SkyUnit → SkyUnit) : (s.onSky f).nodes = s.nodes := rfl
@[simp] theorem State.onSky_ring (f : SkyUnit → SkyUnit) : (s.onSky f).ring = s.ring := rfl
@[simp] theorem State.onSky_alerts (f : SkyUnit → SkyUnit) : (s.onSky f).alerts = s.alerts := rfl

/-! ### `State.onFront` -/

@[simp] theorem State.onFront_pending (f : FrontTracker → FrontTracker) : (s.onFront f).pending = s.pending := rfl
@[simp] theorem State.onFront_now (f : FrontTracker → FrontTracker) : (s.onFront f).now = s.now := rfl
@[simp] theorem State.onFront_freeCount (f : FrontTracker → FrontTracker) : (s.onFront f).freeCount = s.freeCount := rfl
@[simp] theorem State.onFront_resetLow (f : FrontTracker → FrontTracker) : (s.onFront f).resetLow = s.resetLow := rfl
@[simp] theorem State.onFront_straps (f : FrontTracker → FrontTracker) : (s.onFront f).straps = s.straps := rfl
@[simp] theorem State.onFront_link (f : FrontTracker → FrontTracker) : (s.onFront f).link = s.link := rfl
@[simp] theorem State.onFront_cond (f : FrontTracker → FrontTracker) : (s.onFront f).cond = s.cond := rfl
@[simp] theorem State.onFront_timer (f : FrontTracker → FrontTracker) : (s.onFront f).timer = s.timer := rfl
@[simp] theorem State.onFront_run (f : FrontTracker → FrontTracker) : (s.onFront f).run = s.run := rfl
@[simp] theorem State.onFront_store (f : FrontTracker → FrontTracker) : (s.onFront f).store = s.store := rfl
@[simp] theorem State.onFront_gov (f : FrontTracker → FrontTracker) : (s.onFront f).gov = s.gov := rfl
@[simp] theorem State.onFront_table (f : FrontTracker → FrontTracker) : (s.onFront f).table = s.table := rfl
@[simp] theorem State.onFront_sky (f : FrontTracker → FrontTracker) : (s.onFront f).sky = s.sky := rfl
@[simp] theorem State.onFront_front (f : FrontTracker → FrontTracker) : (s.onFront f).front = f s.front := rfl
@[simp] theorem State.onFront_nodes (f : FrontTracker → FrontTracker) : (s.onFront f).nodes = s.nodes := rfl
@[simp] theorem State.onFront_ring (f : FrontTracker → FrontTracker) : (s.onFront f).ring = s.ring := rfl
@[simp] theorem State.onFront_alerts (f : FrontTracker → FrontTracker) : (s.onFront f).alerts = s.alerts := rfl

/-! ### `State.onRing` -/

@[simp] theorem State.onRing_pending (f : RingController → RingController) : (s.onRing f).pending = s.pending := rfl
@[simp] theorem State.onRing_now (f : RingController → RingController) : (s.onRing f).now = s.now := rfl
@[simp] theorem State.onRing_freeCount (f : RingController → RingController) : (s.onRing f).freeCount = s.freeCount := rfl
@[simp] theorem State.onRing_resetLow (f : RingController → RingController) : (s.onRing f).resetLow = s.resetLow := rfl
@[simp] theorem State.onRing_straps (f : RingController → RingController) : (s.onRing f).straps = s.straps := rfl
@[simp] theorem State.onRing_link (f : RingController → RingController) : (s.onRing f).link = s.link := rfl
@[simp] theorem State.onRing_cond (f : RingController → RingController) : (s.onRing f).cond = s.cond := rfl
@[simp] theorem State.onRing_timer (f : RingController → RingController) : (s.onRing f).timer = s.timer := rfl
@[simp] theorem State.onRing_run (f : RingController → RingController) : (s.onRing f).run = s.run := rfl
@[simp] theorem State.onRing_store (f : RingController → RingController) : (s.onRing f).store = s.store := rfl
@[simp] theorem State.onRing_gov (f : RingController → RingController) : (s.onRing f).gov = s.gov := rfl
@[simp] theorem State.onRing_table (f : RingController → RingController) : (s.onRing f).table = s.table := rfl
@[simp] theorem State.onRing_sky (f : RingController → RingController) : (s.onRing f).sky = s.sky := rfl
@[simp] theorem State.onRing_front (f : RingController → RingController) : (s.onRing f).front = s.front := rfl
@[simp] theorem State.onRing_nodes (f : RingController → RingController) : (s.onRing f).nodes = s.nodes := rfl
@[simp] theorem State.onRing_ring (f : RingController → RingController) : (s.onRing f).ring = f s.ring := rfl
@[simp] theorem State.onRing_alerts (f : RingController → RingController) : (s.onRing f).alerts = s.alerts := rfl

/-! ### `State.onAlerts` -/

@[simp] theorem State.onAlerts_pending (f : AlertQueues → AlertQueues) : (s.onAlerts f).pending = s.pending := rfl
@[simp] theorem State.onAlerts_now (f : AlertQueues → AlertQueues) : (s.onAlerts f).now = s.now := rfl
@[simp] theorem State.onAlerts_freeCount (f : AlertQueues → AlertQueues) : (s.onAlerts f).freeCount = s.freeCount := rfl
@[simp] theorem State.onAlerts_resetLow (f : AlertQueues → AlertQueues) : (s.onAlerts f).resetLow = s.resetLow := rfl
@[simp] theorem State.onAlerts_straps (f : AlertQueues → AlertQueues) : (s.onAlerts f).straps = s.straps := rfl
@[simp] theorem State.onAlerts_link (f : AlertQueues → AlertQueues) : (s.onAlerts f).link = s.link := rfl
@[simp] theorem State.onAlerts_cond (f : AlertQueues → AlertQueues) : (s.onAlerts f).cond = s.cond := rfl
@[simp] theorem State.onAlerts_timer (f : AlertQueues → AlertQueues) : (s.onAlerts f).timer = s.timer := rfl
@[simp] theorem State.onAlerts_run (f : AlertQueues → AlertQueues) : (s.onAlerts f).run = s.run := rfl
@[simp] theorem State.onAlerts_store (f : AlertQueues → AlertQueues) : (s.onAlerts f).store = s.store := rfl
@[simp] theorem State.onAlerts_gov (f : AlertQueues → AlertQueues) : (s.onAlerts f).gov = s.gov := rfl
@[simp] theorem State.onAlerts_table (f : AlertQueues → AlertQueues) : (s.onAlerts f).table = s.table := rfl
@[simp] theorem State.onAlerts_sky (f : AlertQueues → AlertQueues) : (s.onAlerts f).sky = s.sky := rfl
@[simp] theorem State.onAlerts_front (f : AlertQueues → AlertQueues) : (s.onAlerts f).front = s.front := rfl
@[simp] theorem State.onAlerts_nodes (f : AlertQueues → AlertQueues) : (s.onAlerts f).nodes = s.nodes := rfl
@[simp] theorem State.onAlerts_ring (f : AlertQueues → AlertQueues) : (s.onAlerts f).ring = s.ring := rfl
@[simp] theorem State.onAlerts_alerts (f : AlertQueues → AlertQueues) : (s.onAlerts f).alerts = f s.alerts := rfl

/-! ### `State.onStorage` -/

@[simp] theorem State.onStorage_pending (f : StorageRecord → StorageRecord) : (s.onStorage f).pending = s.pending := rfl
@[simp] theorem State.onStorage_now (f : StorageRecord → StorageRecord) : (s.onStorage f).now = s.now := rfl
@[simp] theorem State.onStorage_freeCount (f : StorageRecord → StorageRecord) : (s.onStorage f).freeCount = s.freeCount := rfl
@[simp] theorem State.onStorage_resetLow (f : StorageRecord → StorageRecord) : (s.onStorage f).resetLow = s.resetLow := rfl
@[simp] theorem State.onStorage_straps (f : StorageRecord → StorageRecord) : (s.onStorage f).straps = s.straps := rfl
@[simp] theorem State.onStorage_link (f : StorageRecord → StorageRecord) : (s.onStorage f).link = s.link := rfl
@[simp] theorem State.onStorage_cond (f : StorageRecord → StorageRecord) : (s.onStorage f).cond = s.cond := rfl
@[simp] theorem State.onStorage_timer (f : StorageRecord → StorageRecord) : (s.onStorage f).timer = s.timer := rfl
@[simp] theorem State.onStorage_run (f : StorageRecord → StorageRecord) : (s.onStorage f).run = s.run := rfl
@[simp] theorem State.onStorage_store (f : StorageRecord → StorageRecord) : (s.onStorage f).store = s.store := rfl
@[simp] theorem State.onStorage_gov (f : StorageRecord → StorageRecord) : (s.onStorage f).gov = s.gov := rfl
@[simp] theorem State.onStorage_table (f : StorageRecord → StorageRecord) : (s.onStorage f).table = s.table := rfl
@[simp] theorem State.onStorage_sky (f : StorageRecord → StorageRecord) : (s.onStorage f).sky = s.sky := rfl
@[simp] theorem State.onStorage_front (f : StorageRecord → StorageRecord) : (s.onStorage f).front = s.front := rfl
@[simp] theorem State.onStorage_nodes (f : StorageRecord → StorageRecord) : (s.onStorage f).nodes = { s.nodes with storage := f s.nodes.storage } := rfl
@[simp] theorem State.onStorage_ring (f : StorageRecord → StorageRecord) : (s.onStorage f).ring = s.ring := rfl
@[simp] theorem State.onStorage_alerts (f : StorageRecord → StorageRecord) : (s.onStorage f).alerts = s.alerts := rfl

/-! ### `State.onMeter` -/

@[simp] theorem State.onMeter_pending (f : MeterRecord → MeterRecord) : (s.onMeter f).pending = s.pending := rfl
@[simp] theorem State.onMeter_now (f : MeterRecord → MeterRecord) : (s.onMeter f).now = s.now := rfl
@[simp] theorem State.onMeter_freeCount (f : MeterRecord → MeterRecord) : (s.onMeter f).freeCount = s.freeCount := rfl
@[simp] theorem State.onMeter_resetLow (f : MeterRecord → MeterRecord) : (s.onMeter f).resetLow = s.resetLow := rfl
@[simp] theorem State.onMeter_straps (f : MeterRecord → MeterRecord) : (s.onMeter f).straps = s.straps := rfl
@[simp] theorem State.onMeter_link (f : MeterRecord → MeterRecord) : (s.onMeter f).link = s.link := rfl
@[simp] theorem State.onMeter_cond (f : MeterRecord → MeterRecord) : (s.onMeter f).cond = s.cond := rfl
@[simp] theorem State.onMeter_timer (f : MeterRecord → MeterRecord) : (s.onMeter f).timer = s.timer := rfl
@[simp] theorem State.onMeter_run (f : MeterRecord → MeterRecord) : (s.onMeter f).run = s.run := rfl
@[simp] theorem State.onMeter_store (f : MeterRecord → MeterRecord) : (s.onMeter f).store = s.store := rfl
@[simp] theorem State.onMeter_gov (f : MeterRecord → MeterRecord) : (s.onMeter f).gov = s.gov := rfl
@[simp] theorem State.onMeter_table (f : MeterRecord → MeterRecord) : (s.onMeter f).table = s.table := rfl
@[simp] theorem State.onMeter_sky (f : MeterRecord → MeterRecord) : (s.onMeter f).sky = s.sky := rfl
@[simp] theorem State.onMeter_front (f : MeterRecord → MeterRecord) : (s.onMeter f).front = s.front := rfl
@[simp] theorem State.onMeter_nodes (f : MeterRecord → MeterRecord) : (s.onMeter f).nodes = { s.nodes with meter := f s.nodes.meter } := rfl
@[simp] theorem State.onMeter_ring (f : MeterRecord → MeterRecord) : (s.onMeter f).ring = s.ring := rfl
@[simp] theorem State.onMeter_alerts (f : MeterRecord → MeterRecord) : (s.onMeter f).alerts = s.alerts := rfl

/-! ### `State.atTime` -/

@[simp] theorem State.atTime_pending (t : Time) : (s.atTime t).pending = s.pending := rfl
@[simp] theorem State.atTime_now (t : Time) : (s.atTime t).now = max s.now t := rfl
@[simp] theorem State.atTime_freeCount (t : Time) : (s.atTime t).freeCount = s.freeCount := rfl
@[simp] theorem State.atTime_resetLow (t : Time) : (s.atTime t).resetLow = s.resetLow := rfl
@[simp] theorem State.atTime_straps (t : Time) : (s.atTime t).straps = s.straps := rfl
@[simp] theorem State.atTime_link (t : Time) : (s.atTime t).link = s.link := rfl
@[simp] theorem State.atTime_cond (t : Time) : (s.atTime t).cond = s.cond := rfl
@[simp] theorem State.atTime_timer (t : Time) : (s.atTime t).timer = s.timer := rfl
@[simp] theorem State.atTime_run (t : Time) : (s.atTime t).run = s.run := rfl
@[simp] theorem State.atTime_store (t : Time) : (s.atTime t).store = s.store := rfl
@[simp] theorem State.atTime_gov (t : Time) : (s.atTime t).gov = s.gov := rfl
@[simp] theorem State.atTime_table (t : Time) : (s.atTime t).table = s.table := rfl
@[simp] theorem State.atTime_sky (t : Time) : (s.atTime t).sky = s.sky := rfl
@[simp] theorem State.atTime_front (t : Time) : (s.atTime t).front = s.front := rfl
@[simp] theorem State.atTime_nodes (t : Time) : (s.atTime t).nodes = s.nodes := rfl
@[simp] theorem State.atTime_ring (t : Time) : (s.atTime t).ring = s.ring := rfl
@[simp] theorem State.atTime_alerts (t : Time) : (s.atTime t).alerts = s.alerts := rfl

end Sys2Proof.Machine
end

