-- ==== Sys2Proof/Laws/Ops.lean ====
section
/-! SUPPORT. What the shared operations of Machine/Ops.lean can do, said once: raising conditions and readying frames touch the Host
Link Port and the Condition Unit alone, and a change to one block record moves that record and the two collections alone. -/

namespace Sys2Proof.Machine

variable (s : State)

/-! ## Conditions and frames -/

theorem evaluateGate_frame : evaluateGate s = { s with link := (evaluateGate s).link, cond := (evaluateGate s).cond } := by
  unfold evaluateGate; split <;> rfl

@[simp] theorem evaluateGate_pending : (evaluateGate s).pending = s.pending := by rw [evaluateGate_frame]
@[simp] theorem evaluateGate_now : (evaluateGate s).now = s.now := by rw [evaluateGate_frame]
@[simp] theorem evaluateGate_freeCount : (evaluateGate s).freeCount = s.freeCount := by rw [evaluateGate_frame]
@[simp] theorem evaluateGate_resetLow : (evaluateGate s).resetLow = s.resetLow := by rw [evaluateGate_frame]
@[simp] theorem evaluateGate_straps : (evaluateGate s).straps = s.straps := by rw [evaluateGate_frame]
@[simp] theorem evaluateGate_timer : (evaluateGate s).timer = s.timer := by rw [evaluateGate_frame]
@[simp] theorem evaluateGate_run : (evaluateGate s).run = s.run := by rw [evaluateGate_frame]
@[simp] theorem evaluateGate_store : (evaluateGate s).store = s.store := by rw [evaluateGate_frame]
@[simp] theorem evaluateGate_gov : (evaluateGate s).gov = s.gov := by rw [evaluateGate_frame]
@[simp] theorem evaluateGate_table : (evaluateGate s).table = s.table := by rw [evaluateGate_frame]
@[simp] theorem evaluateGate_sky : (evaluateGate s).sky = s.sky := by rw [evaluateGate_frame]
@[simp] theorem evaluateGate_front : (evaluateGate s).front = s.front := by rw [evaluateGate_frame]
@[simp] theorem evaluateGate_nodes : (evaluateGate s).nodes = s.nodes := by rw [evaluateGate_frame]
@[simp] theorem evaluateGate_ring : (evaluateGate s).ring = s.ring := by rw [evaluateGate_frame]
@[simp] theorem evaluateGate_alerts : (evaluateGate s).alerts = s.alerts := by rw [evaluateGate_frame]

theorem raise_frame (c : Condition) : raise c s = { s with link := (raise c s).link, cond := (raise c s).cond } := by
  unfold raise
  split
  · rfl
  · rw [evaluateGate_frame]; rfl

@[simp] theorem raise_pending (c : Condition) : (raise c s).pending = s.pending := by rw [raise_frame]
@[simp] theorem raise_now (c : Condition) : (raise c s).now = s.now := by rw [raise_frame]
@[simp] theorem raise_freeCount (c : Condition) : (raise c s).freeCount = s.freeCount := by rw [raise_frame]
@[simp] theorem raise_resetLow (c : Condition) : (raise c s).resetLow = s.resetLow := by rw [raise_frame]
@[simp] theorem raise_straps (c : Condition) : (raise c s).straps = s.straps := by rw [raise_frame]
@[simp] theorem raise_timer (c : Condition) : (raise c s).timer = s.timer := by rw [raise_frame]
@[simp] theorem raise_run (c : Condition) : (raise c s).run = s.run := by rw [raise_frame]
@[simp] theorem raise_store (c : Condition) : (raise c s).store = s.store := by rw [raise_frame]
@[simp] theorem raise_gov (c : Condition) : (raise c s).gov = s.gov := by rw [raise_frame]
@[simp] theorem raise_table (c : Condition) : (raise c s).table = s.table := by rw [raise_frame]
@[simp] theorem raise_sky (c : Condition) : (raise c s).sky = s.sky := by rw [raise_frame]
@[simp] theorem raise_front (c : Condition) : (raise c s).front = s.front := by rw [raise_frame]
@[simp] theorem raise_nodes (c : Condition) : (raise c s).nodes = s.nodes := by rw [raise_frame]
@[simp] theorem raise_ring (c : Condition) : (raise c s).ring = s.ring := by rw [raise_frame]
@[simp] theorem raise_alerts (c : Condition) : (raise c s).alerts = s.alerts := by rw [raise_frame]

theorem raiseIf_frame (p : Bool) (c : Condition) :
    raiseIf p c s = { s with link := (raiseIf p c s).link, cond := (raiseIf p c s).cond } := by
  unfold raiseIf
  split
  · exact raise_frame s c
  · rfl

@[simp] theorem raiseIf_pending (p : Bool) (c : Condition) : (raiseIf p c s).pending = s.pending := by rw [raiseIf_frame]
@[simp] theorem raiseIf_now (p : Bool) (c : Condition) : (raiseIf p c s).now = s.now := by rw [raiseIf_frame]
@[simp] theorem raiseIf_freeCount (p : Bool) (c : Condition) : (raiseIf p c s).freeCount = s.freeCount := by rw [raiseIf_frame]
@[simp] theorem raiseIf_resetLow (p : Bool) (c : Condition) : (raiseIf p c s).resetLow = s.resetLow := by rw [raiseIf_frame]
@[simp] theorem raiseIf_straps (p : Bool) (c : Condition) : (raiseIf p c s).straps = s.straps := by rw [raiseIf_frame]
@[simp] theorem raiseIf_timer (p : Bool) (c : Condition) : (raiseIf p c s).timer = s.timer := by rw [raiseIf_frame]
@[simp] theorem raiseIf_run (p : Bool) (c : Condition) : (raiseIf p c s).run = s.run := by rw [raiseIf_frame]
@[simp] theorem raiseIf_store (p : Bool) (c : Condition) : (raiseIf p c s).store = s.store := by rw [raiseIf_frame]
@[simp] theorem raiseIf_gov (p : Bool) (c : Condition) : (raiseIf p c s).gov = s.gov := by rw [raiseIf_frame]
@[simp] theorem raiseIf_table (p : Bool) (c : Condition) : (raiseIf p c s).table = s.table := by rw [raiseIf_frame]
@[simp] theorem raiseIf_sky (p : Bool) (c : Condition) : (raiseIf p c s).sky = s.sky := by rw [raiseIf_frame]
@[simp] theorem raiseIf_front (p : Bool) (c : Condition) : (raiseIf p c s).front = s.front := by rw [raiseIf_frame]
@[simp] theorem raiseIf_nodes (p : Bool) (c : Condition) : (raiseIf p c s).nodes = s.nodes := by rw [raiseIf_frame]
@[simp] theorem raiseIf_ring (p : Bool) (c : Condition) : (raiseIf p c s).ring = s.ring := by rw [raiseIf_frame]
@[simp] theorem raiseIf_alerts (p : Bool) (c : Condition) : (raiseIf p c s).alerts = s.alerts := by rw [raiseIf_frame]

theorem dropLevel_frame (c : Condition) : dropLevel c s = { s with cond := (dropLevel c s).cond } := rfl

@[simp] theorem dropLevel_pending (c : Condition) : (dropLevel c s).pending = s.pending := by rw [dropLevel_frame]
@[simp] theorem dropLevel_now (c : Condition) : (dropLevel c s).now = s.now := by rw [dropLevel_frame]
@[simp] theorem dropLevel_freeCount (c : Condition) : (dropLevel c s).freeCount = s.freeCount := by rw [dropLevel_frame]
@[simp] theorem dropLevel_resetLow (c : Condition) : (dropLevel c s).resetLow = s.resetLow := by rw [dropLevel_frame]
@[simp] theorem dropLevel_straps (c : Condition) : (dropLevel c s).straps = s.straps := by rw [dropLevel_frame]
@[simp] theorem dropLevel_link (c : Condition) : (dropLevel c s).link = s.link := by rw [dropLevel_frame]
@[simp] theorem dropLevel_timer (c : Condition) : (dropLevel c s).timer = s.timer := by rw [dropLevel_frame]
@[simp] theorem dropLevel_run (c : Condition) : (dropLevel c s).run = s.run := by rw [dropLevel_frame]
@[simp] theorem dropLevel_store (c : Condition) : (dropLevel c s).store = s.store := by rw [dropLevel_frame]
@[simp] theorem dropLevel_gov (c : Condition) : (dropLevel c s).gov = s.gov := by rw [dropLevel_frame]
@[simp] theorem dropLevel_table (c : Condition) : (dropLevel c s).table = s.table := by rw [dropLevel_frame]
@[simp] theorem dropLevel_sky (c : Condition) : (dropLevel c s).sky = s.sky := by rw [dropLevel_frame]
@[simp] theorem dropLevel_front (c : Condition) : (dropLevel c s).front = s.front := by rw [dropLevel_frame]
@[simp] theorem dropLevel_nodes (c : Condition) : (dropLevel c s).nodes = s.nodes := by rw [dropLevel_frame]
@[simp] theorem dropLevel_ring (c : Condition) : (dropLevel c s).ring = s.ring := by rw [dropLevel_frame]
@[simp] theorem dropLevel_alerts (c : Condition) : (dropLevel c s).alerts = s.alerts := by rw [dropLevel_frame]

theorem linkError_frame : linkError s = { s with link := (linkError s).link, cond := (linkError s).cond } := by
  unfold linkError; rw [raise_frame]; rfl

@[simp] theorem linkError_pending : (linkError s).pending = s.pending := by rw [linkError_frame]
@[simp] theorem linkError_now : (linkError s).now = s.now := by rw [linkError_frame]
@[simp] theorem linkError_freeCount : (linkError s).freeCount = s.freeCount := by rw [linkError_frame]
@[simp] theorem linkError_resetLow : (linkError s).resetLow = s.resetLow := by rw [linkError_frame]
@[simp] theorem linkError_straps : (linkError s).straps = s.straps := by rw [linkError_frame]
@[simp] theorem linkError_timer : (linkError s).timer = s.timer := by rw [linkError_frame]
@[simp] theorem linkError_run : (linkError s).run = s.run := by rw [linkError_frame]
@[simp] theorem linkError_store : (linkError s).store = s.store := by rw [linkError_frame]
@[simp] theorem linkError_gov : (linkError s).gov = s.gov := by rw [linkError_frame]
@[simp] theorem linkError_table : (linkError s).table = s.table := by rw [linkError_frame]
@[simp] theorem linkError_sky : (linkError s).sky = s.sky := by rw [linkError_frame]
@[simp] theorem linkError_front : (linkError s).front = s.front := by rw [linkError_frame]
@[simp] theorem linkError_nodes : (linkError s).nodes = s.nodes := by rw [linkError_frame]
@[simp] theorem linkError_ring : (linkError s).ring = s.ring := by rw [linkError_frame]
@[simp] theorem linkError_alerts : (linkError s).alerts = s.alerts := by rw [linkError_frame]

/-- R183: raising a condition already set changes nothing. -/
theorem raise_set (c : Condition) (h : conditionSet s.cond.conditions c = true) : raise c s = s := by
  simp [raise, h]

/-- R186: evaluating the gate never changes the set or the mask. -/
@[simp] theorem evaluateGate_conditions : (evaluateGate s).cond.conditions = s.cond.conditions := by
  unfold evaluateGate; split <;> rfl

@[simp] theorem evaluateGate_mask : (evaluateGate s).cond.mask = s.cond.mask := by
  unfold evaluateGate; split <;> rfl

/-- R183: after a raise the set is the old one with the condition set. -/
theorem raise_conditions (c : Condition) :
    (raise c s).cond.conditions = if conditionSet s.cond.conditions c then s.cond.conditions
      else setCondition s.cond.conditions c := by
  unfold raise; split <;> simp

@[simp] theorem raise_mask (c : Condition) : (raise c s).cond.mask = s.cond.mask := by
  unfold raise; split <;> simp

/-- A frame made ready reaches no field of the port but the transmitter and the request in hand. -/
@[simp] theorem HostLink.ready_resetScheduled (f : TxFrame) (l : HostLink) :
    (l.ready f).resetScheduled = l.resetScheduled := by
  unfold HostLink.ready; split <;> rfl

/-- What taking a request leaves, beyond its owner's work: the port alone (R181). -/
theorem readyReply_frame (kind tag : Byte) (r : Served) :
    readyReply kind tag r = { r.state with link := (readyReply kind tag r).link } := rfl

/-! ## Block records (R4) -/

theorem modifyBlock_frame (b : BlockIx) (f : BlockRecord → BlockRecord) :
    modifyBlock b f s = { s with table := (modifyBlock b f s).table } := rfl

@[simp] theorem modifyBlock_pending (b : BlockIx) (f : BlockRecord → BlockRecord) : (modifyBlock b f s).pending = s.pending := rfl
@[simp] theorem modifyBlock_now (b : BlockIx) (f : BlockRecord → BlockRecord) : (modifyBlock b f s).now = s.now := rfl
@[simp] theorem modifyBlock_freeCount (b : BlockIx) (f : BlockRecord → BlockRecord) : (modifyBlock b f s).freeCount = s.freeCount := rfl
@[simp] theorem modifyBlock_resetLow (b : BlockIx) (f : BlockRecord → BlockRecord) : (modifyBlock b f s).resetLow = s.resetLow := rfl
@[simp] theorem modifyBlock_straps (b : BlockIx) (f : BlockRecord → BlockRecord) : (modifyBlock b f s).straps = s.straps := rfl
@[simp] theorem modifyBlock_link (b : BlockIx) (f : BlockRecord → BlockRecord) : (modifyBlock b f s).link = s.link := rfl
@[simp] theorem modifyBlock_cond (b : BlockIx) (f : BlockRecord → BlockRecord) : (modifyBlock b f s).cond = s.cond := rfl
@[simp] theorem modifyBlock_timer (b : BlockIx) (f : BlockRecord → BlockRecord) : (modifyBlock b f s).timer = s.timer := rfl
@[simp] theorem modifyBlock_run (b : BlockIx) (f : BlockRecord → BlockRecord) : (modifyBlock b f s).run = s.run := rfl
@[simp] theorem modifyBlock_store (b : BlockIx) (f : BlockRecord → BlockRecord) : (modifyBlock b f s).store = s.store := rfl
@[simp] theorem modifyBlock_gov (b : BlockIx) (f : BlockRecord → BlockRecord) : (modifyBlock b f s).gov = s.gov := rfl
@[simp] theorem modifyBlock_sky (b : BlockIx) (f : BlockRecord → BlockRecord) : (modifyBlock b f s).sky = s.sky := rfl
@[simp] theorem modifyBlock_front (b : BlockIx) (f : BlockRecord → BlockRecord) : (modifyBlock b f s).front = s.front := rfl
@[simp] theorem modifyBlock_nodes (b : BlockIx) (f : BlockRecord → BlockRecord) : (modifyBlock b f s).nodes = s.nodes := rfl
@[simp] theorem modifyBlock_ring (b : BlockIx) (f : BlockRecord → BlockRecord) : (modifyBlock b f s).ring = s.ring := rfl
@[simp] theorem modifyBlock_alerts (b : BlockIx) (f : BlockRecord → BlockRecord) : (modifyBlock b f s).alerts = s.alerts := rfl

@[simp] theorem modifyBlock_block_self (b : BlockIx) (f : BlockRecord → BlockRecord) :
    (modifyBlock b f s).block b = f (s.block b) := by
  simp [modifyBlock, State.block, BlockTable.put]

theorem modifyBlock_block_ne (b x : BlockIx) (f : BlockRecord → BlockRecord) (h : x ≠ b) :
    (modifyBlock b f s).block x = s.block x := by
  have : (b : Nat) ≠ x := fun e => h (Fin.ext e.symm)
  simp [modifyBlock, State.block, BlockTable.put, this]

@[simp] theorem modifyBlock_groupCapture (b : BlockIx) (f : BlockRecord → BlockRecord) :
    (modifyBlock b f s).table.groupCapture = s.table.groupCapture := rfl

theorem modifyBlock_capped (b : BlockIx) (f : BlockRecord → BlockRecord) :
    (modifyBlock b f s).table.capped
      = relist .capped (s.block b).state (f (s.block b)).state b s.table.capped := rfl

theorem modifyBlock_rotation (b : BlockIx) (f : BlockRecord → BlockRecord) :
    (modifyBlock b f s).table.rotation
      = relist .free (s.block b).state (f (s.block b)).state b s.table.rotation := rfl

/-- R4: a change that keeps the state keeps both collections. -/
theorem relist_same (key st : BlockState) (b : BlockIx) (l : List BlockIx) : relist key st st b l = l := by
  unfold relist; split <;> simp_all

theorem mem_relist (key before now : BlockState) (b x : BlockIx) (l : List BlockIx)
    (h : b ∈ l ↔ before = key) : x ∈ relist key before now b l ↔ if x = b then now = key else x ∈ l := by
  unfold relist
  by_cases hb : before = key <;> by_cases hn : now = key <;> by_cases hx : x = b <;> simp_all

theorem nodup_relist (key before now : BlockState) (b : BlockIx) (l : List BlockIx)
    (h : b ∈ l ↔ before = key) (hl : l.Nodup) : (relist key before now b l).Nodup := by
  unfold relist
  by_cases hb : before = key <;> by_cases hn : now = key <;> simp_all [List.nodup_append, List.Nodup.filter]
  intro a ha e
  exact h (e ▸ ha)

/-- R4: the one operation that changes block records keeps the collections in agreement with them. -/
theorem put_collections (b : BlockIx) (r : BlockRecord) (t : BlockTable) (h : CollectionsAgree t) :
    CollectionsAgree (t.put b r) := by
  obtain ⟨h1, h2, h3, h4⟩ := h
  refine ⟨nodup_relist _ _ _ _ _ (h3 b) h1, nodup_relist _ _ _ _ _ (h4 b) h2, fun x => ?_, fun x => ?_⟩
  · rw [show (t.put b r).capped = relist .capped t.blocks[b].state r.state b t.capped from rfl, mem_relist _ _ _ _ _ _ (h3 b)]
    by_cases hx : x = b
    · subst hx; simp [BlockTable.put]
    · have : (b : Nat) ≠ x := fun e => hx (Fin.ext e.symm)
      simp [hx, BlockTable.put, this, h3 x]
  · rw [show (t.put b r).rotation = relist .free t.blocks[b].state r.state b t.rotation from rfl, mem_relist _ _ _ _ _ _ (h4 b)]
    by_cases hx : x = b
    · subst hx; simp [BlockTable.put]
    · have : (b : Nat) ≠ x := fun e => hx (Fin.ext e.symm)
      simp [hx, BlockTable.put, this, h4 x]

end Sys2Proof.Machine
end

