-- ==== Sys2Proof/Laws/Answers.lean ====
section
/-! SUPPORT. What a taken request answers, said once for every owner, and the rows that take an event. -/

namespace Sys2Proof.Machine

/-- R180: the state as the request's owner sees it. -/
def State.inHand (kind tag : Byte) (s : State) : State :=
  s.onLink fun l => { l with inHand := some (kind, tag) }

theorem execRequest_ready {kind tag : Byte} {owner : State → Served} {s : State} (h : Ready s) :
    execRequest kind tag owner s = .next (readyReply kind tag (owner (s.inHand kind tag))) := by
  obtain ⟨h1, h2⟩ := h
  simp [execRequest, h1, h2, takeRequest, State.inHand]

theorem execEvent_awake {f : State → State} {s : State} (h : Awake s) : execEvent f s = .next (f s) := by
  have h : s.resetLow = false := h
  simp [execEvent, h]

/-- An owner that leaves the Host Link Port alone: the request is answered, and the rest is as the owner left it. -/
theorem request_answers {kind tag : Byte} {owner : State → Served} {s v : State} {st : Status} {data : List Byte} (h : Ready s)
    (ho : owner (s.inHand kind tag) = { state := v, status := st, data }) (hl : v.link = (s.inHand kind tag).link) :
    ∃ t, execRequest kind tag owner s = .next t ∧ Answered kind tag st data s t ∧ t = { v with link := t.link } := by
  refine ⟨_, execRequest_ready h, ?_, ?_⟩
  · rw [ho]; simp [Answered, readyReply, hl, State.inHand]
  · rw [ho]; rfl

theorem request_refused {kind tag : Byte} {owner : State → Served} {s : State} {st : Status} (h : Ready s)
    (ho : owner (s.inHand kind tag) = refuse st (s.inHand kind tag)) :
    ∃ t, execRequest kind tag owner s = .next t ∧ Refused kind tag st s t := by
  obtain ⟨t, ht, ha, he⟩ := request_answers h ho rfl
  exact ⟨t, ht, he, ha⟩

theorem request_reads {kind tag : Byte} {owner : State → Served} {s : State} {data : List Byte} (h : Ready s)
    (ho : owner (s.inHand kind tag) = servedWith data (s.inHand kind tag)) :
    ∃ t, execRequest kind tag owner s = .next t ∧ OnlyLink s t ∧ Answered kind tag .ok data s t := by
  obtain ⟨t, ht, ha, he⟩ := request_answers h ho rfl
  exact ⟨t, ht, he, ha⟩

/-- An owner that serves the request and leaves the Host Link Port alone. -/
theorem request_serves {kind tag : Byte} {owner : State → Served} {s : State} (v : State) (h : Ready s)
    (ho : owner (s.inHand kind tag) = served v) (hl : v.link = (s.inHand kind tag).link) :
    ∃ t, execRequest kind tag owner s = .next t ∧ Answered kind tag .ok [] s t ∧ t = { v with link := t.link } :=
  request_answers h ho hl

@[simp] theorem inHand_block (kind tag : Byte) (s : State) (b : BlockIx) : (s.inHand kind tag).block b = s.block b := rfl

@[simp] theorem inHand_station (kind tag : Byte) (s : State) (t : StationIx) :
    (s.inHand kind tag).station t = s.station t := rfl

@[simp] theorem inHand_alerts (kind tag : Byte) (s : State) : (s.inHand kind tag).alerts = s.alerts := rfl

@[simp] theorem inHand_front (kind tag : Byte) (s : State) : (s.inHand kind tag).front = s.front := rfl

@[simp] theorem inHand_run (kind tag : Byte) (s : State) : (s.inHand kind tag).run = s.run := rfl

@[simp] theorem inHand_store (kind tag : Byte) (s : State) : (s.inHand kind tag).store = s.store := rfl

@[simp] theorem inHand_ring (kind tag : Byte) (s : State) : (s.inHand kind tag).ring = s.ring := rfl

@[simp] theorem inHand_sky (kind tag : Byte) (s : State) : (s.inHand kind tag).sky = s.sky := rfl

/-- A request that changes one block record. -/
theorem block_answers {kind tag : Byte} {owner : State → Served} {s : State} {b : BlockIx} {f : BlockRecord → BlockRecord}
    (h : Ready s) (ho : owner (s.inHand kind tag) = served (modifyBlock b f (s.inHand kind tag))) :
    ∃ t, execRequest kind tag owner s = .next t ∧ OnlyBlock b s t ∧ Answered kind tag .ok [] s t
      ∧ t.table.capped = relist .capped (s.block b).state (f (s.block b)).state b s.table.capped
      ∧ t.table.rotation = relist .free (s.block b).state (f (s.block b)).state b s.table.rotation
      ∧ t.block b = f (s.block b) := by
  obtain ⟨t, ht, ha, he⟩ := request_serves _ h ho rfl
  refine ⟨t, ht, ⟨by rw [he]; rfl, fun x hx => ?_, by rw [he]; rfl⟩, ha, by rw [he]; rfl, by rw [he]; rfl, ?_⟩
  · rw [he]
    exact modifyBlock_block_ne _ _ _ _ hx
  · rw [he]
    exact modifyBlock_block_self _ _ _

/-! ## The notice gate -/

theorem evaluateGate_closes {s : State} (h1 : s.cond.gate = .opened) (h2 : s.cond.conditions &&& s.cond.mask ≠ 0) :
    evaluateGate s
      = { s with link := HostLink.readyNotice (noticeBody s) s.link, cond := { s.cond with gate := .closed } } := by
  unfold evaluateGate
  rw [if_pos ⟨h1, h2⟩]
  rfl

theorem evaluateGate_keeps {s : State} (h : s.cond.gate = .closed ∨ s.cond.conditions &&& s.cond.mask = 0) :
    evaluateGate s = s := by
  unfold evaluateGate
  refine if_neg ?_
  rintro ⟨h1, h2⟩
  rcases h with h | h
  · rw [h] at h1
    cases h1
  · exact h2 h

/-- An event whose effect is none, held in reset or not. -/
theorem execEvent_same {f : State → State} {s : State} (h : f s = s) : execEvent f s = .next s := by
  unfold execEvent
  rw [h]
  simp

/-! ## Raises -/

/-- R183: whether or not it was set before, a condition raised is set. -/
theorem raise_sets (c : Condition) (s : State) : (raise c s).cond.conditions = setCondition s.cond.conditions c := by
  rw [raise_conditions]
  split
  · rename_i h
    apply BitVec.eq_of_getLsbD_eq
    intro i hi
    unfold setCondition Condition.flag
    unfold conditionSet at h
    by_cases hb : i = c.bit
    · subst hb
      simp [h]
    · rw [BitVec.getLsbD_or]
      simp [BitVec.getLsbD_one]
      omega
  · rfl

/-- All that a raise may reach: the Host Link Port and the Condition Unit, of whose set it sets the one condition. -/
theorem raise_reach (c : Condition) (s : State) :
    raise c s = { s with link := (raise c s).link, cond := (raise c s).cond }
      ∧ (raise c s).cond.conditions = setCondition s.cond.conditions c ∧ (raise c s).cond.mask = s.cond.mask :=
  ⟨raise_frame s c, raise_sets c s, raise_mask s c⟩

theorem evaluateGate_as {s t : State} (h1 : t.link = s.link) (h2 : t.cond = s.cond) (h3 : t.timer.epoch = s.timer.epoch) :
    (evaluateGate t).link = (evaluateGate s).link ∧ (evaluateGate t).cond = (evaluateGate s).cond := by
  by_cases hg : s.cond.gate = .opened ∧ s.cond.conditions &&& s.cond.mask ≠ 0
  · rw [evaluateGate_closes (s := t) (by rw [h2]; exact hg.1) (by rw [h2]; exact hg.2), evaluateGate_closes hg.1 hg.2]
    unfold noticeBody
    rw [h1, h2, h3]
    exact ⟨rfl, rfl⟩
  · have hk : ∀ u : ConditionUnit, u = s.cond → u.gate = .closed ∨ u.conditions &&& u.mask = 0 := by
      rintro u rfl
      cases hc : s.cond.gate
      · exact .inl rfl
      · exact .inr (Decidable.not_not.1 fun h => hg ⟨hc, h⟩)
    rw [evaluateGate_keeps (hk t.cond h2), evaluateGate_keeps (hk s.cond rfl)]
    exact ⟨h1, h2⟩

/-- A raise reads the Host Link Port, the Condition Unit and the epoch number alone: where two states agree on them it does the same. -/
theorem raise_as (c : Condition) {s t : State} (h1 : t.link = s.link) (h2 : t.cond = s.cond)
    (h3 : t.timer.epoch = s.timer.epoch) : raise c t = { t with link := (raise c s).link, cond := (raise c s).cond } := by
  have key : (raise c t).link = (raise c s).link ∧ (raise c t).cond = (raise c s).cond := by
    unfold raise
    rw [h2]
    by_cases hs : conditionSet s.cond.conditions c = true
    · rw [if_pos hs, if_pos hs]
      exact ⟨h1, h2⟩
    · rw [if_neg hs, if_neg hs]
      refine evaluateGate_as h1 ?_ h3
      unfold State.onCond
      rw [h2]
  rw [raise_frame, key.1, key.2]

end Sys2Proof.Machine
end

