-- ==== Sys2Proof/Laws/Frames.lean ====
section
/-! SUPPORT. What each of the seven epoch rules, and each offer to the outbound queue, can change. -/

namespace Sys2Proof.Machine

/-- A frame that holds of every pass, holds of a pass over a list. -/
theorem foldl_frame {α : Type} {R : State → State → Prop} {f : State → α → State} (hr : ∀ s, R s s)
    (ht : ∀ s t u, R s t → R t u → R s u) (h : ∀ s a, R s (f s a)) (l : List α) (s : State) : R s (l.foldl f s) := by
  induction l generalizing s with
  | nil => exact hr s
  | cons a l ih => exact ht _ _ _ (h s a) (ih _)

/-! ## The outbound queue -/

/-- Only the Host Link Port, the Condition Unit, the Block Table, the storage record and the Ring Controller. -/
def QueueFrame (s t : State) : Prop :=
  t = { s with link := t.link, cond := t.cond, table := t.table, ring := t.ring,
               nodes := { s.nodes with storage := t.nodes.storage } }

theorem QueueFrame.refl (s : State) : QueueFrame s s := rfl

theorem QueueFrame.trans (s t u : State) (h1 : QueueFrame s t) (h2 : QueueFrame t u) : QueueFrame s u := by
  unfold QueueFrame at *
  rw [h2, h1]

theorem countLate_frame (n : Nat) (s : State) :
    countLate n s = { s with link := (countLate n s).link, cond := (countLate n s).cond,
                             ring := { s.ring with late := (countLate n s).ring.late } } := by
  unfold countLate
  split
  · rfl
  · rw [raise_frame]; rfl

theorem countOffer_frame (label : Epoch) (s : State) :
    countOffer label s = { s with link := (countOffer label s).link, cond := (countOffer label s).cond,
                                  ring := { s.ring with late := (countOffer label s).ring.late } } :=
  countLate_frame _ s

theorem capEnters_frame (b : BlockIx) (label : Epoch) (lease : Nat) (s : State) :
    capEnters b label lease s = { s with table := (capEnters b label lease s).table } := rfl

theorem storeEnters_frame (label : Epoch) (power : Int) (s : State) :
    storeEnters label power s = { s with nodes := { s.nodes with storage := (storeEnters label power s).nodes.storage } } := rfl

/-- R156, R157: what an admitted CAP leaves. -/
theorem offerCap_some {b : BlockIx} {label : Epoch} {limit : Option Nat} {lease : Nat} {s t : State}
    (h : offerCap b label limit lease s = some t) :
    QueueFrame s t ∧ t.nodes = s.nodes ∧ s.ring.state = .up
      ∧ t.ring = { s.ring with
                     queue := enqueue (OwnPacket.isCapAt b (enteringLabel s.ring label))
                                (.cap b (enteringLabel s.ring label) limit lease) s.ring.queue
                     late := t.ring.late } := by
  unfold offerCap at h
  split at h
  · rename_i hadm
    injection h with h
    subst h
    have hup : s.ring.state = .up := by
      unfold capAdmissible at hadm
      simp only [Bool.and_eq_true, beq_iff_eq] at hadm
      exact hadm.1
    refine ⟨?_, ?_, hup, ?_⟩
    · unfold QueueFrame
      rw [capEnters_frame, countOffer_frame]
      rfl
    · rw [capEnters_frame, countOffer_frame]
      rfl
    · rw [capEnters_frame, countOffer_frame]
      rfl
  · exact absurd h (by simp)

/-- R156, R157: what an admitted STORE leaves. -/
theorem offerStore_some {label : Epoch} {power : Int} {lease : Nat} {s t : State}
    (h : offerStore label power lease s = some t) :
    QueueFrame s t ∧ t.table = s.table ∧ s.ring.state = .up
      ∧ t.ring = { s.ring with
                     queue := enqueue (OwnPacket.isStoreAt (enteringLabel s.ring label))
                                (.store (enteringLabel s.ring label) power lease) s.ring.queue
                     late := t.ring.late } := by
  unfold offerStore at h
  split at h
  · rename_i hadm
    injection h with h
    subst h
    have hup : s.ring.state = .up := by
      unfold storeAdmissible at hadm
      simp only [Bool.and_eq_true, beq_iff_eq] at hadm
      exact hadm.1
    refine ⟨?_, ?_, hup, ?_⟩
    · unfold QueueFrame
      rw [storeEnters_frame, countOffer_frame]
      rfl
    · rw [storeEnters_frame, countOffer_frame]
      rfl
    · rw [storeEnters_frame, countOffer_frame]
      rfl
  · exact absurd h (by simp)

/-! ## The marker (R158, R159) -/

theorem moveLabel_frame (l : Epoch) (s : State) (p : OwnPacket) :
    QueueFrame s (moveLabel l s p) ∧ (moveLabel l s p).ring = s.ring := by
  cases p <;> exact ⟨rfl, rfl⟩

theorem moveLabels_frame (l : Epoch) (ps : List OwnPacket) (s : State) :
    QueueFrame s (ps.foldl (moveLabel l) s) ∧ (ps.foldl (moveLabel l) s).ring = s.ring :=
  foldl_frame (R := fun s t => QueueFrame s t ∧ t.ring = s.ring) (fun s => ⟨.refl s, rfl⟩)
    (fun s t u h1 h2 => ⟨.trans s t u h1.1 h2.1, h2.2.trans h1.2⟩) (moveLabel_frame l) ps s

theorem placeMarker_frame (e : Epoch) (s : State) : QueueFrame s (placeMarker e s) := by
  unfold placeMarker
  split
  · dsimp only
    unfold QueueFrame
    rw [countLate_frame, (moveLabels_frame _ _ _).1]
    rfl
  · rfl

/-- R158, R159: the queue after the placement of MARK e. -/
theorem placeMarker_ring (e : Epoch) (s : State) (h : s.ring.state = .up) :
    (placeMarker e s).ring = { s.ring with
                                 queue := .mark e :: (relabelLate e [] (s.ring.queue.filter fun p => !p.isMark)).queue
                                 lastMark := some e
                                 late := (placeMarker e s).ring.late } := by
  unfold placeMarker
  rw [if_pos h]
  dsimp only
  rw [countLate_frame]
  dsimp only
  rw [(moveLabels_frame _ _ _).2]
  rfl

theorem placeMarker_idle (e : Epoch) (s : State) (h : s.ring.state ≠ .up) : placeMarker e s = s :=
  if_neg h

theorem relabel_isMark (l : Epoch) (p : OwnPacket) : (p.relabel l).isMark = p.isMark := by
  cases p <;> rfl

theorem relabelLate_noMark (e : Epoch) (done q : List OwnPacket) (hd : ∀ p ∈ done, p.isMark = false)
    (hq : ∀ p ∈ q, p.isMark = false) : ∀ p ∈ (relabelLate e done q).queue, p.isMark = false := by
  induction q generalizing done with
  | nil => exact hd
  | cons p rest ih =>
    have hp := hq p (by simp)
    have hr : ∀ x ∈ rest, x.isMark = false := fun x hx => hq x (by simp [hx])
    unfold relabelLate
    split
    · split
      · exact ih done hd hr
      · refine ih _ (fun x hx => ?_) hr
        rcases List.mem_append.1 hx with hx | hx
        · exact hd x hx
        · rw [List.mem_singleton.1 hx, relabel_isMark, hp]
    · refine ih _ (fun x hx => ?_) hr
      rcases List.mem_append.1 hx with hx | hx
      · exact hd x hx
      · rw [List.mem_singleton.1 hx, hp]

/-- R158: while the ring is UP, MARK e stands at the head of the queue after its placement, and no other MARK is queued. -/
theorem placeMarker_head (e : Epoch) (s : State) (h : s.ring.state = .up) :
    ∃ rest, (placeMarker e s).ring.queue = .mark e :: rest ∧ ∀ p ∈ rest, p.isMark = false := by
  rw [placeMarker_ring e s h]
  refine ⟨_, rfl, relabelLate_noMark e [] _ (by simp) fun p hp => ?_⟩
  simpa using (List.mem_filter.1 hp).2

/-! ## The Block Table (R26) -/

/-- Only the Host Link Port, the Condition Unit and the Block Table. -/
def TableFrame (s t : State) : Prop :=
  t = { s with link := t.link, cond := t.cond, table := t.table }

theorem TableFrame.refl (s : State) : TableFrame s s := rfl

theorem TableFrame.trans (s t u : State) (h1 : TableFrame s t) (h2 : TableFrame t u) : TableFrame s u := by
  unfold TableFrame at *
  rw [h2, h1]

theorem raise_block_frame (c : Condition) (b : BlockIx) (f : BlockRecord → BlockRecord) (s : State) :
    TableFrame s (raise c (modifyBlock b f s)) := by
  unfold TableFrame
  rw [raise_frame]
  rfl

theorem silenceCheck_frame (e : Epoch) (limit : Nat) (s : State) (b : BlockIx) : TableFrame s (silenceCheck e limit s b) := by
  unfold silenceCheck
  dsimp only
  split
  · exact raise_block_frame _ _ _ _
  · split <;> rfl

theorem restCheck_frame (e : Epoch) (s : State) (b : BlockIx) : TableFrame s (restCheck e s b) := by
  unfold restCheck
  split <;> rfl

theorem blockEpochRule_frame (e : Epoch) (s : State) : TableFrame s (blockEpochRule e s) := by
  unfold blockEpochRule
  split
  · rfl
  · exact .trans _ _ _ (foldl_frame (R := TableFrame) .refl .trans (silenceCheck_frame e _) _ s)
      (foldl_frame (R := TableFrame) .refl .trans (restCheck_frame e) _ _)

/-! ## The Front Tracker (R89) and the Node Records (R137, R138) -/

/-- Only the warnings list and the station records. -/
def WarningFrame (s t : State) : Prop :=
  t = { s with sky := { s.sky with stations := t.sky.stations }, front := { s.front with warnings := t.front.warnings } }

theorem WarningFrame.trans (s t u : State) (h1 : WarningFrame s t) (h2 : WarningFrame t u) : WarningFrame s u := by
  unfold WarningFrame at *
  rw [h2, h1]

theorem setHeld_frame (t : StationIx) (held : Bool) (s : State) :
    WarningFrame s (setHeld t held s) ∧ (setHeld t held s).front = s.front :=
  ⟨rfl, rfl⟩

theorem frontEpochRule_frame (e : Epoch) (s : State) :
    WarningFrame s (frontEpochRule e s)
      ∧ (frontEpochRule e s).front.warnings = s.front.warnings.filter fun w => !w.expiredAt e := by
  unfold frontEpochRule
  dsimp only
  have h := foldl_frame (R := fun s t => WarningFrame s t ∧ t.front = s.front) (fun _ => ⟨rfl, rfl⟩)
    (fun s t u h1 h2 => ⟨.trans s t u h1.1 h2.1, h2.2.trans h1.2⟩)
    (fun s (w : Warning) => setHeld_frame w.station false s) (s.front.warnings.filter (Warning.expiredAt e))
    (s.onFront fun f => { f with warnings := f.warnings.filter fun w => !w.expiredAt e })
  refine ⟨.trans _ _ _ ?_ h.1, by rw [h.2]; rfl⟩
  rfl

/-- Only the Host Link Port, the Condition Unit and the Node Records. -/
def NodeFrame (s t : State) : Prop :=
  t = { s with link := t.link, cond := t.cond, nodes := t.nodes }

theorem nodeEpochRule_frame (e : Epoch) (s : State) : NodeFrame s (nodeEpochRule e s) := by
  unfold nodeEpochRule NodeFrame
  split
  · unfold meterEpochRule storageEpochRule
    dsimp only
    split
    · rw [raise_frame]; rfl
    · rfl
  · rfl

/-! ## Run Control (R54) -/

/-- Only the Host Link Port, the Condition Unit, the run state and the latches. -/
def HoldFrame (s t : State) : Prop :=
  t = { s with link := t.link, cond := t.cond, run := t.run } ∧ t.run.trigger = s.run.trigger
    ∧ t.run.state.inRun = s.run.state.inRun

theorem clearLatch_frame (line : HoldLine) (s : State) : HoldFrame s (clearLatch line s) := by
  cases line <;> exact ⟨rfl, rfl, rfl⟩

theorem HoldFrame.trans (s t u : State) (h1 : HoldFrame s t) (h2 : HoldFrame t u) : HoldFrame s u := by
  refine ⟨?_, h2.2.1.trans h1.2.1, h2.2.2.trans h1.2.2⟩
  rw [h2.1, h1.1]

theorem releaseEpochLine_frame (s : State) (line : HoldLine) : HoldFrame s (releaseEpochLine s line) := by
  unfold releaseEpochLine
  split
  · split
    · exact clearLatch_frame _ _
    · exact ⟨rfl, rfl, rfl⟩
  · exact ⟨rfl, rfl, rfl⟩

theorem runControlEpochRule_frame (s : State) : HoldFrame s (runControlEpochRule s) := by
  unfold runControlEpochRule
  refine .trans _ _ _ (.trans _ _ _ (releaseEpochLine_frame s .a) (releaseEpochLine_frame _ .b)) ?_
  generalize releaseEpochLine (releaseEpochLine s .a) .b = u
  unfold endHold
  split
  · rename_i h
    refine ⟨?_, ?_, ?_⟩
    · rw [raise_frame]; rfl
    · rw [raise_run]; rfl
    · rw [raise_run, h.1]; rfl
  · exact ⟨rfl, rfl, rfl⟩

/-! ## The Lease Scheduler (R164, R165) -/

theorem ageFields_frame (e : Epoch) (s : State) : QueueFrame s (ageFields e s) ∧ (ageFields e s).ring = s.ring := by
  unfold ageFields
  have h := foldl_frame (R := fun s t => QueueFrame s t ∧ t.ring = s.ring) (fun s => ⟨.refl s, rfl⟩)
    (fun s t u h1 h2 => ⟨.trans s t u h1.1 h2.1, h2.2.trans h1.2⟩) (f := ageBlock e) (fun _ _ => ⟨rfl, rfl⟩) allBlocks s
  generalize allBlocks.foldl (ageBlock e) s = u at *
  refine ⟨.trans _ _ _ h.1 rfl, ?_⟩
  rw [← h.2]
  rfl

/-- What an offer to the queue keeps: the ring as it was where it is not UP, and a marker at the head where it stands there. -/
def OfferFrame (s t : State) : Prop :=
  QueueFrame s t ∧ t.ring.state = s.ring.state ∧ (s.ring.state ≠ .up → t.ring = s.ring)
    ∧ ∀ e rest, s.ring.queue = .mark e :: rest → (∀ p ∈ rest, p.isMark = false) →
        ∃ rest', t.ring.queue = .mark e :: rest' ∧ ∀ p ∈ rest', p.isMark = false

theorem OfferFrame.refl (s : State) : OfferFrame s s :=
  ⟨rfl, rfl, fun _ => rfl, fun _ rest h1 h2 => ⟨rest, h1, h2⟩⟩

theorem OfferFrame.trans (s t u : State) (h1 : OfferFrame s t) (h2 : OfferFrame t u) : OfferFrame s u := by
  refine ⟨.trans _ _ _ h1.1 h2.1, h2.2.1.trans h1.2.1, fun h => ?_, fun e rest hq hn => ?_⟩
  · rw [h2.2.2.1 (by rw [h1.2.1]; exact h), h1.2.2.1 h]
  · obtain ⟨r1, hq1, hn1⟩ := h1.2.2.2 e rest hq hn
    exact h2.2.2.2 e r1 hq1 hn1

/-- An entering packet that is no MARK leaves a MARK at the head, and brings no other. -/
theorem enqueue_head (same : OwnPacket → Bool) (p : OwnPacket) (e : Epoch) (rest : List OwnPacket) (hs : same (.mark e) = false)
    (hp : p.isMark = false) (hn : ∀ x ∈ rest, x.isMark = false) :
    ∃ rest', enqueue same p (.mark e :: rest) = .mark e :: rest' ∧ ∀ x ∈ rest', x.isMark = false := by
  unfold enqueue
  split
  · refine ⟨rest.map fun x => if same x then p else x, by simp [hs], fun x hx => ?_⟩
    obtain ⟨y, hy, he⟩ := List.mem_map.1 hx
    split at he
    · rw [← he]; exact hp
    · rw [← he]; exact hn y hy
  · refine ⟨rest ++ [p], rfl, fun x hx => ?_⟩
    rcases List.mem_append.1 hx with hx | hx
    · exact hn x hx
    · rw [List.mem_singleton.1 hx]; exact hp

theorem offerCap_offerFrame {b : BlockIx} {label : Epoch} {limit : Option Nat} {lease : Nat} {s t : State}
    (h : offerCap b label limit lease s = some t) : OfferFrame s t := by
  obtain ⟨h1, _, h3, h4⟩ := offerCap_some h
  refine ⟨h1, by rw [h4], fun hn => absurd h3 hn, fun e rest hq hn => ?_⟩
  rw [h4, hq]
  exact enqueue_head _ _ e rest rfl rfl hn

theorem offerStore_offerFrame {label : Epoch} {power : Int} {lease : Nat} {s t : State}
    (h : offerStore label power lease s = some t) : OfferFrame s t := by
  obtain ⟨h1, _, h3, h4⟩ := offerStore_some h
  refine ⟨h1, by rw [h4], fun hn => absurd h3 hn, fun e rest hq hn => ?_⟩
  rw [h4, hq]
  exact enqueue_head _ _ e rest rfl rfl hn

theorem offerStorageDue_frame {e : Epoch} {s t : State} (h : offerStorageDue e s = some t) : OfferFrame s t := by
  unfold offerStorageDue at h
  dsimp only at h
  split at h
  · injection h with h
    subst h
    exact .refl s
  · exact offerStore_offerFrame h

theorem offerBlockDue_frame {e : Epoch} {b : BlockIx} {s t : State} (h : offerBlockDue e b s = some t) : OfferFrame s t := by
  unfold offerBlockDue at h
  split at h
  · injection h with h
    subst h
    exact .refl s
  · split at h
    · injection h with h
      subst h
      exact .refl s
    · exact offerCap_offerFrame h
    · exact offerCap_offerFrame h

theorem offerBlocks_frame (e : Epoch) (bs : List BlockIx) (s : State) : OfferFrame s (offerBlocks e bs s) := by
  induction bs generalizing s with
  | nil => exact .refl s
  | cons b rest ih =>
    unfold offerBlocks
    split
    · rename_i t ht
      exact .trans _ _ _ (offerBlockDue_frame ht) (ih t)
    · exact .refl s

theorem leaseEpochRule_frame (e : Epoch) (s : State) : OfferFrame s (leaseEpochRule e s) := by
  have h := ageFields_frame e s
  have h1 : OfferFrame s (ageFields e s) :=
    ⟨h.1, by rw [h.2], fun _ => h.2, fun m rest hq hn => ⟨rest, by rw [h.2, hq], hn⟩⟩
  unfold leaseEpochRule
  dsimp only
  split
  · rename_i t ht
    exact .trans _ _ _ h1 (.trans _ _ _ (offerStorageDue_frame ht) (offerBlocks_frame e allBlocks t))
  · exact h1

/-! ## The Governor (R105) -/

/-- Only what opening a dispatch reaches. -/
def OpeningFrame (s t : State) : Prop :=
  t = { s with freeCount := t.freeCount, link := t.link, cond := t.cond, run := t.run, store := t.store, gov := t.gov,
               table := t.table } ∧ t.run.trigger = s.run.trigger ∧ t.run.state.inRun = s.run.state.inRun

theorem OpeningFrame.refl (s : State) : OpeningFrame s s := ⟨rfl, rfl, rfl⟩

theorem OpeningFrame.trans (s t u : State) (h1 : OpeningFrame s t) (h2 : OpeningFrame t u) : OpeningFrame s u := by
  refine ⟨?_, h2.2.1.trans h1.2.1, h2.2.2.trans h1.2.2⟩
  rw [h2.1, h1.1]

theorem cutDispatch_frame (s : State) :
    cutDispatch s = { s with gov := { s.gov with phase := (cutDispatch s).gov.phase, status := (cutDispatch s).gov.status } } := by
  unfold cutDispatch
  split <;> rfl

theorem beginHold_frame (s : State) : HoldFrame s (beginHold s) := by
  unfold beginHold
  split
  · rename_i h
    refine ⟨?_, ?_, ?_⟩
    · rw [raise_frame]; rfl
    · rw [raise_run]; rfl
    · rw [raise_run, h]; rfl
  · exact ⟨rfl, rfl, rfl⟩

/-- What a latch that is set or cleared reaches: of the Governor, the phase and the plant status alone. -/
def LatchFrame (s t : State) : Prop :=
  t = { s with link := t.link, cond := t.cond, run := t.run,
               gov := { s.gov with phase := t.gov.phase, status := t.gov.status } }
    ∧ t.run.trigger = s.run.trigger ∧ t.run.state.inRun = s.run.state.inRun

theorem LatchFrame.trans (s t u : State) (h1 : LatchFrame s t) (h2 : LatchFrame t u) : LatchFrame s u := by
  refine ⟨?_, h2.2.1.trans h1.2.1, h2.2.2.trans h1.2.2⟩
  rw [h2.1, h1.1]

theorem LatchFrame.ofHold {s t : State} (h : HoldFrame s t) : LatchFrame s t := by
  refine ⟨?_, h.2⟩
  rw [h.1]

theorem cutIfFreezeBegan_frame (before : Hold) (s : State) : LatchFrame s (cutIfFreezeBegan before s) := by
  unfold cutIfFreezeBegan
  split
  · refine ⟨?_, ?_, ?_⟩ <;> rw [cutDispatch_frame]
  · exact ⟨rfl, rfl, rfl⟩

theorem setLatch_frame (line : HoldLine) (s : State) : LatchFrame s (setLatch line s) := by
  unfold setLatch
  split
  · exact ⟨rfl, rfl, rfl⟩
  · refine .trans _ _ _ (.ofHold ?_) (cutIfFreezeBegan_frame _ _)
    refine .trans _ _ _ ?_ (beginHold_frame _)
    cases line <;> exact ⟨rfl, rfl, rfl⟩

theorem adoptLine_frame (before : Option PlantRecord) (s : State) (line : HoldLine) : LatchFrame s (adoptLine before s line) := by
  unfold adoptLine
  split
  · exact .ofHold (clearLatch_frame line s)
  · split
    · exact setLatch_frame line s
    · exact ⟨rfl, rfl, rfl⟩
  · exact ⟨rfl, rfl, rfl⟩
  · exact ⟨rfl, rfl, rfl⟩

theorem raiseFloors_frame (s : State) : raiseFloors s = { s with table := (raiseFloors s).table } :=
  foldl_frame (R := fun s t => t = { s with table := t.table }) (fun _ => rfl) (fun s t u h1 h2 => by rw [h2, h1])
    (fun _ _ => rfl) allBlocks s

/-- R39: what an adoption leaves. -/
theorem adopt_frame (s : State) :
    OpeningFrame s (adopt s) ∧ (adopt s).freeCount = s.freeCount
      ∧ (adopt s).store = { plant := none, groups := Vector.replicate 8 none, configured := s.store.configured }
      ∧ (adopt s).gov.plant = s.store.plant.or s.gov.plant
      ∧ ∀ g : GroupIx, (adopt s).gov.groups[g] = (s.store.groups[g]).getD s.gov.groups[g] := by
  unfold adopt
  split
  · dsimp only
    generalize hu : raiseFloors ((s.onGov (commitStaged s.store)).onStore emptyStaged) = u
    have h0 : u = { (s.onGov (commitStaged s.store)).onStore emptyStaged with table := u.table } := by
      rw [← hu]; exact raiseFloors_frame _
    have h := LatchFrame.trans _ _ _ (adoptLine_frame s.gov.plant u .a)
      (adoptLine_frame s.gov.plant (adoptLine s.gov.plant u .a) .b)
    generalize adoptLine s.gov.plant (adoptLine s.gov.plant u .a) .b = v at h
    obtain ⟨h1, h2, h3⟩ := h
    have hg : v.gov = { u.gov with phase := v.gov.phase, status := v.gov.status } := by rw [h1]
    refine ⟨⟨?_, ?_, ?_⟩, ?_, ?_, ?_, fun g => ?_⟩
    · rw [h1, h0]; rfl
    · rw [h2, h0]; rfl
    · rw [h3, h0]; rfl
    · rw [h1, h0]; rfl
    · rw [h1, h0]; rfl
    · rw [hg, h0]; rfl
    · rw [hg, h0]
      simp [commitStaged]
  · rename_i h
    simp only [SettingsStore.anyStaged, Bool.or_eq_true, List.any_eq_true, not_or, not_exists, not_and] at h
    have hp : s.store.plant = none := by simpa using h.1
    have hg : ∀ i (hi : i < 8), s.store.groups[i] = none := by
      intro i hi
      have := h.2 s.store.groups[i] (by simp)
      simpa using this
    have hv : s.store.groups = Vector.replicate 8 none := by
      ext1 i hi
      rw [hg i hi]
      simp
    refine ⟨.refl s, rfl, ?_, by simp [hp], fun g => ?_⟩
    · rw [← hp, ← hv]
    · simp [hg g.val g.isLt]

theorem overrunDispatch_frame (s : State) :
    overrunDispatch s = { s with link := (overrunDispatch s).link, cond := (overrunDispatch s).cond,
                                 gov := { s.gov with phase := .idle, overruns := (overrunDispatch s).gov.overruns } } := by
  unfold overrunDispatch
  cases h : s.gov.phase with
  | idle => simp only []; rw [← h]
  | computing o => simp only []; rw [raise_frame]; rfl
  | staging o a b c d => simp only []; rw [raise_frame]; rfl

theorem moveSource_frame (src : SampleSource) (s : State) :
    moveSource src s = { s with link := (moveSource src s).link, cond := (moveSource src s).cond,
                                gov := { s.gov with source := src } } := by
  unfold moveSource
  rw [raiseIf_frame]
  rfl

theorem checkBreach_frame (sample : Nat) (s : State) :
    checkBreach sample s = { s with link := (checkBreach sample s).link, cond := (checkBreach sample s).cond,
                                    gov := { s.gov with upBreaches := (checkBreach sample s).gov.upBreaches,
                                                        downBreaches := (checkBreach sample s).gov.downBreaches } } := by
  unfold checkBreach
  split
  · rfl
  · split
    · rw [raise_frame]; rfl
    · split
      · rw [raise_frame]; rfl
      · rfl

theorem countFree_frame (fromMeter : Bool) (s : State) :
    countFree fromMeter s = { s with freeCount := (countFree fromMeter s).freeCount } := by
  unfold countFree
  split <;> rfl

/-- R95 to R103: the sample and band stage leaves the settings and the phase. -/
theorem sampleAndBand_frame (e : Epoch) (p : PlantRecord) (s : State) :
    (sampleAndBand e p s).1 = { s with
      freeCount := (sampleAndBand e p s).1.freeCount, link := (sampleAndBand e p s).1.link,
      cond := (sampleAndBand e p s).1.cond,
      gov := { s.gov with window := (sampleAndBand e p s).1.gov.window, lastBand := (sampleAndBand e p s).1.gov.lastBand,
                          source := (sampleAndBand e p s).1.gov.source,
                          upBreaches := (sampleAndBand e p s).1.gov.upBreaches,
                          downBreaches := (sampleAndBand e p s).1.gov.downBreaches } } := by
  unfold sampleAndBand
  dsimp only
  rw [checkBreach_frame, moveSource_frame, countFree_frame]
  rfl

/-- R105: what opening a dispatch leaves. -/
theorem openDispatch_frame (e : Epoch) (s : State) :
    OpeningFrame s (openDispatch e s)
      ∧ (openDispatch e s).store = { plant := none, groups := Vector.replicate 8 none, configured := s.store.configured }
      ∧ (openDispatch e s).gov.plant = s.store.plant.or s.gov.plant
      ∧ (∀ g : GroupIx, (openDispatch e s).gov.groups[g] = (s.store.groups[g]).getD s.gov.groups[g])
      ∧ ((s.store.plant.or s.gov.plant).isSome = true → ∃ o, (openDispatch e s).gov.phase = .computing o ∧ o.epoch = e) := by
  have ho := overrunDispatch_frame s
  have ha := adopt_frame (overrunDispatch s)
  have h0 : OpeningFrame s (overrunDispatch s) := by
    refine ⟨?_, ?_, ?_⟩ <;> rw [ho]
  have hstore : (overrunDispatch s).store = s.store := by rw [ho]
  have hplant : (overrunDispatch s).gov.plant = s.gov.plant := by rw [ho]
  have hgroups : (overrunDispatch s).gov.groups = s.gov.groups := by rw [ho]
  rw [hstore, hplant, hgroups] at ha
  obtain ⟨a1, a2, a3, a4, a5⟩ := ha
  have h1 := OpeningFrame.trans _ _ _ h0 a1
  unfold openDispatch
  dsimp only
  generalize adopt (overrunDispatch s) = u at *
  cases hp : u.gov.plant with
  | none =>
    dsimp only
    refine ⟨h1, a3, a4, a5, fun h => ?_⟩
    rw [← a4, hp] at h
    exact absurd h (by simp)
  | some p =>
    dsimp only
    have hs := sampleAndBand_frame e p u
    have h2 : OpeningFrame u ((sampleAndBand e p u).1.onGov fun g =>
        { g with phase := .computing { epoch := e, sample := (sampleAndBand e p u).2,
                                       snapshot := takeSnapshot e p (sampleAndBand e p u).1 } }) := by
      refine ⟨?_, ?_, ?_⟩
      · rw [hs]; rfl
      · rw [hs]; rfl
      · rw [hs]; rfl
    refine ⟨.trans _ _ _ h1 h2, ?_, ?_, fun g => ?_, fun _ => ⟨_, rfl, rfl⟩⟩
    · rw [← a3, hs]; rfl
    · rw [← a4, hs]; rfl
    · rw [← a5 g, hs]; rfl

/-! ## The epoch event (R45) -/

/-- The whole frame of an epoch. -/
def EpochFrame (s t : State) : Prop :=
  t = { s with
          freeCount := t.freeCount, link := t.link, cond := t.cond, run := t.run, store := t.store,
          gov := t.gov, table := t.table, sky := { s.sky with stations := t.sky.stations },
          front := { s.front with warnings := t.front.warnings }, nodes := t.nodes, ring := t.ring }
    ∧ t.run.trigger = s.run.trigger ∧ t.run.state.inRun = s.run.state.inRun ∧ t.ring.state = s.ring.state
    ∧ (s.ring.state ≠ .up → t.ring = s.ring)

theorem EpochFrame.refl (s : State) : EpochFrame s s := ⟨rfl, rfl, rfl, rfl, fun _ => rfl⟩

theorem EpochFrame.trans (s t u : State) (h1 : EpochFrame s t) (h2 : EpochFrame t u) : EpochFrame s u := by
  refine ⟨?_, h2.2.1.trans h1.2.1, h2.2.2.1.trans h1.2.2.1, h2.2.2.2.1.trans h1.2.2.2.1, fun h => ?_⟩
  · rw [h2.1, h1.1]
  · rw [h2.2.2.2.2 (by rw [h1.2.2.2.1]; exact h), h1.2.2.2.2 h]

/-- What one of the seven rules leaves of what the Governor, the Front Tracker and the marker rule write. -/
structure RuleFrame (rule : EpochRule) (s t : State) : Prop where
  frame : EpochFrame s t
  /-- settings and the dispatch, written by the Governor alone -/
  gov : rule ≠ .governor → t.gov = s.gov ∧ t.store = s.store
  /-- the warnings list, written by the Front Tracker alone -/
  warnings : rule ≠ .frontTracker → t.front.warnings = s.front.warnings
  /-- a marker at the head stays there -/
  head : rule ≠ .ringMarker → ∀ e rest, s.ring.queue = .mark e :: rest → (∀ p ∈ rest, p.isMark = false) →
    ∃ rest', t.ring.queue = .mark e :: rest' ∧ ∀ p ∈ rest', p.isMark = false

theorem RuleFrame.ofQuiet {rule : EpochRule} {s t : State} (h : EpochFrame s t) (hg : t.gov = s.gov ∧ t.store = s.store)
    (hw : t.front.warnings = s.front.warnings) (hr : t.ring = s.ring) : RuleFrame rule s t :=
  ⟨h, fun _ => hg, fun _ => hw, fun _ _ rest hq hn => ⟨rest, by rw [hr, hq], hn⟩⟩

theorem applyEpochRule_frame (e : Epoch) (s : State) (rule : EpochRule) : RuleFrame rule s (applyEpochRule e s rule) := by
  have hq : ∀ t, QueueFrame s t → t.ring.state = s.ring.state → (s.ring.state ≠ .up → t.ring = s.ring) → EpochFrame s t := by
    intro t h h1 h2
    refine ⟨?_, ?_, ?_, h1, h2⟩ <;> rw [h]
  cases rule with
  | governor =>
    unfold applyEpochRule
    dsimp only
    split
    · obtain ⟨⟨h1, h2, h3⟩, _⟩ := openDispatch_frame e s
      generalize openDispatch e s = t at *
      refine ⟨⟨?_, h2, h3, ?_, fun _ => ?_⟩, fun h => absurd rfl h, fun _ => ?_, fun _ m rest hm hn => ⟨rest, ?_, hn⟩⟩
      · rw [h1]
      · rw [h1]
      · rw [h1]
      · rw [h1]
      · rw [h1]; exact hm
    · exact .ofQuiet (.refl s) ⟨rfl, rfl⟩ rfl rfl
  | blockTable =>
    unfold applyEpochRule
    dsimp only
    split
    · have h := blockEpochRule_frame e s
      unfold TableFrame at h
      generalize blockEpochRule e s = t at *
      refine .ofQuiet ⟨?_, ?_, ?_, ?_, fun _ => ?_⟩ ⟨?_, ?_⟩ ?_ ?_ <;> rw [h]
    · exact .ofQuiet (.refl s) ⟨rfl, rfl⟩ rfl rfl
  | frontTracker =>
    obtain ⟨h, _⟩ := frontEpochRule_frame e s
    unfold WarningFrame at h
    show RuleFrame _ s (frontEpochRule e s)
    generalize frontEpochRule e s = t at *
    refine ⟨⟨?_, ?_, ?_, ?_, fun _ => ?_⟩, fun _ => ⟨?_, ?_⟩, fun h => absurd rfl h, fun _ m rest hm hn => ⟨rest, ?_, hn⟩⟩
    · rw [h]
    · rw [h]
    · rw [h]
    · rw [h]
    · rw [h]
    · rw [h]
    · rw [h]
    · rw [h]; exact hm
  | nodeRecords =>
    unfold applyEpochRule
    dsimp only
    split
    · have h := nodeEpochRule_frame e s
      unfold NodeFrame at h
      generalize nodeEpochRule e s = t at *
      refine .ofQuiet ⟨?_, ?_, ?_, ?_, fun _ => ?_⟩ ⟨?_, ?_⟩ ?_ ?_ <;> rw [h]
    · exact .ofQuiet (.refl s) ⟨rfl, rfl⟩ rfl rfl
  | ringMarker =>
    have h := placeMarker_frame e s
    show RuleFrame _ s (placeMarker e s)
    have hr : (placeMarker e s).ring.state = s.ring.state := by
      by_cases hup : s.ring.state = .up
      · rw [placeMarker_ring e s hup]
      · rw [placeMarker_idle e s hup]
    have hi := placeMarker_idle e s
    refine ⟨hq _ h hr fun hn => by rw [hi hn], fun _ => ?_, fun _ => ?_, fun h => absurd rfl h⟩
    · unfold QueueFrame at h
      constructor <;> rw [h]
    · unfold QueueFrame at h
      rw [h]
  | leaseScheduler =>
    unfold applyEpochRule
    dsimp only
    split
    · obtain ⟨h1, h2, h3, h4⟩ := leaseEpochRule_frame e s
      refine ⟨hq _ h1 h2 h3, fun _ => ?_, fun _ => ?_, fun _ => h4⟩
      · unfold QueueFrame at h1
        constructor <;> rw [h1]
      · unfold QueueFrame at h1
        rw [h1]
    · exact .ofQuiet (.refl s) ⟨rfl, rfl⟩ rfl rfl
  | runControl =>
    obtain ⟨h1, h2, h3⟩ := runControlEpochRule_frame s
    show RuleFrame _ s (runControlEpochRule s)
    generalize runControlEpochRule s = t at *
    refine .ofQuiet ⟨?_, h2, h3, ?_, fun _ => ?_⟩ ⟨?_, ?_⟩ ?_ ?_ <;> rw [h1]

/-- What one rule brings about where `I` holds, and every rule keeps there, holds after a pass in which that rule has its turn. -/
theorem foldl_brings {α : Type} {I Q : State → Prop} {f : State → α → State} (a : α) (hi : ∀ s x, I s → I (f s x))
    (hk : ∀ s x, I s → Q s → Q (f s x)) (ha : ∀ s, I s → Q (f s a)) (l : List α) (hm : a ∈ l) (s : State) (hs : I s) :
    Q (l.foldl f s) := by
  have keep : ∀ (l : List α) s, I s → Q s → Q (l.foldl f s) := by
    intro l
    induction l with
    | nil => exact fun _ _ h => h
    | cons x l ih => exact fun s h1 h2 => ih _ (hi s x h1) (hk s x h1 h2)
  induction l generalizing s with
  | nil => exact absurd hm (by simp)
  | cons x l ih =>
    by_cases hx : x = a
    · subst hx
      exact keep l _ (hi s x hs) (ha s hs)
    · exact ih (List.mem_of_ne_of_mem (fun h => hx h.symm) hm) (f s x) (hi s x hs)

theorem mem_completeOrder (order : EpochOrder) (rule : EpochRule) : rule ∈ completeOrder order := by
  have : rule ∈ allEpochRules := by cases rule <;> decide
  unfold completeOrder
  simp [this]

/-- R39, R105: everything staged in `u` has been adopted. -/
def Adopted (u x : State) : Prop :=
  x.store = { plant := none, groups := Vector.replicate 8 none, configured := u.store.configured }
    ∧ x.gov.plant = u.store.plant.or u.gov.plant
    ∧ ∀ g : GroupIx, x.gov.groups[g] = (u.store.groups[g]).getD u.gov.groups[g]

/-- R105: dispatch e is open if the part has a plant record. -/
def DispatchOpen (e : Epoch) (u x : State) : Prop :=
  Adopted u x ∧ ((u.store.plant.or u.gov.plant).isSome = true → ∃ o, x.gov.phase = .computing o ∧ o.epoch = e)

theorem openDispatch_opens (e : Epoch) (u x : State) (h : x.gov = u.gov ∧ x.store = u.store ∨ Adopted u x) :
    DispatchOpen e u (openDispatch e x) := by
  obtain ⟨_, o2, o3, o4, o5⟩ := openDispatch_frame e x
  rcases h with ⟨h1, h2⟩ | ⟨h1, h2, h3⟩
  · rw [h1, h2] at o3 o5
    refine ⟨⟨by rw [o2, h2], o3, fun g => ?_⟩, o5⟩
    rw [o4 g, h1, h2]
  · rw [h1, h2] at o3 o5
    refine ⟨⟨by rw [o2, h1], by simpa using o3, fun g => ?_⟩, by simpa using o5⟩
    rw [o4 g, h1, h3 g]
    simp

theorem dispatchOpen_of_same {e : Epoch} {u x y : State} (hg : y.gov = x.gov ∧ y.store = x.store) (h : DispatchOpen e u x) :
    DispatchOpen e u y := by
  unfold DispatchOpen Adopted at *
  rw [hg.1, hg.2]
  exact h

/-- R45: what an epoch leaves, whatever the order of the seven rules. -/
theorem takeEpoch_leaves (order : EpochOrder) (s : State) (hr : s.run.state.inRun = true) :
    EpochLeaves (s.timer.epoch + 1) s (takeEpoch order s) := by
  unfold takeEpoch
  dsimp only
  generalize hu : s.onTimer (EpochTimer.next s.now) = u
  have he : u.timer.epoch = s.timer.epoch + 1 := by rw [← hu]; rfl
  have hmem := mem_completeOrder order
  rw [he]
  generalize s.timer.epoch + 1 = e at *
  generalize completeOrder order = l at *
  have hrule := applyEpochRule_frame e
  have hur : u.run.state.inRun = true := by rw [← hu]; exact hr
  have hframe : EpochFrame u (l.foldl (applyEpochRule e) u) :=
    foldl_frame .refl .trans (fun x rule => (hrule x rule).frame) l u
  have hopen : DispatchOpen e u (l.foldl (applyEpochRule e) u) := by
    have hgov : ∀ x, x.run.state.inRun = true → applyEpochRule e x .governor = openDispatch e x := fun x h => if_pos h
    refine foldl_brings
      (I := fun x => x.run.state.inRun = true ∧ (x.gov = u.gov ∧ x.store = u.store ∨ Adopted u x)) .governor
      (fun x rule hx => ?_) (fun x rule hx hq => ?_) (fun x hx => ?_) l (hmem _) u ⟨hur, .inl ⟨rfl, rfl⟩⟩
    · refine ⟨by rw [(hrule x rule).frame.2.2.1]; exact hx.1, ?_⟩
      by_cases h : rule = .governor
      · subst h
        rw [hgov x hx.1]
        exact .inr (openDispatch_opens e u x hx.2).1
      · obtain ⟨g1, g2⟩ := (hrule x rule).gov h
        unfold Adopted
        rw [g1, g2]
        exact hx.2
    · by_cases h : rule = .governor
      · subst h
        rw [hgov x hx.1]
        exact openDispatch_opens e u x (.inr hq.1)
      · exact dispatchOpen_of_same ((hrule x rule).gov h) hq
    · rw [hgov x hx.1]
      exact openDispatch_opens e u x hx.2
  have hwarn : (l.foldl (applyEpochRule e) u).front.warnings = u.front.warnings.filter fun w => !w.expiredAt e := by
    have hft : ∀ x, (applyEpochRule e x .frontTracker).front.warnings = x.front.warnings.filter fun w => !w.expiredAt e :=
      fun x => (frontEpochRule_frame e x).2
    refine foldl_brings
      (I := fun x => x.front.warnings = u.front.warnings
        ∨ x.front.warnings = u.front.warnings.filter fun w => !w.expiredAt e)
      (Q := fun x => x.front.warnings = u.front.warnings.filter fun w => !w.expiredAt e) .frontTracker
      (fun x rule hx => ?_) (fun x rule _ hq => ?_) (fun x hx => ?_) l (hmem _) u (.inl rfl)
    · by_cases h : rule = .frontTracker
      · subst h
        right
        rw [hft x]
        rcases hx with hx | hx <;> rw [hx]
        rw [List.filter_filter]
        simp
      · rw [(hrule x rule).warnings h]
        exact hx
    · by_cases h : rule = .frontTracker
      · subst h
        rw [hft x, hq, List.filter_filter]
        simp
      · rw [(hrule x rule).warnings h]
        exact hq
    · rw [hft x]
      rcases hx with hx | hx <;> rw [hx]
      rw [List.filter_filter]
      simp
  have hhead : u.ring.state = .up → ∃ rest, (l.foldl (applyEpochRule e) u).ring.queue = .mark e :: rest
      ∧ ∀ p ∈ rest, p.isMark = false := by
    intro hup
    refine foldl_brings (I := fun x => x.ring.state = .up)
      (Q := fun x => ∃ rest, x.ring.queue = .mark e :: rest ∧ ∀ p ∈ rest, p.isMark = false) .ringMarker
      (fun x rule hx => by rw [(hrule x rule).frame.2.2.2.1]; exact hx) (fun x rule hx hq => ?_)
      (fun x hx => placeMarker_head e x hx) l (hmem _) u hup
    by_cases h : rule = .ringMarker
    · subst h
      exact placeMarker_head e x hx
    · obtain ⟨rest, h1, h2⟩ := hq
      exact (hrule x rule).head h e rest h1 h2
  generalize l.foldl (applyEpochRule e) u = t at *
  obtain ⟨f1, f2, f3, _, f5⟩ := hframe
  obtain ⟨⟨d1, d2, d3⟩, d4⟩ := hopen
  subst hu
  refine ⟨?_, ?_, by rw [f3]; exact hr, f2, d1, d2, d3, d4, ?_, hhead, f5⟩
  · rw [f1]; rfl
  · rw [f1]
    show EpochTimer.next s.now s.timer = _
    unfold EpochTimer.next
    rw [← he]
    rfl
  · rw [hwarn]; rfl

end Sys2Proof.Machine
end

