-- ==== Sys2Proof/Laws/Folds.lean ====
section
/-! SUPPORT. What a pass over all blocks or all stations leaves, said once for each pass. -/

namespace Sys2Proof.Machine

/-! ## Passes over the block records -/

/-- A change that keeps the state of the record leaves both collections (R4). -/
theorem modifyBlock_keeps {b : BlockIx} {f : BlockRecord → BlockRecord} {s : State}
    (h : (f (s.block b)).state = (s.block b).state) :
    modifyBlock b f s = { s with table := { s.table with blocks := s.table.blocks.set b (f (s.block b)) } } := by
  unfold State.block at *
  unfold modifyBlock State.onTable BlockTable.put
  dsimp only
  rw [h, relist_same, relist_same]

/-- A pass that changes each record under one rule, which may read the committed settings, and keeps every state. -/
theorem foldl_modify (g : Governor → BlockRecord → BlockRecord) (hg : ∀ v r, (g v r).state = r.state) (l : List BlockIx)
    (hl : l.Nodup) (s : State) :
    (l.foldl (fun s b => modifyBlock b (g s.gov) s) s)
        = { s with table := { s.table with
              blocks := (l.foldl (fun s b => modifyBlock b (g s.gov) s) s).table.blocks } }
      ∧ ∀ b, (l.foldl (fun s b => modifyBlock b (g s.gov) s) s).block b
          = if b ∈ l then g s.gov (s.block b) else s.block b := by
  induction l generalizing s with
  | nil => exact ⟨rfl, fun b => by simp⟩
  | cons a l ih =>
    obtain ⟨ha, hl⟩ := List.nodup_cons.1 hl
    obtain ⟨h1, h2⟩ := ih hl (modifyBlock a (g s.gov) s)
    have hm := modifyBlock_keeps (b := a) (s := s) (hg s.gov _)
    refine ⟨?_, fun b => ?_⟩
    · rw [List.foldl_cons, h1, hm]
    · rw [List.foldl_cons, h2]
      have hgov : (modifyBlock a (g s.gov) s).gov = s.gov := rfl
      rw [hgov]
      by_cases hb : b = a
      · subst hb
        rw [if_neg ha, modifyBlock_block_self]
        simp
      · rw [modifyBlock_block_ne _ _ _ _ hb]
        simp [hb]

theorem allBlocks_all (b : BlockIx) : b ∈ allBlocks :=
  List.mem_finRange b

theorem allBlocks_nodup : allBlocks.Nodup :=
  List.nodup_finRange 48

/-- R29: the pass of an adoption over the block records. -/
theorem raiseFloors_all (s : State) :
    raiseFloors s = { s with table := { s.table with blocks := (raiseFloors s).table.blocks } }
      ∧ ∀ b, (raiseFloors s).block b = (s.block b).floorRaised s.gov.groups := by
  obtain ⟨h1, h2⟩ := foldl_modify (fun v => BlockRecord.floorRaised v.groups)
    (fun v r => by unfold BlockRecord.floorRaised; split <;> rfl) allBlocks allBlocks_nodup s
  refine ⟨h1, fun b => (h2 b).trans (if_pos (allBlocks_all b))⟩

/-- R28, R15: the pass of START over the block records. -/
theorem startBlocks_all (s : State) :
    startBlocks s = { s with table := { s.table with blocks := (startBlocks s).table.blocks,
                                                     groupCapture := Vector.replicate 8 none } }
      ∧ ∀ b, (startBlocks s).block b = (s.block b).renumbered := by
  obtain ⟨h1, h2⟩ := foldl_modify (fun _ => BlockRecord.renumbered)
    (fun v r => by unfold BlockRecord.renumbered; split <;> rfl) allBlocks allBlocks_nodup s
  unfold startBlocks
  generalize allBlocks.foldl (fun s b => modifyBlock b BlockRecord.renumbered s) s = u at *
  refine ⟨?_, fun b => ?_⟩
  · rw [h1]
    rfl
  · exact (h2 b).trans (if_pos (allBlocks_all b))

/-! ## Passes over the station records -/

theorem modifyStation_self (t : StationIx) (f : Station → Station) (s : State) :
    (modifyStation t f s).station t = f (s.station t) := by
  simp [modifyStation, State.station, State.onSky]

theorem modifyStation_ne (t x : StationIx) (f : Station → Station) (s : State) (h : x ≠ t) :
    (modifyStation t f s).station x = s.station x := by
  have : (t : Nat) ≠ x := fun e => h (Fin.ext e.symm)
  simp [modifyStation, State.station, State.onSky, this]

/-- A pass that changes each station record under one rule. -/
theorem foldl_modifyStation (f : Station → Station) (l : List StationIx) (hl : l.Nodup) (s : State) :
    (l.foldl (fun s t => modifyStation t f s) s)
        = { s with sky := { s.sky with stations := (l.foldl (fun s t => modifyStation t f s) s).sky.stations } }
      ∧ ∀ x, (l.foldl (fun s t => modifyStation t f s) s).station x = if x ∈ l then f (s.station x) else s.station x := by
  induction l generalizing s with
  | nil => exact ⟨rfl, fun x => by simp⟩
  | cons a l ih =>
    obtain ⟨ha, hl⟩ := List.nodup_cons.1 hl
    obtain ⟨h1, h2⟩ := ih hl (modifyStation a f s)
    refine ⟨?_, fun x => ?_⟩
    · rw [List.foldl_cons, h1]
      rfl
    · rw [List.foldl_cons, h2]
      by_cases hx : x = a
      · subst hx
        rw [if_neg ha, modifyStation_self]
        simp
      · rw [modifyStation_ne _ _ _ _ hx]
        simp [hx]

/-- R90, R91: the warnings list emptied, and every warning held flag cleared. -/
theorem emptyWarnings_all (s : State) :
    emptyWarnings s = { s with front := { s.front with warnings := [] },
                               sky := { s.sky with stations := (emptyWarnings s).sky.stations } }
      ∧ ∀ x, (emptyWarnings s).station x = { s.station x with warningHeld := false } := by
  have h := foldl_modifyStation (fun st => { st with warningHeld := false }) (List.finRange 24) (List.nodup_finRange 24)
    (s.onFront fun f => { f with warnings := [] })
  refine ⟨h.1, fun x => ?_⟩
  exact (h.2 x).trans (if_pos (List.mem_finRange x))

/-- R63: the stations an expired loss monitor declares LOST. -/
theorem loseStation_modify (s : State) (t : StationIx) :
    loseStation s t = modifyStation t (fun st => if st.enabled = true ∧ st.detector ≠ .lost then st.lose else st) s := by
  have hm (r : Station) (hr : (fun st : Station => if st.enabled = true ∧ st.detector ≠ .lost then st.lose else st)
      (s.station t) = r) :
      modifyStation t (fun st => if st.enabled = true ∧ st.detector ≠ .lost then st.lose else st) s
        = { s with sky := { s.sky with stations := s.sky.stations.set t r } } := by
    subst hr
    rfl
  by_cases h : (s.station t).enabled = true ∧ (s.station t).detector ≠ .lost
  · rw [hm _ (if_pos h)]
    exact if_pos h
  · rw [hm _ (if_neg h)]
    refine (if_neg h).trans ?_
    unfold State.station
    simp

/-- R63: the pass of an expired loss monitor. -/
theorem loseStations_all (s : State) :
    (List.finRange 24).foldl loseStation s
        = { s with sky := { s.sky with stations := ((List.finRange 24).foldl loseStation s).sky.stations } }
      ∧ ∀ x, ((List.finRange 24).foldl loseStation s).station x
          = if (s.station x).enabled = true ∧ (s.station x).detector ≠ .lost then (s.station x).lose else s.station x := by
  have hf : loseStation = fun s t => modifyStation t
      (fun st => if st.enabled = true ∧ st.detector ≠ .lost then st.lose else st) s := by
    funext s t
    exact loseStation_modify s t
  rw [hf]
  have h := foldl_modifyStation (fun st => if st.enabled = true ∧ st.detector ≠ .lost then st.lose else st)
    (List.finRange 24) (List.nodup_finRange 24) s
  exact ⟨h.1, fun x => (h.2 x).trans (if_pos (List.mem_finRange x))⟩

end Sys2Proof.Machine
end

