-- ==== Sys2Proof/Laws/Alerts.lean ====
section
/-! SUPPORT. The alert queues and their levels. -/

namespace Sys2Proof.Machine

/-- A queue replaced by a non-empty one: the level is raised. -/
theorem putAlerts_some (c : AlertClass) (q : AlertQueue) (s : State) (h : q.entries ≠ []) :
    putAlerts c q s = raise c.level (s.onAlerts (AlertQueues.set c q)) := by
  unfold putAlerts followLevel
  rw [if_neg]
  cases c <;> simpa [State.onAlerts, AlertQueues.get, AlertQueues.set] using h

/-- A queue replaced by an empty one: the level becomes clear. -/
theorem putAlerts_none (c : AlertClass) (q : AlertQueue) (s : State) (h : q.entries = []) :
    putAlerts c q s = dropLevel c.level (s.onAlerts (AlertQueues.set c q)) := by
  unfold putAlerts followLevel
  rw [if_pos]
  cases c <;> simpa [State.onAlerts, AlertQueues.get, AlertQueues.set] using h

theorem blockAlert_frame (b : BlockIx) (cls data) (s : State) : blockAlert b cls data s
    = { s with table := (blockAlert b cls data s).table } := by
  unfold blockAlert; split <;> rfl

/-- R172: what storing one alert does, with the levels following before it. A full queue's level is set already. -/
theorem storeAlert_raises (a : AlertEntry) (s : State) (hl : LevelsFollow s) :
    storeAlert a s = raise (if (s.alerts.get a.cls).entries.length < 32 then a.cls.level else .alertOverflow)
      { s with
          alerts := s.alerts.set a.cls
            (if (s.alerts.get a.cls).entries.length < 32
              then { s.alerts.get a.cls with entries := (s.alerts.get a.cls).entries ++ [a] }
              else { s.alerts.get a.cls with overflow := min ((s.alerts.get a.cls).overflow + 1) 255 }) } := by
  unfold storeAlert
  dsimp only
  by_cases h : (s.alerts.get a.cls).entries.length < 32
  · rw [if_pos (by exact h), if_pos h, if_pos h, putAlerts_some _ _ _ (by simp)]
    rfl
  · have hne : (s.alerts.get a.cls).entries ≠ [] := fun e => h (by rw [e]; decide)
    rw [if_neg (by exact h), if_neg h, if_neg h]
    rw [putAlerts_some a.cls { s.alerts.get a.cls with overflow := saturate 255 (s.alerts.get a.cls).overflow } s hne]
    rw [raise_set (s.onAlerts _) a.cls.level ((hl a.cls).1.trans (by simp [hne]))]
    rfl

/-- A change that leaves the record leaves the state. -/
theorem modifyBlock_id {b : BlockIx} {f : BlockRecord → BlockRecord} {s : State} (h : f (s.block b)
    = s.block b) : modifyBlock b f s = s := by
  rw [modifyBlock_keeps (by rw [h]), h]
  unfold State.block
  have : s.table.blocks.set b s.table.blocks[b] = s.table.blocks := by simp
  show { s with table := { s.table with blocks := s.table.blocks.set b s.table.blocks[b] } } = s
  rw [this]

theorem alertClass_of {cls : Byte} {c : AlertClass} (h : (cls.toNat, c) ∈ [(0, AlertClass.trip), (1, .derate), (2, .restore),
    (3, .note)]) : AlertClass.ofCode cls = some c := by
  simp only [List.mem_cons, Prod.mk.injEq, List.not_mem_nil, or_false] at h
  rcases h with ⟨h, rfl⟩ | ⟨h, rfl⟩ | ⟨h, rfl⟩ | ⟨h, rfl⟩
  all_goals
    unfold AlertClass.ofCode
    rw [show cls = BitVec.ofNat 8 cls.toNat by simp, h]; rfl

theorem alertClass_none {cls : Byte} (h : 3 < cls.toNat) : AlertClass.ofCode cls = none := by
  have : ∀ b : Byte, 3 < b.toNat → AlertClass.ofCode b = none := by decide +kernel
  exact this cls h

end Sys2Proof.Machine
end

