-- ==== Sys2Proof/Laws/Lawful.lean ====
section
/-! SUPPORT. The laws of Safety.lean on the records of the Sky Station Unit, the lead maps and the warnings list, kept by each of their
changes. -/

namespace Sys2Proof.Machine

/-! ## Station records -/

/-- A change of one record that keeps its slot, its enabled flag and its own law. -/
theorem set_station_lawful {u : SkyUnit} {t : StationIx} {st : Station} (h : SkyLawful u) (hl : st.Lawful)
    (hs : st.slot = u.stations[t].slot) (he : st.enabled = u.stations[t].enabled) :
    SkyLawful { u with stations := u.stations.set t st } := by
  obtain ⟨hp, ha, hd⟩ := h
  have get (x : StationIx) : (u.stations.set t st)[x] = if t = x then st else u.stations[x] := by
    by_cases hx : t = x
    · subst hx; simp
    · have : t.val ≠ x.val := fun e => hx (Fin.ext e)
      simp [hx, this]
  have slot (x : StationIx) : (u.stations.set t st)[x].slot = u.stations[x].slot := by
    rw [get]; split
    · rename_i e; rw [hs, e]
    · rfl
  have en (x : StationIx) : (u.stations.set t st)[x].enabled = u.stations[x].enabled := by
    rw [get]; split
    · rename_i e; rw [he, e]
    · rfl
  refine ⟨hp, fun x => ?_, fun x y hne hx hy => ?_⟩
  · show (u.stations.set t st)[x].Lawful
    rw [get]; split
    · exact hl
    · exact ha x
  · have hx : (u.stations.set t st)[x].enabled = true := hx
    have hy : (u.stations.set t st)[y].enabled = true := hy
    show (u.stations.set t st)[x].slot ≠ (u.stations.set t st)[y].slot
    rw [slot, slot]
    exact hd x y hne (by rwa [en] at hx) (by rwa [en] at hy)

theorem held_lawful {st : Station} (held : Bool) (h : st.Lawful) : { st with warningHeld := held }.Lawful := h

theorem sequence_lawful {st : Station} (q : BitVec 3) (h : st.Lawful) : { st with lastSequence := some q }.Lawful := h

theorem push_range {st : Station} {x : Nat} (hx : x ≤ 1600) (h : st.InRange) : (st.push x).InRange := by
  obtain ⟨r1, r2, r3, r4, r5, r6, r7⟩ := h
  refine ⟨r1, r2, r3, r4, r5, fun y hy => ?_, r7⟩
  rcases List.mem_append.1 hy with hy | hy
  · exact r6 y (List.mem_of_mem_drop hy)
  · rw [List.mem_singleton.1 hy]; exact hx

theorem push_lawful {st : Station} {x : Nat} (hx : x ≤ 1600) (h : st.Lawful) : (st.push x).Lawful := by
  obtain ⟨h0, h1, h2, h3⟩ := h
  refine ⟨push_range hx h0, h1, ?_, h3⟩
  simp only [Station.push, List.length_append, List.length_drop, List.length_singleton]
  omega

theorem recover_lawful {st : Station} {x : Nat} (hx : x ≤ 1600) (h : st.Lawful) (hd : st.detector = .lost) :
    (st.recover x).Lawful := by
  obtain ⟨⟨r1, r2, r3, r4, r5, r6, r7⟩, h1, h2, h3, h4, h5, h6, h7⟩ := h
  rw [hd] at h3 h4 h5
  refine ⟨⟨r1, r2, r3, r4, r5, fun y hy => ?_, r7⟩, h1, by simp [Station.recover]; omega, by simpa [Station.recover] using h3,
    by simpa [Station.recover] using h4, by simpa [Station.recover] using h5, by simp [Station.recover],
    by simp [Station.recover]⟩
  rw [List.mem_singleton.1 hy]
  exact hx

theorem lose_lawful {st : Station} (h : st.Lawful) : st.lose.Lawful := by
  obtain ⟨⟨r1, r2, r3, r4, r5, r6, -⟩, h1, h2, _⟩ := h
  exact ⟨⟨r1, r2, r3, r4, r5, r6, nofun, nofun, nofun⟩, h1, h2, by simp [Station.lose, Station.unfreeze], by simp [Station.lose, Station.unfreeze],
    by simp [Station.lose, Station.unfreeze], by simp [Station.lose], by simp [Station.lose, Station.unfreeze]⟩

theorem invalid_lawful {st : Station} (h : st.Lawful) (hd : st.detector ≠ .lost) (hr : st.invalidRun < 4) :
    { st with invalidRun := st.invalidRun + 1 }.Lawful := by
  obtain ⟨h0, h1, h2, h3, h4, h5, h6, h7⟩ := h
  refine ⟨h0, h1, h2, h3, h4, h5, by show st.invalidRun + 1 ≤ 5; omega, ?_⟩
  show st.detector = .lost ↔ st.invalidRun + 1 = 5
  exact ⟨fun e => absurd e hd, fun e => by omega⟩

/-- R70, R71: a drop makes a depth from 1 to 255. -/
theorem depthOf_range {st : Station} {x ref : Nat} (hd : 8 ≤ st.drop) (hr : 0 < ref) (h : st.isDrop x ref = true) :
    1 ≤ depthOf x ref ∧ depthOf x ref ≤ 255 := by
  have h := of_decide_eq_true h
  have : st.drop ≤ (ref - x) * 256 / ref := (Nat.le_div_iff_mul_le hr).2 h
  unfold depthOf
  omega

theorem judge_range {st : Station} (x : Nat) (h : st.Lawful) : ({ st with invalidRun := 0 }.judge x).1.InRange := by
  obtain ⟨⟨r1, r2, r3, r4, r5, r6, r7, r8, r9⟩, -, -, h3, h4, h5, -⟩ := h
  have hr : { st with invalidRun := 0 }.InRange := ⟨r1, r2, r3, r4, r5, r6, r7, r8, r9⟩
  unfold Station.judge
  cases hs : st.detector <;> rw [hs] at h3 h4 h5 <;> dsimp only [hs]
  · unfold Station.judgeClear
    split
    · exact hr
    · rename_i ref hb
      have hm : ref ≤ 1600 := r6 ref (List.max?_mem hb)
      split
      · rename_i hdrop
        have hdep := depthOf_range r3.1 hdrop.1 hdrop.2
        have h7 : ∀ v, some ref = some v → 1 ≤ v ∧ v ≤ 1600 := fun v e => Option.some.inj e ▸ ⟨hdrop.1, hm⟩
        have h8 : ∀ v, some (depthOf x ref) = some v → 1 ≤ v ∧ v ≤ 255 := fun v e => Option.some.inj e ▸ hdep
        split
        · exact ⟨r1, r2, r3, r4, r5, r6, h7, h8, nofun⟩
        · rename_i hp
          have hp : st.persistence ≠ 1 := hp
          exact ⟨r1, r2, r3, r4, r5, r6, h7, h8, fun n e => Option.some.inj e ▸ ⟨by omega, show 1 < st.persistence by omega⟩⟩
      · exact hr
  · obtain ⟨ref, href⟩ := Option.isSome_iff_exists.1 (h3.2 (.inl rfl))
    obtain ⟨d, hdep⟩ := Option.isSome_iff_exists.1 (h4.2 (.inl rfl))
    obtain ⟨n, hn⟩ := Option.isSome_iff_exists.1 (h5.2 rfl)
    unfold Station.judgePending
    dsimp only
    rw [href, hdep, hn]
    split
    · rename_i hdrop
      have hnew := depthOf_range r3.1 (r7 ref href).1 hdrop
      have hold := r8 d hdep
      have hcount := r9 n hn
      have h8 : ∀ v, some (max d (depthOf x ref)) = some v → 1 ≤ v ∧ v ≤ 255 := fun v e => by
        have := Option.some.inj e
        omega
      split
      · exact ⟨r1, r2, r3, r4, r5, r6, fun v e => Option.some.inj e ▸ r7 ref href, h8, nofun⟩
      · rename_i hp
        have hp : n + 1 ≠ st.persistence := hp
        exact ⟨r1, r2, r3, r4, r5, r6, fun v e => Option.some.inj e ▸ r7 ref href, h8, fun v e => Option.some.inj e ▸ ⟨by show 1 ≤ n + 1; omega,
          show n + 1 < st.persistence by omega⟩⟩
    · exact ⟨r1, r2, r3, r4, r5, r6, nofun, nofun, nofun⟩
  · unfold Station.judgeShaded
    dsimp only
    split
    · exact ⟨r1, r2, r3, r4, r5, r6, nofun, nofun, nofun⟩
    · exact hr
  · exact hr

theorem judge_lawful {st : Station} (x : Nat) (h : st.Lawful) (hd : st.detector ≠ .lost) :
    ({ st with invalidRun := 0 }.judge x).1.Lawful := by
  refine ⟨judge_range x h, ?_⟩
  obtain ⟨-, h1, h2, h3, h4, h5, h6, h7⟩ := h
  cases hs : st.detector <;> rw [hs] at h3 h4 h5 hd
  · simp only [Station.judge, Station.judgeClear]
    repeat' split
    all_goals simp_all [Station.shade]
  · simp only [Station.judge, Station.judgePending]
    repeat' split
    all_goals simp_all [Station.shade, Station.unfreeze]
  · simp only [Station.judge, Station.judgeShaded]
    repeat' split
    all_goals simp_all [Station.unfreeze]
  · exact absurd rfl hd

theorem judge_parameters {st : Station} (x : Nat) :
    ({ st with invalidRun := 0 }.judge x).1.slot = st.slot ∧ ({ st with invalidRun := 0 }.judge x).1.enabled = st.enabled
      ∧ ({ st with invalidRun := 0 }.judge x).1.warningHeld = st.warningHeld := by
  simp only [Station.judge, Station.judgeClear, Station.judgePending, Station.judgeShaded]
  repeat' split
  all_goals exact ⟨rfl, rfl, rfl⟩

/-- R67: a load, with its parameters in range and its slot free among the enabled stations. -/
theorem load_lawful {u : SkyUnit} {t : StationIx} {b : StationBody} (h : SkyLawful u) (hr : stationInRanges b = true)
    (hslot : (b.enabled == 1#8 && slotTaken u t b.slot.toNat) = false) :
    SkyLawful { u with stations := u.stations.set t (Station.load b u.stations[t]) } := by
  obtain ⟨hp, ha, hd⟩ := h
  have get (x : StationIx) : (u.stations.set t (Station.load b u.stations[t]))[x]
      = if t = x then Station.load b u.stations[t] else u.stations[x] := by
    by_cases hx : t = x
    · subst hx; simp
    · have : t.val ≠ x.val := fun e => hx (Fin.ext e)
      simp [hx, this]
  have hfree (x : StationIx) (hne : t ≠ x) (hb : b.enabled == 1#8) (hx : u.stations[x].enabled = true) :
      u.stations[x].slot ≠ b.slot.toNat := by
    intro e
    rw [hb, Bool.true_and, slotTaken, List.any_eq_false] at hslot
    refine hslot x (List.mem_finRange x) ?_
    rw [Bool.and_eq_true, Bool.and_eq_true]
    exact ⟨⟨bne_iff_ne.2 (Ne.symm hne), hx⟩, beq_iff_eq.2 e⟩
  refine ⟨hp, fun x => ?_, fun x y hne hx hy => ?_⟩
  · show (u.stations.set t (Station.load b u.stations[t]))[x].Lawful
    rw [get]; split
    · simp only [stationInRanges, inRange, Bool.and_eq_true, decide_eq_true_eq] at hr
      have hin : (Station.load b u.stations[t]).InRange :=
        ⟨by simp only [Station.load]; omega, by simp only [Station.load]; omega, by simp only [Station.load]; omega,
          by simp only [Station.load]; omega, by simp only [Station.load]; omega, by simp [Station.load], by simp [Station.load],
          by simp [Station.load], by simp [Station.load]⟩
      exact ⟨hin, by simp only [Station.load]; omega, by simp [Station.load], by simp [Station.load], by simp [Station.load],
        by simp [Station.load], by simp [Station.load], by simp [Station.load]⟩
    · exact ha x
  · have hx : (u.stations.set t (Station.load b u.stations[t]))[x].enabled = true := hx
    have hy : (u.stations.set t (Station.load b u.stations[t]))[y].enabled = true := hy
    show (u.stations.set t (Station.load b u.stations[t]))[x].slot ≠ (u.stations.set t (Station.load b u.stations[t]))[y].slot
    rw [get] at hx hy ⊢
    rw [get]
    split at hx <;> split at hy
    · rename_i e1 e2; exact absurd (e1.symm.trans e2) hne
    · rename_i e1 e2
      rw [if_pos e1, if_neg e2]
      exact (hfree y e2 hx hy).symm
    · rename_i e1 e2
      rw [if_neg e1, if_pos e2]
      exact hfree x e1 hy hx
    · rename_i e1 e2
      rw [if_neg e1, if_neg e2]
      exact hd x y hne hx hy

/-! ## Lead maps -/

theorem empty_map_lawful : MapLawful [] := by simp [MapLawful, entriesOf]

theorem checkLead_lead {e : LeadBody} {x : LeadEntry} (h : checkLead e = some x) : 1 ≤ x.lead ∧ x.lead ≤ 255 := by
  unfold checkLead at h
  split at h
  · split at h
    · injection h with h
      subst h
      have := e.lead.isLt
      dsimp only
      omega
    · exact absurd h (by simp)
  · exact absurd h (by simp)

theorem appendLeads_lawful {entries : List LeadBody} {map m : List LeadEntry} (h : appendLeads map entries = some m)
    (hp : map.Pairwise fun a b => b.samePair a = false) (hl : ∀ x ∈ map, 1 ≤ x.lead ∧ x.lead ≤ 255) :
    m.Pairwise (fun a b => b.samePair a = false) ∧ ∀ x ∈ m, 1 ≤ x.lead ∧ x.lead ≤ 255 := by
  induction entries generalizing map with
  | nil => injection h with h; subst h; exact ⟨hp, hl⟩
  | cons e rest ih =>
    unfold appendLeads at h
    split at h
    · rename_i x hx
      split at h
      · exact absurd h (by simp)
      · rename_i hn
        refine ih h ?_ ?_
        · rw [List.pairwise_append]
          refine ⟨hp, List.pairwise_singleton _ _, fun a ha b hb => ?_⟩
          rw [List.mem_singleton.1 hb]
          simp only [List.any_eq_true, not_exists, not_and, Bool.not_eq_true] at hn
          exact hn a ha
        · intro y hy
          rcases List.mem_append.1 hy with hy | hy
          · exact hl y hy
          · rw [List.mem_singleton.1 hy]; exact checkLead_lead hx
    · exact absurd h (by simp)

theorem add_lawful {map m : List LeadEntry} {entries : List LeadBody} (h : MapLawful map) (ha : appendLeads map entries = some m)
    (hf : leadsFit m = true) : MapLawful m := by
  obtain ⟨_, _, h3, h4⟩ := h
  have := appendLeads_lawful ha h3 h4
  simp only [leadsFit, Bool.and_eq_true, decide_eq_true_eq, List.all_eq_true] at hf
  exact ⟨hf.1, fun t => hf.2 t (List.mem_finRange t), this.1, this.2⟩

/-! ## The warnings list -/

theorem insertWarning_perm (w : Warning) (l : List Warning) : (insertWarning w l).Perm (w :: l) := by
  induction l with
  | nil => exact .refl _
  | cons x rest ih =>
    unfold insertWarning
    split
    · exact .refl _
    · exact (ih.cons x).trans (.swap w x rest)

theorem stepId_range {id : Nat} (h : 1 ≤ id ∧ id ≤ 255) : 1 ≤ stepId id ∧ stepId id ≤ 255 := by
  unfold stepId; split <;> omega

theorem freeId_range {listed : List Warning} {n id : Nat} (h : 1 ≤ id ∧ id ≤ 255) :
    1 ≤ freeId listed n id ∧ freeId listed n id ≤ 255 := by
  induction n generalizing id with
  | zero => exact h
  | succ n ih =>
    unfold freeId
    split
    · exact ih (stepId_range h)
    · exact h

/-- The `k`-th ID tried. -/
theorem stepId_iterate {id : Nat} (h : 1 ≤ id ∧ id ≤ 255) (k : Nat) : stepId^[k] id = (id - 1 + k) % 255 + 1 := by
  induction k with
  | zero => simp only [Function.iterate_zero, Function.id_def]; omega
  | succ k ih =>
    rw [Function.iterate_succ_apply', ih]
    unfold stepId
    split <;> omega

/-- A search that ends at an ID no listed warning holds has met held IDs alone before it. -/
theorem freeId_walk {listed : List Warning} {n id : Nat} (h : 1 ≤ id ∧ id ≤ 255) (hf : freeId listed n id ∉ listed.map (·.id)) :
    ∃ k, freeId listed n id = stepId^[k] id ∧ ∀ j < k, stepId^[j] id ∈ listed.map (·.id) := by
  induction n generalizing id with
  | zero => exact ⟨0, rfl, nofun⟩
  | succ n ih =>
    unfold freeId at hf ⊢
    split
    · rename_i hany
      rw [if_pos hany] at hf
      obtain ⟨k, h1, h2⟩ := ih (stepId_range h) hf
      refine ⟨k + 1, h1, fun j hj => ?_⟩
      cases j with
      | zero =>
        obtain ⟨w, hw, he⟩ := List.any_eq_true.1 hany
        exact List.mem_map.2 ⟨w, hw, beq_iff_eq.1 he⟩
      | succ j => exact h2 j (by omega)
    · exact ⟨0, rfl, nofun⟩

/-- A search that ends at a held ID has met held IDs alone. -/
theorem freeId_held {listed : List Warning} {n id : Nat} (h : freeId listed n id ∈ listed.map (·.id)) (k : Nat) (hk : k ≤ n) :
    stepId^[k] id ∈ listed.map (·.id) := by
  induction n generalizing id k with
  | zero =>
    obtain rfl : k = 0 := by omega
    exact h
  | succ n ih =>
    unfold freeId at h
    split at h
    · rename_i hany
      cases k with
      | zero =>
        obtain ⟨w, hw, he⟩ := List.any_eq_true.1 hany
        exact List.mem_map.2 ⟨w, hw, beq_iff_eq.1 he⟩
      | succ k => exact ih h k (by omega)
    · rename_i hany
      refine absurd ?_ hany
      obtain ⟨w, hw, he⟩ := List.mem_map.1 h
      exact List.any_eq_true.2 ⟨w, hw, beq_iff_eq.2 he⟩

/-- R84: with at most 32 warnings listed, an ID that none of them holds is found. -/
theorem freeId_fresh {listed : List Warning} {id : Nat} (h : 1 ≤ id ∧ id ≤ 255) (hl : listed.length ≤ 32) :
    freeId listed 255 id ∉ listed.map (·.id) := by
  intro hh
  have hsub : (Finset.range 33).image (fun k => stepId^[k] id) ⊆ (listed.map (·.id)).toFinset := by
    intro x hx
    obtain ⟨k, hk, rfl⟩ := Finset.mem_image.1 hx
    have hk : k < 33 := Finset.mem_range.1 hk
    exact List.mem_toFinset.2 (freeId_held hh k (by omega))
  have hcard := Finset.card_le_card hsub
  rw [Finset.card_image_of_injOn, Finset.card_range] at hcard
  · have := (listed.map (·.id)).toFinset_card_le
    rw [List.length_map] at this
    omega
  · intro a ha b hb e
    have ha : a < 33 := by simpa using ha
    have hb : b < 33 := by simpa using hb
    simp only [stepId_iterate h] at e
    omega

/-- A part of the list, or the list with depths changed, as a filter or a removal leaves it. -/
theorem sublist_lawful {f : FrontTracker} {ws : List Warning} (h : FrontLawful f) (hs : ws.Sublist f.warnings) :
    FrontLawful { f with warnings := ws } := by
  obtain ⟨h1, h2, h3, h4, h5, h6, h7⟩ := h
  exact ⟨h1, h2, hs.length_le.trans h3, (hs.map _).nodup h4, (hs.map _).nodup h5, fun w hw => h6 w (hs.subset hw), h7⟩

theorem deepen_lawful {f : FrontTracker} (t : StationIx) (depth : Nat) (h : FrontLawful f) :
    FrontLawful { f with warnings := f.warnings.map fun w => if w.station = t then { w with depth := max w.depth depth } else w } := by
  obtain ⟨h1, h2, h3, h4, h5, h6, h7⟩ := h
  have hm {α : Type} (g : Warning → α) (hg : ∀ w d, g { w with depth := d } = g w) :
      (f.warnings.map fun w => if w.station = t then { w with depth := max w.depth depth } else w).map g = f.warnings.map g := by
    rw [List.map_map]
    refine List.map_congr_left fun w _ => ?_
    simp only [Function.comp]
    split
    · exact hg _ _
    · rfl
  refine ⟨h1, h2, by simpa using h3, ?_, ?_, fun w hw => ?_, h7⟩
  · rw [hm _ fun _ _ => rfl]; exact h4
  · rw [hm _ fun _ _ => rfl]; exact h5
  · obtain ⟨v, hv, rfl⟩ := List.mem_map.1 hw
    have := h6 v hv
    split <;> exact this

/-- R86: a warning of a station that holds none, listed into a list of fewer than 32. -/
theorem list_lawful {f : FrontTracker} {w : Warning} (h : FrontLawful f) (hl : f.warnings.length < warningCapacity)
    (hs : w.station ∉ f.warnings.map (·.station)) (ha : 1 ≤ w.arrivals.length ∧ w.arrivals.length ≤ leadsPerStation) :
    FrontLawful { f with warnings := insertWarning { w with id := freeId f.warnings 255 f.nextId } f.warnings,
                         nextId := stepId (freeId f.warnings 255 f.nextId) } := by
  obtain ⟨h1, h2, h3, h4, h5, h6, h7⟩ := h
  have hr := freeId_range (listed := f.warnings) (n := 255) h7
  have hperm := insertWarning_perm { w with id := freeId f.warnings 255 f.nextId } f.warnings
  refine ⟨h1, h2, ?_, ?_, ?_, fun v hv => ?_, stepId_range hr⟩
  · rw [hperm.length_eq]; exact hl
  · exact (hperm.map _).nodup_iff.2 (List.nodup_cons.2 ⟨hs, h4⟩)
  · exact (hperm.map _).nodup_iff.2 (List.nodup_cons.2 ⟨freeId_fresh h7 h3, h5⟩)
  · rcases List.mem_cons.1 (hperm.mem_iff.1 hv) with e | hv
    · subst e; exact ⟨hr, ha⟩
    · exact h6 v hv

/-! ## After a full reset -/

theorem reset_sky_lawful (now : Time) : SkyLawful (.atReset now) := by
  have get (t : StationIx) : (SkyUnit.atReset now).stations[t] = .atReset t.val := by simp [SkyUnit.atReset]
  refine ⟨⟨by simp [SkyUnit.atReset], by simp [SkyUnit.atReset]⟩, fun t => ?_, fun t x _ ht => ?_⟩
  · rw [get]
    have := t.isLt
    simp [Station.Lawful, Station.InRange, Station.atReset]
    omega
  · rw [get] at ht; simp [Station.atReset] at ht

theorem reset_front_lawful : FrontLawful .atReset := by
  simp [FrontLawful, FrontTracker.atReset, empty_map_lawful]

theorem reset_window_lawful : WindowLawful .atReset := by
  simp [WindowLawful, Governor.atReset]

end Sys2Proof.Machine
end

