-- ==== Sys2Proof/Laws/Moves.lean ====
section
/-! SUPPORT. Every change a command can make to the state, said once: a command is a sequence of moves (`Steps`), and a property
that every move keeps is kept by every command. -/

namespace Sys2Proof.Machine

/-- An epoch is counted before its seven rules act. A sequence of moves takes an epoch as one move, or goes into its parts. -/
inductive Grain where
  | whole
  | parts

/-- The warning less its depth, which a deepen request raises. -/
def Warning.shallow (w : Warning) : Warning :=
  { w with depth := 0 }

/-- One change. Each constructor carries what the properties of Safety.lean need to know about it. -/
inductive Move : State → Grain → State → Prop
  /-- the queue of commands, the clock, the free value counter, the level of RESET_N -/
  | aside (s : State) {k} (p : List Instr) (n c : Nat) (r : Bool) :
      Move s k { s with pending := p, now := n, freeCount := c, resetLow := r }
  | link (s : State) {k} (f : HostLink → HostLink) : Move s k (s.onLink f)
  | store (s : State) {k} (f : SettingsStore → SettingsStore) : Move s k (s.onStore f)
  /-- a change of the Sky Station Unit, which keeps its records lawful and the warning held flags as they are -/
  | sky (s : State) {k} (f : SkyUnit → SkyUnit) (h : SkyLawful s.sky → SkyLawful (f s.sky))
      (hw : ∀ x : StationIx, (f s.sky).stations[x].warningHeld = s.sky.stations[x].warningHeld) : Move s k (s.onSky f)
  /-- a change of the Front Tracker, which keeps its maps and its list lawful, and of the list at most depths -/
  | front (s : State) {k} (f : FrontTracker → FrontTracker) (h : FrontLawful s.front → FrontLawful (f s.front))
      (hw : (f s.front).warnings.map Warning.shallow = s.front.warnings.map Warning.shallow) : Move s k (s.onFront f)
  /-- warnings join or leave the list, with their stations' flags -/
  | warnings (s : State) {k} (f : FrontTracker) (u : SkyUnit) (h : FrontLawful s.front → FrontLawful f)
      (hu : SkyLawful s.sky → SkyLawful u)
      (hf : FrontLawful s.front → FlagsFollow s → FlagsFollow { s with front := f, sky := u })
      (ho : FrontLawful s.front → WarningsOrdered s → WarningsOrdered { s with front := f, sky := u }) :
      Move s k { s with front := f, sky := u }
  | storage (s : State) {k} (f : StorageRecord → StorageRecord) : Move s k (s.onStorage f)
  | meter (s : State) {k} (f : MeterRecord → MeterRecord) : Move s k (s.onMeter f)
  /-- a dispatch comes into flight in RUNNING or HOLDING only -/
  | gov (s : State) {k} (f : Governor → Governor)
      (h : (f s.gov).phase ≠ .idle → s.gov.phase ≠ .idle ∨ s.run.state.inRun = true)
      (hw : WindowLawful s.gov → WindowLawful (f s.gov)) : Move s k (s.onGov f)
  /-- the timer while it goes on as it was, running or not -/
  | timer (s : State) {k} (f : EpochTimer → EpochTimer) (hr : (f s.timer).running = s.timer.running)
      (hs : (f s.timer).stall ≠ .disarmed → s.timer.stall ≠ .disarmed ∨ s.timer.running = true)
      (he : (f s.timer).epoch = s.timer.epoch ∨ s.front.warnings = []) : Move s k (s.onTimer f)
  /-- the number of an epoch, before the rules of that epoch -/
  | next (s : State) (h : s.timer.running = true) : Move s .parts (s.onTimer (EpochTimer.next s.now))
  /-- an epoch, with its rules -/
  | epoch (s : State) (order : EpochOrder) (h : s.timer.running = true) : Move s .whole (takeEpoch order s)
  /-- Run Control within a run, or outside one -/
  | run (s : State) {k} (f : RunControl → RunControl) (h1 : (f s.run).state.inRun = s.run.state.inRun)
      (h2 : (f s.run).state = .armed ↔ s.run.state = .armed) (h3 : (f s.run).trigger = s.run.trigger) : Move s k (s.onRun f)
  /-- START has emptied the list and the queue; in ARMED they are as it left them -/
  | trigger (s : State) {k} (hw : s.run.state = .armed ∨ s.front.warnings = [])
      (hq : s.run.state = .armed ∨ ∀ e, .mark e ∉ s.ring.queue) : Move s k (enterRun (s.onTimer (EpochTimer.triggered s.now)))
  | arm (s : State) {k} (t : Trigger) (h : s.run.state = .stopped) (hw : s.front.warnings = [])
      (hq : ∀ e, .mark e ∉ s.ring.queue) : Move s k (s.onRun fun c => { c with state := .armed, trigger := some t })
  | disarm (s : State) {k} (h : s.run.state = .armed) : Move s k (Machine.disarm s)
  | stop (s : State) {k} (h : s.run.state.inRun = true) :
      Move s k (abandonDispatch
        ((s.onRun fun c => { c with state := .stopped }).onTimer fun t => { t with running := false, stall := .disarmed }))
  /-- a latched condition is raised -/
  | raise (s : State) {k} (c : Condition) (h : levelConditions &&& c.flag = 0) : Move s k (raise c s)
  | clear (s : State) {k} (named : Word) : Move s k (s.onCond fun c => { c with conditions := clearLatched c.conditions named })
  /-- the mask or the gate is set, and the gate evaluated -/
  | gate (s : State) {k} (f : ConditionUnit → ConditionUnit) (h : (f s.cond).conditions = s.cond.conditions) :
      Move s k (evaluateGate (s.onCond f))
  | alerts (s : State) {k} (c : AlertClass) (q : AlertQueue)
      (h : (s.alerts.get c).entries.length ≤ alertCapacity ∧ (s.alerts.get c).overflow ≤ 255 →
        q.entries.length ≤ alertCapacity ∧ q.overflow ≤ 255) : Move s k (putAlerts c q s)
  | block (s : State) {k} (b : BlockIx) (f : BlockRecord → BlockRecord) : Move s k (modifyBlock b f s)
  | groupCapture (s : State) {k} (g : Vector (Option Epoch) 8) : Move s k (s.onTable fun t => { t with groupCapture := g })
  /-- a change of the Ring Controller, which keeps the outbound queue lawful and its MARK ahead -/
  | ring (s : State) {k} (f : RingController → RingController) (h : QueueLawful s.ring → QueueLawful (f s.ring))
      (hm : RunLawful s → MarksLead s.run.state s.ring → MarksLead s.run.state (f s.ring)) : Move s k (s.onRing f)
  | reset (s : State) {k} (p : List Instr) (n c : Nat) (signal : Bool) (straps : Straps) :
      Move s k (.afterReset p n c signal straps)

/-- A sequence of moves. -/
abbrev Steps (k : Grain) : State → State → Prop :=
  Relation.ReflTransGen fun s t => Move s k t

variable {k : Grain}

theorem Steps.one {s t : State} (h : Move s k t) : Steps k s t :=
  Relation.ReflTransGen.single h

/-- What every move keeps, a sequence of moves keeps. -/
theorem Steps.keeps {P : State → Prop} (hP : ∀ s t, Move s k t → P s → P t) {s t : State} (h : Steps k s t) (hs : P s) : P t := by
  induction h with
  | refl => exact hs
  | tail _ hm ih => exact hP _ _ hm ih

theorem Steps.ite {s t u : State} {p : Prop} [Decidable p] (h1 : p → Steps k s t) (h2 : ¬p → Steps k s u) :
    Steps k s (if p then t else u) := by
  split
  · exact h1 ‹_›
  · exact h2 ‹_›

theorem Steps.foldl {α : Type} {f : State → α → State} (h : ∀ s a, Steps k s (f s a)) (l : List α) (s : State) :
    Steps k s (l.foldl f s) := by
  induction l generalizing s with
  | nil => exact .refl
  | cons a l ih => exact (h s a).trans (ih _)

/-! ## What every move keeps -/

theorem Move.keeps_collections {s t : State} (h : Move s .parts t) (hs : CollectionsAgree s.table) : CollectionsAgree t.table := by
  cases h with
  | block b f => exact put_collections _ _ _ hs
  | reset => 
    refine ⟨List.nodup_nil, List.nodup_nil, fun b => ?_, fun b => ?_⟩ <;>
      simp [State.afterReset, BlockTable.atReset, BlockRecord.emptyAt]
  | trigger => unfold enterRun; split <;> simpa using hs
  | disarm => exact hs
  | stop => exact hs
  | alerts c q => unfold putAlerts followLevel; split <;> simpa using hs
  | groupCapture g => exact hs
  | _ => simpa using hs

theorem Move.keeps_queue {s t : State} (h : Move s .parts t) (hs : QueueLawful s.ring) : QueueLawful t.ring := by
  cases h with
  | ring f hf => exact hf hs
  | reset => simp [State.afterReset, RingController.atReset, QueueLawful]
  | trigger => unfold enterRun; split <;> simpa using hs
  | disarm => exact hs
  | stop => exact hs
  | alerts c q => unfold putAlerts followLevel; split <;> simpa using hs
  | _ => simpa using hs

theorem enterRun_run (s : State) : (enterRun s).run.state.inRun = true ∧ (enterRun s).run.trigger = none := by
  unfold enterRun; split <;> simp [RunState.inRun]

theorem Move.keeps_run {s t : State} (h : Move s .parts t) (hs : RunLawful s) : RunLawful t := by
  obtain ⟨h1, h2, h3, h4⟩ := hs
  cases h with
  | gov f hf _ =>
    refine ⟨h1, h2, h3, fun h => ?_⟩
    rcases hf h with h | h
    · exact h4 h
    · exact h
  | timer f hr hst =>
    refine ⟨by simpa [hr] using h1, fun h => ?_, h3, h4⟩
    simp only [State.onTimer_timer, hr]
    rcases hst h with h | h
    · exact h2 h
    · exact h
  | next hr => exact ⟨h1, fun _ => hr, h3, h4⟩
  | run f e1 e2 e3 => exact ⟨by simpa [e1] using h1, h2, by simp [e2, e3, h3], by simpa [e1] using h4⟩
  | trigger =>
    have hr := enterRun_run (s.onTimer (EpochTimer.triggered s.now))
    refine ⟨?_, fun _ => ?_, ?_, fun _ => hr.1⟩
    · rw [hr.1]; unfold enterRun; split <;> simp [EpochTimer.triggered]
    · unfold enterRun; split <;> simp [EpochTimer.triggered]
    · rw [hr.2]
      have := hr.1
      constructor
      · simp
      · intro e; rw [e] at this; simp [RunState.inRun] at this
  | arm t hst =>
    have hr : s.timer.running = false := by rw [h1, hst]; rfl
    refine ⟨by simp [hr, RunState.inRun], h2, by simp, fun h => ?_⟩
    have := h4 h
    rw [hst] at this
    simp [RunState.inRun] at this
  | disarm ha =>
    have hr : s.timer.running = false := by rw [h1, ha]; rfl
    refine ⟨by simp [Machine.disarm, hr, RunState.inRun], h2, by simp [Machine.disarm], fun h => ?_⟩
    have := h4 h
    rw [ha] at this
    simp [RunState.inRun] at this
  | stop hi =>
    refine ⟨by simp [abandonDispatch, RunState.inRun], by simp [abandonDispatch], ?_, by simp [abandonDispatch]⟩
    simp only [abandonDispatch, State.onGov_run, State.onTimer_run, State.onRun_run]
    constructor
    · intro h
      rw [h3.1 h] at hi
      simp [RunState.inRun] at hi
    · simp
  | alerts c q => unfold putAlerts followLevel; split <;> exact ⟨by simpa using h1, by simpa using h2, by simpa using h3, by simpa using h4⟩
  | reset => simp [RunLawful, State.afterReset, EpochTimer.atReset, RunControl.atReset, Governor.atReset, RunState.inRun]
  | _ => exact ⟨by simpa using h1, by simpa using h2, by simpa using h3, by simpa using h4⟩

/-! ## The condition set -/

theorem Condition.bit_lt (c : Condition) : c.bit < 32 := by
  cases c <;> decide

theorem Condition.bit_inj {c d : Condition} (h : c.bit = d.bit) : c = d := by
  cases c <;> cases d <;> first | rfl | exact absurd h (by decide)

theorem flag_bit (c d : Condition) : c.flag.getLsbD d.bit = decide (c = d) := by
  have hd := d.bit_lt
  rw [Condition.flag, BitVec.getLsbD_shiftLeft, BitVec.getLsbD_one]
  by_cases h : c = d
  · subst h; simp [hd]
  · have : c.bit ≠ d.bit := fun e => h (Condition.bit_inj e)
    simp [hd, h]
    omega

theorem conditionSet_setCondition (w : Word) (c d : Condition) :
    conditionSet (setCondition w c) d = (conditionSet w d || decide (c = d)) := by
  simp [conditionSet, setCondition, flag_bit]

theorem conditionSet_clearCondition (w : Word) (c d : Condition) :
    conditionSet (clearCondition w c) d = (conditionSet w d && !decide (c = d)) := by
  have h := flag_bit c d
  rw [BitVec.getLsbD_eq_getElem d.bit_lt] at h
  simp [conditionSet, clearCondition, h, d.bit_lt]

/-- R183, R185: a level condition is one of the four that CLEAR_CONDITIONS passes over. -/
theorem levelConditions_bit (d : Condition) :
    levelConditions.getLsbD d.bit = decide (d = .tripPending ∨ d = .deratePending ∨ d = .restorePending ∨ d = .notePending) := by
  cases d <;> decide

theorem conditionSet_clearLatched (w named : Word) (c : AlertClass) :
    conditionSet (clearLatched w named) c.level = conditionSet w c.level := by
  have h := levelConditions_bit c.level
  have hl := c.level.bit_lt
  cases c <;> simp_all [conditionSet, clearLatched, AlertClass.level]

theorem latched_ne_level {c : Condition} (h : levelConditions &&& c.flag = 0) (a : AlertClass) : c ≠ a.level := by
  intro e
  subst e
  cases a <;> exact absurd h (by decide)

/-- R183: a raise sets its condition and no other. -/
theorem conditionSet_raise (s : State) (c d : Condition) :
    conditionSet (raise c s).cond.conditions d = (conditionSet s.cond.conditions d || decide (c = d)) := by
  rw [raise_conditions]
  split
  · by_cases h : c = d
    · subst h; simp_all
    · simp [h]
  · exact conditionSet_setCondition _ _ _

/-- R186: an evaluation leaves no open gate with a condition both set and in the mask. -/
theorem evaluateGate_quiet (s : State) : GateQuiet (evaluateGate s).cond := by
  unfold evaluateGate GateQuiet
  split
  · simp
  · intro h
    rename_i hn
    by_contra hc
    exact hn ⟨h, hc⟩

theorem raise_quiet (s : State) (c : Condition) (hs : GateQuiet s.cond) : GateQuiet (raise c s).cond := by
  unfold raise
  split
  · exact hs
  · exact evaluateGate_quiet _

/-- A set that only loses conditions stays quiet under an open gate. -/
theorem GateQuiet.shrink {u : ConditionUnit} (h : GateQuiet u) (keep : Word) :
    GateQuiet { u with conditions := u.conditions &&& keep } := by
  intro hg
  have := h hg
  rw [show (u.conditions &&& keep) &&& u.mask = (u.conditions &&& u.mask) &&& keep from by
    rw [BitVec.and_assoc, BitVec.and_assoc, BitVec.and_comm keep], this]
  simp

theorem followLevel_quiet (s : State) (c : AlertClass) (hs : GateQuiet s.cond) : GateQuiet (followLevel c s).cond := by
  unfold followLevel
  split
  · exact hs.shrink _
  · exact raise_quiet _ _ hs

theorem Move.keeps_gate {s t : State} (h : Move s .parts t) (hs : GateQuiet s.cond) : GateQuiet t.cond := by
  cases h with
  | raise c hc => exact raise_quiet _ _ hs
  | clear named => exact hs.shrink _
  | gate f hf => exact evaluateGate_quiet _
  | alerts c q hq => exact followLevel_quiet _ _ hs
  | trigger => 
    unfold enterRun
    split
    · exact raise_quiet _ _ hs
    · exact hs
  | disarm => exact hs
  | stop => exact hs
  | reset => intro _; simp [State.afterReset, ConditionUnit.atReset]
  | block b f => exact hs
  | _ => exact hs

theorem AlertQueues.get_set (q : AlertQueues) (c d : AlertClass) (x : AlertQueue) :
    (q.set c x).get d = if c = d then x else q.get d := by
  cases c <;> cases d <;> rfl

theorem AlertClass.level_inj {c d : AlertClass} (h : c.level = d.level) : c = d := by
  cases c <;> cases d <;> first | rfl | exact absurd h (by decide)

@[simp] theorem followLevel_alerts (s : State) (c : AlertClass) : (followLevel c s).alerts = s.alerts := by
  unfold followLevel; split <;> simp

/-- R173: after a change to a queue its level says whether it holds an entry, and no other condition has changed. -/
theorem conditionSet_followLevel (s : State) (c : AlertClass) (d : Condition) :
    conditionSet (followLevel c s).cond.conditions d
      = if c.level = d then !(s.alerts.get c).entries.isEmpty else conditionSet s.cond.conditions d := by
  unfold followLevel
  by_cases he : (s.alerts.get c).entries.isEmpty = true
  · rw [if_pos he, dropLevel, State.onCond_cond, conditionSet_clearCondition]
    by_cases h : c.level = d <;> simp [h, he]
  · rw [if_neg he, conditionSet_raise]
    by_cases h : c.level = d <;> simp_all

theorem Move.keeps_levels {s t : State} (h : Move s .parts t) (hs : LevelsFollow s) : LevelsFollow t := by
  cases h with
  | raise c hc =>
    intro a
    have := latched_ne_level hc a
    simpa [conditionSet_raise, this] using hs a
  | clear named =>
    intro a
    simpa [conditionSet_clearLatched] using hs a
  | gate f hf =>
    intro a
    simpa [hf] using hs a
  | alerts c q hq =>
    intro a
    rw [putAlerts, conditionSet_followLevel, followLevel_alerts, State.onAlerts_alerts, AlertQueues.get_set, AlertQueues.get_set]
    by_cases h : c = a
    · subst h
      simpa using hq (hs c).2
    · have : c.level ≠ a.level := fun e => h (AlertClass.level_inj e)
      simpa [h, this] using hs a
  | trigger =>
    unfold enterRun
    split
    · intro a
      have : Condition.holdBegun ≠ a.level := by cases a <;> decide
      simpa [conditionSet_raise, this] using hs a
    · exact hs
  | reset =>
    intro a
    cases a <;> simp [State.afterReset, AlertQueues.atReset, ConditionUnit.atReset, AlertQueues.get, conditionSet]
  | disarm => exact hs
  | stop => exact hs
  | block b f => exact hs
  | _ => exact hs

/-! ## The records of the sky stations, the lead maps, the warnings list and the ramp window -/

theorem Move.keeps_sky {s t : State} (h : Move s .parts t) (hs : SkyLawful s.sky) : SkyLawful t.sky := by
  cases h with
  | sky f hf => exact hf hs
  | warnings f u _ hu => exact hu hs
  | reset p n => exact reset_sky_lawful n
  | trigger => unfold enterRun; split <;> simpa using hs
  | disarm => exact hs
  | stop => exact hs
  | alerts c q => unfold putAlerts followLevel; split <;> simpa using hs
  | _ => simpa using hs

theorem Move.keeps_front {s t : State} (h : Move s .parts t) (hs : FrontLawful s.front) : FrontLawful t.front := by
  cases h with
  | front f hf => exact hf hs
  | warnings f u hf => exact hf hs
  | reset => exact reset_front_lawful
  | trigger => unfold enterRun; split <;> simpa using hs
  | disarm => exact hs
  | stop => exact hs
  | alerts c q => unfold putAlerts followLevel; split <;> simpa using hs
  | _ => simpa using hs

theorem Move.keeps_window {s t : State} (h : Move s .parts t) (hs : WindowLawful s.gov) : WindowLawful t.gov := by
  cases h with
  | gov f hf hw => exact hw hs
  | reset => exact reset_window_lawful
  | trigger => unfold enterRun; split <;> simpa using hs
  | disarm => exact hs
  | stop => exact hs
  | alerts c q => unfold putAlerts followLevel; split <;> simpa using hs
  | _ => simpa using hs

/-! ## The order of the queue, and of the warnings list with its flags -/

/-- R156: STOPPED is the run state that is neither in a run nor ARMED. -/
theorem stopped_iff {r x : RunState} (h1 : r.inRun = x.inRun) (h2 : r = .armed ↔ x = .armed) : r = .stopped ↔ x = .stopped := by
  cases r <;> cases x <;> simp_all [RunState.inRun]

theorem MarksLead.ofRun {r x : RunState} {c : RingController} (h : MarksLead r c) (hx : x ≠ .stopped → r ≠ .stopped) :
    MarksLead x c :=
  ⟨h.1, fun hn => h.2 (hx hn)⟩

theorem MarksLead.ofNone {r x : RunState} {c : RingController} (h : MarksLead r c) (hq : ∀ e, .mark e ∉ c.queue) :
    MarksLead x c :=
  ⟨h.1, fun _ e he => absurd he (hq e)⟩

theorem Move.keeps_marks {s t : State} (h : Move s .parts t) (hr : RunLawful s) (hs : MarksLead s.run.state s.ring) :
    MarksLead t.run.state t.ring := by
  cases h with
  | ring f _ hm => exact hm hr hs
  | run f h1 h2 => exact hs.ofRun (not_congr (stopped_iff h1 h2)).1
  | trigger hw hq =>
    have any (x : RunState) : MarksLead x s.ring := by
      rcases hq with hq | hq
      · exact hs.ofRun fun _ => by rw [hq]; decide
      · exact hs.ofNone hq
    unfold enterRun
    split <;> simpa using any _
  | arm x _ _ hq => exact hs.ofNone hq
  | disarm => exact ⟨hs.1, fun hn => absurd rfl hn⟩
  | stop => exact ⟨hs.1, fun hn => absurd rfl hn⟩
  | alerts c q => unfold putAlerts followLevel; split <;> simpa using hs
  | reset => exact ⟨by simp [State.afterReset, RingController.atReset], by simp [State.afterReset, RunControl.atReset]⟩
  | _ => simpa using hs

/-- The stations of a list of warnings, whatever their depths. -/
theorem any_station {l m : List Warning} (h : l.map Warning.shallow = m.map Warning.shallow) (x : StationIx) :
    (l.any fun w => w.station == x) = m.any fun w => w.station == x := by
  have hx (k : List Warning) : (k.any fun w => w.station == x) = (k.map Warning.shallow).any fun w => w.station == x := by
    rw [List.any_map]; rfl
  rw [hx l, h, ← hx m]

theorem FlagsFollow.same {s t : State} (h : FlagsFollow s) (hs : ∀ x : StationIx, (t.station x).warningHeld = (s.station x).warningHeld)
    (hw : t.front.warnings.map Warning.shallow = s.front.warnings.map Warning.shallow) : FlagsFollow t :=
  fun x => by rw [hs, h x, any_station hw]

theorem Move.keeps_flags {s t : State} (h : Move s .parts t) (hf : FrontLawful s.front) (hs : FlagsFollow s) : FlagsFollow t := by
  cases h with
  | sky f _ hw => exact hs.same hw rfl
  | front f _ hw => exact hs.same (fun _ => rfl) hw
  | warnings f u _ _ hflags => exact hflags hf hs
  | reset p n =>
    intro x
    simp [State.station, State.afterReset, FrontTracker.atReset, SkyUnit.atReset, Station.atReset]
  | trigger => unfold enterRun; split <;> exact hs.same (fun _ => by simp [State.station]) (by simp)
  | alerts c q => unfold putAlerts followLevel; split <;> exact hs.same (fun _ => by simp [State.station]) (by simp)
  | disarm => exact hs
  | stop => exact hs
  | _ => exact hs.same (fun _ => by simp [State.station]) (by simp)

theorem WarningsOrdered.same {s t : State} (h : WarningsOrdered s) (hr : t.run.state = .armed → s.run.state = .armed)
    (he : t.timer.epoch = s.timer.epoch ∨ s.front.warnings = [])
    (hw : t.front.warnings.map Warning.shallow = s.front.warnings.map Warning.shallow) : WarningsOrdered t := by
  obtain ⟨h1, h2, h3⟩ := h
  have nil (h0 : s.front.warnings = []) : t.front.warnings = [] := by simpa [h0] using hw
  refine ⟨fun ha => nil (h1 (hr ha)), ?_⟩
  rcases he with he | he
  · have all (P : Warning → Prop) (k : List Warning) : (∀ w ∈ k, P w.shallow) ↔ ∀ w ∈ k.map Warning.shallow, P w := by
      simp
    have pair (P : Warning → Warning → Prop) (k : List Warning) :
        k.Pairwise (fun v w => P v.shallow w.shallow) ↔ (k.map Warning.shallow).Pairwise P := List.pairwise_map.symm
    rw [he]
    exact ⟨(all (WarningStands s.timer.epoch) _).2 (hw ▸ (all (WarningStands s.timer.epoch) _).1 h2),
      (pair (StandsAhead s.timer.epoch) _).2 (hw ▸ (pair (StandsAhead s.timer.epoch) _).1 h3)⟩
  · rw [nil he]; exact ⟨nofun, .nil⟩

/-- R89: a warning that has not expired at the next epoch stands there. -/
theorem WarningStands.next {e : Epoch} {w : Warning} (h : WarningStands e w)
    (hn : (!(w.arrivals.all fun a => atOrAfter (e + 1) a.2)) = true) :
    WarningStands (e + 1) w ∧ (e + 1 - w.opened).toNat = (e - w.opened).toNat + 1 := by
  obtain ⟨h1, h2, h3⟩ := h
  simp only [Bool.not_eq_true', List.all_eq_false] at hn
  obtain ⟨a, ha, hl⟩ := hn
  have hd := (h3 a ha).2.1
  unfold atOrAfter at hl
  have hlt : (e + 1 - w.opened).toNat < 255 ∧ (e + 1 - w.opened).toNat = (e - w.opened).toNat + 1 := by
    simp only [decide_eq_true_eq, not_lt] at hl
    have e1 : e + 1 - w.opened = e - w.opened + 1 := by ring
    have e2 : e + 1 - a.2 = e - w.opened + 1 - (a.2 - w.opened) := by ring
    rw [e1]
    rw [e2] at hl
    generalize e - w.opened = x at *
    generalize a.2 - w.opened = d at *
    have k1 : (x + 1).toNat = x.toNat + 1 := by
      rw [BitVec.toNat_add]; simp; omega
    rw [BitVec.toNat_sub, k1] at hl
    have := d.isLt
    omega
  exact ⟨⟨hlt.1, h2, h3⟩, hlt.2⟩

/-- R82, R83, R89: an epoch takes the expired warnings off the list, and leaves the others in their order. -/
theorem takeEpoch_ordered (order : EpochOrder) (s : State) (hr : s.run.state.inRun = true) (h : WarningsOrdered s) :
    WarningsOrdered (takeEpoch order s) := by
  obtain ⟨h1, h2, h3⟩ := h
  obtain ⟨_, l1, l2, _, _, _, _, _, l3, _⟩ := takeEpoch_leaves order s hr
  have he : (takeEpoch order s).timer.epoch = s.timer.epoch + 1 := by rw [l1]
  unfold WarningsOrdered
  rw [l3, he]
  have hk (w : Warning) (hw : w ∈ s.front.warnings.filter fun w => !(w.arrivals.all fun a => atOrAfter (s.timer.epoch + 1) a.2)) :
      WarningStands (s.timer.epoch + 1) w
        ∧ (s.timer.epoch + 1 - w.opened).toNat = (s.timer.epoch - w.opened).toNat + 1 := by
    obtain ⟨hw, hn⟩ := List.mem_filter.1 hw
    exact (h2 w hw).next hn
  refine ⟨fun ha => ?_, fun w hw => (hk w hw).1, ?_⟩
  · rw [ha] at l2; simp [RunState.inRun] at l2
  · refine (h3.sublist List.filter_sublist).imp_of_mem fun hv hw hvw => ⟨hvw.1, fun heq => ?_⟩
    rw [(hk _ hv).2, (hk _ hw).2]
    have := hvw.2 heq
    omega

theorem Move.keeps_ordered {s t : State} (h : Move s .whole t) (hr : RunLawful s) (hf : FrontLawful s.front)
    (hs : WarningsOrdered s) : WarningsOrdered t := by
  cases h with
  | front f _ hw => exact hs.same id (.inl rfl) hw
  | warnings f u _ _ _ ho => exact ho hf hs
  | timer f _ _ he => exact hs.same id he rfl
  | epoch order hrun => exact takeEpoch_ordered order s (by rw [← hr.1]; exact hrun) hs
  | run f _ h2 => exact hs.same h2.1 (.inl rfl) rfl
  | trigger hw =>
    have hw : s.front.warnings = [] := hw.elim hs.1 id
    unfold enterRun
    split <;> exact ⟨fun _ => by simpa using hw, by simp [hw], by simp [hw]⟩
  | arm x _ hw => exact ⟨fun _ => hw, by simp [hw], by simp [hw]⟩
  | disarm => exact hs.same (by simp [Machine.disarm]) (.inl rfl) rfl
  | stop => exact hs.same (by simp [abandonDispatch]) (.inl rfl) rfl
  | alerts c q => unfold putAlerts followLevel; split <;> exact hs.same (by simp) (.inl (by simp)) (by simp)
  | reset => exact ⟨fun _ => rfl, nofun, .nil⟩
  | _ => exact hs.same (by simp) (.inl (by simp)) (by simp)

end Sys2Proof.Machine
end

