-- ==== Sys2Proof/Laws/Orders.lean ====
section
/-! SUPPORT. What keeps the outbound queue and the warnings list in the order the manual gives them, and each station's warning held
flag in step with the list. -/

namespace Sys2Proof.Machine

/-! ## Packets of one target (R157) -/

theorem sameTarget_comm (p q : OwnPacket) : p.sameTarget q = q.sameTarget p := by
  cases p <;> cases q <;> simp [OwnPacket.sameTarget, Bool.beq_comm]

/-- Two packets of one target are of one kind, with one label, and share their targets. -/
theorem sameTarget_spec {p q : OwnPacket} (h : p.sameTarget q = true) :
    p.label? = q.label? ∧ p.isMark = false ∧ q.isMark = false ∧ ∀ x, p.sameTarget x = q.sameTarget x := by
  cases p <;> cases q <;> simp only [OwnPacket.sameTarget, Bool.and_eq_true, beq_iff_eq, Bool.false_eq_true] at h
  · obtain ⟨rfl, rfl⟩ := h
    exact ⟨rfl, rfl, rfl, fun x => by cases x <;> rfl⟩
  · subst h
    exact ⟨rfl, rfl, rfl, fun x => by cases x <;> rfl⟩

theorem isCapAt_eq (b : BlockIx) (l : Epoch) (limit : Option Nat) (lease : Nat) (x : OwnPacket) :
    x.isCapAt b l = (OwnPacket.cap b l limit lease).sameTarget x := by
  cases x <;> simp [OwnPacket.isCapAt, OwnPacket.sameTarget, Bool.beq_comm]

theorem isStoreAt_eq (l : Epoch) (power : Int) (lease : Nat) (x : OwnPacket) :
    x.isStoreAt l = (OwnPacket.store l power lease).sameTarget x := by
  cases x <;> simp [OwnPacket.isStoreAt, OwnPacket.sameTarget, Bool.beq_comm]

theorem sameTargetAt_eq (l : Epoch) (p x : OwnPacket) : p.sameTargetAt l x = (p.relabel l).sameTarget x := by
  cases p
  · exact isCapAt_eq _ _ _ _ x
  · exact isStoreAt_eq _ _ _ x
  all_goals cases x <;> rfl

/-- R157: one packet for each target. -/
abbrev Distinct (q : List OwnPacket) : Prop :=
  q.Pairwise fun p x => p.sameTarget x = false

/-- A packet put in the place of one of its target, or at the tail where none has its target, leaves one packet for each target. -/
theorem enqueue_distinct {same : OwnPacket → Bool} {p : OwnPacket} (hs : ∀ x, same x = p.sameTarget x) {q : List OwnPacket}
    (h : Distinct q) : Distinct (enqueue same p q) := by
  unfold enqueue
  split
  · rw [Distinct, List.pairwise_map]
    refine h.imp fun {a b} hab => ?_
    by_cases ha : same a = true <;> by_cases hb : same b = true <;> simp only [ha, hb, if_true, if_false, Bool.false_eq_true]
    · rw [← (sameTarget_spec ((hs a).symm.trans ha)).2.2.2 b, ← hs, hb] at hab
      exact absurd hab (by decide)
    · rw [← hs]; simpa using hb
    · rw [sameTarget_comm, ← hs]; simpa using ha
    · exact hab
  · rename_i hn
    refine List.pairwise_append.2 ⟨h, List.pairwise_singleton _ _, fun a ha b hb => ?_⟩
    rw [List.mem_singleton.1 hb, sameTarget_comm, ← hs]
    simp only [List.any_eq_true, not_exists, not_and, Bool.not_eq_true] at hn
    exact hn a ha

theorem snoc_distinct {p : OwnPacket} {q : List OwnPacket} (hp : ∀ x ∈ q, p.sameTarget x = false) (h : Distinct q) :
    Distinct (q ++ [p]) :=
  List.pairwise_append.2 ⟨h, List.pairwise_singleton _ _, fun a ha b hb => by
    rw [List.mem_singleton.1 hb, sameTarget_comm]; exact hp a ha⟩

/-- R159: relabelling and removing the late packets leaves one packet for each target. -/
theorem relabelLate_distinct (e : Epoch) (done l : List OwnPacket) (h : Distinct (done ++ l)) :
    Distinct (relabelLate e done l).queue := by
  induction l generalizing done with
  | nil => simpa [relabelLate] using h
  | cons p rest ih =>
    have hrest : Distinct (done ++ rest) := h.sublist (List.Sublist.append_left (List.sublist_cons_self p rest) done)
    unfold relabelLate
    split
    · split
      · exact ih done hrest
      · rename_i hn
        simp only [List.any_eq_true, not_exists, not_and, Bool.not_eq_true, sameTargetAt_eq] at hn
        refine ih _ ?_
        rw [List.append_assoc]
        obtain ⟨h1, h2, h3⟩ := List.pairwise_append.1 hrest
        refine List.pairwise_append.2 ⟨h1, List.pairwise_cons.2 ⟨fun x hx => hn x (List.mem_append_right _ hx), h2⟩, fun a ha b hb => ?_⟩
        rcases List.mem_cons.1 hb with e | hb
        · rw [e, sameTarget_comm]; exact hn a (List.mem_append_left _ ha)
        · exact h3 a ha b hb
    · exact ih _ (by simpa using h)

/-! ## Packets behind a MARK (R156, R159) -/

/-- Behind a packet that is no MARK any packet may stand. -/
theorem MayFollow.ofNoMark {p q : OwnPacket} (h : p.isMark = false) : MayFollow p q := by
  intro e l he
  rw [he] at h
  exact Bool.noConfusion h

/-- A packet without a label may stand behind any packet. -/
theorem MayFollow.ofNoLabel {p q : OwnPacket} (h : q.label? = none) : MayFollow p q := by
  intro e l _ hl
  rw [h] at hl
  exact absurd hl (by simp)

/-- R159: a MARK's epoch is earlier than the next. -/
theorem not_atOrAfter_next (e : Epoch) : atOrAfter e (e + 1) = false := by
  unfold atOrAfter
  have : e - (e + 1) = -1 := by ring
  rw [this]
  rfl

/-- R159: the label that a packet enters with is later than the last MARK placed. -/
theorem enteringLabel_later {r : RingController} {m : Epoch} (h : r.lastMark = some m) (label : Epoch) :
    atOrAfter m (enteringLabel r label) = false := by
  unfold enteringLabel lateLabel
  rw [h]
  dsimp only
  split
  · exact not_atOrAfter_next m
  · rename_i hn
    simpa using hn

/-- R156, R157: a packet offered with a label enters a queue whose MARK is the last placed, and stands behind no MARK of its label or a
later epoch. -/
theorem enqueue_marks {run : RunState} {r : RingController} {same : OwnPacket → Bool} {p : OwnPacket} {label : Epoch}
    (hs : ∀ x, same x = p.sameTarget x) (hp : p.label? = some (enteringLabel r label)) (hm : p.isMark = false) (hr : run ≠ .stopped)
    (h : MarksLead run r) : MarksLead run { r with queue := enqueue same p r.queue } := by
  obtain ⟨h1, h2⟩ := h
  have marks (e : Epoch) (he : OwnPacket.mark e ∈ enqueue same p r.queue) : OwnPacket.mark e ∈ r.queue := by
    have hne : OwnPacket.mark e ≠ p := by
      intro x; rw [← x] at hm; exact Bool.noConfusion hm
    unfold enqueue at he
    split at he
    · obtain ⟨x, hx, hxe⟩ := List.mem_map.1 he
      split at hxe
      · exact absurd hxe.symm hne
      · exact hxe ▸ hx
    · rcases List.mem_append.1 he with he | he
      · exact he
      · exact absurd (List.mem_singleton.1 he) hne
  refine ⟨?_, fun _ e he => h2 hr e (marks e he)⟩
  unfold enqueue
  dsimp only
  split
  · rw [List.pairwise_map]
    refine h1.imp fun {a b} hab => ?_
    by_cases ha : same a = true
    · rw [if_pos ha]; exact .ofNoMark hm
    · rw [if_neg ha]
      by_cases hb : same b = true
      · rw [if_pos hb]
        intro e l he hl
        exact hab e l he ((sameTarget_spec ((hs b).symm.trans hb)).1.symm.trans hl)
      · rw [if_neg hb]; exact hab
  · refine List.pairwise_append.2 ⟨h1, List.pairwise_singleton _ _, fun a ha b hb => ?_⟩
    rw [List.mem_singleton.1 hb]
    intro e l he hl
    rw [hp, Option.some.injEq] at hl
    subst hl
    exact enteringLabel_later (h2 hr e (he ▸ ha)) label

/-- A part of the queue, of the same MARK. -/
theorem MarksLead.sublist {run : RunState} {r : RingController} {q : List OwnPacket} (h : MarksLead run r) (hq : q.Sublist r.queue) :
    MarksLead run { r with queue := q } :=
  ⟨h.1.sublist hq, fun hr e he => h.2 hr e (hq.subset he)⟩

/-- R159: no packet that stays behind the new MARK is late at it. -/
theorem relabelLate_onTime (e : Epoch) (done l : List OwnPacket) (hd : ∀ p ∈ done, p.lateAt e = false) :
    ∀ p ∈ (relabelLate e done l).queue, p.lateAt e = false := by
  induction l generalizing done with
  | nil => exact hd
  | cons p rest ih =>
    have snoc (x : OwnPacket) (hx : x.lateAt e = false) : ∀ y ∈ done ++ [x], y.lateAt e = false := by
      intro y hy
      rcases List.mem_append.1 hy with hy | hy
      · exact hd y hy
      · rw [List.mem_singleton.1 hy]; exact hx
    unfold relabelLate
    split
    · split
      · exact ih done hd
      · refine ih _ (snoc _ ?_)
        cases p <;> first | exact not_atOrAfter_next e | rfl
    · rename_i hp
      exact ih _ (snoc p (by simpa using hp))

/-- R158, R159: the queue behind a MARK just placed. -/
theorem placed_marks {run : RunState} {r : RingController} {e : Epoch} {q : List OwnPacket} (hm : ∀ p ∈ q, p.isMark = false)
    (hl : ∀ p ∈ q, p.lateAt e = false) : MarksLead run { r with queue := .mark e :: q, lastMark := some e } := by
  refine ⟨List.pairwise_cons.2 ⟨fun p hp e' l he hlab => ?_, ?_⟩, fun _ e' he => ?_⟩
  · injection he with he
    subst he
    have := hl p hp
    cases p <;> simp_all [OwnPacket.label?, OwnPacket.lateAt]
  · exact List.pairwise_of_forall_mem_list fun a ha b _ => .ofNoMark (hm a ha)
  · rcases List.mem_cons.1 he with he | he
    · injection he with he; rw [he]
    · exact absurd (hm _ he) (by simp [OwnPacket.isMark])

/-! ## Earliest arrivals (R82, R83) -/

/-- Epochs of one opening compare as their distances from it. -/
theorem laterThan_offset (e a b : Epoch) (ha : (a - e).toNat ≤ 255) (hb : (b - e).toNat ≤ 255) :
    laterThan a b = decide ((b - e).toNat < (a - e).toNat) := by
  have hab : a - b = (a - e) - (b - e) := by ring
  have hne : (a != b) = decide ((a - e).toNat ≠ (b - e).toNat) := by
    rw [Bool.eq_iff_iff, bne_iff_ne, decide_eq_true_eq, ne_eq, ne_eq, BitVec.toNat_inj]
    exact not_congr ⟨fun h => by rw [h], fun h => by simpa using congrArg (· + e) h⟩
  unfold laterThan atOrAfter
  rw [hne, hab, Bool.eq_iff_iff]
  simp only [Bool.and_eq_true, decide_eq_true_eq, BitVec.toNat_sub]
  rw [← BitVec.toNat_sub, ← BitVec.toNat_sub]
  omega

/-- R82: the earliest of the arrivals is one of them, and none is nearer to the opening. -/
theorem earliestOf_spec (e : Epoch) (l : List (BlockIx × Epoch)) (m : Epoch) (hm : (m - e).toNat ≤ 255)
    (hl : ∀ a ∈ l, (a.2 - e).toNat ≤ 255) :
    (earliestOf m l = m ∨ ∃ a ∈ l, a.2 = earliestOf m l) ∧ (earliestOf m l - e).toNat ≤ (m - e).toNat
      ∧ ∀ a ∈ l, (earliestOf m l - e).toNat ≤ (a.2 - e).toNat := by
  induction l generalizing m with
  | nil => exact ⟨.inl rfl, le_refl _, nofun⟩
  | cons a l ih =>
    have ha := hl a List.mem_cons_self
    have hl' : ∀ x ∈ l, (x.2 - e).toNat ≤ 255 := fun x hx => hl x (List.mem_cons_of_mem _ hx)
    have step : earliestOf m (a :: l) = earliestOf (if laterThan m a.2 then a.2 else m) l := rfl
    rw [step, laterThan_offset e m a.2 hm ha]
    by_cases hlt : (a.2 - e).toNat < (m - e).toNat
    · rw [if_pos (decide_eq_true hlt)]
      obtain ⟨i1, i2, i3⟩ := ih a.2 ha hl'
      refine ⟨.inr ?_, by omega, fun x hx => ?_⟩
      · rcases i1 with i1 | ⟨x, hx, he⟩
        · exact ⟨a, List.mem_cons_self, i1.symm⟩
        · exact ⟨x, List.mem_cons_of_mem _ hx, he⟩
      · rcases List.mem_cons.1 hx with rfl | hx
        · exact i2
        · exact i3 x hx
    · rw [if_neg (by simpa using hlt)]
      obtain ⟨i1, i2, i3⟩ := ih m hm hl'
      refine ⟨?_, i2, fun x hx => ?_⟩
      · rcases i1 with i1 | ⟨x, hx, he⟩
        · exact .inl i1
        · exact .inr ⟨x, List.mem_cons_of_mem _ hx, he⟩
      · rcases List.mem_cons.1 hx with rfl | hx
        · omega
        · exact i3 x hx

/-- The distance of a warning's earliest arrival from epoch e, before or after it. -/
def Warning.distance (e : Epoch) (w : Warning) : Int :=
  (w.earliest - w.opened).toNat - (e - w.opened).toNat

theorem WarningStands.earliest_range {e : Epoch} {w : Warning} (h : WarningStands e w) :
    1 ≤ (w.earliest - w.opened).toNat ∧ (w.earliest - w.opened).toNat ≤ 255 := by
  obtain ⟨-, ⟨a, ha, he⟩, h3⟩ := h
  rw [← he]
  exact ⟨(h3 a ha).1, (h3 a ha).2.1⟩

/-- The earliest arrivals of two warnings on the list compare as their distances from the present epoch. -/
theorem laterThan_distance {e : Epoch} {v w : Warning} (hv : WarningStands e v) (hw : WarningStands e w) :
    laterThan v.earliest w.earliest = decide (w.distance e < v.distance e)
      ∧ (v.earliest = w.earliest ↔ v.distance e = w.distance e) := by
  have rv := hv.earliest_range
  have rw' := hw.earliest_range
  have ov := hv.1
  have ow := hw.1
  have hd : v.earliest - w.earliest = (v.earliest - v.opened) - (e - v.opened) + (e - w.opened) - (w.earliest - w.opened) := by ring
  have heq : v.earliest = w.earliest ↔ v.earliest - w.earliest = 0 :=
    ⟨fun h => by rw [h]; ring, fun h => by simpa using congrArg (· + w.earliest) h⟩
  have hne : (v.earliest != w.earliest) = decide (v.earliest - w.earliest ≠ 0) := by
    rw [Bool.eq_iff_iff, bne_iff_ne, decide_eq_true_eq]
    exact not_congr heq
  unfold laterThan atOrAfter Warning.distance
  rw [hne, heq, hd]
  generalize v.earliest - v.opened = a at *
  generalize e - v.opened = b at *
  generalize e - w.opened = c at *
  generalize w.earliest - w.opened = d at *
  have hz : (a - b + c - d = 0) ↔ (a - b + c - d).toNat = 0 := by rw [← BitVec.toNat_inj]; rfl
  have hn : (a - b + c - d).toNat = (a.toNat + (2 ^ 32 - b.toNat) + c.toNat + (2 ^ 32 - d.toNat)) % 2 ^ 32 := by
    simp only [BitVec.toNat_sub, BitVec.toNat_add]
    omega
  rw [Bool.eq_iff_iff]
  simp only [Bool.and_eq_true, decide_eq_true_eq, ne_eq, hz, hn]
  constructor <;> omega

/-- R83, R86: a warning opened at the present epoch enters the list at its place in the order. -/
theorem insertWarning_ordered {e : Epoch} {w : Warning} {l : List Warning} (hw : WarningStands e w) (ho : w.opened = e)
    (hl : ∀ v ∈ l, WarningStands e v) (hp : l.Pairwise (StandsAhead e)) : (insertWarning w l).Pairwise (StandsAhead e) := by
  have hz : (e - w.opened).toNat = 0 := by rw [ho]; simp
  induction l with
  | nil => exact List.pairwise_singleton _ _
  | cons x rest ih =>
    obtain ⟨h1, h2⟩ := List.pairwise_cons.1 hp
    have hx := hl x List.mem_cons_self
    have hrest : ∀ v ∈ rest, WarningStands e v := fun v hv => hl v (List.mem_cons_of_mem _ hv)
    unfold insertWarning
    split
    · rename_i hlt
      rw [(laterThan_distance hx hw).1, decide_eq_true_eq] at hlt
      have ahead (y : Warning) (hy : WarningStands e y) (hxy : x.distance e ≤ y.distance e) : StandsAhead e w y := by
        have := laterThan_distance hw hy
        refine ⟨by rw [this.1]; simp; omega, fun he => ?_⟩
        have := this.2.1 he
        omega
      refine List.pairwise_cons.2 ⟨fun y hy => ?_, hp⟩
      rcases List.mem_cons.1 hy with rfl | hy
      · exact ahead y hx (le_refl _)
      · refine ahead y (hrest y hy) ?_
        have := (h1 y hy).1
        rw [(laterThan_distance hx (hrest y hy)).1, decide_eq_false_iff_not] at this
        omega
    · rename_i hlt
      refine List.pairwise_cons.2 ⟨fun y hy => ?_, ih hrest h2⟩
      rcases List.mem_cons.1 ((insertWarning_perm w rest).mem_iff.1 hy) with rfl | hy
      · exact ⟨by simpa using hlt, fun _ => by omega⟩
      · exact h1 y hy

/-- R85: a warning built now stands. -/
theorem buildWarning_stands {t : StationIx} {depth : Nat} {now : Epoch} {entries : List LeadEntry} {w : Warning}
    (h : buildWarning t depth now entries = some w) (hl : ∀ x ∈ entries, 1 ≤ x.lead ∧ x.lead ≤ 255) :
    WarningStands now w ∧ w.opened = now := by
  unfold buildWarning at h
  have off (n : Nat) (hn : n ≤ 255) : (now + BitVec.ofNat 32 n - now).toNat = n := by
    have : now + BitVec.ofNat 32 n - now = BitVec.ofNat 32 n := by ring
    rw [this, BitVec.toNat_ofNat]
    omega
  cases entries with
  | nil => simp at h
  | cons x rest =>
    simp only [List.map_cons, Option.some.injEq] at h
    have hx := hl x List.mem_cons_self
    have hrest (a : BlockIx × Epoch) (ha : a ∈ rest.map fun y => (y.block, now + BitVec.ofNat 32 y.lead)) :
        1 ≤ (a.2 - now).toNat ∧ (a.2 - now).toNat ≤ 255 := by
      obtain ⟨y, hy, rfl⟩ := List.mem_map.1 ha
      have := hl y (List.mem_cons_of_mem _ hy)
      rw [off _ this.2]
      exact this
    have hspec := earliestOf_spec now _ (now + BitVec.ofNat 32 x.lead) (by rw [off _ hx.2]; exact hx.2) fun a ha => (hrest a ha).2
    subst h
    refine ⟨⟨by simp, ?_, fun a ha => ?_⟩, rfl⟩
    · rcases hspec.1 with he | ⟨a, ha, he⟩
      · exact ⟨_, List.mem_cons_self, he.symm⟩
      · exact ⟨a, List.mem_cons_of_mem _ ha, he⟩
    · rcases List.mem_cons.1 ha with rfl | ha
      · dsimp only
        rw [off _ hx.2]
        refine ⟨hx.1, hx.2, ?_⟩
        have := hspec.2.1
        rw [off _ hx.2] at this
        exact this
      · exact ⟨(hrest a ha).1, (hrest a ha).2, hspec.2.2 a ha⟩

theorem WarningsOrdered.sublist {s t : State} (h : WarningsOrdered s) (hr : t.run.state = s.run.state)
    (he : t.timer.epoch = s.timer.epoch) (hs : t.front.warnings.Sublist s.front.warnings) : WarningsOrdered t := by
  refine ⟨fun ha => ?_, fun w hw => ?_, ?_⟩
  · rw [h.1 (hr ▸ ha)] at hs
    exact List.sublist_nil.1 hs
  · rw [he]; exact h.2.1 w (hs.subset hw)
  · rw [he]; exact h.2.2.sublist hs

/-! ## Warning held flags (R83) -/

/-- R83: where the stations whose warnings leave the list lose their flags, the flags follow the list. -/
theorem FlagsFollow.drop {s t : State} (h : FlagsFollow s) (hn : (s.front.warnings.map (·.station)).Nodup)
    (hs : t.front.warnings.Sublist s.front.warnings) (gone : StationIx → Prop) [DecidablePred gone]
    (hg : ∀ x, gone x ↔ ∃ w ∈ s.front.warnings, w.station = x ∧ w ∉ t.front.warnings)
    (hu : ∀ x, (t.station x).warningHeld = if gone x then false else (s.station x).warningHeld) : FlagsFollow t := by
  intro x
  rw [hu, h x, Bool.eq_iff_iff]
  split
  · rename_i hx
    obtain ⟨w, hw, he, hnot⟩ := (hg x).1 hx
    simp only [Bool.false_eq_true, List.any_eq_true, false_iff, not_exists, not_and]
    intro v hv
    rw [beq_iff_eq]
    intro hve
    exact hnot (List.inj_on_of_nodup_map hn (hs.subset hv) hw (hve.trans he.symm) ▸ hv)
  · rename_i hx
    rw [hg] at hx
    simp only [List.any_eq_true, beq_iff_eq]
    constructor
    · rintro ⟨w, hw, he⟩
      by_contra hc
      exact hx ⟨w, hw, he, fun hm => hc ⟨w, hm, he⟩⟩
    · rintro ⟨w, hw, he⟩
      exact ⟨w, hs.subset hw, he⟩

theorem setHeld_front (t : StationIx) (held : Bool) (s : State) : (setHeld t held s).front = s.front := rfl

theorem setHeld_held (t x : StationIx) (held : Bool) (s : State) :
    ((setHeld t held s).station x).warningHeld = if x = t then held else (s.station x).warningHeld := by
  by_cases h : x = t
  · subst h
    rw [if_pos rfl]
    exact congrArg Station.warningHeld (modifyStation_self x (fun st => { st with warningHeld := held }) s)
  · rw [if_neg h]
    exact congrArg Station.warningHeld (modifyStation_ne t x (fun st => { st with warningHeld := held }) s h)

theorem setHeld_lawful (t : StationIx) (held : Bool) (s : State) (h : SkyLawful s.sky) : SkyLawful (setHeld t held s).sky :=
  set_station_lawful h (held_lawful held (h.2.1 t)) rfl rfl

/-- A pass that clears the flags of some stations. -/
theorem foldl_setHeld (l : List StationIx) (s : State) :
    (∀ x, ((l.foldl (fun s t => setHeld t false s) s).station x).warningHeld
        = if x ∈ l then false else (s.station x).warningHeld)
      ∧ (SkyLawful s.sky → SkyLawful (l.foldl (fun s t => setHeld t false s) s).sky) := by
  induction l generalizing s with
  | nil => exact ⟨fun x => by simp, id⟩
  | cons a l ih =>
    obtain ⟨h1, h2⟩ := ih (setHeld a false s)
    refine ⟨fun x => ?_, fun h => h2 (setHeld_lawful a false s h)⟩
    rw [List.foldl_cons, h1, setHeld_held]
    by_cases hx : x = a <;> by_cases hl : x ∈ l <;> simp [hx, hl]

end Sys2Proof.Machine
end

