-- ==== Sys2Proof/Laws/Steps.lean ====
section
/-! SUPPORT. Every operation of the machine is a sequence of moves, family by family, and so is every command (`exec_steps`). -/

namespace Sys2Proof.Machine

variable {k : Grain}

/-! ## Shared operations -/

theorem raise_steps (c : Condition) (h : levelConditions &&& c.flag = 0) (s : State) : Steps k s (raise c s) :=
  .one (.raise s c h)

theorem raiseIf_steps (p : Bool) (c : Condition) (h : levelConditions &&& c.flag = 0) (s : State) : Steps k s (raiseIf p c s) := by
  unfold raiseIf
  split
  · exact raise_steps c h s
  · exact .refl

theorem block_steps (b : BlockIx) (f : BlockRecord → BlockRecord) (s : State) : Steps k s (modifyBlock b f s) :=
  .one (.block s b f)

theorem link_steps (f : HostLink → HostLink) (s : State) : Steps k s (s.onLink f) :=
  .one (.link s f)

theorem sky_steps (f : SkyUnit → SkyUnit) (s : State) (h : SkyLawful s.sky → SkyLawful (f s.sky))
    (hw : ∀ x : StationIx, (f s.sky).stations[x].warningHeld = s.sky.stations[x].warningHeld) : Steps k s (s.onSky f) :=
  .one (.sky s f h hw)

theorem front_steps (f : FrontTracker → FrontTracker) (s : State) (h : FrontLawful s.front → FrontLawful (f s.front))
    (hw : (f s.front).warnings.map Warning.shallow = s.front.warnings.map Warning.shallow) : Steps k s (s.onFront f) :=
  .one (.front s f h hw)

/-- Warnings join or leave the list. -/
theorem warnings_steps {s t : State} (ht : t = { s with front := t.front, sky := t.sky })
    (h : FrontLawful s.front → FrontLawful t.front) (hu : SkyLawful s.sky → SkyLawful t.sky)
    (hf : FrontLawful s.front → FlagsFollow s → FlagsFollow t)
    (ho : FrontLawful s.front → WarningsOrdered s → WarningsOrdered t) : Steps k s t := by
  have hm : Steps k s { s with front := t.front, sky := t.sky } :=
    .one (.warnings s t.front t.sky h hu (fun a b => ht ▸ hf a b) fun a b => ht ▸ ho a b)
  rw [← ht] at hm
  exact hm

theorem store_steps (f : SettingsStore → SettingsStore) (s : State) : Steps k s (s.onStore f) :=
  .one (.store s f)

theorem storage_steps (f : StorageRecord → StorageRecord) (s : State) : Steps k s (s.onStorage f) :=
  .one (.storage s f)

theorem meter_steps (f : MeterRecord → MeterRecord) (s : State) : Steps k s (s.onMeter f) :=
  .one (.meter s f)

theorem time_steps (t : Time) (s : State) : Steps k s (s.atTime t) :=
  .one (.aside s s.pending (max s.now t) s.freeCount s.resetLow)

/-- A change of the Governor that keeps the phase, or makes it IDLE. -/
theorem gov_steps (f : Governor → Governor) (s : State) (h : (f s.gov).phase = s.gov.phase ∨ (f s.gov).phase = .idle)
    (hw : WindowLawful s.gov → WindowLawful (f s.gov)) : Steps k s (s.onGov f) := by
  refine .one (.gov s f (fun hn => .inl ?_) hw)
  rcases h with h | h
  · rwa [h] at hn
  · exact absurd h hn

/-- A change of the Ring Controller that does not reach its state, its queue, its probe record or the last MARK. -/
theorem ring_steps (f : RingController → RingController) (s : State) (h1 : (f s.ring).state = s.ring.state)
    (h2 : (f s.ring).queue = s.ring.queue) (h3 : (f s.ring).probe = s.ring.probe) (h4 : (f s.ring).lastMark = s.ring.lastMark) :
    Steps k s (s.onRing f) :=
  .one (.ring s f (fun h => by unfold QueueLawful; rw [h1, h2, h3]; exact h)
    fun _ h => by unfold MarksLead; rw [h2, h4]; exact h)

theorem linkError_steps (s : State) : Steps k s (linkError s) :=
  (link_steps _ s).trans (raise_steps _ (by decide) _)

theorem readyReply_steps (kind tag : Byte) (r : Served) : Steps k r.state (readyReply kind tag r) :=
  link_steps _ _

theorem takeRequest_steps (kind tag : Byte) {owner : State → Served} (h : ∀ s, Steps k s (owner s).state) (s : State) :
    Steps k s (takeRequest kind tag owner s) :=
  ((link_steps _ s).trans (h _)).trans (readyReply_steps _ _ _)

theorem execRequest_steps {kind tag : Byte} {owner : State → Served} (h : ∀ s, Steps k s (owner s).state) {s t : State}
    (he : execRequest kind tag owner s = .next t) : Steps k s t := by
  unfold execRequest at he
  injection he with he
  subst he
  split
  · exact .refl
  · exact takeRequest_steps _ _ h s

theorem execEvent_steps {f : State → State} (h : ∀ s, Steps k s (f s)) {s t : State} (he : execEvent f s = .next t) :
    Steps k s t := by
  unfold execEvent at he
  injection he with he
  subst he
  split
  · exact .refl
  · exact h s

@[simp] theorem served_state (s : State) : (served s).state = s := rfl

@[simp] theorem servedWith_state (data : List Byte) (s : State) : (servedWith data s).state = s := rfl

@[simp] theorem refuse_state (st : Status) (s : State) : (refuse st s).state = s := rfl

/-! ## Block Table -/

theorem serveEnroll_steps (block : Byte) (rated : Half) (group : Byte) (s : State) :
    Steps k s (serveEnroll block rated group s).state := by
  unfold serveEnroll
  repeat' split
  all_goals first | exact block_steps _ _ s | exact .refl

theorem serveProfile_steps (block : Byte) (rated : Half) (group : Byte) (s : State) :
    Steps k s (serveProfile block rated group s).state := by
  unfold serveProfile
  repeat' split
  all_goals first | exact block_steps _ _ s | exact .refl

theorem serveWithdraw_steps (block : Byte) (s : State) : Steps k s (serveWithdraw block s).state := by
  unfold serveWithdraw
  repeat' split
  all_goals first | exact block_steps _ _ s | exact .refl

theorem servePin_steps (block : Byte) (cap : Half) (s : State) : Steps k s (servePin block cap s).state := by
  unfold servePin
  repeat' split
  all_goals first | exact block_steps _ _ s | exact .refl

theorem serveUnpin_steps (block : Byte) (s : State) : Steps k s (serveUnpin block s).state := by
  unfold serveUnpin
  repeat' split
  all_goals first | exact block_steps _ _ s | exact .refl

theorem serveBar_steps (block : Byte) (s : State) : Steps k s (serveBar block s).state := by
  unfold serveBar
  repeat' split
  all_goals first | exact block_steps _ _ s | exact .refl

theorem serveUnbar_steps (block : Byte) (s : State) : Steps k s (serveUnbar block s).state := by
  unfold serveUnbar
  repeat' split
  all_goals first | exact block_steps _ _ s | exact .refl

theorem serveReadBlock_steps (block : Byte) (s : State) : Steps k s (serveReadBlock block s).state := by
  unfold serveReadBlock
  split <;> exact .refl

theorem takeCapture_steps (b : BlockIx) (cap : Nat) (e : Epoch) (s : State) : Steps k s (takeCapture b cap e s) := by
  refine (block_steps b (BlockRecord.captured cap e) s).trans ?_
  unfold takeCapture setGroupCapture
  split
  · exact Steps.one (.groupCapture _ _)
  · exact .refl

theorem takeCapChange_steps (b : BlockIx) (cap : Nat) (s : State) : Steps k s (takeCapChange b cap s) :=
  block_steps _ _ s

theorem takeRelease_steps (b : BlockIx) (e : Epoch) (s : State) : Steps k s (takeRelease b e s) :=
  block_steps _ _ s

theorem judgeCompliance_steps (b : BlockIx) (rep : BlockReport) (s : State) : Steps k s (judgeCompliance b rep s) := by
  unfold judgeCompliance
  dsimp only
  repeat' split
  all_goals first
    | exact .refl
    | exact (block_steps _ _ s).trans (raise_steps _ (by decide) _)
    | exact block_steps _ _ s

theorem currentReport_steps (b : BlockIx) (rep : BlockReport) (s : State) : Steps k s (currentReport b rep s) := by
  unfold currentReport
  split
  all_goals first
    | exact .refl
    | exact (block_steps _ _ s).trans (raise_steps _ (by decide) _)
    | exact (block_steps _ _ s).trans (judgeCompliance_steps _ _ _)
    | exact judgeCompliance_steps _ _ s
    | exact block_steps _ _ s

theorem blockReport_steps (b : BlockIx) (rep : BlockReport) (s : State) : Steps k s (blockReport b rep s) := by
  unfold blockReport
  repeat' split
  all_goals first
    | exact .refl
    | exact (block_steps _ _ s).trans (currentReport_steps _ _ _)
    | exact block_steps _ _ s

theorem blockAlert_steps (b : BlockIx) (cls : AlertClass) (data : Word) (s : State) : Steps k s (blockAlert b cls data s) := by
  unfold blockAlert
  split
  all_goals first | exact .refl | exact block_steps _ _ s

theorem blockEpochRule_steps (e : Epoch) (s : State) : Steps k s (blockEpochRule e s) := by
  unfold blockEpochRule
  split
  · exact .refl
  · refine (Steps.foldl (fun s b => ?_) _ s).trans (Steps.foldl (fun s b => ?_) _ _)
    · unfold silenceCheck
      dsimp only
      repeat' split
      all_goals first
        | exact .refl
        | exact (block_steps _ _ s).trans (raise_steps _ (by decide) _)
        | exact block_steps _ _ s
    · unfold restCheck
      split
      · exact block_steps _ _ s
      · exact .refl

theorem stopBlocks_steps (s : State) : Steps k s (stopBlocks s) :=
  (Steps.foldl (fun s _ => block_steps _ _ s) _ s).trans (Steps.foldl (fun s _ => block_steps _ _ s) _ _)

theorem startBlocks_steps (s : State) : Steps k s (startBlocks s) :=
  (Steps.foldl (fun s _ => block_steps _ _ s) _ s).trans (Steps.one (.groupCapture _ _))

theorem raiseFloors_steps (s : State) : Steps k s (raiseFloors s) :=
  Steps.foldl (fun s _ => block_steps _ _ s) _ s

/-! ## Dispatch endings and hold lines -/

theorem completeDispatch_steps (st : PlantStatus) (s : State) : Steps k s (completeDispatch st s) :=
  gov_steps _ s (.inr rfl) id

theorem cutDispatch_steps (s : State) : Steps k s (cutDispatch s) := by
  unfold cutDispatch
  split
  all_goals first | exact .refl | exact completeDispatch_steps _ s

theorem ringDownDispatch_steps (s : State) : Steps k s (ringDownDispatch s) := by
  unfold ringDownDispatch
  split
  all_goals first | exact .refl | exact completeDispatch_steps _ s

theorem overrunDispatch_steps (s : State) : Steps k s (overrunDispatch s) := by
  unfold overrunDispatch
  split
  all_goals first | exact .refl | exact (gov_steps _ s (.inr rfl) id).trans (raise_steps _ (by decide) _)

/-- A change of latches or seen levels. -/
theorem latch_steps (f : RunControl → RunControl) (s : State) (h1 : (f s.run).state = s.run.state)
    (h2 : (f s.run).trigger = s.run.trigger) : Steps k s (s.onRun f) :=
  .one (.run s f (by rw [h1]) (by rw [h1]) h2)

@[simp] theorem setLine_state (line : HoldLine) (h : HoldState) (c : RunControl) : (c.setLine line h).state = c.state := by
  cases line <;> rfl

@[simp] theorem setLine_trigger (line : HoldLine) (h : HoldState) (c : RunControl) :
    (c.setLine line h).trigger = c.trigger := by
  cases line <;> rfl

theorem beginHold_steps (s : State) : Steps k s (beginHold s) := by
  unfold beginHold
  split
  · rename_i h
    exact (Steps.one (.run s _ (by simp [h, RunState.inRun]) (by simp [h]) rfl)).trans (raise_steps _ (by decide) _)
  · exact .refl

theorem setLatch_steps (line : HoldLine) (s : State) : Steps k s (setLatch line s) := by
  unfold setLatch
  split
  · exact .refl
  · refine (latch_steps (fun c => c.setLine line { c.line line with latch := true }) s (by simp) (by simp)).trans
      ((beginHold_steps _).trans ?_)
    unfold cutIfFreezeBegan
    split
    · exact cutDispatch_steps _
    · exact .refl

theorem clearLatch_steps (line : HoldLine) (s : State) : Steps k s (clearLatch line s) :=
  latch_steps _ s (by simp) (by simp)

theorem seeAsserted_steps (line : HoldLine) (s : State) : Steps k s (seeAsserted line s) := by
  unfold seeAsserted
  split
  · exact .refl
  · refine (latch_steps (fun c => c.setLine line { c.line line with seen := some .asserted }) s (by simp) (by simp)).trans ?_
    dsimp only
    split
    · exact setLatch_steps _ _
    · exact .refl

theorem seeInactive_steps (line : HoldLine) (s : State) : Steps k s (seeInactive line s) :=
  latch_steps _ s (by simp) (by simp)

theorem releaseEpochLine_steps (s : State) (line : HoldLine) : Steps k s (releaseEpochLine s line) := by
  unfold releaseEpochLine
  repeat' split
  all_goals first | exact .refl | exact clearLatch_steps _ s

theorem runControlEpochRule_steps (s : State) : Steps k s (runControlEpochRule s) := by
  refine (releaseEpochLine_steps s .a).trans ((releaseEpochLine_steps _ .b).trans ?_)
  unfold runControlEpochRule endHold
  split
  · rename_i h
    exact (Steps.one (.run _ _ (by simp [h.1, RunState.inRun]) (by simp [h.1]) rfl)).trans (raise_steps _ (by decide) _)
  · exact .refl

theorem serveClearHold_steps (line : Byte) (s : State) : Steps k s (serveClearHold line s).state := by
  unfold serveClearHold
  repeat' split
  all_goals first | exact .refl | exact clearLatch_steps _ s

/-! ## Settings and the opening step -/

theorem serveSetPlant_steps (body : PlantBody) (s : State) : Steps k s (serveSetPlant body s).state := by
  unfold serveSetPlant
  split
  all_goals simp only [served_state, refuse_state]
  all_goals first | exact store_steps _ _ | exact .refl

theorem serveSetGroup_steps (group : Byte) (body : GroupBody) (s : State) : Steps k s (serveSetGroup group body s).state := by
  unfold serveSetGroup
  split
  all_goals simp only [served_state, refuse_state]
  all_goals first | exact store_steps _ _ | exact .refl

theorem adoptLine_steps (before : Option PlantRecord) (s : State) (line : HoldLine) : Steps k s (adoptLine before s line) := by
  unfold adoptLine
  repeat' split
  all_goals first | exact .refl | exact clearLatch_steps _ s | exact setLatch_steps _ s

theorem newestSamples_length (w : Nat) (l : List Nat) : (newestSamples w l).length ≤ w := by
  simp [newestSamples]; omega

theorem bandOf_ordered (p : PlantRecord) (sample wmax wmin : Nat) :
    (bandOf p sample wmax wmin).low ≤ (bandOf p sample wmax wmin).high := by
  unfold bandOf
  dsimp only
  split
  · assumption
  · exact Nat.le_refl _

theorem commitStaged_window (st : SettingsStore) (g : Governor) (h : WindowLawful g) : WindowLawful (commitStaged st g) := by
  refine ⟨fun p hp => ?_, h.2⟩
  have hp' : st.plant.or g.plant = some p := hp
  simp only [commitStaged, hp', windowFor]
  exact newestSamples_length _ _

theorem adopt_steps (s : State) : Steps k s (adopt s) := by
  unfold adopt
  split
  · exact (gov_steps _ s (.inl rfl) (commitStaged_window _ _)).trans ((store_steps _ _).trans ((raiseFloors_steps _).trans
      ((adoptLine_steps _ _ .a).trans (adoptLine_steps _ _ .b))))
  · exact .refl

theorem checkBreach_steps (sample : Nat) (s : State) : Steps k s (checkBreach sample s) := by
  unfold checkBreach
  repeat' split
  all_goals first | exact .refl | exact (gov_steps _ s (.inl rfl) id).trans (raise_steps _ (by decide) _)

theorem countFree_steps (m : Bool) (s : State) : Steps k s (countFree m s) := by
  unfold countFree
  split
  · exact Steps.one (.aside s s.pending s.now _ s.resetLow)
  · exact .refl

theorem moveSource_steps (src : SampleSource) (s : State) : Steps k s (moveSource src s) :=
  (gov_steps _ s (.inl rfl) id).trans (raiseIf_steps _ _ (by decide) _)

theorem stage_plant (sample : Nat) (src : SampleSource) (m : Bool) (s : State) :
    (checkBreach sample (moveSource src (countFree m s))).gov.plant = s.gov.plant := by
  unfold checkBreach moveSource countFree
  repeat' split
  all_goals simp

theorem sampleAndBand_steps (e : Epoch) (p : PlantRecord) (s : State) (hp : s.gov.plant = some p) :
    Steps k s (sampleAndBand e p s).1 := by
  unfold sampleAndBand
  dsimp only
  refine .trans ?_ (gov_steps _ _ (.inl rfl) fun _ => ⟨fun q hq => ?_, fun b hb => ?_⟩)
  rotate_left
  · have hq : (checkBreach _ (moveSource _ (countFree _ s))).gov.plant = some q := hq
    rw [stage_plant, hp] at hq
    injection hq with hq
    subst hq
    exact newestSamples_length _ _
  · injection hb with hb
    subst hb
    exact bandOf_ordered _ _ _ _
  refine .trans ?_ (checkBreach_steps _ _)
  refine .trans ?_ (moveSource_steps _ _)
  exact countFree_steps _ _

theorem cutDispatch_run (s : State) : (cutDispatch s).run = s.run := by
  unfold cutDispatch; split <;> rfl

theorem beginHold_inRun (s : State) : (beginHold s).run.state.inRun = s.run.state.inRun := by
  unfold beginHold; split <;> simp_all [RunState.inRun]

theorem setLatch_inRun (line : HoldLine) (s : State) : (setLatch line s).run.state.inRun = s.run.state.inRun := by
  unfold setLatch cutIfFreezeBegan
  split
  · rfl
  · split
    · rw [cutDispatch_run, beginHold_inRun]; simp
    · rw [beginHold_inRun]; simp

theorem adoptLine_inRun (before : Option PlantRecord) (s : State) (line : HoldLine) :
    (adoptLine before s line).run.state.inRun = s.run.state.inRun := by
  unfold adoptLine
  repeat' split
  all_goals first | rfl | exact setLatch_inRun _ _ | simp [clearLatch]

theorem foldl_keeps {α β : Type} (g : State → β) {f : State → α → State} (h : ∀ s a, g (f s a) = g s) (l : List α) (s : State) :
    g (l.foldl f s) = g s := by
  induction l generalizing s with
  | nil => rfl
  | cons a l ih => rw [List.foldl_cons, ih, h]

theorem raiseFloors_run (s : State) : (raiseFloors s).run = s.run :=
  foldl_keeps State.run (fun s b => modifyBlock_run s b _) _ s

theorem adopt_inRun (s : State) : (adopt s).run.state.inRun = s.run.state.inRun := by
  unfold adopt
  split
  · dsimp only
    rw [adoptLine_inRun, adoptLine_inRun, raiseFloors_run]
    rfl
  · rfl

theorem overrunDispatch_run (s : State) : (overrunDispatch s).run = s.run := by
  unfold overrunDispatch; split <;> simp

theorem sampleAndBand_run (e : Epoch) (p : PlantRecord) (s : State) : (sampleAndBand e p s).1.run = s.run := by
  simp only [sampleAndBand, State.onGov_run]
  unfold checkBreach moveSource countFree
  repeat' split
  all_goals simp

theorem openDispatch_steps (e : Epoch) (s : State) (h : s.run.state.inRun = true) : Steps k s (openDispatch e s) := by
  unfold openDispatch
  dsimp only
  refine (overrunDispatch_steps s).trans ((adopt_steps _).trans ?_)
  split
  · exact .refl
  · rename_i hp
    refine (sampleAndBand_steps e _ _ hp).trans (Steps.one (.gov _ _ (fun _ => .inr ?_) id))
    rw [sampleAndBand_run, adopt_inRun, overrunDispatch_run, h]

/-! ## The outbound queue -/

theorem filter_enqueue_length (q : List OwnPacket) (same keep : OwnPacket → Bool) (p : OwnPacket)
    (hs : ∀ x, same x = true → keep x = keep p) :
    ((enqueue same p q).filter keep).length
      = if q.any same then (q.filter keep).length else (q.filter keep).length + if keep p then 1 else 0 := by
  unfold enqueue
  split
  · clear ‹_›
    induction q with
    | nil => rfl
    | cons x q ih =>
      by_cases hx : same x = true
      · have := hs x hx
        by_cases hk : keep p = true <;> simp_all
      · by_cases hk : keep x = true <;> simp_all
  · rw [List.filter_append, List.length_append]
    by_cases hk : keep p = true <;> simp [hk]

/-- R156, R157: an offer that is admitted keeps the queue lawful. -/
theorem enqueue_lawful (r : RingController) (same : OwnPacket → Bool) (p : OwnPacket) (hup : r.state = .up)
    (hm : p.isMark = false) (hp : p.isProbe = false) (hs : ∀ x, same x = p.sameTarget x)
    (hr : r.queue.any same = true ∨ hasRoom r.queue = true) (h : QueueLawful r) :
    QueueLawful { r with queue := enqueue same p r.queue } := by
  obtain ⟨h1, h2, _, _, h5, h6⟩ := h
  have hk (x : OwnPacket) (hx : same x = true) : x.isMark = false ∧ x.isProbe = false := by
    rw [hs] at hx
    have := (sameTarget_spec hx).1
    cases p <;> cases x <;> simp_all [OwnPacket.sameTarget, OwnPacket.isMark, OwnPacket.isProbe]
  have e1 := filter_enqueue_length r.queue same OwnPacket.isMark p (fun x hx => by rw [(hk x hx).1, hm])
  have e2 := filter_enqueue_length r.queue same (fun x => !x.isMark) p (fun x hx => by rw [(hk x hx).1, hm])
  have e3 := filter_enqueue_length r.queue same OwnPacket.isProbe p (fun x hx => by rw [(hk x hx).2, hp])
  refine ⟨?_, ?_, fun hn => absurd hup hn, fun hd => by simp [hup] at hd, ?_, enqueue_distinct hs h6⟩
  · rw [e1, hm]; split <;> exact h1
  · rw [e2]
    split
    · exact h2
    · rename_i hq
      simp only [hm, Bool.not_false, if_true]
      rcases hr with hr | hr
      · exact absurd hr hq
      · have : (r.queue.filter fun p => !p.isMark).length < 63 := of_decide_eq_true hr
        omega
  · rw [e3, hp]; split <;> exact h5

theorem capEnters_steps (b : BlockIx) (label : Epoch) (lease : Nat) (s : State) : Steps k s (capEnters b label lease s) :=
  block_steps _ _ s

theorem storeEnters_steps (label : Epoch) (power : Int) (s : State) : Steps k s (storeEnters label power s) :=
  storage_steps _ s

theorem countLate_steps (n : Nat) (s : State) : Steps k s (countLate n s) := by
  unfold countLate
  split
  · exact .refl
  · exact (ring_steps _ s rfl rfl rfl rfl).trans (raise_steps _ (by decide) _)

theorem countOffer_steps (label : Epoch) (s : State) : Steps k s (countOffer label s) :=
  countLate_steps _ s

/-- Offers come from a dispatch in flight and from the Lease Scheduler, both of which act in a run alone. -/
theorem offerCap_steps {b : BlockIx} {label : Epoch} {limit : Option Nat} {lease : Nat} {s t : State}
    (hr : RunLawful s → s.run.state ≠ .stopped) (h : offerCap b label limit lease s = some t) : Steps k s t := by
  unfold offerCap at h
  split at h
  · rename_i ha
    simp only [capAdmissible, Bool.and_eq_true, Bool.or_eq_true, beq_iff_eq] at ha
    injection h with h
    subst h
    have hs := isCapAt_eq b (enteringLabel s.ring label) limit lease
    refine (Steps.one (.ring s _ (fun hl => ?_) fun hl hm => ?_)).trans ((countOffer_steps _ _).trans (capEnters_steps _ _ _ _))
    · exact enqueue_lawful _ _ _ ha.1 rfl rfl hs ha.2 hl
    · exact enqueue_marks hs rfl rfl (hr hl) hm
  · exact absurd h (by simp)

theorem offerStore_steps {label : Epoch} {power : Int} {lease : Nat} {s t : State}
    (hr : RunLawful s → s.run.state ≠ .stopped) (h : offerStore label power lease s = some t) : Steps k s t := by
  unfold offerStore at h
  split at h
  · rename_i ha
    simp only [storeAdmissible, Bool.and_eq_true, Bool.or_eq_true, beq_iff_eq] at ha
    injection h with h
    subst h
    have hs := isStoreAt_eq (enteringLabel s.ring label) power lease
    refine (Steps.one (.ring s _ (fun hl => ?_) fun hl hm => ?_)).trans ((countOffer_steps _ _).trans (storeEnters_steps _ _ _))
    · exact enqueue_lawful _ _ _ ha.1 rfl rfl hs ha.2 hl
    · exact enqueue_marks hs rfl rfl (hr hl) hm
  · exact absurd h (by simp)

@[simp] theorem isMark_relabel (l : Epoch) (p : OwnPacket) : (p.relabel l).isMark = p.isMark := by
  cases p <;> rfl

@[simp] theorem isProbe_relabel (l : Epoch) (p : OwnPacket) : (p.relabel l).isProbe = p.isProbe := by
  cases p <;> rfl

@[simp] theorem isMark_mark (e : Epoch) : (OwnPacket.mark e).isMark = true := rfl

@[simp] theorem isProbe_mark (e : Epoch) : (OwnPacket.mark e).isProbe = false := rfl

@[simp] theorem isMark_probe (n : Byte) : (OwnPacket.probe n).isMark = false := rfl

@[simp] theorem isProbe_probe (n : Byte) : (OwnPacket.probe n).isProbe = true := rfl

theorem length_filter_cons {α : Type} (keep : α → Bool) (p : α) (l : List α) :
    ((p :: l).filter keep).length = (l.filter keep).length + if keep p then 1 else 0 := by
  by_cases h : keep p = true <;> simp [h]

theorem length_filter_snoc {α : Type} (keep : α → Bool) (p : α) (l : List α) :
    ((l ++ [p]).filter keep).length = (l.filter keep).length + if keep p then 1 else 0 := by
  by_cases h : keep p = true <;> simp [h]

/-- R159: the late packets are removed or relabelled; nothing is added, and nothing changes its kind. -/
theorem relabelLate_count (e : Epoch) (keep : OwnPacket → Bool) (hk : ∀ l p, keep (p.relabel l) = keep p)
    (done l : List OwnPacket) :
    ((relabelLate e done l).queue.filter keep).length ≤ (done.filter keep).length + (l.filter keep).length := by
  induction l generalizing done with
  | nil => simp [relabelLate]
  | cons p rest ih =>
    rw [length_filter_cons]
    unfold relabelLate
    split
    · split
      · have := ih done
        dsimp only; omega
      · have := ih (done ++ [p.relabel (e + 1)])
        rw [length_filter_snoc, hk] at this
        dsimp only; omega
    · have := ih (done ++ [p])
      rw [length_filter_snoc] at this
      omega

/-- R159: only late packets are touched, and no PROBE is late. -/
theorem relabelLate_probes (e : Epoch) (done l : List OwnPacket) :
    ((relabelLate e done l).queue.filter OwnPacket.isProbe).length
      = (done.filter OwnPacket.isProbe).length + (l.filter OwnPacket.isProbe).length := by
  induction l generalizing done with
  | nil => simp [relabelLate]
  | cons p rest ih =>
    rw [length_filter_cons]
    unfold relabelLate
    split
    · rename_i hl
      have hp : p.isProbe = false := by cases p <;> simp_all [OwnPacket.lateAt, OwnPacket.isProbe]
      split
      · dsimp only
        rw [ih, hp]; simp
      · dsimp only
        rw [ih, length_filter_snoc, isProbe_relabel, hp]; simp
    · rw [ih, length_filter_snoc]; omega

/-- R159: no MARK comes out of the relabelling that did not go in. -/
theorem relabelLate_marks (e : Epoch) (done l : List OwnPacket) (h : ∀ p ∈ done ++ l, p.isMark = false) :
    (relabelLate e done l).queue.filter OwnPacket.isMark = [] := by
  have := relabelLate_count e OwnPacket.isMark (fun l p => isMark_relabel l p) done l
  have h0 : (done.filter OwnPacket.isMark).length + (l.filter OwnPacket.isMark).length = 0 := by
    rw [← List.length_append, ← List.filter_append, List.length_eq_zero_iff, List.filter_eq_nil_iff]
    exact fun p hp => by simp [h p hp]
  exact List.length_eq_zero_iff.1 (by omega)

theorem moveLabel_steps (l : Epoch) (s : State) (p : OwnPacket) : Steps k s (moveLabel l s p) := by
  cases p <;> first | exact block_steps _ _ s | exact storage_steps _ s | exact .refl

theorem placeMarker_steps (e : Epoch) (s : State) : Steps k s (placeMarker e s) := by
  unfold placeMarker
  split
  · rename_i hup
    have hnm : ∀ p ∈ s.ring.queue.filter (fun p => !p.isMark), p.isMark = false := by
      intro p hp
      simpa using (List.mem_filter.1 hp).2
    refine (Steps.one (.ring s _ (fun h => ?_) fun _ _ => ?_)).trans
      ((Steps.foldl (fun s p => moveLabel_steps _ s p) _ _).trans (countLate_steps _ _))
    · obtain ⟨h1, h2, _, _, h5, h6⟩ := h
      have hm := relabelLate_marks e [] _ hnm
      have hc := relabelLate_count e (fun p => !p.isMark) (fun l p => by simp) [] (s.ring.queue.filter fun p => !p.isMark)
      have hp := relabelLate_probes e [] (s.ring.queue.filter fun p => !p.isMark)
      have hpp : (s.ring.queue.filter fun p => !p.isMark).filter OwnPacket.isProbe = s.ring.queue.filter OwnPacket.isProbe := by
        rw [List.filter_filter]
        refine List.filter_congr fun p _ => ?_
        cases p <;> rfl
      rw [List.filter_filter] at hc
      simp only [Bool.and_self, List.filter_nil, List.length_nil, Nat.zero_add] at hc hp
      refine ⟨?_, ?_, fun hn => absurd hup hn, fun hd => by simp [hup] at hd, ?_, List.pairwise_cons.2 ⟨fun _ _ => rfl, ?_⟩⟩
      · dsimp only
        rw [length_filter_cons, hm]; simp
      · dsimp only
        rw [length_filter_cons]; simp only [isMark_mark, Bool.not_true, Bool.false_eq_true, if_false]; omega
      · dsimp only
        rw [length_filter_cons, hp, hpp, h5]; simp
      · exact relabelLate_distinct e [] _ (h6.sublist List.filter_sublist)
    · exact placed_marks (relabelLate_noMark e [] _ nofun hnm) (relabelLate_onTime e [] _ nofun)
  · exact .refl

theorem onlyProbes_filter (q : List OwnPacket) :
    (onlyProbes q).filter OwnPacket.isProbe = q.filter OwnPacket.isProbe ∧ (onlyProbes q).filter OwnPacket.isMark = [] := by
  constructor
  · simp [onlyProbes, List.filter_filter]
  · rw [List.filter_eq_nil_iff]
    intro p hp
    have := (List.mem_filter.1 hp).2
    cases p <;> simp_all [OwnPacket.isProbe, OwnPacket.isMark]

theorem onlyProbes_lawful (r : RingController) (h : QueueLawful r) : QueueLawful { r with queue := onlyProbes r.queue } := by
  obtain ⟨h1, h2, h3, h4, h5, h6⟩ := h
  have ho := onlyProbes_filter r.queue
  refine ⟨by simp [ho.2], ?_, fun _ p hp => (List.mem_filter.1 hp).2, fun hd => ?_, by rw [ho.1]; exact h5,
    h6.sublist List.filter_sublist⟩
  · refine le_trans (List.length_filter_le _ _) ?_
    show (r.queue.filter OwnPacket.isProbe).length ≤ 63
    rw [h5]; split <;> omega
  · have := h4 hd
    exact ⟨by simp [this.1, onlyProbes], this.2⟩

theorem onlyProbes_noMark (q : List OwnPacket) (e : Epoch) : .mark e ∉ onlyProbes q :=
  fun h => Bool.noConfusion (List.mem_filter.1 h).2

theorem dropQueue_steps (s : State) : Steps k s (dropQueue s) :=
  .one (.ring s _ (fun h => onlyProbes_lawful _ h) fun _ h => h.sublist List.filter_sublist)

end Sys2Proof.Machine
end

