-- ==== Sys2Proof/Laws/Commands.lean ====
section
/-! SUPPORT. The remaining families as sequences of moves, and `exec_steps`: whatever a command answers is reached by moves. -/

namespace Sys2Proof.Machine

variable {k : Grain}

/-! ## Staging and the end of computing -/

theorem staleDecision_steps (s : State) : Steps k s (staleDecision s) :=
  (gov_steps _ s (.inl rfl) id).trans (raise_steps _ (by decide) _)

/-- A dispatch in flight is a run. -/
theorem inRun_not_stopped {s : State} (h : s.run.state.inRun = true) : s.run.state ≠ .stopped := by
  intro e; rw [e] at h; exact Bool.noConfusion h

theorem staging_not_stopped {s : State} (h : s.gov.phase ≠ .idle) (hr : RunLawful s) : s.run.state ≠ .stopped :=
  inRun_not_stopped (hr.2.2.2 h)

theorem stageBlock_steps {e : Epoch} {b : BlockIx} {rev : Half} {limit : Option Nat} {lease : Nat}
    {counted : StagedCounts → StagedCounts} {effect : State → State} {counts : StagedCounts} {s : State}
    {r : StagedCounts × State} (he : ∀ s, Steps k s (effect s)) (hp : s.gov.phase ≠ .idle)
    (h : stageBlock e b rev limit lease counted effect counts s = some r) : Steps k s r.2 := by
  unfold stageBlock at h
  split at h
  · split at h
    · obtain ⟨t, ht, hr⟩ := Option.map_eq_some_iff.1 h
      subst hr
      exact (offerCap_steps (staging_not_stopped hp) ht).trans (he t)
    · injection h with h
      subst h
      exact staleDecision_steps s
  · exact absurd h (by simp)

theorem stageDecision_steps {e : Epoch} {d : Decision} {counts : StagedCounts} {s : State} {r : StagedCounts × State}
    (hp : s.gov.phase ≠ .idle) (h : stageDecision e d counts s = some r) : Steps k s r.2 := by
  unfold stageDecision at h
  cases d with
  | store power =>
    obtain ⟨t, ht, hr⟩ := Option.map_eq_some_iff.1 h
    subst hr
    exact offerStore_steps (staging_not_stopped hp) ht
  | capture b cap rev => exact stageBlock_steps (takeCapture_steps b cap e) hp h
  | capChange b cap rev => exact stageBlock_steps (takeCapChange_steps b cap) hp h
  | release b rev => exact stageBlock_steps (takeRelease_steps b e) hp h

theorem offerCap_phase {b : BlockIx} {label : Epoch} {limit : Option Nat} {lease : Nat} {s t : State}
    (h : offerCap b label limit lease s = some t) : t.gov = s.gov ∧ t.run = s.run := by
  unfold offerCap at h
  split at h
  · injection h with h
    subst h
    constructor <;> simp only [capEnters, modifyBlock_gov, modifyBlock_run, countOffer, countLate] <;> split <;> simp
  · exact absurd h (by simp)

theorem offerStore_phase {label : Epoch} {power : Int} {lease : Nat} {s t : State}
    (h : offerStore label power lease s = some t) : t.gov = s.gov ∧ t.run = s.run := by
  unfold offerStore at h
  split at h
  · injection h with h
    subst h
    constructor <;> simp only [storeEnters, State.onStorage_gov, State.onStorage_run, countOffer, countLate] <;> split <;> simp
  · exact absurd h (by simp)

theorem setGroupCapture_frame (b : BlockIx) (e : Epoch) (s : State) :
    (setGroupCapture b e s).gov = s.gov ∧ (setGroupCapture b e s).run = s.run := by
  unfold setGroupCapture; split <;> exact ⟨rfl, rfl⟩

/-- Staging a decision leaves the phase and the run state as they stand. -/
theorem stageBlock_phase {e : Epoch} {b : BlockIx} {rev : Half} {limit : Option Nat} {lease : Nat}
    {counted : StagedCounts → StagedCounts} {effect : State → State} {counts : StagedCounts} {s : State}
    {r : StagedCounts × State} (he : ∀ s, (effect s).gov = s.gov ∧ (effect s).run = s.run)
    (h : stageBlock e b rev limit lease counted effect counts s = some r) :
    r.2.gov.phase = s.gov.phase ∧ r.2.run = s.run := by
  unfold stageBlock at h
  split at h
  · split at h
    · obtain ⟨t, ht, hr⟩ := Option.map_eq_some_iff.1 h
      subst hr
      have := offerCap_phase ht
      simp [(he t).1, (he t).2, this.1, this.2]
    · injection h with h
      subst h
      simp [staleDecision]
  · exact absurd h (by simp)

theorem stageDecision_phase {e : Epoch} {d : Decision} {counts : StagedCounts} {s : State} {r : StagedCounts × State}
    (h : stageDecision e d counts s = some r) : r.2.gov.phase = s.gov.phase ∧ r.2.run = s.run := by
  unfold stageDecision at h
  cases d with
  | store power =>
    obtain ⟨t, ht, hr⟩ := Option.map_eq_some_iff.1 h
    subst hr
    have := offerStore_phase ht
    simp [this.1, this.2]
  | capture b cap rev =>
    exact stageBlock_phase (effect := takeCapture b cap e) (fun s => setGroupCapture_frame b e _) h
  | capChange b cap rev => exact stageBlock_phase (effect := takeCapChange b cap) (fun s => ⟨rfl, rfl⟩) h
  | release b rev => exact stageBlock_phase (effect := takeRelease b e) (fun s => ⟨rfl, rfl⟩) h

theorem stageAll_steps (o : Opened) (supply : SupplyFigures) (plan : PlanFigures) (todo : List Decision)
    (counts : StagedCounts) (s : State) (h : s.gov.phase ≠ .idle) : Steps k s (stageAll o supply plan todo counts s) := by
  induction todo generalizing counts s with
  | nil => exact completeDispatch_steps _ s
  | cons d rest ih =>
    unfold stageAll
    split
    · rename_i r hr
      exact (stageDecision_steps h hr).trans (ih _ _ (by rw [(stageDecision_phase hr).1]; exact h))
    · exact .one (.gov s _ (fun _ => .inl h) id)

theorem frozenEnd_steps (p : PlantRecord) (o : Opened) (s : State) : Steps k s (frozenEnd p o s) :=
  (gov_steps _ s (.inl rfl) id).trans (completeDispatch_steps _ _)

theorem raisePath_steps (path : TargetPath) (s : State) : Steps k s (raisePath path s) := by
  cases path
  · exact .refl
  · exact raise_steps _ (by decide) s
  · exact raise_steps _ (by decide) s

theorem raisePath_gov (path : TargetPath) (s : State) : (raisePath path s).gov = s.gov := by
  cases path <;> simp [raisePath]

theorem plannedEnd_steps (o : Opened) (pl : Plan) (s : State) (h : s.gov.phase ≠ .idle) : Steps k s (plannedEnd o pl s) := by
  unfold plannedEnd
  dsimp only
  split
  · refine .trans ?_ (stageAll_steps _ _ _ _ _ _ (by rw [raiseIf_gov, raisePath_gov]; simp))
    refine .trans ?_ (raiseIf_steps _ .captureShort (by decide) _)
    refine .trans ?_ (raisePath_steps _ _)
    exact Steps.one (.gov s _ (fun _ => .inl h) id)
  · refine .trans ?_ (ringDownDispatch_steps _)
    refine .trans ?_ (raiseIf_steps _ .captureShort (by decide) _)
    refine .trans ?_ (raisePath_steps _ _)
    exact Steps.one (.gov s _ (fun _ => .inl h) id)

theorem computingEnd_steps (s : State) : Steps k s (computingEnd s) := by
  unfold computingEnd
  split
  · rename_i h _
    split
    · exact frozenEnd_steps _ _ s
    · exact plannedEnd_steps _ _ s (by rw [h]; simp)
  · exact .refl

theorem resumeStaging_steps (s : State) : Steps k s (resumeStaging s) := by
  unfold resumeStaging
  split
  · rename_i h
    exact stageAll_steps _ _ _ _ _ s (by rw [h]; simp)
  · exact .refl
  · exact .refl

/-! ## Node Records, alerts and the Lease Scheduler -/

theorem storageReport_steps (rep : NodeReport) (s : State) : Steps k s (storageReport rep s) := by
  unfold storageReport
  dsimp only
  split
  · refine .trans (storage_steps (StorageRecord.updated rep s.timer.epoch) s) ?_
    unfold judgeStorage storageOwed
    dsimp only
    repeat' split
    all_goals first
      | exact .refl
      | exact (storage_steps _ _).trans (raise_steps _ (by decide) _)
      | exact storage_steps _ _
  · exact storage_steps _ s

theorem meterReport_steps (rep : NodeReport) (s : State) : Steps k s (meterReport rep s) :=
  meter_steps _ s

theorem nodeEpochRule_steps (e : Epoch) (s : State) : Steps k s (nodeEpochRule e s) := by
  unfold nodeEpochRule
  split
  · refine .trans ?_ (meter_steps _ _)
    unfold storageEpochRule
    dsimp only
    split
    · exact (storage_steps _ s).trans (raise_steps _ (by decide) _)
    · exact .refl
  · exact .refl

theorem startNodes_steps (s : State) : Steps k s (startNodes s) :=
  (storage_steps _ s).trans (meter_steps _ _)

theorem storeAlert_steps (a : AlertEntry) (s : State) : Steps k s (storeAlert a s) := by
  unfold storeAlert
  dsimp only
  split
  · rename_i hl
    exact .one (.alerts s _ _ fun h => ⟨by simpa using hl, h.2⟩)
  · refine .trans ?_ (raise_steps _ (by decide) _)
    exact Steps.one (.alerts s _ _ fun h => ⟨h.1, by simp [saturate]⟩)

theorem alertIntake_steps (node : Nat) (cls : AlertClass) (data : Word) (s : State) :
    Steps k s (alertIntake node cls data s) := by
  unfold alertIntake
  dsimp only
  split
  · exact (blockAlert_steps _ _ _ s).trans (storeAlert_steps _ _)
  · exact storeAlert_steps _ s

theorem emptyAllAlerts_steps (s : State) : Steps k s (emptyAllAlerts s) :=
  Steps.foldl (f := emptyAlerts) (fun s c => .one (.alerts s c _ fun h => ⟨by simp, h.2⟩)) _ s

theorem serveAlertTake_steps (cls : Byte) (s : State) : Steps k s (serveAlertTake cls s).state := by
  unfold serveAlertTake
  split
  · exact .refl
  · split
    · exact .refl
    · rename_i c _ _ _ _ hl
      exact .one (.alerts s c _ fun h => ⟨by rw [hl] at h; simp at h ⊢; omega, h.2⟩)

theorem serveAlertPeek_steps (cls index : Byte) (s : State) : Steps k s (serveAlertPeek cls index s).state := by
  unfold serveAlertPeek
  dsimp only
  repeat' split
  all_goals exact .refl

theorem serveAlertFlush_steps (cls : Byte) (s : State) : Steps k s (serveAlertFlush cls s).state := by
  unfold serveAlertFlush
  split
  · exact .refl
  · exact .one (.alerts s _ _ fun _ => by simp)

/-- An offer leaves Run Control alone. -/
theorem offerFrame_run {s t : State} (h : OfferFrame s t) : t.run = s.run := by
  rw [h.1]

theorem offerBlocks_steps (e : Epoch) (l : List BlockIx) (s : State) (hr : s.run.state ≠ .stopped) :
    Steps k s (offerBlocks e l s) := by
  induction l generalizing s with
  | nil => exact .refl
  | cons b rest ih =>
    unfold offerBlocks
    split
    · rename_i t ht
      refine .trans ?_ (ih t (by rw [offerFrame_run (offerBlockDue_frame ht)]; exact hr))
      unfold offerBlockDue at ht
      split at ht
      · injection ht with ht; subst ht; exact .refl
      · split at ht
        · injection ht with ht; subst ht; exact .refl
        · exact offerCap_steps (fun _ => hr) ht
        · exact offerCap_steps (fun _ => hr) ht
    · exact .refl

theorem offerStorageDue_steps {e : Epoch} {s t : State} (hr : s.run.state ≠ .stopped) (h : offerStorageDue e s = some t) :
    Steps k s t := by
  unfold offerStorageDue at h
  dsimp only at h
  split at h
  · injection h with h; subst h; exact .refl
  · exact offerStore_steps (fun _ => hr) h

theorem ageFields_steps (e : Epoch) (s : State) : Steps k s (ageFields e s) :=
  (Steps.foldl (f := ageBlock e) (fun s b => block_steps b _ s) allBlocks s).trans (storage_steps _ _)

theorem leaseEpochRule_steps (e : Epoch) (s : State) (hr : s.run.state ≠ .stopped) : Steps k s (leaseEpochRule e s) := by
  unfold leaseEpochRule
  have ha := ageFields_steps (k := k) e s
  have hrun : (ageFields e s).run.state ≠ .stopped := by
    have : (ageFields e s).run = s.run := by rw [(ageFields_frame e s).1]
    rw [this]
    exact hr
  generalize ageFields e s = s1 at ha hrun
  dsimp only
  split
  · rename_i t ht
    refine (ha.trans (offerStorageDue_steps hrun ht)).trans (offerBlocks_steps _ _ t ?_)
    rw [offerFrame_run (offerStorageDue_frame ht)]
    exact hrun
  · exact ha

theorem capReturn_steps (b : BlockIx) (label : Epoch) (limit lease : Nat) (taken : Bool) (s : State) :
    Steps k s (capReturn b label limit lease taken s) := by
  unfold capReturn
  repeat' split
  all_goals first
    | exact .refl
    | exact (block_steps _ _ s).trans (raise_steps _ (by decide) _)
    | exact block_steps _ _ s

theorem storeReturn_steps (label : Epoch) (power : Int) (lease : Nat) (taken : Bool) (s : State) :
    Steps k s (storeReturn label power lease taken s) := by
  unfold storeReturn
  repeat' split
  all_goals first
    | exact .refl
    | exact (storage_steps _ s).trans (raise_steps _ (by decide) _)
    | exact storage_steps _ s

/-! ## Front Tracker and Sky Station Unit -/

/-- A change of one station record that keeps its slot, its enabled flag, its warning held flag and its law. -/
theorem station_steps (t : StationIx) (f : Station → Station) (s : State) (hl : (s.station t).Lawful → (f (s.station t)).Lawful)
    (hs : (f (s.station t)).slot = (s.station t).slot) (he : (f (s.station t)).enabled = (s.station t).enabled)
    (hh : (f (s.station t)).warningHeld = (s.station t).warningHeld) : Steps k s (modifyStation t f s) := by
  refine sky_steps _ s (fun h => set_station_lawful h (hl (h.2.1 t)) hs he) fun x => ?_
  by_cases hx : x = t
  · subst hx
    exact (congrArg Station.warningHeld (modifyStation_self x f s)).trans hh
  · exact congrArg Station.warningHeld (modifyStation_ne t x f s hx)

/-- R85: the station's own warning leaves the list, with its flag. -/
theorem removeOwn_steps (t : StationIx) (s : State) : Steps k s (removeOwn t s) := by
  unfold removeOwn
  split
  · refine warnings_steps rfl (fun h => sublist_lawful h List.filter_sublist) (fun h => setHeld_lawful t false _ h)
      (fun hf h => ?_) fun _ h => h.sublist rfl rfl List.filter_sublist
    refine h.drop hf.2.2.2.1 List.filter_sublist (fun x => x = t ∧ ∃ w ∈ s.front.warnings, w.station = t) (fun x => ?_) fun x => ?_
    · show (x = t ∧ _) ↔ ∃ w ∈ s.front.warnings, w.station = x ∧ w ∉ s.front.warnings.filter fun w => w.station != t
      constructor
      · rintro ⟨rfl, w, hw, he⟩
        exact ⟨w, hw, he, fun hm => by simpa [he] using (List.mem_filter.1 hm).2⟩
      · rintro ⟨w, hw, he, hn⟩
        have : w.station = t := by
          by_contra hc
          exact hn (List.mem_filter.2 ⟨hw, by simpa using hc⟩)
        exact ⟨he.symm.trans this, w, hw, this⟩
    · rw [setHeld_held]
      rename_i hany
      obtain ⟨w, hw, he⟩ := List.any_eq_true.1 hany
      have : ∃ w ∈ s.front.warnings, w.station = t := ⟨w, hw, beq_iff_eq.1 he⟩
      by_cases hx : x = t
      · rw [if_pos hx, if_pos ⟨hx, this⟩]
      · rw [if_neg hx, if_neg (fun hc => hx hc.1)]; rfl
  · exact .refl

/-- R86: the state with a warning on the list and its station's flag set, WARNING_OPENED not yet raised. -/
def listed (w : Warning) (s : State) : State :=
  setHeld w.station true (s.onFront fun f =>
    { f with warnings := insertWarning { w with id := freeId f.warnings 255 f.nextId } f.warnings,
             nextId := stepId (freeId f.warnings 255 f.nextId) })

/-- R86: what a warning opened at the present epoch keeps as it is listed in a run. -/
theorem listed_keeps (w : Warning) (s : State) (hs : w.station ∉ s.front.warnings.map (·.station)) (hr : s.run.state ≠ .armed)
    (ha : MapLawful s.front.active → (1 ≤ w.arrivals.length ∧ w.arrivals.length ≤ leadsPerStation)
      ∧ WarningStands s.timer.epoch w ∧ w.opened = s.timer.epoch) :
    (s.front.warnings.length < warningCapacity → FrontLawful s.front → FrontLawful (listed w s).front)
      ∧ (SkyLawful s.sky → SkyLawful (listed w s).sky) ∧ (FlagsFollow s → FlagsFollow (listed w s))
      ∧ (FrontLawful s.front → WarningsOrdered s → WarningsOrdered (listed w s)) := by
  refine ⟨fun hl h => list_lawful h hl hs (ha h.1).1, fun h => setHeld_lawful w.station true _ h, fun h x => ?_,
    fun hf h => ⟨fun e => absurd e hr, fun v hv => ?_, ?_⟩⟩
  · unfold listed
    rw [setHeld_held]
    show _ = (insertWarning _ s.front.warnings).any _
    rw [(insertWarning_perm _ _).any_eq, List.any_cons]
    by_cases hx : x = w.station
    · rw [if_pos hx, hx]; simp
    · have hne : (w.station == x) = false := by simpa using fun e => hx e.symm
      rw [if_neg hx, hne, Bool.false_or]
      exact h x
  · rcases List.mem_cons.1 ((insertWarning_perm _ _).mem_iff.1 hv) with rfl | hv
    · exact (ha hf.1).2.1
    · exact h.2.1 v hv
  · exact insertWarning_ordered (ha hf.1).2.1 (ha hf.1).2.2 h.2.1 h.2.2

/-- R87: what the last warning keeps as it leaves the list, with its flag. -/
theorem dropLast_keeps (last : Warning) (s : State) (hl : s.front.warnings.getLast? = some last) {u : State}
    (hu : u = setHeld last.station false (s.onFront fun f => { f with warnings := f.warnings.dropLast })) :
    (FrontLawful s.front → FrontLawful u.front ∧ u.front.warnings.length < warningCapacity) ∧ (SkyLawful s.sky → SkyLawful u.sky)
      ∧ (FrontLawful s.front → FlagsFollow s → FlagsFollow u) ∧ (WarningsOrdered s → WarningsOrdered u) := by
  subst hu
  have hsub := List.dropLast_sublist s.front.warnings
  have hd : s.front.warnings = s.front.warnings.dropLast ++ [last] := by
    obtain ⟨ys, hy⟩ := List.getLast?_eq_some_iff.1 hl
    rw [hy, List.dropLast_concat]
  refine ⟨fun h => ⟨sublist_lawful h hsub, ?_⟩, fun h => setHeld_lawful last.station false _ h,
    fun hf h => ?_, fun h => h.sublist rfl rfl hsub⟩
  · have hlen := congrArg List.length hd
    have hcap := h.2.2.1
    rw [List.length_append, List.length_singleton] at hlen
    show s.front.warnings.dropLast.length < warningCapacity
    omega
  · refine h.drop hf.2.2.2.1 hsub (fun x => x = last.station) (fun x => ?_) fun x => setHeld_held _ _ _ _
    show x = last.station ↔ ∃ w ∈ s.front.warnings, w.station = x ∧ w ∉ s.front.warnings.dropLast
    constructor
    · rintro rfl
      refine ⟨last, by rw [hd]; simp, rfl, fun hm => ?_⟩
      have hn := hf.2.2.2.1.of_map
      rw [hd] at hn
      exact (List.nodup_append.1 hn).2.2 last hm last (by simp) rfl
    · rintro ⟨w, hw, rfl, hn⟩
      rw [hd] at hw
      rcases List.mem_append.1 hw with hw | hw
      · exact absurd hw hn
      · rw [List.mem_singleton.1 hw]

theorem enterWarning_steps (w : Warning) (s : State) (hs : w.station ∉ s.front.warnings.map (·.station)) (hr : s.run.state ≠ .armed)
    (ha : MapLawful s.front.active → (1 ≤ w.arrivals.length ∧ w.arrivals.length ≤ leadsPerStation)
      ∧ WarningStands s.timer.epoch w ∧ w.opened = s.timer.epoch) : Steps k s (enterWarning w s) := by
  unfold enterWarning
  split
  · rename_i hl
    obtain ⟨k1, k2, k3, k4⟩ := listed_keeps w s hs hr ha
    exact (warnings_steps (s := s) (t := listed w s) rfl (k1 hl) k2 (fun _ => k3) k4).trans (raise_steps .warningOpened (by decide) _)
  · split
    · rename_i last hlast
      unfold judgeFull
      split
      · generalize hu : setHeld last.station false (s.onFront fun f => { f with warnings := f.warnings.dropLast }) = u
        obtain ⟨d1, d2, d3, d4⟩ := dropLast_keeps last s hlast hu.symm
        have hfront : u.front = { s.front with warnings := s.front.warnings.dropLast } := by rw [← hu]; rfl
        have hactive : u.front.active = s.front.active := by rw [hfront]
        have hrun : u.run = s.run := by rw [← hu]; rfl
        have htimer : u.timer = s.timer := by rw [← hu]; rfl
        have hs' : w.station ∉ u.front.warnings.map (·.station) := fun hm => hs <| by
          rw [hfront] at hm
          exact ((List.dropLast_sublist _).map _).subset hm
        obtain ⟨k1, k2, k3, k4⟩ := listed_keeps w u hs' (by rw [hrun]; exact hr) (by rw [hactive, htimer]; exact ha)
        refine .trans (.trans (warnings_steps (t := listed w u) ?_ (fun h => k1 (d1 h).2 (d1 h).1) (fun h => k2 (d2 h))
          (fun hf h => k3 (d3 hf h)) fun hf h => k4 (d1 hf).1 (d4 h)) (raise_steps .warningOpened (by decide) _))
          (raise_steps .warningDropped (by decide) _)
        rw [← hu]; rfl
      · exact raise_steps _ (by decide) s
    · exact .refl

theorem buildWarning_spec {t : StationIx} {depth : Nat} {now : Epoch} {entries : List LeadEntry} {w : Warning}
    (h : buildWarning t depth now entries = some w) : w.station = t ∧ w.arrivals.length = entries.length ∧ entries ≠ [] := by
  unfold buildWarning at h
  cases entries with
  | nil => simp at h
  | cons x rest =>
    simp only [List.map_cons, Option.some.injEq] at h
    subst h
    exact ⟨rfl, by simp, by simp⟩

theorem removeOwn_spec (t : StationIx) (s : State) :
    t ∉ (removeOwn t s).front.warnings.map (·.station) ∧ (removeOwn t s).front.active = s.front.active
      ∧ (removeOwn t s).run = s.run ∧ (removeOwn t s).timer = s.timer := by
  unfold removeOwn
  split
  · refine ⟨fun hm => ?_, rfl, rfl, rfl⟩
    obtain ⟨w, hw, he⟩ := List.mem_map.1 hm
    have := (List.mem_filter.1 hw).2
    simp [he] at this
  · rename_i h
    refine ⟨fun hm => h ?_, rfl, rfl, rfl⟩
    obtain ⟨w, hw, he⟩ := List.mem_map.1 hm
    exact List.any_eq_true.2 ⟨w, hw, beq_iff_eq.2 he⟩

theorem openRequest_steps (t : StationIx) (depth : Nat) (s : State) : Steps k s (openRequest t depth s) := by
  have hr := removeOwn_steps (k := k) t s
  obtain ⟨hspec, hactive, hrun, htimer⟩ := removeOwn_spec t s
  unfold openRequest
  dsimp only
  refine hr.trans ?_
  generalize removeOwn t s = u at *
  split
  · rename_i hin
    split
    · rename_i w hw
      obtain ⟨h1, h2, h3⟩ := buildWarning_spec hw
      refine enterWarning_steps w u (by rw [h1]; exact hspec) (fun e => ?_) fun hm => ?_
      · rw [hrun] at e; rw [e] at hin; exact Bool.noConfusion hin
      · rw [hactive] at hm
        have hcount := hm.2.1 t
        have hpos := List.length_pos_iff.2 h3
        rw [htimer]
        exact ⟨by rw [h2]; omega, buildWarning_stands hw fun x hx => hm.2.2.2 x (List.mem_filter.1 hx).1⟩
    · exact .refl
  · exact .refl

theorem frontEpochRule_steps (e : Epoch) (s : State) : Steps k s (frontEpochRule e s) := by
  obtain ⟨hframe, hw⟩ := frontEpochRule_frame e s
  have hfold : frontEpochRule e s = ((s.front.warnings.filter (Warning.expiredAt e)).map (·.station)).foldl
      (fun s t => setHeld t false s) (s.onFront fun f => { f with warnings := f.warnings.filter fun w => !w.expiredAt e }) := by
    rw [List.foldl_map]; rfl
  have hsub : (frontEpochRule e s).front.warnings.Sublist s.front.warnings := by rw [hw]; exact List.filter_sublist
  have hfold2 := foldl_setHeld ((s.front.warnings.filter (Warning.expiredAt e)).map (·.station))
    (s.onFront fun f => { f with warnings := f.warnings.filter fun w => !w.expiredAt e })
  rw [← hfold] at hfold2
  refine warnings_steps ?_ (fun h => ?_) (fun h => hfold2.2 h) (fun hf h => ?_) fun _ h => h.sublist ?_ ?_ hsub
  · rw [hframe]
  · have : (frontEpochRule e s).front = { s.front with warnings := (frontEpochRule e s).front.warnings } := by rw [hframe]
    rw [this]
    exact sublist_lawful h hsub
  · refine h.drop hf.2.2.2.1 hsub (fun x => x ∈ (s.front.warnings.filter (Warning.expiredAt e)).map (·.station)) (fun x => ?_) hfold2.1
    rw [hw, List.mem_map]
    constructor
    · rintro ⟨w, hm, he⟩
      obtain ⟨hm, hx⟩ := List.mem_filter.1 hm
      exact ⟨w, hm, he, fun hn => by simpa [hx] using (List.mem_filter.1 hn).2⟩
    · rintro ⟨w, hm, he, hn⟩
      refine ⟨w, List.mem_filter.2 ⟨hm, ?_⟩, he⟩
      by_contra hc
      exact hn (List.mem_filter.2 ⟨hm, by simpa using hc⟩)
  · rw [hframe]
  · rw [hframe]

theorem emptyWarnings_steps (s : State) : Steps k s (emptyWarnings s) := by
  obtain ⟨hframe, hall⟩ := emptyWarnings_all s
  have hw : (emptyWarnings s).front.warnings = [] := by rw [hframe]
  have hfold := foldl_setHeld (List.finRange 24) (s.onFront fun f => { f with warnings := [] })
  refine warnings_steps ?_ (fun h => ?_) (fun h => hfold.2 h) (fun _ _ x => ?_) fun _ h => h.sublist ?_ ?_ ?_
  · rw [hframe]
  · have : (emptyWarnings s).front = { s.front with warnings := [] } := by rw [hframe]
    rw [this]
    exact sublist_lawful h (List.nil_sublist _)
  · rw [hall, hw]; rfl
  · rw [hframe]
  · rw [hframe]
  · rw [hw]; exact List.nil_sublist _

theorem serveLeadsAdd_steps (entries : List LeadBody) (s : State) : Steps k s (serveLeadsAdd entries s).state := by
  unfold serveLeadsAdd
  split
  · split
    · exact .refl
    · rename_i ha
      split
      · rename_i hf
        rw [servedWith_state]
        exact front_steps _ s (fun h => ⟨h.1, add_lawful h.2.1 ha hf, h.2.2⟩) rfl
      · exact .refl
  · exact .refl

theorem serveReadWarning_steps (index : Byte) (s : State) : Steps k s (serveReadWarning index s).state := by
  unfold serveReadWarning
  repeat' split
  all_goals exact .refl

theorem askFront_steps (t : StationIx) (q : FrontRequest) (s : State) : Steps k s (askFront t q s) := by
  cases q
  · exact .refl
  · exact openRequest_steps _ _ s
  · unfold askFront deepenRequest
    refine front_steps _ s (fun h => deepen_lawful t _ h) ?_
    rw [List.map_map]
    refine List.map_congr_left fun w _ => ?_
    simp only [Function.comp]
    split <;> rfl

theorem validSample_steps (t : StationIx) (x : Nat) (hx : x ≤ 1600) (s : State) : Steps k s (validSample t x s) := by
  have judged (h : (s.station t).detector ≠ .lost) : Steps k s (modifyStation t (Station.push x)
      (askFront t ({ s.station t with invalidRun := 0 }.judge x).2
        (modifyStation t (fun _ => ({ s.station t with invalidRun := 0 }.judge x).1) s))) := by
    refine .trans (station_steps t (fun _ => ({ s.station t with invalidRun := 0 }.judge x).1) s
      (fun hl => judge_lawful x hl h) (judge_parameters x).1 (judge_parameters x).2.1 (judge_parameters x).2.2) ?_
    exact (askFront_steps _ _ _).trans (station_steps t (Station.push x) _ (push_lawful hx) rfl rfl rfl)
  unfold validSample
  dsimp only
  split
  · rename_i h
    exact station_steps t (Station.recover x) s (fun hl => recover_lawful hx hl h) rfl rfl rfl
  all_goals
    rename_i h
    exact judged (by rw [h]; decide)

theorem invalidSample_steps (t : StationIx) (s : State) : Steps k s (invalidSample t s) := by
  have judged (h : (s.station t).detector ≠ .lost) : Steps k s
      (if (s.station t).invalidRun < 4 then modifyStation t (fun st => { st with invalidRun := st.invalidRun + 1 }) s
       else raise .stationLost (modifyStation t Station.lose s)) := by
    split
    · rename_i hr
      exact station_steps t (fun st => { st with invalidRun := st.invalidRun + 1 }) s (fun hl => invalid_lawful hl h hr) rfl rfl rfl
    · exact (station_steps t Station.lose s lose_lawful rfl rfl rfl).trans (raise_steps _ (by decide) _)
  unfold invalidSample
  dsimp only
  split
  · exact .refl
  all_goals
    rename_i h
    exact judged (by rw [h]; decide)

/-- R64: a valid sample is at most 1600 W/m². -/
theorem sampleOf_le {last : Option (BitVec 3)} {w : Half} {x : Nat} (h : sampleOf last w = some x) : x ≤ 1600 := by
  unfold sampleOf at h
  split at h
  · rename_i hv
    rw [Bool.and_eq_true, Bool.and_eq_true] at hv
    exact Option.some.inj h ▸ of_decide_eq_true hv.1.2
  · contradiction

theorem takeSlot_steps (frame : List Half) (s : State) (t : StationIx) : Steps k s (takeSlot frame s t) := by
  have seq (w : Half) : Steps k s (modifyStation t (fun st => { st with lastSequence := some (sequenceOf w) }) s) :=
    station_steps t (fun st => { st with lastSequence := some (sequenceOf w) }) s (sequence_lawful _) rfl rfl rfl
  unfold takeSlot
  dsimp only
  split
  · split
    · exact invalidSample_steps _ s
    · split
      · rename_i hx
        exact (seq _).trans (validSample_steps _ _ (sampleOf_le hx) _)
      · exact (seq _).trans (invalidSample_steps _ _)
  · exact .refl

theorem processFrame_steps (frame : List Half) (s : State) : Steps k s (processFrame frame s) :=
  Steps.foldl (takeSlot_steps frame) _ s

theorem takeWord_steps (w : Half) (s : State) : Steps k s (takeWord w s) := by
  unfold takeWord
  split
  · rename_i words he hf
    split
    · rename_i hl
      refine sky_steps _ s (fun h => ⟨⟨h.1.1, fun ws hw => ?_⟩, h.2⟩) fun _ => rfl
      injection hw with hw
      subst hw
      exact ⟨he, by simpa using hl⟩
    · refine .trans ?_ (processFrame_steps _ _)
      exact sky_steps _ s (fun h => ⟨⟨h.1.1, fun ws hw => by simp at hw⟩, h.2⟩) fun _ => rfl
  · exact .refl

theorem fillFrame_steps (w : Half) (s : State) : Steps k s (fillFrame w s) := by
  unfold fillFrame
  repeat' split
  all_goals first | exact .refl | exact takeWord_steps w s

theorem loseStation_steps (s : State) (t : StationIx) : Steps k s (loseStation s t) := by
  unfold loseStation
  split
  · exact station_steps t Station.lose s lose_lawful rfl rfl rfl
  · exact .refl

theorem tripLoss_steps (s : State) : Steps k s (tripLoss s) := by
  unfold tripLoss
  split
  · rename_i ha
    refine .trans ?_ (Steps.foldl loseStation_steps _ _)
    refine .trans ?_ (raise_steps .sensorLoss (by decide) _)
    refine .trans ?_ (sky_steps _ _ (fun h => ⟨⟨?_, fun ws hw => by simp at hw⟩, h.2⟩) fun _ => rfl)
    · exact time_steps _ s
    · have ha : (s.atTime (lossTime s.sky)).sky.loss = .armed := ha
      have h1 := h.1.1
      rw [ha] at h1
      simpa using h1
  · exact .refl

theorem setSensor_lawful (period : Nat) (en : Bool) (now : Time) (u : SkyUnit) (h : SkyLawful u) :
    SkyLawful (u.setSensor period en now) := by
  obtain ⟨⟨h1, h2⟩, h3⟩ := h
  cases hu : u.enabled <;> cases en <;> rw [hu] at h1 h2 <;> simp only [SkyUnit.setSensor, hu]
  · exact ⟨⟨by simpa [hu] using h1, by simpa [hu] using h2⟩, h3⟩
  · exact ⟨⟨by simp, fun ws hw => by simpa using h2 ws hw⟩, h3⟩
  · exact ⟨⟨by simp, fun ws hw => by simp at hw⟩, h3⟩
  · exact ⟨⟨by simpa [hu] using h1, by simpa [hu] using h2⟩, h3⟩

theorem serveSetSensor_steps (period : Half) (enable : Byte) (s : State) :
    Steps k s (serveSetSensor period enable s).state := by
  unfold serveSetSensor
  repeat' split
  all_goals simp only [served_state, refuse_state]
  all_goals first | exact .refl | exact sky_steps _ s (setSensor_lawful _ _ _ _) fun _ => by unfold SkyUnit.setSensor; split <;> rfl

theorem serveLoadStation_steps (station : Byte) (b : StationBody) (s : State) :
    Steps k s (serveLoadStation station b s).state := by
  unfold serveLoadStation
  split
  · exact .refl
  · rename_i x _
    split
    · exact .refl
    · rename_i hr
      split
      · exact .refl
      · rename_i hs
        rw [served_state]
        unfold modifyStation
        refine sky_steps _ s (fun h => load_lawful h (by simpa using hr) (by simpa using hs)) fun y => ?_
        by_cases hy : y = x
        · subst hy
          have h := congrArg Station.warningHeld (modifyStation_self y (Station.load b) s)
          exact h
        · exact congrArg Station.warningHeld (modifyStation_ne x y (Station.load b) s hy)

theorem serveReadStation_steps (station : Byte) (s : State) : Steps k s (serveReadStation station s).state := by
  unfold serveReadStation
  split <;> exact .refl

/-! ## The ring -/

theorem purge_frame (r : RingController) :
    r.purge.queue = onlyProbes r.queue ∧ r.purge.state = r.state ∧ r.purge.probe = r.probe ∧ r.purge.nextProbe = r.nextProbe :=
  ⟨rfl, rfl, rfl, rfl⟩

theorem enterDown_lawful (now : Time) (r : RingController) : QueueLawful (r.enterDown now) := by
  simp [QueueLawful, RingController.enterDown]

/-- R146: on entry into PROBING the queue holds the new PROBE and nothing else, if no PROBE was queued before. -/
theorem enterProbing_lawful (r : RingController) (h : QueueLawful r) (hs : r.state = .down ∨ r.state = .up)
    (hp : r.probe ≠ .queued) : QueueLawful r.enterProbing := by
  obtain ⟨_, _, _, h4, h5, _⟩ := h
  have hq : (if r.state = .up then r.purge else r).queue = [] := by
    rcases hs with hs | hs
    · rw [if_neg (by rw [hs]; decide)]; exact (h4 hs).1
    · rw [if_pos hs]
      rw [if_neg hp] at h5
      exact List.length_eq_zero_iff.1 h5
  unfold RingController.enterProbing
  simp only [RingController.placeProbe, hq, List.nil_append]
  refine ⟨by simp, by simp, fun _ p hp => ?_, fun hd => by simp at hd, rfl, List.pairwise_singleton _ _⟩
  rw [List.mem_singleton.1 hp]; rfl

theorem placeProbe_lawful (r : RingController) (h : QueueLawful r) (hs : r.state = .up ∧ hasRoom r.queue = true ∨ r.state = .probing)
    (hp : r.probe ≠ .queued) : QueueLawful r.placeProbe := by
  obtain ⟨h1, h2, h3, h4, h5, h6⟩ := h
  rw [if_neg hp] at h5
  have hroom : (r.queue.filter fun p => !p.isMark).length ≤ 62 := by
    rcases hs with ⟨_, hs⟩ | hs
    · have : (r.queue.filter fun p => !p.isMark).length < 63 := of_decide_eq_true hs
      omega
    · have hall := h3 (by rw [hs]; decide)
      have hnil : r.queue = [] := by
        have := List.length_eq_zero_iff.1 h5
        rw [List.filter_eq_nil_iff] at this
        cases hq : r.queue with
        | nil => rfl
        | cons p l => exact absurd (hall p (by simp [hq])) (this p (by simp [hq]))
      simp [hnil]
  refine ⟨?_, ?_, fun hn p hp' => ?_, fun hd => ?_, ?_, snoc_distinct (fun x _ => rfl) h6⟩
  · simp only [RingController.placeProbe]; rw [length_filter_snoc]; simpa using h1
  · simp only [RingController.placeProbe]; rw [length_filter_snoc]; simp; omega
  · rcases List.mem_append.1 hp' with hp' | hp'
    · exact h3 hn p hp'
    · rw [List.mem_singleton.1 hp']; rfl
  · simp only [RingController.placeProbe] at hd
    rcases hs with hs | hs
    · rw [hs.1] at hd; simp at hd
    · rw [hs] at hd; simp at hd
  · simp only [RingController.placeProbe]; rw [length_filter_snoc, h5]; simp

/-- A PROBE may stand behind any packet. -/
theorem placeProbe_marks {run : RunState} {r : RingController} (h : MarksLead run r) : MarksLead run r.placeProbe := by
  refine ⟨List.pairwise_append.2 ⟨h.1, List.pairwise_singleton _ _, fun a _ b hb => ?_⟩, fun hr e he => ?_⟩
  · rw [List.mem_singleton.1 hb]; exact .ofNoLabel rfl
  · rcases List.mem_append.1 he with he | he
    · exact h.2 hr e he
    · exact absurd (List.mem_singleton.1 he) (by simp)

theorem enterProbing_marks {run : RunState} {r : RingController} (h : MarksLead run r) : MarksLead run r.enterProbing := by
  unfold RingController.enterProbing
  refine placeProbe_marks (r := { (if r.state = .up then r.purge else r) with state := .probing, probe := .absent }) ?_
  split
  · exact h.sublist List.filter_sublist
  · exact h

theorem goDown_steps (s : State) : Steps k s (goDown s) := by
  unfold goDown endStagingIfUp
  have h : Steps k s (s.onRing (RingController.enterDown s.now)) := .one (.ring s _ (fun _ => enterDown_lawful _ _) fun _ _ => ⟨.nil, nofun⟩)
  split
  · exact h.trans (ringDownDispatch_steps _)
  · exact h

theorem signalLoss_steps (s : State) : Steps k s (signalLoss s) := by
  unfold signalLoss
  dsimp only
  split
  · refine .trans (ring_steps (fun r => { r with signalSeen := false }) s rfl rfl rfl rfl) ?_
    split
    · refine ring_steps _ _ ?_ ?_ ?_ ?_ <;> rfl
    all_goals exact (goDown_steps _).trans (raise_steps .ringLoss (by decide) _)
  · exact .refl

theorem signalPresent_steps (s : State) : Steps k s (signalPresent s) := by
  unfold signalPresent
  split
  · exact .refl
  · exact ring_steps _ s rfl rfl rfl rfl

theorem settle_steps (s : State) : Steps k s (settle s) := by
  unfold settle
  split
  · rename_i h
    refine (time_steps _ s).trans (Steps.one (.ring _ _ (fun hl => ?_) fun _ hm => enterProbing_marks hm))
    exact enterProbing_lawful _ hl (.inl h.1) (by rw [(hl.2.2.2.1 h.1).2]; decide)
  · exact .refl

theorem windowExpiry_steps (s : State) : Steps k s (windowExpiry s) := by
  unfold windowExpiry
  split
  · rename_i n at_ hp
    dsimp only
    have ht := (time_steps (k := k) (windowTime at_) s).trans
      (ring_steps RingController.failProbe (s.atTime (windowTime at_)) rfl rfl rfl rfl)
    split
    · rename_i hu
      refine .trans ?_ (raise_steps _ (by decide) _)
      refine .trans ?_ (ringDownDispatch_steps _)
      refine ht.trans (Steps.one (.ring _ _ (fun hl => enterProbing_lawful _ hl (.inr hu) ?_) fun _ hm => enterProbing_marks hm))
      simp [RingController.failProbe, hp]
    · rename_i hu
      refine ht.trans (Steps.one (.ring _ _ (fun hl => ?_) fun _ hm => hm))
      obtain ⟨h1, h2, h3, h4, h5, h6⟩ := hl
      refine ⟨h1, h2, h3, fun hd => ?_, ?_, h6⟩
      · simp [RingController.failProbe, hu] at hd
      · rw [h5]; simp [RingController.failProbe, hp]
    · exact .refl
  · exact .refl

theorem retryExpiry_steps (s : State) : Steps k s (retryExpiry s) := by
  unfold retryExpiry
  split
  · rename_i hu hp
    refine (time_steps _ s).trans (Steps.one (.ring _ _ (fun hl => ?_) fun _ hm => placeProbe_marks hm))
    exact placeProbe_lawful _ hl (.inr hu) (by simp [hp])
  · exact .refl

/-- R146, R147: a probe record that leaves OUTSTANDING for absent, in UP or PROBING. -/
theorem probeGone_lawful (r : RingController) (h : QueueLawful r) (hp : r.probe ≠ .queued) (st : RingState) (out : Option ProbeOutcome)
    (hs : st = r.state ∨ st = .up) : QueueLawful { r with state := st, probe := .absent, lastOutcome := out } := by
  obtain ⟨h1, h2, h3, h4, h5, h6⟩ := h
  refine ⟨h1, h2, fun hn => ?_, fun hd => ?_, ?_, h6⟩
  · rcases hs with hs | hs
    · exact h3 (by rw [← hs]; exact hn)
    · exact absurd hs hn
  · rcases hs with hs | hs
    · exact ⟨(h4 (by rw [← hs]; exact hd)).1, rfl⟩
    · simp only at hd; rw [hs] at hd; simp at hd
  · simp only; rw [h5, if_neg hp]; simp

theorem probeReturn_steps (n : Byte) (s : State) : Steps k s (probeReturn n s) := by
  unfold probeReturn
  split
  · rename_i ha
    have hp : s.ring.probe ≠ .queued := by
      intro e
      simp [RingController.awaits, e] at ha
    have h1 : Steps k s (s.onRing fun r => { r with lastOutcome := some .returned, probe := .absent }) :=
      .one (.ring s _ (fun hl => probeGone_lawful _ hl hp _ _ (.inl rfl)) fun _ hm => hm)
    dsimp only
    split
    · refine .trans ?_ (raise_steps _ (by decide) _)
      exact Steps.one (.ring s (fun r => { r with state := .up, probe := .absent, lastOutcome := some .returned })
        (fun hl => probeGone_lawful _ hl hp _ _ (.inr rfl)) fun _ hm => hm)
    · exact h1
    · exact h1
  · exact .refl

theorem serveProbeRing_steps (s : State) : Steps k s (serveProbeRing s).state := by
  unfold serveProbeRing
  split
  · exact .refl
  · rename_i h
    rw [not_or, not_not, not_not] at h
    split
    · rename_i hr
      exact .one (.ring s _ (fun hl => placeProbe_lawful _ hl (.inl ⟨h.1, hr⟩) (by rw [h.2]; decide)) fun _ hm => placeProbe_marks hm)
    · exact .refl

theorem loadNodes_steps (ids : List Byte) (s : State) : Steps k s (loadNodes ids s) := by
  unfold loadNodes
  refine .trans ?_ (goDown_steps _)
  refine .trans ?_ (raise_steps _ (by decide) _)
  refine .trans ?_ (emptyAllAlerts_steps _)
  exact ring_steps _ s rfl rfl rfl rfl

theorem serveLoadRing_steps (ids : List Byte) (s : State) : Steps k s (serveLoadRing ids s).state := by
  unfold serveLoadRing
  repeat' split
  all_goals simp only [served_state, refuse_state]
  all_goals first | exact .refl | exact loadNodes_steps _ s

theorem ownPacket_steps (bs : List Byte) (s : State) : Steps k s (ownPacket bs s) := by
  unfold ownPacket
  dsimp only
  repeat' split
  all_goals first
    | exact .refl
    | exact capReturn_steps _ _ _ _ _ s
    | exact storeReturn_steps _ _ _ _ s
    | exact raiseIf_steps _ _ (by decide) s
    | exact probeReturn_steps _ s

theorem applyPacket_steps (bs : List Byte) (s : State) : Steps k s (applyPacket bs s) := by
  unfold applyPacket applyReport
  dsimp only
  repeat' split
  all_goals first
    | exact .refl
    | exact blockReport_steps _ _ s
    | exact storageReport_steps _ s
    | exact meterReport_steps _ s
    | exact alertIntake_steps _ _ _ s

theorem forwardPacket_steps (bs : List Byte) (s : State) : Steps k s (forwardPacket bs s) :=
  ring_steps _ s rfl rfl rfl rfl

theorem takePacket_steps (bs : List Byte) (s : State) : Steps k s (takePacket bs s) := by
  unfold takePacket
  split
  · exact (ring_steps _ s rfl rfl rfl rfl).trans (raise_steps _ (by decide) _)
  split
  · exact (ring_steps _ s rfl rfl rfl rfl).trans ((raise_steps _ (by decide) _).trans (forwardPacket_steps _ _))
  split
  · exact ownPacket_steps _ s
  split
  · exact (ring_steps _ s rfl rfl rfl rfl).trans (forwardPacket_steps _ _)
  · exact (applyPacket_steps _ s).trans (forwardPacket_steps _ _)

theorem receivePacket_steps (bs : List Byte) (s : State) : Steps k s (receivePacket bs s) := by
  unfold receivePacket
  split
  · exact .refl
  all_goals exact takePacket_steps _ s

/-- R155: the head leaves the queue, and a PROBE becomes OUTSTANDING as it does. -/
theorem sendOwn_lawful (p : OwnPacket) (rest : List OwnPacket) (now : Time) (r : RingController) (hq : r.queue = p :: rest)
    (h : QueueLawful r) : QueueLawful (sendOwn p rest now r) := by
  obtain ⟨h1, h2, h3, h4, h5, h6⟩ := h
  rw [hq] at h1 h2 h3 h4 h5 h6
  rw [length_filter_cons] at h1 h2 h5
  refine ⟨by simp only [sendOwn]; omega, by simp only [sendOwn]; omega, fun hn x hx => h3 hn x (List.mem_cons_of_mem _ hx),
    fun hd => absurd (h4 hd).1 (by simp), ?_, (List.pairwise_cons.1 h6).2⟩
  simp only [sendOwn]
  cases p with
  | probe n =>
    simp only [isProbe_probe, if_true] at h5
    have : r.probe = .queued := by
      by_contra hne
      rw [if_neg hne] at h5
      omega
    rw [if_pos this] at h5
    simp only [reduceCtorEq, if_false]
    omega
  | cap b l m n =>
    show (rest.filter OwnPacket.isProbe).length = if r.probe = .queued then 1 else 0
    rw [← h5]; simp [OwnPacket.isProbe]
  | store l m n =>
    show (rest.filter OwnPacket.isProbe).length = if r.probe = .queued then 1 else 0
    rw [← h5]; simp [OwnPacket.isProbe]
  | mark e =>
    show (rest.filter OwnPacket.isProbe).length = if r.probe = .queued then 1 else 0
    rw [← h5]; simp

theorem portFree_steps (s : State) : Steps k s (portFree s) := by
  refine .one (.ring s _ (fun h => ?_) fun _ h => ?_)
  · unfold RingController.nextPacket
    split
    · exact h
    · rename_i hq
      exact sendOwn_lawful _ _ _ _ hq h
    · exact h
  · unfold RingController.nextPacket
    split
    · exact h
    · rename_i rest _ hq
      exact h.sublist (q := rest) (by rw [hq]; exact List.sublist_cons_self _ _)
    · exact h

theorem followSignal_steps (seen : Bool) (s : State) : Steps k s (followSignal seen s) :=
  ring_steps _ s rfl rfl rfl rfl

/-! ## Epochs, START and STOP -/

theorem openDispatch_inRun (e : Epoch) (s : State) : (openDispatch e s).run.state.inRun = s.run.state.inRun := by
  unfold openDispatch
  dsimp only
  split
  · rw [adopt_inRun, overrunDispatch_run]
  · rw [State.onGov_run, sampleAndBand_run, adopt_inRun, overrunDispatch_run]

theorem applyEpochRule_steps (e : Epoch) (s : State) (rule : EpochRule) : Steps k s (applyEpochRule e s rule) := by
  cases rule
  · unfold applyEpochRule
    dsimp only
    split
    · exact openDispatch_steps e s ‹_›
    · exact .refl
  · unfold applyEpochRule
    dsimp only
    split
    · exact blockEpochRule_steps e s
    · exact .refl
  · exact frontEpochRule_steps e s
  · unfold applyEpochRule
    dsimp only
    split
    · exact nodeEpochRule_steps e s
    · exact .refl
  · exact placeMarker_steps e s
  · unfold applyEpochRule
    dsimp only
    split
    · exact leaseEpochRule_steps e s (inRun_not_stopped ‹_›)
    · exact .refl
  · exact runControlEpochRule_steps s

theorem tripStall_steps (s : State) : Steps k s (tripStall s) := by
  unfold tripStall
  split
  · split
    · rename_i h
      refine .trans ?_ (raise_steps .epochStall (by decide) _)
      exact (time_steps _ s).trans (Steps.one (.timer _ _ rfl (fun _ => .inr h.2) (.inl rfl)))
    · exact .refl
  · exact .refl

theorem tripStallDue_steps (s : State) : Steps k s (tripStallDue s) := by
  unfold tripStallDue
  split
  · exact tripStall_steps s
  · exact .refl

/-- A stall moves the timer's monitor alone, and the Run Control not at all. -/
theorem tripStall_kept (s : State) : (tripStall s).run = s.run ∧ (tripStall s).timer.epoch = s.timer.epoch
    ∧ (tripStall s).timer.running = s.timer.running := by
  unfold tripStall
  split
  · split
    · simp
    · exact ⟨rfl, rfl, rfl⟩
  · exact ⟨rfl, rfl, rfl⟩

theorem tripStallDue_kept (s : State) : (tripStallDue s).run = s.run ∧ (tripStallDue s).timer.epoch = s.timer.epoch
    ∧ (tripStallDue s).timer.running = s.timer.running := by
  unfold tripStallDue
  split
  · exact tripStall_kept s
  · exact ⟨rfl, rfl, rfl⟩

/-- R45: an epoch, in its parts. -/
theorem takeEpoch_steps (order : EpochOrder) (s : State) (h : s.timer.running = true) : Steps .parts s (takeEpoch order s) :=
  (Steps.one (.next s h)).trans (Steps.foldl (applyEpochRule_steps _) _ _)

theorem epochEvent_steps (order : EpochOrder) (s : State) (h : s.timer.running = true) : Steps .whole s (epochEvent order s) :=
  (tripStallDue_steps s).trans (Steps.one (.epoch _ order ((tripStallDue_kept s).2.2.trans h)))

theorem enterRun_timer (s : State) : (enterRun s).timer = s.timer := by
  unfold enterRun; split <;> simp

theorem takeTrigger_steps (order : EpochOrder) (s : State) (hw : s.run.state = .armed ∨ s.front.warnings = [])
    (hq : s.run.state = .armed ∨ ∀ e, .mark e ∉ s.ring.queue) : Steps .whole s (takeTrigger order s) :=
  (Steps.one (.trigger s hw hq)).trans (epochEvent_steps order _ (by rw [enterRun_timer]; rfl))

theorem triggerOn_steps (t : Trigger) (order : EpochOrder) (s : State) : Steps .whole s (triggerOn t order s) := by
  unfold triggerOn
  split
  · rename_i h
    exact takeTrigger_steps order s (.inl h.1) (.inl h.1)
  · exact .refl

theorem periodExpiry_steps (order : EpochOrder) (s : State) : Steps .whole s (periodExpiry order s) := by
  unfold periodExpiry
  split
  · rename_i h
    refine .trans ?_ (epochEvent_steps order _ h.1)
    exact time_steps _ s
  · exact .refl

theorem epochEdge_steps (since : Time) (order : EpochOrder) (s : State) : Steps .whole s (epochEdge since order s) := by
  unfold epochEdge
  split
  · rename_i h
    dsimp only
    split
    · refine .trans ?_ (epochEvent_steps order _ h.1)
      exact (time_steps _ s).trans (Steps.one (.timer _ _ rfl (fun h => .inl h) (.inl rfl)))
    · exact time_steps _ s
  · exact .refl

theorem countSync_steps (order : EpochOrder) (s : State) : Steps .whole s (countSync order s) := by
  unfold countSync
  split
  · rename_i h
    split
    · exact epochEvent_steps order s h.1
    · exact Steps.one (.timer s _ rfl (fun h => .inl h) (.inl rfl))
  · exact .refl

theorem syncEvent_steps (order : EpochOrder) (s : State) : Steps .whole s (syncEvent order s) := by
  unfold syncEvent
  split
  · rename_i h
    exact takeTrigger_steps order s (.inl h.1) (.inl h.1)
  · exact countSync_steps order s

theorem closeFrame_steps (frame : Option (List Half)) (s : State) : Steps k s (closeFrame frame s) := by
  cases frame
  · exact .refl
  · exact processFrame_steps _ s

/-- R61: a new frame begins and the loss monitor is armed, at an enabled port. -/
theorem beginFrame_lawful (now : Time) (u : SkyUnit) (he : u.enabled = true) (h : SkyLawful u) :
    SkyLawful { u with frame := some [], loss := .armed, measureFrom := now } := by
  refine ⟨⟨by simp [he], fun ws hw => ?_⟩, h.2⟩
  injection hw with hw
  subst hw
  exact ⟨he, by simp [frameSlots]⟩

theorem tripLossDue_steps (s : State) : Steps k s (tripLossDue s) := by
  unfold tripLossDue
  split
  · exact tripLoss_steps s
  · exact .refl

theorem tripLossDue_enabled (s : State) : (tripLossDue s).sky.enabled = s.sky.enabled := by
  unfold tripLossDue tripLoss
  split
  · split
    · rw [(loseStations_all _).1]
      simp
    · rfl
  · rfl

theorem beginFrame_steps (s : State) (he : s.sky.enabled = true) : Steps k s (beginFrame s) :=
  sky_steps _ s (beginFrame_lawful s.now _ he) fun _ => rfl

theorem frameSync_steps (frameFirst : Bool) (order : EpochOrder) (s : State) : Steps .whole s (frameSync frameFirst order s) := by
  unfold frameSync
  split
  · rename_i he
    have hb := (tripLossDue_steps (k := .whole) s).trans (beginFrame_steps _ ((tripLossDue_enabled s).trans he))
    dsimp only
    split
    · exact (hb.trans (closeFrame_steps _ _)).trans (syncEvent_steps order _)
    · exact (hb.trans (syncEvent_steps order _)).trans (closeFrame_steps _ _)
  · exact .refl

theorem serveSetEpoch_steps (source : Byte) (period : Half) (divisor : Byte) (s : State) :
    Steps k s (serveSetEpoch source period divisor s).state := by
  unfold serveSetEpoch
  repeat' split
  all_goals simp only [served_state, refuse_state]
  all_goals first | exact .refl | exact Steps.one (.timer s _ rfl (fun h => .inl h) (.inl rfl))

theorem startBlocks_run (s : State) : (startBlocks s).run = s.run := by
  unfold startBlocks
  rw [State.onTable_run]
  exact foldl_keeps State.run (f := fun s b => modifyBlock b BlockRecord.renumbered s) (fun _ _ => rfl) _ _

theorem cutDispatch_state (s : State) : (cutDispatch s).run.state = s.run.state := by
  rw [cutDispatch_run]

theorem setLatch_stopped (line : HoldLine) (s : State) (h : s.run.state = .stopped) : (setLatch line s).run.state = .stopped := by
  unfold setLatch cutIfFreezeBegan
  split
  · exact h
  · have hb : ∀ u : State, u.run.state = .stopped → (beginHold u).run.state = .stopped := by
      intro u hu
      unfold beginHold
      rw [if_neg (by rw [hu]; decide)]
      exact hu
    split
    · rw [cutDispatch_run]; exact hb _ (by simpa using h)
    · exact hb _ (by simpa using h)

theorem adoptLine_stopped (before : Option PlantRecord) (s : State) (line : HoldLine) (h : s.run.state = .stopped) :
    (adoptLine before s line).run.state = .stopped := by
  unfold adoptLine
  repeat' split
  all_goals first | exact h | exact setLatch_stopped _ _ h | simpa [clearLatch] using h

theorem adopt_stopped (s : State) (h : s.run.state = .stopped) : (adopt s).run.state = .stopped := by
  unfold adopt
  split
  · refine adoptLine_stopped _ _ _ (adoptLine_stopped _ _ _ ?_)
    rw [raiseFloors_run]; exact h
  · exact h

theorem emptyWarnings_run (s : State) : (emptyWarnings s).run = s.run :=
  foldl_keeps State.run (f := fun s t => setHeld t false s) (fun _ _ => rfl) _ _

theorem clearRun_run (s : State) : (clearRun s).run = s.run := rfl

theorem startNodes_run (s : State) : (startNodes s).run = s.run := rfl

theorem onGov_run_state (s : State) (f : Governor → Governor) (r : RunState) (h : s.run.state = r) :
    (s.onGov f).run.state = r := h

theorem onTimer_run_state (s : State) (f : EpochTimer → EpochTimer) (r : RunState) (h : s.run.state = r) :
    (s.onTimer f).run.state = r := h

theorem prepareRun_stopped (s : State) (h : s.run.state = .stopped) : (prepareRun s).run.state = .stopped := by
  unfold prepareRun
  have ha := adopt_stopped s h
  generalize adopt s = u at ha
  refine onTimer_run_state _ _ _ ?_
  rw [startNodes_run, startBlocks_run, clearRun_run, emptyWarnings_run]
  exact onGov_run_state _ _ _ ha

/-- The last steps of START leave the Front Tracker and the Ring Controller alone. -/
theorem started_front (u : State) : (startNodes (startBlocks u)).front = u.front ∧ (startNodes (startBlocks u)).ring = u.ring := by
  unfold startNodes
  constructor
  · rw [State.onMeter_front, State.onStorage_front, (startBlocks_all u).1]
  · rw [State.onMeter_ring, State.onStorage_ring, (startBlocks_all u).1]

/-- R90, R160: START leaves no warning and no MARK. -/
theorem prepared_empty (v : State) : (startNodes (startBlocks (clearRun (emptyWarnings v)))).front.warnings = []
    ∧ ∀ e, .mark e ∉ (startNodes (startBlocks (clearRun (emptyWarnings v)))).ring.queue := by
  obtain ⟨h1, h2⟩ := started_front (clearRun (emptyWarnings v))
  rw [h1, h2]
  refine ⟨?_, fun e => onlyProbes_noMark _ e⟩
  show (emptyWarnings v).front.warnings = []
  rw [(emptyWarnings_all v).1]

theorem prepareRun_empty (s : State) : (prepareRun s).front.warnings = [] ∧ ∀ e, .mark e ∉ (prepareRun s).ring.queue := by
  unfold prepareRun
  rw [State.onTimer_front, State.onTimer_ring]
  exact prepared_empty _

theorem clearRun_steps (s : State) : Steps k s (clearRun s) := by
  unfold clearRun
  refine (dropQueue_steps s).trans (Steps.one (.ring _ _ id fun _ h => ⟨h.1, fun _ e he => ?_⟩))
  exact absurd he (onlyProbes_noMark _ e)

theorem prepareRun_steps (s : State) : Steps k s (prepareRun s) := by
  unfold prepareRun
  refine .trans ?_ (Steps.one (.timer _ _ rfl (fun h => .inl h) (.inr (prepared_empty _).1)))
  refine .trans ?_ (startNodes_steps _)
  refine .trans ?_ (startBlocks_steps _)
  refine .trans ?_ (clearRun_steps _)
  refine .trans ?_ (emptyWarnings_steps _)
  refine .trans ?_ (gov_steps _ _ (.inl rfl) fun _ => ⟨fun p _ => by simp [Governor.restarted], fun b hb => by simp [Governor.restarted] at hb⟩)
  exact adopt_steps s

theorem serveStart_steps (trigger : Byte) (order : EpochOrder) (s : State) : Steps .whole s (serveStart trigger order s).state := by
  unfold serveStart
  split
  · exact .refl
  split
  · exact .refl
  split
  · exact .refl
  · rename_i h _
    rw [not_not] at h
    rw [served_state]
    obtain ⟨he, hm⟩ := prepareRun_empty s
    unfold startWith
    split
    · exact (prepareRun_steps s).trans (takeTrigger_steps order _ (.inr he) (.inr hm))
    all_goals exact (prepareRun_steps s).trans (Steps.one (.arm _ _ (prepareRun_stopped s h) he hm))

/-- R51, R160: what the packets of a STOP are sent to: the ring is UP, the run has ended, and no MARK is queued. -/
def Ended (s : State) : Prop :=
  s.ring.state = .up ∧ s.run.state = .stopped ∧ ∀ p ∈ s.ring.queue, p.isMark = false

/-- A CAP or STORE enters the queue of a run that has ended. -/
theorem endedOffer_steps {same : OwnPacket → Bool} {p : OwnPacket} {s : State} (h : Ended s) (hm : p.isMark = false)
    (hp : p.isProbe = false) (hs : ∀ x, same x = p.sameTarget x) (hr : s.ring.queue.any same || hasRoom s.ring.queue) :
    Steps k s (s.onRing fun r => { r with queue := enqueue same p r.queue })
      ∧ Ended (s.onRing fun r => { r with queue := enqueue same p r.queue }) := by
  have hn : ∀ x ∈ enqueue same p s.ring.queue, x.isMark = false := by
    intro x hx
    unfold enqueue at hx
    split at hx
    · obtain ⟨y, hy, he⟩ := List.mem_map.1 hx
      split at he
      · rw [← he]; exact hm
      · rw [← he]; exact h.2.2 y hy
    · rcases List.mem_append.1 hx with hx | hx
      · exact h.2.2 x hx
      · rw [List.mem_singleton.1 hx]; exact hm
  refine ⟨Steps.one (.ring s _ (fun hl => enqueue_lawful _ _ _ h.1 hm hp hs (by simpa using hr) hl) fun _ _ => ?_), h.1, h.2.1, hn⟩
  exact ⟨List.pairwise_of_forall_mem_list fun a ha b _ => .ofNoMark (hn a ha),
    fun _ e he => Bool.noConfusion (hn _ he)⟩

theorem sendRelease_steps (label : Epoch) (s : State) (b : BlockIx) (h : Ended s) :
    Steps k s (sendRelease label s b) ∧ Ended (sendRelease label s b) := by
  unfold sendRelease
  dsimp only
  split
  · rename_i hr
    have := endedOffer_steps (k := k) h rfl rfl (isCapAt_eq b label none 0) hr
    exact ⟨this.1.trans (capEnters_steps _ _ _ _), this.2⟩
  · exact ⟨.refl, h⟩

theorem sendStorageRelease_steps (label : Epoch) (s : State) (h : Ended s) :
    Steps k s (sendStorageRelease label s) ∧ Ended (sendStorageRelease label s) := by
  unfold sendStorageRelease
  dsimp only
  split
  · rename_i hr
    have := endedOffer_steps (k := k) h rfl rfl (isStoreAt_eq label 0 0) hr
    exact ⟨this.1.trans (storeEnters_steps _ _ _), this.2⟩
  · exact ⟨.refl, h⟩

theorem sendReleases_blocks_steps (label : Epoch) (blocks : List BlockIx) (s : State) (h : Ended s) :
    Steps k s (blocks.foldl (sendRelease label) s) ∧ Ended (blocks.foldl (sendRelease label) s) := by
  induction blocks generalizing s with
  | nil => exact ⟨.refl, h⟩
  | cons b rest ih =>
    have hb := sendRelease_steps (k := k) label s b h
    have := ih (sendRelease label s b) hb.2
    exact ⟨hb.1.trans this.1, this.2⟩

/-- R51: the closing MARK at the tail of a queue that holds no MARK. -/
theorem sendReleases_steps (label : Epoch) (blocks : List BlockIx) (s : State) (h : Ended s) :
    Steps k s (sendReleases label blocks s) := by
  unfold sendReleases
  have h1 := sendReleases_blocks_steps (k := k) label blocks s h
  generalize blocks.foldl (sendRelease label) s = s1 at h1
  have h2 := sendStorageRelease_steps (k := k) label s1 h1.2
  generalize sendStorageRelease label s1 = s2 at h2
  obtain ⟨hup, hstop, hn⟩ := h2.2
  have hf : s2.ring.queue.filter OwnPacket.isMark = [] := List.filter_eq_nil_iff.2 fun p hp => by simp [hn p hp]
  refine (h1.1.trans h2.1).trans (Steps.one (.ring s2 _ (fun hl => ?_) fun _ hm => ⟨?_, fun hr => absurd hstop hr⟩))
  · obtain ⟨_, q2, _, _, q5, q6⟩ := hl
    refine ⟨?_, ?_, fun hn => absurd hup hn, fun hd => ?_, ?_, snoc_distinct (fun x _ => rfl) q6⟩
    · dsimp only; rw [length_filter_snoc, hf]; simp
    · dsimp only; rw [length_filter_snoc]; simpa using q2
    · dsimp only at hd; rw [hup] at hd; simp at hd
    · dsimp only; rw [length_filter_snoc, q5]; simp
  · refine List.pairwise_append.2 ⟨hm.1, List.pairwise_singleton _ _, fun a _ b hb => ?_⟩
    rw [List.mem_singleton.1 hb]; exact .ofNoLabel rfl

theorem stopBlocks_ring (s : State) : (stopBlocks s).ring = s.ring := by
  unfold stopBlocks
  dsimp only
  rw [foldl_keeps State.ring (f := freeForStop) (fun _ _ => rfl), foldl_keeps State.ring (f := freeForStop) (fun _ _ => rfl)]

theorem endRun_ring (s : State) : (endRun s).ring = { s.ring with queue := onlyProbes s.ring.queue } := by
  unfold endRun stopStorage
  rw [State.onStorage_ring, stopBlocks_ring]
  rfl

theorem stopBlocks_run (s : State) : (stopBlocks s).run = s.run := by
  unfold stopBlocks
  dsimp only
  rw [foldl_keeps State.run (f := freeForStop) (fun _ _ => rfl), foldl_keeps State.run (f := freeForStop) (fun _ _ => rfl)]

theorem endRun_stopped (s : State) : (endRun s).run.state = .stopped := by
  unfold endRun stopStorage
  rw [State.onStorage_run, stopBlocks_run]
  rfl

theorem endRun_steps (s : State) (h : s.run.state.inRun = true) : Steps k s (endRun s) := by
  unfold endRun stopStorage
  refine .trans ?_ (storage_steps _ _)
  refine .trans ?_ (stopBlocks_steps _)
  refine .trans ?_ (dropQueue_steps _)
  exact Steps.one (.stop s h)

theorem stopRun_steps (release : Bool) (s : State) (h : s.run.state.inRun = true) : Steps k s (stopRun release s) := by
  unfold stopRun
  split
  · rename_i hr
    refine (endRun_steps s h).trans (sendReleases_steps _ _ _ ⟨?_, endRun_stopped s, fun p hp => ?_⟩)
    · rw [endRun_ring]; exact hr.2
    · rw [endRun_ring] at hp
      have := (List.mem_filter.1 hp).2
      cases p <;> first | rfl | exact Bool.noConfusion this
  · exact endRun_steps s h

theorem serveStop_steps (option : Byte) (s : State) : Steps k s (serveStop option s).state := by
  unfold serveStop
  split
  · exact .refl
  · split
    · exact .refl
    · rename_i h
      exact Steps.one (.disarm s h)
    · rename_i h
      exact stopRun_steps _ s (by rw [h]; rfl)
    · rename_i h
      exact stopRun_steps _ s (by rw [h]; rfl)

/-! ## Conditions and the Host Link Port -/

theorem serveClearConditions_steps (named : Word) (s : State) : Steps k s (serveClearConditions named s).state :=
  Steps.one (.clear s named)

theorem serveSetNoticeMask_steps (mask : Word) (s : State) : Steps k s (serveSetNoticeMask mask s).state :=
  Steps.one (.gate s (fun c => { c with mask }) rfl)

theorem serveNoticeRearm_steps (s : State) : Steps k s (serveNoticeRearm s).state :=
  Steps.one (.gate s (fun c => { c with gate := .opened }) rfl)

theorem serveLeadsBegin_steps (s : State) : Steps k s (serveLeadsBegin s).state := by
  unfold serveLeadsBegin; rw [served_state]
  exact front_steps _ s (fun h => ⟨h.1, empty_map_lawful, h.2.2⟩) rfl

theorem serveLeadsCommit_steps (s : State) : Steps k s (serveLeadsCommit s).state := by
  unfold serveLeadsCommit; rw [servedWith_state]
  exact front_steps _ s (fun h => ⟨h.2.1, empty_map_lawful, h.2.2⟩) rfl

theorem serveReset_steps (s : State) : Steps k s (serveReset s).state := by
  unfold serveReset; rw [served_state]; exact link_steps _ s

theorem serve_steps (order : EpochOrder) (r : Request) (s : State) : Steps .whole s (serve order r s).state := by
  cases r with
  | enroll b rated g => exact serveEnroll_steps b rated g s
  | profile b rated g => exact serveProfile_steps b rated g s
  | withdraw b => exact serveWithdraw_steps b s
  | pin b cap => exact servePin_steps b cap s
  | unpin b => exact serveUnpin_steps b s
  | bar b => exact serveBar_steps b s
  | unbar b => exact serveUnbar_steps b s
  | readBlock b => exact serveReadBlock_steps b s
  | setPlant body => exact serveSetPlant_steps body s
  | setGroup g body => exact serveSetGroup_steps g body s
  | readSettings => exact .refl
  | setEpoch source period divisor => exact serveSetEpoch_steps source period divisor s
  | start t => exact serveStart_steps t order s
  | stop o => exact serveStop_steps o s
  | clearHold l => exact serveClearHold_steps l s
  | setSensor period enable => exact serveSetSensor_steps period enable s
  | loadStation t body => exact serveLoadStation_steps t body s
  | readStation t => exact serveReadStation_steps t s
  | leadsBegin => exact serveLeadsBegin_steps s
  | leadsAdd entries => exact serveLeadsAdd_steps entries s
  | leadsCommit => exact serveLeadsCommit_steps s
  | flushWarnings => exact emptyWarnings_steps s
  | readWarning i => exact serveReadWarning_steps i s
  | readPlant => exact .refl
  | readNodes => exact .refl
  | probeRing => exact serveProbeRing_steps s
  | loadRing ids => exact serveLoadRing_steps ids s
  | readRing => exact .refl
  | alertTake c => exact serveAlertTake_steps c s
  | alertPeek c i => exact serveAlertPeek_steps c i s
  | alertFlush c => exact serveAlertFlush_steps c s
  | readConditions => exact .refl
  | clearConditions w => exact serveClearConditions_steps w s
  | setNoticeMask w => exact serveSetNoticeMask_steps w s
  | noticeRearm => exact serveNoticeRearm_steps s
  | reset => exact serveReset_steps s

theorem takeHostRequest_steps (order : EpochOrder) (r : HostRequest) (s : State) : Steps .whole s (takeHostRequest order r s) := by
  refine takeRequest_steps _ _ (fun s => ?_) s
  unfold serveHostRequest
  split
  · exact serve_steps _ _ s
  · exact .refl

theorem takeHeld_steps (order : EpochOrder) (s : State) : Steps .whole s (takeHeld order s) := by
  unfold takeHeld
  split
  · split
    · exact .refl
    · exact (link_steps _ s).trans (takeHostRequest_steps _ _ _)
  · exact .refl

theorem acceptRequest_steps (order : EpochOrder) (r : HostRequest) (s : State) : Steps .whole s (acceptRequest order r s) := by
  unfold acceptRequest
  split
  · exact linkError_steps s
  split
  · exact link_steps _ s
  · exact takeHostRequest_steps _ _ s

theorem frameComplete_steps (f : RxFrame) (order : EpochOrder) (s : State) : Steps .whole s (frameComplete f order s) := by
  have h : Steps .whole s (takeHeld order (huntAgain s)) := .trans (link_steps _ s) (takeHeld_steps order _)
  unfold frameComplete
  generalize takeHeld order (huntAgain s) = s1 at h
  dsimp only
  refine h.trans ?_
  split
  · exact acceptRequest_steps _ _ _
  · exact linkError_steps _

theorem abandonFrame_steps (s : State) : Steps k s (abandonFrame s) :=
  (link_steps _ s).trans (linkError_steps _)

theorem gapTimeout_steps (s : State) : Steps k s (gapTimeout s) := by
  unfold gapTimeout
  split
  · exact (time_steps _ s).trans (abandonFrame_steps _)
  · exact .refl

theorem gapIfDue_steps (s : State) : Steps k s (gapIfDue s) := by
  unfold gapIfDue
  repeat' split
  all_goals first | exact .refl | exact gapTimeout_steps s

theorem receiveByte_steps (byte : Byte) (stopBit : Bool) (order : EpochOrder) (s : State) :
    Steps .whole s (receiveByte byte stopBit order s) := by
  unfold receiveByte
  have h := gapIfDue_steps (k := .whole) s
  generalize gapIfDue s = s1 at h
  dsimp only
  refine h.trans ?_
  split
  · split
    · exact link_steps _ s1
    · exact .refl
  · split
    · unfold collectByte
      split
      · exact abandonFrame_steps s1
      split
      · exact link_steps _ s1
      · exact frameComplete_steps _ _ s1
    · exact abandonFrame_steps s1

theorem fullReset_steps (p : Straps) (s : State) : Steps k s (fullReset p s) :=
  Steps.one (.reset s _ _ _ _ p)

theorem holdInReset_steps (s : State) : Steps k s (holdInReset s) := by
  unfold holdInReset
  split
  · exact .refl
  · refine (fullReset_steps s.straps s).trans ((link_steps (fun l => { l with rate := s.link.rate }) _).trans ?_)
    exact Steps.one (.aside _ s.pending s.now s.freeCount true)

theorem leaveReset_steps (p : Straps) (s : State) : Steps k s (leaveReset p s) := by
  unfold leaveReset
  split
  · exact fullReset_steps p s
  · exact .refl

theorem finishReset_steps (p : Straps) (s : State) : Steps k s (finishReset p s) := by
  unfold finishReset
  split
  · exact fullReset_steps p s
  · exact .refl

theorem frameSent_steps (s : State) : Steps k s (frameSent s) := by
  unfold frameSent
  split
  · exact finishReset_steps _ s
  · exact link_steps _ s

/-! ## Every command -/

theorem next_steps {s t u : State} (h : Steps k s u) (he : (.next u : Result) = .next t) : Steps k s t := by
  injection he with he
  exact he ▸ h

/-- Whatever state a command answers is reached by moves, each epoch among them as one. -/
theorem exec_whole {c : Instr} {s t : State} (he : exec c s = .next t) : Steps .whole s t := by
  cases c with
  | enroll tag b rated g => exact execRequest_steps (serveEnroll_steps b rated g) he
  | profile tag b rated g => exact execRequest_steps (serveProfile_steps b rated g) he
  | withdraw tag b => exact execRequest_steps (serveWithdraw_steps b) he
  | pin tag b cap => exact execRequest_steps (servePin_steps b cap) he
  | unpin tag b => exact execRequest_steps (serveUnpin_steps b) he
  | bar tag b => exact execRequest_steps (serveBar_steps b) he
  | unbar tag b => exact execRequest_steps (serveUnbar_steps b) he
  | readBlock tag b => exact execRequest_steps (serveReadBlock_steps b) he
  | setPlant tag body => exact execRequest_steps (serveSetPlant_steps body) he
  | setGroup tag g body => exact execRequest_steps (serveSetGroup_steps g body) he
  | readSettings tag => exact execRequest_steps (fun _ => .refl) he
  | setEpoch tag source period divisor => exact execRequest_steps (serveSetEpoch_steps source period divisor) he
  | start tag t order => exact execRequest_steps (serveStart_steps t order) he
  | stop tag o => exact execRequest_steps (serveStop_steps o) he
  | clearHold tag l => exact execRequest_steps (serveClearHold_steps l) he
  | setSensor tag period enable => exact execRequest_steps (serveSetSensor_steps period enable) he
  | loadStation tag t body => exact execRequest_steps (serveLoadStation_steps t body) he
  | readStation tag t => exact execRequest_steps (serveReadStation_steps t) he
  | leadsBegin tag => exact execRequest_steps serveLeadsBegin_steps he
  | leadsAdd tag entries => exact execRequest_steps (serveLeadsAdd_steps entries) he
  | leadsCommit tag => exact execRequest_steps serveLeadsCommit_steps he
  | flushWarnings tag => exact execRequest_steps emptyWarnings_steps he
  | readWarning tag i => exact execRequest_steps (serveReadWarning_steps i) he
  | readPlant tag => exact execRequest_steps (fun _ => .refl) he
  | readNodes tag => exact execRequest_steps (fun _ => .refl) he
  | probeRing tag => exact execRequest_steps serveProbeRing_steps he
  | loadRing tag ids => exact execRequest_steps (serveLoadRing_steps ids) he
  | readRing tag => exact execRequest_steps (fun _ => .refl) he
  | alertTake tag c => exact execRequest_steps (serveAlertTake_steps c) he
  | alertPeek tag c i => exact execRequest_steps (serveAlertPeek_steps c i) he
  | alertFlush tag c => exact execRequest_steps (serveAlertFlush_steps c) he
  | readConditions tag => exact execRequest_steps (fun _ => .refl) he
  | clearConditions tag w => exact execRequest_steps (serveClearConditions_steps w) he
  | setNoticeMask tag w => exact execRequest_steps (serveSetNoticeMask_steps w) he
  | noticeRearm tag => exact execRequest_steps serveNoticeRearm_steps he
  | reset tag => exact execRequest_steps serveReset_steps he
  | hostFrameComplete f order => exact execEvent_steps (frameComplete_steps f order) he
  | hostFrameGapTimeout => exact execEvent_steps gapTimeout_steps he
  | heldRequestTaken order => exact execEvent_steps (takeHeld_steps order) he
  | hostFrameSent => exact execEvent_steps frameSent_steps he
  | resetReplySent p => exact execEvent_steps (finishReset_steps p) he
  | resetNAsserted => exact next_steps (holdInReset_steps s) he
  | resetNReleased p => exact next_steps (leaveReset_steps p s) he
  | internalPeriodExpiry order => exact execEvent_steps (periodExpiry_steps order) he
  | epochInEdge since order => exact execEvent_steps (epochEdge_steps since order) he
  | epochStall => exact execEvent_steps tripStall_steps he
  | startInEdge order => exact execEvent_steps (triggerOn_steps .startLine order) he
  | holdLineAsserted l => exact execEvent_steps (seeAsserted_steps l) he
  | holdLineInactive l => exact execEvent_steps (seeInactive_steps l) he
  | dispatchComputingEnd => exact execEvent_steps computingEnd_steps he
  | stagingResumed => exact execEvent_steps resumeStaging_steps he
  | sensorFrameSync ff order => exact execEvent_steps (frameSync_steps ff order) he
  | sensorFrameFull w => exact execEvent_steps (fillFrame_steps w) he
  | sensorLoss => exact execEvent_steps tripLoss_steps he
  | ringSignalLoss =>
    refine next_steps ?_ he
    split
    · exact followSignal_steps _ s
    · exact signalLoss_steps s
  | ringSignalPresent =>
    refine next_steps ?_ he
    split
    · exact followSignal_steps _ s
    · exact signalPresent_steps s
  | ringSettled => exact execEvent_steps settle_steps he
  | probeWindowExpiry => exact execEvent_steps windowExpiry_steps he
  | probeRetryExpiry => exact execEvent_steps retryExpiry_steps he
  | ringPacketReceived bs => exact execEvent_steps (receivePacket_steps bs) he
  | outPortFree => exact execEvent_steps portFree_steps he
  | hostByteReceived b sb order => exact execEvent_steps (receiveByte_steps b sb order) he
  | sensorWordReceived w => exact execEvent_steps (takeWord_steps w) he

/-- A sequence of moves, with each epoch in its parts. -/
theorem Steps.fine {s t : State} (h : Steps .whole s t) : Steps .parts s t := by
  refine h.trans_induction_on (fun _ => .refl) (fun {a b} hm => ?_) fun _ _ h1 h2 => h1.trans h2
  cases hm with
  | aside p n c r => exact .one (.aside a p n c r)
  | link f => exact .one (.link a f)
  | store f => exact .one (.store a f)
  | sky f h hw => exact .one (.sky a f h hw)
  | front f h hw => exact .one (.front a f h hw)
  | warnings f u h hu hf ho => exact .one (.warnings a f u h hu hf ho)
  | storage f => exact .one (.storage a f)
  | meter f => exact .one (.meter a f)
  | gov f h hw => exact .one (.gov a f h hw)
  | timer f hr hs he => exact .one (.timer a f hr hs he)
  | epoch order hr => exact takeEpoch_steps order a hr
  | run f h1 h2 h3 => exact .one (.run a f h1 h2 h3)
  | trigger hw hq => exact .one (.trigger a hw hq)
  | arm x h hw hq => exact .one (.arm a x h hw hq)
  | disarm h => exact .one (.disarm a h)
  | stop h => exact .one (.stop a h)
  | raise c h => exact .one (.raise a c h)
  | clear w => exact .one (.clear a w)
  | gate f h => exact .one (.gate a f h)
  | alerts c q h => exact .one (.alerts a c q h)
  | block b f => exact .one (.block a b f)
  | groupCapture g => exact .one (.groupCapture a g)
  | ring f h hm => exact .one (.ring a f h hm)
  | reset p n c x y => exact .one (.reset a p n c x y)

/-- Whatever state a command answers is reached by moves. -/
theorem exec_steps {c : Instr} {s t : State} (he : exec c s = .next t) : Steps .parts s t :=
  (exec_whole he).fine

/-- Whatever state a step answers, a tick's among them, is reached by moves. -/
theorem step_whole {s t : State} (h : step s = .next t) : Steps .whole s t := by
  unfold step at h
  split at h
  · refine next_steps ?_ h
    unfold tick
    dsimp only
    split
    · exact .one (.aside s s.pending (s.now + 1) s.freeCount s.resetLow)
    · exact .one (.aside s _ (s.now + 1) s.freeCount s.resetLow)
  · rename_i rest _
    exact (Steps.one (.aside s rest s.now s.freeCount s.resetLow)).trans (exec_whole h)

theorem step_steps {s t : State} (h : step s = .next t) : Steps .parts s t :=
  (step_whole h).fine

end Sys2Proof.Machine
end

