-- ==== Sys2Proof/Laws/Operands.lean ====
section
/-! SUPPORT. The range checks of Machine/Operands.lean, against the ranges of Safety.lean: what each gives in range and out of it. -/

namespace Sys2Proof.Machine

/-! ## Identifiers -/

theorem blockOf_id {x : Byte} {b : BlockIx} (h : x.toNat = b.val + 1) : blockOf x = some b := by
  have := b.isLt
  unfold blockOf
  rw [dif_pos (by omega)]
  congr 1
  apply Fin.ext
  simp
  omega

theorem groupOf_id {x : Byte} {g : GroupIx} (h : x.toNat = g.val + 1) : groupOf x = some g := by
  have := g.isLt
  unfold groupOf
  rw [dif_pos (by omega)]
  congr 1
  apply Fin.ext
  simp
  omega

theorem stationOf_id {x : Byte} {t : StationIx} (h : x.toNat = t.val + 1) : stationOf x = some t := by
  have := t.isLt
  unfold stationOf
  rw [dif_pos (by omega)]
  congr 1
  apply Fin.ext
  simp
  omega

theorem blockOf_out {x : Byte} (h : NoBlock x) : blockOf x = none := by
  unfold NoBlock at h
  exact dif_neg (by omega)

theorem groupOf_out {x : Byte} (h : x.toNat = 0 ∨ 8 < x.toNat) : groupOf x = none :=
  dif_neg (by omega)

theorem stationOf_out {x : Byte} (h : x.toNat = 0 ∨ 24 < x.toNat) : stationOf x = none :=
  dif_neg (by omega)

theorem profileOf_in {rated : Half} {group : Byte} {g : GroupIx} (h1 : 1 ≤ rated.toNat) (h2 : rated.toNat ≤ 65000)
    (h : group.toNat = g.val + 1) : profileOf rated group = some { rated := rated.toNat, group := g } := by
  simp [profileOf, inRange, h1, h2, groupOf_id h]

theorem profileOf_out {rated : Half} {group : Byte} (h : NoProfile rated group) : profileOf rated group = none := by
  unfold NoProfile at h
  unfold profileOf inRange
  by_cases h1 : 1 ≤ rated.toNat ∧ rated.toNat ≤ 65000
  · rw [if_pos (by simp; omega), groupOf_out (by omega)]
    rfl
  · exact if_neg (by simp; omega)

theorem profileOf_some {rated : Half} {group : Byte} (h : ¬NoProfile rated group) : ∃ p, profileOf rated group = some p := by
  unfold NoProfile at h
  exact ⟨_, profileOf_in (g := ⟨group.toNat - 1, by omega⟩) (by omega) (by omega) (by simp; omega)⟩

/-! ## Codes -/

/-- A byte of a two-valued field is 0, 1, or out of range. -/
theorem byte_cases (b : Byte) : b = 0#8 ∨ b = 1#8 ∨ (1 < b.toNat ∧ b ≠ 0#8 ∧ b ≠ 1#8) := by
  by_cases h0 : b = 0#8
  · exact .inl h0
  · by_cases h1 : b = 1#8
    · exact .inr (.inl h1)
    · refine .inr (.inr ⟨?_, h0, h1⟩)
      by_contra h
      rcases Nat.le_one_iff_eq_zero_or_eq_one.1 (Nat.le_of_not_lt h) with h | h
      · exact h0 (BitVec.eq_of_toNat_eq h)
      · exact h1 (BitVec.eq_of_toNat_eq h)

theorem flagOfByte_in {b : Byte} (h : b.toNat ≤ 1) : flagOfByte b = some (b == 1#8) := by
  rcases byte_cases b with h0 | h1 | h2
  · subst h0; rfl
  · subst h1; rfl
  · omega

theorem flagOfByte_out {b : Byte} (h : 1 < b.toNat) : flagOfByte b = none := by
  rcases byte_cases b with h0 | h1 | ⟨_, h0, h1⟩
  · subst h0; simp at h
  · subst h1; simp at h
  · simp [flagOfByte, h0, h1]

theorem alertClass_out {cls : Byte} (h : 3 < cls.toNat) : AlertClass.ofCode cls = none := by
  unfold AlertClass.ofCode
  rw [if_neg, if_neg, if_neg, if_neg] <;> (intro e; subst e; revert h; decide)

/-! ## Records -/

theorem checkHold_in {h : HoldBody} (hr : HoldInRange h) : checkHold h = some (recordOfHold h) := by
  obtain ⟨h1, h2, h3, h4⟩ := hr
  unfold checkHold recordOfHold
  rw [flagOfByte_in h1]
  rcases byte_cases h.mode with m | m | m <;> rcases byte_cases h.action with a | a | a <;>
    first
    | omega
    | simp [m, a, HoldMode.ofCode, HoldAction.ofCode, h4]

theorem checkHold_out {h : HoldBody} (hr : ¬HoldInRange h) : checkHold h = none := by
  unfold checkHold
  split
  · rename_i h1 h2 h3
    refine if_neg fun h4 => hr ⟨?_, ?_, ?_, h4⟩
    · by_contra hc
      rw [flagOfByte_out (by omega)] at h1
      cases h1
    · rcases byte_cases h.mode with m | m | ⟨_, m0, m1⟩
      · simp [m]
      · simp [m]
      · simp [HoldMode.ofCode, m0, m1] at h2
    · rcases byte_cases h.action with m | m | ⟨_, m0, m1⟩
      · simp [m]
      · simp [m]
      · simp [HoldAction.ofCode, m0, m1] at h3
  · rfl

theorem plantInRange_iff (p : PlantBody) :
    PlantInRange p ↔ plantInRanges p = true ∧ HoldInRange p.lineA ∧ HoldInRange p.lineB ∧ p.absorb.toNat ≤ 1 := by
  unfold plantInRanges PlantInRange inRange
  have := p.stepUp.isLt
  have := p.stepDown.isLt
  simp only [Bool.and_eq_true, decide_eq_true_eq]
  constructor
  · rintro ⟨h1, h2, h3, h4, h5, h6, h7, h8, h9, h10, h11, h12, ha, hb⟩
    refine ⟨?_, ha, hb, h10⟩
    omega
  · rintro ⟨h, ha, hb, hc⟩
    refine ⟨?_, ?_, ?_, ?_, ?_, ?_, ?_, ?_, ?_, ?_, ?_, ?_, ha, hb⟩ <;> omega

theorem checkPlant_in {p : PlantBody} (h : PlantInRange p) : checkPlant p = some (recordOfPlant p) := by
  obtain ⟨h1, h2, h3, h4⟩ := (plantInRange_iff p).1 h
  unfold checkPlant recordOfPlant
  rw [flagOfByte_in h4, checkHold_in h2, checkHold_in h3]
  simp [h1]

theorem checkPlant_out {p : PlantBody} (h : ¬PlantInRange p) : checkPlant p = none := by
  unfold checkPlant
  split
  · rename_i h1 h2 h3
    refine if_neg fun h4 => h ((plantInRange_iff p).2 ⟨h4, ?_, ?_, ?_⟩)
    · by_contra hc
      rw [checkHold_out hc] at h2
      cases h2
    · by_contra hc
      rw [checkHold_out hc] at h3
      cases h3
    · by_contra hc
      rw [flagOfByte_out (by omega)] at h1
      cases h1
  · rfl

theorem checkGroup_in {g : GroupBody} (h : GroupInRange g) : checkGroup g = some (recordOfGroup g) := by
  unfold GroupInRange at h
  unfold checkGroup inRange
  refine if_pos ?_
  simp only [Bool.and_eq_true, Bool.or_eq_true, decide_eq_true_eq, beq_iff_eq]
  omega

theorem checkGroup_out {g : GroupBody} (h : ¬GroupInRange g) : checkGroup g = none := by
  unfold checkGroup inRange
  refine if_neg fun hc => h ?_
  simp only [Bool.and_eq_true, Bool.or_eq_true, decide_eq_true_eq, beq_iff_eq] at hc
  unfold GroupInRange
  omega

theorem stationInRanges_iff (b : StationBody) : stationInRanges b = true ↔ StationInRange b := by
  unfold stationInRanges StationInRange inRange
  have := b.drop.isLt
  have := b.clear.isLt
  simp only [Bool.and_eq_true, decide_eq_true_eq]
  have he : (flagOfByte b.enabled).isSome = true ↔ b.enabled.toNat ≤ 1 := by
    by_cases h : b.enabled.toNat ≤ 1
    · simp [flagOfByte_in h, h]
    · simp [flagOfByte_out (Nat.lt_of_not_le h), h]
  rw [he]
  omega

end Sys2Proof.Machine
end

