-- ==== Sys2Proof/Laws/Starting.lean ====
section
/-! SUPPORT. START and the trigger: an adoption in STOPPED, what START prepares, and the trigger taken. -/

namespace Sys2Proof.Machine

/-- R53: in STOPPED a latch that is set moves no run state and cuts no dispatch. -/
theorem setLatch_whileStopped (line : HoldLine) (s : State) (hs : s.run.state = .stopped) (hp : s.gov.phase = .idle) :
    setLatch line s = { s with run := s.run.setLine line { s.run.line line with latch := true } } := by
  unfold setLatch
  split
  · rename_i h
    cases line <;> (simp only [RunControl.line] at h; simp only [RunControl.setLine, RunControl.line, ← h])
  · have hb (c : RunControl) (hc : c.state = .stopped) : beginHold { s with run := c } = { s with run := c } := by
      unfold beginHold
      rw [if_neg (by rw [hc]; decide)]
    have hl : (s.run.setLine line { s.run.line line with latch := true }).state = .stopped := by cases line <;> exact hs
    show cutIfFreezeBegan s.hold (beginHold { s with run := s.run.setLine line { s.run.line line with latch := true } }) = _
    rw [hb _ hl]
    unfold cutIfFreezeBegan
    split
    · unfold cutDispatch
      rw [show ({ s with run := s.run.setLine line { s.run.line line with latch := true } } : State).gov.phase = .idle from hp]
    · rfl

/-- R48: what an adoption in STOPPED makes of one hold line. -/
theorem adoptLine_whileStopped (before : Option PlantRecord) (line : HoldLine) (s : State) (hs : s.run.state = .stopped)
    (hp : s.gov.phase = .idle) :
    adoptLine before s line
      = { s with run := s.run.setLine line { s.run.line line with
            latch := adoptedLatch (lineEnabled before line) (lineEnabled s.gov.plant line) (s.run.line line) } } := by
  have keep : s = { s with run := s.run.setLine line { s.run.line line with latch := (s.run.line line).latch } } := by
    cases line <;> rfl
  unfold adoptLine adoptedLatch
  split
  · rename_i h1 h2
    simp only [h1, h2]
    rfl
  · rename_i h1 h2
    simp only [h1, h2]
    split
    · rename_i h
      rw [setLatch_whileStopped line s hs hp]
      simp [h]
    · rename_i h
      simpa [h] using keep
  · rename_i h1 h2
    simpa [h1, h2] using keep
  · rename_i h1 h2
    simpa [h1, h2] using keep

theorem anyStaged_iff (st : SettingsStore) :
    st.anyStaged = true ↔ st.plant.isSome = true ∨ ∃ g : GroupIx, (st.groups[g]).isSome = true := by
  unfold SettingsStore.anyStaged
  rw [Bool.or_eq_true, List.any_eq_true]
  refine or_congr .rfl ⟨fun ⟨x, hx, h⟩ => ?_, fun ⟨g, h⟩ => ⟨st.groups[g], ?_, h⟩⟩
  · obtain ⟨i, hi, rfl⟩ := List.getElem_of_mem hx
    exact ⟨⟨i, by simpa using hi⟩, by simpa using h⟩
  · exact Vector.mem_toList_iff.2 (Vector.getElem_mem g.2)

/-- R39, R40: an adoption in STOPPED. -/
theorem adopt_whileStopped (s : State) (hs : s.run.state = .stopped) (hp : s.gov.phase = .idle) :
    adopt s = { s with
        store := (adopt s).store, gov := { s.gov with plant := s.store.plant.or s.gov.plant, groups := (adopt s).gov.groups,
                                                      window := (adopt s).gov.window }
        table := { s.table with blocks := (adopt s).table.blocks }
        run := { s.run with
          lineA := { s.run.lineA with
            latch := adoptedLatch (lineEnabled s.gov.plant .a) (lineEnabled (s.store.plant.or s.gov.plant) .a) s.run.lineA }
          lineB := { s.run.lineB with
            latch := adoptedLatch (lineEnabled s.gov.plant .b) (lineEnabled (s.store.plant.or s.gov.plant) .b) s.run.lineB } } }
      ∧ ∀ b : BlockIx, (adopt s).block b
          = if s.store.anyStaged = true then (s.block b).floorRaised (adopt s).gov.groups else s.block b := by
  by_cases h : s.store.anyStaged = true
  · have hA : adopt s = adoptLine s.gov.plant
        (adoptLine s.gov.plant (raiseFloors ((s.onGov (commitStaged s.store)).onStore emptyStaged)) .a) .b := if_pos h
    rw [hA]
    simp only [if_pos h]
    have hr := raiseFloors_all ((s.onGov (commitStaged s.store)).onStore emptyStaged)
    generalize raiseFloors ((s.onGov (commitStaged s.store)).onStore emptyStaged) = u at *
    obtain ⟨h1, h2⟩ := hr
    have hur : u.run = s.run := by rw [h1]; rfl
    have hug : u.gov = commitStaged s.store s.gov := by rw [h1]; rfl
    rw [adoptLine_whileStopped _ .a u (by rw [hur]; exact hs) (by rw [hug]; exact hp)]
    rw [adoptLine_whileStopped _ .b _ (by rw [hur]; exact hs) (by rw [hug]; exact hp)]
    refine ⟨?_, fun b => ?_⟩
    · rw [h1]
      rfl
    · refine (h2 b).trans ?_
      dsimp only
      rw [hug]
      rfl
  · have hA : adopt s = s := if_neg h
    have hn : s.store.plant = none := by
      cases hc : s.store.plant with
      | none => rfl
      | some p => exact absurd ((anyStaged_iff _).2 (.inl (by rw [hc]; rfl))) h
    have ha (e : Bool) (x : HoldState) : adoptedLatch e e x = x.latch := by
      cases e <;> simp [adoptedLatch]
    rw [hA]
    simp only [if_neg h, hn, Option.none_or, ha, implies_true, and_true]

/-- R48: what START prepares. -/
theorem prepareRun_all (s : State) (hs : s.run.state = .stopped) (hp : s.gov.phase = .idle) :
    prepareRun s = { s with
        store := (adopt s).store, table := (prepareRun s).table, sky := { s.sky with stations := (prepareRun s).sky.stations }
        gov := { s.gov with plant := s.store.plant.or s.gov.plant, groups := (adopt s).gov.groups, window := []
                            lastBand := none, source := .waiting, upBreaches := 0, downBreaches := 0, overruns := 0
                            heldTarget := none }
        front := { s.front with warnings := [] }, timer := { s.timer with epoch := 0 }
        nodes := { storage := { s.nodes.storage with heard := none, hearing := .waiting, commandLabel := none,
                                                     leaseExpiry := none },
                   meter := { s.nodes.meter with heard := none, hearing := .waiting } }
        ring := { s.ring with queue := s.ring.queue.filter OwnPacket.isProbe, lastMark := none }
        run := { s.run with
          lineA := { s.run.lineA with
            latch := adoptedLatch (lineEnabled s.gov.plant .a) (lineEnabled (s.store.plant.or s.gov.plant) .a) s.run.lineA }
          lineB := { s.run.lineB with
            latch := adoptedLatch (lineEnabled s.gov.plant .b) (lineEnabled (s.store.plant.or s.gov.plant) .b) s.run.lineB } } }
      ∧ (∀ x, (prepareRun s).station x = { s.station x with warningHeld := false })
      ∧ (prepareRun s).table.capped = s.table.capped ∧ (prepareRun s).table.rotation = s.table.rotation
      ∧ (prepareRun s).table.groupCapture = Vector.replicate 8 none
      ∧ ∀ b, (prepareRun s).block b = ((adopt s).block b).renumbered := by
  obtain ⟨a1, _⟩ := adopt_whileStopped s hs hp
  generalize hA : adopt s = A at *
  have e := emptyWarnings_all (A.onGov Governor.restarted)
  have hb := startBlocks_all (clearRun (emptyWarnings (A.onGov Governor.restarted)))
  have hP : prepareRun s = (startNodes (startBlocks (clearRun (emptyWarnings (A.onGov Governor.restarted))))).onTimer fun t =>
    { t with epoch := 0 } := by rw [← hA]; rfl
  rw [hP]
  generalize emptyWarnings (A.onGov Governor.restarted) = E at *
  obtain ⟨e1, e2⟩ := e
  generalize startBlocks (clearRun E) = B at *
  obtain ⟨b1, b2⟩ := hb
  refine ⟨?_, fun x => ?_, ?_, ?_, ?_, fun b => ?_⟩
  · rw [b1, e1, a1]
    rfl
  · have h1 : B.station x = E.station x := by rw [b1]; rfl
    have h2 : (A.onGov Governor.restarted).station x = s.station x := by rw [a1]; rfl
    exact h1.trans ((e2 x).trans (by rw [h2]))
  · show B.table.capped = _
    rw [b1, e1, a1]
    rfl
  · show B.table.rotation = _
    rw [b1, e1, a1]
    rfl
  · show B.table.groupCapture = _
    rw [b1]
  · have h1 : (clearRun E).block b = A.block b := by
      unfold clearRun dropQueue State.onRing State.block
      rw [e1]
      rfl
    exact (b2 b).trans (by rw [h1])

/-- R49: the trigger as it is taken. -/
theorem triggerTaken (s : State) : TriggerTaken s (enterRun (s.onTimer (EpochTimer.triggered s.now))) := by
  refine ⟨_, rfl, ?_⟩
  unfold enterRun RunControl.anyLatch
  by_cases h : s.run.lineA.latch = true ∨ s.run.lineB.latch = true
  · rw [if_pos h, if_pos (by simpa [State.onTimer] using h)]
    congr 1
    simp only [h, if_true]
    rfl
  · rw [if_neg h, if_neg (by simpa [State.onTimer] using h)]
    simp only [h, if_false]
    rfl

theorem TriggerTaken.runs {s u : State} (h : TriggerTaken s u) : u.run.state.inRun = true ∧ u.timer.epoch = 0 := by
  obtain ⟨v, rfl, rfl⟩ := h
  split
  · rename_i h
    rw [raise_run, raise_timer]
    simp [RunState.inRun]
  · rename_i h
    simp [RunState.inRun]

end Sys2Proof.Machine
end

