-- ==== Sys2Proof/Laws/Staging.lean ====
section
/-! SUPPORT. Staging: the steps of a decision list commute with the dispatch phase, and an offered packet enters the queue. -/

namespace Sys2Proof.Machine

/-- R116: what the condition of a target path reaches. -/
theorem raisePath_parts (path : TargetPath) (s1 : State) : raisePath path s1
    = { s1 with link := (raisePath path s1).link, cond := (raisePath path s1).cond } ∧ (raisePath path s1).cond.mask
    = s1.cond.mask ∧ (raisePath path s1).cond.conditions = s1.cond.conditions ||| (match path with
              | .within => 0
              | .short => Condition.supplyShort.flag
              | .late => Condition.glideLate.flag) := by
  cases path
  · exact ⟨rfl, rfl, by simp [raisePath]⟩
  · exact ⟨raise_frame _ _, raise_mask _ _, raise_sets _ _⟩
  · exact ⟨raise_frame _ _, raise_mask _ _, raise_sets _ _⟩

/-- The state at another phase of the dispatch. -/
def withPhase (x : DispatchPhase) (s : State) : State := s.onGov fun g => { g with phase := x }

theorem evaluateGate_withPhase (x) (s : State) : evaluateGate (withPhase x s) = withPhase x (evaluateGate s) := by
  by_cases h : s.cond.gate = .opened ∧ s.cond.conditions &&& s.cond.mask ≠ 0
  · rw [evaluateGate_closes (s := withPhase x s) h.1 h.2, evaluateGate_closes h.1 h.2]; rfl
  · have h : s.cond.gate = .closed ∨ s.cond.conditions &&& s.cond.mask = 0 := by
      cases hg : s.cond.gate
      · exact .inl rfl
      · right; by_contra hc; exact h ⟨hg, hc⟩
    rw [evaluateGate_keeps (s := withPhase x s) h, evaluateGate_keeps h]

theorem raise_withPhase (c x) (s : State) : raise c (withPhase x s) = withPhase x (raise c s) := by
  have hc : (withPhase x s).cond = s.cond := rfl
  have he : (withPhase x s).onCond (fun u => { u with conditions := setCondition u.conditions c }) = withPhase x
      (s.onCond fun u => { u with conditions := setCondition u.conditions c }) := rfl
  unfold raise; rw [hc, he, evaluateGate_withPhase]
  by_cases h : conditionSet s.cond.conditions c = true
  · rw [if_pos h, if_pos h]
  · rw [if_neg h, if_neg h]

theorem countLate_withPhase (n x) (s : State) : countLate n (withPhase x s) = withPhase x (countLate n s) := by
  unfold countLate; split
  · rfl
  · have : (withPhase x s).onRing (fun r => { r with late := addSaturating r.late n }) = withPhase x
        (s.onRing fun r => { r with late := addSaturating r.late n }) := rfl
    rw [this]; exact raise_withPhase _ _ _

theorem offerCap_withPhase (b l lim lease x) (s : State) : offerCap b l lim lease (withPhase x s) =
    (offerCap b l lim lease s).map (withPhase x) := by
  unfold offerCap
  have h : (withPhase x s).ring = s.ring := rfl
  rw [h]; split
  · rw [Option.map_some]
    have e : ((withPhase x s).onRing fun r => { r with queue := enqueue (OwnPacket.isCapAt b (enteringLabel s.ring l)) (.cap b (enteringLabel s.ring l) lim lease) r.queue }) = withPhase x (s.onRing fun r => { r with queue := enqueue (OwnPacket.isCapAt b (enteringLabel s.ring l)) (.cap b (enteringLabel s.ring l) lim lease) r.queue }) := rfl
    dsimp only at e ⊢; rw [e]; unfold countOffer; rw [countLate_withPhase]; rfl
  · rfl

theorem offerStore_withPhase (l pw lease x) (s : State) : offerStore l pw lease (withPhase x s) = (offerStore l pw lease s).map
    (withPhase x) := by
  unfold offerStore
  have h : (withPhase x s).ring = s.ring := rfl
  rw [h]; split
  · rw [Option.map_some]
    have e : ((withPhase x s).onRing fun r => { r with queue := enqueue (OwnPacket.isStoreAt (enteringLabel s.ring l)) (.store (enteringLabel s.ring l) pw lease) r.queue }) = withPhase x (s.onRing fun r => { r with queue := enqueue (OwnPacket.isStoreAt (enteringLabel s.ring l)) (.store (enteringLabel s.ring l) pw lease) r.queue }) := rfl
    dsimp only at e ⊢; rw [e]; unfold countOffer; rw [countLate_withPhase]; rfl
  · rfl

theorem takeCapture_withPhase (b c e x) (s : State) : takeCapture b c e (withPhase x s) = withPhase x
    (takeCapture b c e s) := by
  unfold takeCapture setGroupCapture
  have : (modifyBlock b (BlockRecord.captured c e) (withPhase x s)) = withPhase x (modifyBlock b
      (BlockRecord.captured c e) s) := rfl
  rw [this]
  have : (withPhase x (modifyBlock b (BlockRecord.captured c e) s)).block b = (modifyBlock b
      (BlockRecord.captured c e) s).block b := rfl
  rw [this]; split <;> rfl

theorem stageBlock_withPhase (e b rev lim lease counted) (effect : State → State) (counts x) (s : State) (he : ∀ s, effect
    (withPhase x s) = withPhase x (effect s)) :
   stageBlock e b rev lim lease counted effect counts (withPhase x s) =
       (stageBlock e b rev lim lease counted effect counts s).map fun r => (r.1, withPhase x r.2) := by
  unfold stageBlock
  have h : (withPhase x s).ring = s.ring := rfl
  have hb : (withPhase x s).block b = s.block b := rfl
  rw [h, hb]; split
  · split
    · rw [offerCap_withPhase]; cases offerCap b (e + 1) lim lease s <;> simp [he]
    · simp only [Option.map_some]; congr 2; unfold staleDecision; rw [← raise_withPhase]; rfl
  · rfl

theorem stageDecision_withPhase (e d counts x) (s : State) : stageDecision e d counts (withPhase x s) =
    (stageDecision e d counts s).map fun r => (r.1, withPhase x r.2) := by
  unfold stageDecision
  have h1 : ∀ p, storeLease p (withPhase x s) = storeLease p s := fun p => rfl
  have h2 : leaseLength (withPhase x s) = leaseLength s := rfl
  cases d with
  | store p => dsimp only; rw [h1, offerStore_withPhase]; cases offerStore (e + 1) p (storeLease p s) s <;> rfl
  | capture b c r => exact stageBlock_withPhase _ _ _ _ _ _ _ _ _ _ (fun s => takeCapture_withPhase _ _ _ _ _)
  | capChange b c r => exact stageBlock_withPhase _ _ _ _ _ _ _ _ _ _ (fun s => rfl)
  | release b r => exact stageBlock_withPhase _ _ _ _ _ _ _ _ _ _ (fun s => rfl)

theorem stageAll_withPhase (o sup pl todo counts x) (s : State) : stageAll o sup pl todo counts (withPhase x s)
    = stageAll o sup pl todo counts s := by
  induction todo generalizing counts s with
  | nil => rfl
  | cons d rest ih =>
    unfold stageAll; rw [stageDecision_withPhase]
    cases stageDecision o.epoch d counts s with
    | none => rfl
    | some r => exact ih _ _

/-- R157. -/
theorem same_cap (b l lim lease q) : OwnPacket.sameTarget q (.cap b l lim lease) = OwnPacket.isCapAt b l q := by
  cases q <;> simp [OwnPacket.sameTarget, OwnPacket.isCapAt]

/-- R157. -/
theorem same_store (l pw lease q) : OwnPacket.sameTarget q (.store l pw lease) = OwnPacket.isStoreAt l q := by
  cases q <;> simp [OwnPacket.sameTarget, OwnPacket.isStoreAt]

/-- R159: what an offer counts. -/
theorem countOffer_parts (label : Epoch) (s : State) (x : State) (hx : x.ring.late = s.ring.late ∧ x.link = s.link ∧ x.cond
    = s.cond) (he : x.timer.epoch = s.timer.epoch) (hr : lateLabel x.ring label = lateLabel s.ring label) :
   (countOffer label x)
       = { x with link := (countOffer label x).link, cond := (countOffer label x).cond, ring := { x.ring with late := (countOffer label x).ring.late } }
   ∧ (lateLabel s.ring label = none → (countOffer label x).ring.late = s.ring.late ∧ (countOffer label x).link = s.link ∧
       (countOffer label x).cond = s.cond)
    ∧ (lateLabel s.ring label ≠ none →
        (countOffer label x).ring.late = min (s.ring.late + 1) (2 ^ 32 - 1)
          ∧ (countOffer label x).link = (raise .capLate s).link ∧ (countOffer label x).cond = (raise .capLate s).cond) := by
  refine ⟨countLate_frame _ _, fun h => ?_, fun h => ?_⟩
  · unfold countOffer countLate; rw [hr, h]; exact hx
  · unfold countOffer countLate; rw [hr, Option.isSome_iff_ne_none.2 h]
    rw [if_pos rfl, if_neg (by decide)]
    rw [raise_as .capLate (s := s) (t := x.onRing fun r => { r with late := addSaturating r.late 1 }) hx.2.1 hx.2.2 he]
    exact ⟨by simp only [State.onRing, addSaturating, hx.1]; rfl, rfl, rfl⟩

/-- R156, R157: an admissible CAP enters the queue. -/
theorem offerCap_entered (b label lim lease) (s : State) (h : capAdmissible b label s.ring = true) :
   ∃ v, offerCap b label lim lease s = some (capEnters b (enteringLabel s.ring label) lease v) ∧ v
       = { s with link := v.link, cond := v.cond, ring := v.ring } ∧ QueueEntered s v label (.cap b
       (enteringLabel s.ring label) lim lease) := by
  have hp := countOffer_parts label s
      (s.onRing fun r => { r with queue := enqueue (OwnPacket.isCapAt b (enteringLabel s.ring label)) (.cap b (enteringLabel s.ring label) lim lease) r.queue }) ⟨rfl, rfl, rfl⟩ rfl rfl
  refine ⟨_, if_pos h, ?_, ?_, ?_, hp.2⟩
  · rw [hp.1]; rfl
  · rw [hp.1]; rfl
  · rw [hp.1]; simp only [State.onRing, enqueue, same_cap, List.any_eq_true]

/-- R156, R157: an admissible STORE enters the queue. -/
theorem offerStore_entered (label pw lease) (s : State) (h : storeAdmissible label s.ring = true) :
   ∃ v, offerStore label pw lease s = some (storeEnters (enteringLabel s.ring label) pw v) ∧ v
       = { s with link := v.link, cond := v.cond, ring := v.ring } ∧ QueueEntered s v label (.store
       (enteringLabel s.ring label) pw lease) := by
  have hp := countOffer_parts label s
      (s.onRing fun r => { r with queue := enqueue (OwnPacket.isStoreAt (enteringLabel s.ring label)) (.store (enteringLabel s.ring label) pw lease) r.queue }) ⟨rfl, rfl, rfl⟩ rfl rfl
  refine ⟨_, if_pos h, ?_, ?_, ?_, hp.2⟩
  · rw [hp.1]; rfl
  · rw [hp.1]; rfl
  · rw [hp.1]; simp only [State.onRing, enqueue, same_store, List.any_eq_true]

/-- R14: staging goes on at the front of its list. -/
theorem resume_step {o sup pl d rest counts} {s : State} (hp : s.gov.phase = .staging o sup pl (d :: rest) counts)
    (ha : Awake s) :
   (stageDecision o.epoch d counts s = none → exec .stagingResumed s = .next s)
   ∧ ∀ c v, stageDecision o.epoch d counts s = some (c, v) → Awake v → exec .stagingResumed s = exec .stagingResumed (withPhase
       (.staging o sup pl rest c) v) := by
  have h0 : exec .stagingResumed s = .next (stageAll o sup pl (d :: rest) counts s) := (execEvent_awake ha).trans
      (by unfold resumeStaging; rw [hp])
  refine ⟨fun h => ?_, fun c v h hv => ?_⟩
  · rw [h0]; unfold stageAll; rw [h]; dsimp only; rw [← hp]; rfl
  · rw [h0]; unfold stageAll; rw [h]; dsimp only
    refine ((execEvent_awake (s := withPhase (.staging o sup pl rest c) v) hv).trans ?_).symm
    show Host.Outcome.next (stageAll o sup pl rest c (withPhase _ v)) = _
    rw [stageAll_withPhase]

theorem QueueEntered.mono {s v u : State} {label p} (h : QueueEntered s v label p) (hu : u
    = { v with gov := u.gov, table := u.table, nodes := u.nodes }) : QueueEntered s u label p := by
  obtain ⟨h1, h2, h3, h4⟩ := h
  refine ⟨?_, ?_, ?_, ?_⟩
  · rw [hu, h1]
  · rw [hu]; exact h2
  · rw [hu]; exact h3
  · rw [hu]; exact h4

/-- R14: an admissible block decision is staged. -/
theorem stageBlock_entered (e : Epoch) (b rev lim lease counted) (effect : State → State) (counts) (s : State) :
   (capAdmissible b (e + 1) s.ring = false → stageBlock e b rev lim lease counted effect counts s = none)
   ∧ (capAdmissible b (e + 1) s.ring = true → (s.block b).revision ≠ rev → stageBlock e b rev lim lease counted effect counts s
       = some ({ counts with stale := counts.stale + 1 }, staleDecision s))
   ∧ (capAdmissible b (e + 1) s.ring = true → (s.block b).revision = rev → ∃ v,
       stageBlock e b rev lim lease counted effect counts s = some (counted counts, effect (capEnters b (enteringLabel s.ring
       (e + 1)) lease v)) ∧ v = { s with link := v.link, cond := v.cond, ring := v.ring } ∧ QueueEntered s v (e + 1) (.cap b
       (enteringLabel s.ring (e + 1)) lim lease)) := by
  refine ⟨fun h => ?_, fun h h2 => ?_, fun h h2 => ?_⟩
  · unfold stageBlock; rw [if_neg (by rw [h]; decide)]
  · unfold stageBlock; rw [if_pos h, if_neg h2]
  · obtain ⟨v, h3, h4, h5⟩ := offerCap_entered b (e + 1) lim lease s h
    refine ⟨v, ?_, h4, h5⟩
    unfold stageBlock; rw [if_pos h, if_pos h2, h3]; rfl

end Sys2Proof.Machine
end

