-- ==== Sys2Proof/Laws/Offers.lean ====
section
/-! SUPPORT. The marker rule, the offers to the outbound queue, and the Lease Scheduler's epoch rule. -/

namespace Sys2Proof.Machine

/-! ## The marker (R158, R159) -/

/-- A packet whose label is e + 1 is not late at e. -/
theorem sameTargetAt_notLate {e : Epoch} {p q : OwnPacket} (h : p.sameTargetAt (e + 1) q = true) : q.lateAt e = false := by
  have key : atOrAfter e (e + 1) = false := by
    unfold atOrAfter
    rw [show e - (e + 1) = -1#32 by bv_omega]
    decide
  cases p <;> cases q <;> simp_all [OwnPacket.sameTargetAt, OwnPacket.isCapAt, OwnPacket.isStoreAt, OwnPacket.lateAt]

theorem sameTargetAt_relabel (l : Epoch) (p q : OwnPacket) : p.sameTargetAt l (q.relabel l) = q.sameHolder p := by
  cases p <;> cases q <;>
    simp [OwnPacket.sameTargetAt, OwnPacket.isCapAt, OwnPacket.isStoreAt, OwnPacket.relabel, OwnPacket.sameHolder]

/-- Packets of one holder look for the same target. -/
theorem sameTargetAt_holder {l : Epoch} {p q : OwnPacket} (h : q.sameHolder p = true) (r : OwnPacket) :
    p.sameTargetAt l r = q.sameTargetAt l r := by
  cases p <;> cases q <;> simp_all [OwnPacket.sameTargetAt, OwnPacket.sameHolder]

/-- R159: of a packet at place i, what stays. -/
def keptAt (e : Epoch) (q : List OwnPacket) (x : OwnPacket × Nat) : Option OwnPacket :=
  if !x.1.lateAt e then some x.1 else if lateRemoved e q x.1 x.2 then none else some (x.1.relabel (e + 1))

/-- R159: of a packet at place i, what was relabelled. -/
def movedAt (e : Epoch) (q : List OwnPacket) (x : OwnPacket × Nat) : Option OwnPacket :=
  if x.1.lateAt e && !lateRemoved e q x.1 x.2 then some x.1 else none

/-- R159: the relabelling, packet by packet. `pre` is the part of the queue already handled, of which `done` is left. -/
theorem relabelLate_places (e : Epoch) (l pre done : List OwnPacket)
    (hd : ∀ p : OwnPacket, (done ++ l).any (p.sameTargetAt (e + 1))
      = ((pre ++ l).any (p.sameTargetAt (e + 1)) || pre.any fun r => r.lateAt e && r.sameHolder p)) :
    relabelLate e done l
      = { queue := done ++ (l.zipIdx pre.length).filterMap (keptAt e (pre ++ l)),
          moved := (l.zipIdx pre.length).filterMap (movedAt e (pre ++ l)), late := (l.filter (OwnPacket.lateAt e)).length } := by
  induction l generalizing pre done with
  | nil => simp [relabelLate]
  | cons x l ih =>
    have hr : lateRemoved e (pre ++ x :: l) x pre.length = (done ++ x :: l).any (x.sameTargetAt (e + 1)) := by
      unfold lateRemoved
      rw [hd x, List.take_left]
    have step (done' : List OwnPacket)
        (h : ∀ p : OwnPacket, (done' ++ l).any (p.sameTargetAt (e + 1))
          = ((done ++ x :: l).any (p.sameTargetAt (e + 1)) || (x.lateAt e && x.sameHolder p))) :=
      ih (pre ++ [x]) done' fun p => by
        rw [h p, hd p]
        simp [Bool.or_assoc]
    simp only [List.append_assoc, List.singleton_append, List.length_append, List.length_singleton] at step
    have hself (h : x.lateAt e = true) (p : OwnPacket) : p.sameTargetAt (e + 1) x = false := by
      cases hp : p.sameTargetAt (e + 1) x with
      | false => rfl
      | true => rw [sameTargetAt_notLate hp] at h; cases h
    unfold relabelLate
    rw [List.zipIdx_cons, List.filterMap_cons, List.filterMap_cons]
    have hk : keptAt e (pre ++ x :: l) (x, pre.length) = if !x.lateAt e then some x
        else if (done ++ x :: l).any (x.sameTargetAt (e + 1)) then none else some (x.relabel (e + 1)) := by
      unfold keptAt
      rw [hr]
    have hm : movedAt e (pre ++ x :: l) (x, pre.length) = if x.lateAt e && !(done ++ x :: l).any (x.sameTargetAt (e + 1))
        then some x else none := by
      unfold movedAt
      rw [hr]
    rw [hk, hm]
    by_cases hl : x.lateAt e = true
    · have hany (p : OwnPacket) : (done ++ x :: l).any (p.sameTargetAt (e + 1)) = (done ++ l).any (p.sameTargetAt (e + 1)) := by
        rw [List.any_append, List.any_append, List.any_cons, hself hl, Bool.false_or]
      rw [if_pos hl, hany, hl, List.filter_cons_of_pos hl]
      by_cases ha : (done ++ l).any (x.sameTargetAt (e + 1)) = true
      · rw [if_pos ha, ha, step done fun p => ?_]
        · simp
        · rw [hl, Bool.true_and, hany]
          by_cases hh : x.sameHolder p = true
          · rw [show p.sameTargetAt (e + 1) = x.sameTargetAt (e + 1) from funext (sameTargetAt_holder hh), ha, hh]
            rfl
          · simp [hh]
      · rw [if_neg ha, Bool.eq_false_iff.2 ha, step (done ++ [x.relabel (e + 1)]) fun p => ?_]
        · simp
        · rw [hl, Bool.true_and, hany, ← sameTargetAt_relabel (e + 1)]
          simp only [List.any_append, List.any_cons, List.any_nil, Bool.or_false]
          exact Bool.or_right_comm ..
    · rw [if_neg hl, List.filter_cons_of_neg hl, step (done ++ [x]) fun p => ?_]
      · simp [hl]
      · simp [hl]

/-- R14, R136: the labels after the relabelling of `ps`. -/
theorem moveLabels_labels (l : Epoch) (ps : List OwnPacket) (s : State) :
    ps.foldl (moveLabel l) s
        = { s with
              table := { s.table with blocks := (ps.foldl (moveLabel l) s).table.blocks },
              nodes := { s.nodes with storage := { s.nodes.storage with
                commandLabel := (ps.foldl (moveLabel l) s).nodes.storage.commandLabel } } }
      ∧ (∀ b : BlockIx, ∃ x, (ps.foldl (moveLabel l) s).block b = { s.block b with capLabel := x }
        ∧ ((∃ old limit lease, .cap b old limit lease ∈ ps ∧ (s.block b).capLabel = some old) → x = some l)
        ∧ ((∀ old limit lease, .cap b old limit lease ∈ ps → (s.block b).capLabel ≠ some old) → x = (s.block b).capLabel)
        ∧ ((s.block b).capLabel = some l → x = some l))
      ∧ ((∃ old power lease, .store old power lease ∈ ps ∧ s.nodes.storage.commandLabel = some old) →
          (ps.foldl (moveLabel l) s).nodes.storage.commandLabel = some l)
      ∧ ((∀ old power lease, .store old power lease ∈ ps → s.nodes.storage.commandLabel ≠ some old) →
          (ps.foldl (moveLabel l) s).nodes.storage.commandLabel = s.nodes.storage.commandLabel)
      ∧ (s.nodes.storage.commandLabel = some l → (ps.foldl (moveLabel l) s).nodes.storage.commandLabel = some l) := by
  induction ps generalizing s with
  | nil =>
    exact ⟨rfl, fun b => ⟨(s.block b).capLabel, rfl, fun ⟨_, _, _, h, _⟩ => absurd h List.not_mem_nil, fun _ => rfl, id⟩,
      fun ⟨_, _, _, h, _⟩ => absurd h List.not_mem_nil, fun _ => rfl, id⟩
  | cons p ps ih =>
    obtain ⟨h1, h2, h3, h4, h5⟩ := ih (moveLabel l s p)
    rw [List.foldl_cons]
    cases p with
    | mark e =>
      rw [show moveLabel l s (.mark e) = s from rfl] at *
      refine ⟨h1, fun b => ?_, fun ⟨o, pw, le, hm, ho⟩ => h3 ⟨o, pw, le, by simpa using hm, ho⟩,
        fun h => h4 fun o pw le hm => h o pw le (List.mem_cons_of_mem _ hm), h5⟩
      obtain ⟨x, x1, x2, x3, x4⟩ := h2 b
      exact ⟨x, x1, fun ⟨o, li, le, hm, ho⟩ => x2 ⟨o, li, le, by simpa using hm, ho⟩,
        fun h => x3 fun o li le hm => h o li le (List.mem_cons_of_mem _ hm), x4⟩
    | probe n =>
      rw [show moveLabel l s (.probe n) = s from rfl] at *
      refine ⟨h1, fun b => ?_, fun ⟨o, pw, le, hm, ho⟩ => h3 ⟨o, pw, le, by simpa using hm, ho⟩,
        fun h => h4 fun o pw le hm => h o pw le (List.mem_cons_of_mem _ hm), h5⟩
      obtain ⟨x, x1, x2, x3, x4⟩ := h2 b
      exact ⟨x, x1, fun ⟨o, li, le, hm, ho⟩ => x2 ⟨o, li, le, by simpa using hm, ho⟩,
        fun h => x3 fun o li le hm => h o li le (List.mem_cons_of_mem _ hm), x4⟩
    | store old power lease =>
      have hb : ∀ b, (moveLabel l s (.store old power lease)).block b = s.block b := fun b => rfl
      have hn : (moveLabel l s (.store old power lease)).nodes.storage.commandLabel
          = if s.nodes.storage.commandLabel = some old then some l else s.nodes.storage.commandLabel := by
        show (if s.nodes.storage.commandLabel = some old then { s.nodes.storage with commandLabel := some l }
          else s.nodes.storage).commandLabel = _
        split <;> rfl
      refine ⟨?_, fun b => ?_, ?_, fun h => ?_, fun h => h5 ?_⟩
      · rw [h1]
        show _ = _
        unfold moveLabel State.onStorage
        dsimp only
        split <;> rfl
      · obtain ⟨x, x1, x2, x3, x4⟩ := h2 b
        rw [hb] at x1 x2 x3 x4
        exact ⟨x, x1, fun ⟨o, li, le, hm, ho⟩ => x2 ⟨o, li, le, by simpa using hm, ho⟩,
          fun h => x3 fun o li le hm => h o li le (List.mem_cons_of_mem _ hm), x4⟩
      · rintro ⟨o, pw, le, hm, ho⟩
        by_cases hs : s.nodes.storage.commandLabel = some old
        · exact h5 (by rw [hn, if_pos hs])
        · refine h3 ⟨o, pw, le, ?_, by rw [hn, if_neg hs, ho]⟩
          rcases List.mem_cons.1 hm with hm | hm
          · injection hm with e1; rw [e1] at ho; exact absurd ho hs
          · exact hm
      · have hs := h old power lease (by simp)
        rw [h4 (fun o pw le hm => by rw [hn, if_neg hs]; exact h o pw le (List.mem_cons_of_mem _ hm)), hn, if_neg hs]
      · rw [hn]; split
        · rfl
        · exact h
    | cap a old limit lease =>
      have hk := modifyBlock_keeps (b := a) (s := s)
        (f := fun r => if r.capLabel = some old then { r with capLabel := some l } else r) (by split <;> rfl)
      have hself : (moveLabel l s (.cap a old limit lease)).block a
          = if (s.block a).capLabel = some old then { s.block a with capLabel := some l } else s.block a :=
        modifyBlock_block_self _ _ _
      have hne : ∀ b, b ≠ a → (moveLabel l s (.cap a old limit lease)).block b = s.block b := fun b hb =>
        modifyBlock_block_ne _ _ _ _ hb
      refine ⟨?_, fun b => ?_, fun h => h3 ?_, fun h => h4 ?_, h5⟩
      · rw [h1]
        show _ = _
        rw [show moveLabel l s (.cap a old limit lease) = _ from hk]
      · obtain ⟨x, x1, x2, x3, x4⟩ := h2 b
        by_cases hb : b = a
        · subst hb
          rw [hself] at x1 x2 x3 x4
          by_cases hs : (s.block b).capLabel = some old
          · rw [if_pos hs] at x1 x4
            exact ⟨x, x1, fun _ => x4 rfl, fun h => absurd hs (h old limit lease (by simp)), fun _ => x4 rfl⟩
          · rw [if_neg hs] at x1 x2 x3 x4
            refine ⟨x, x1, ?_, fun h => x3 fun o li le hm => h o li le (List.mem_cons_of_mem _ hm), x4⟩
            rintro ⟨o, li, le, hm, ho⟩
            rcases List.mem_cons.1 hm with hm | hm
            · injection hm with e1 e2; rw [e2] at ho; exact absurd ho hs
            · exact x2 ⟨o, li, le, hm, ho⟩
        · rw [hne b hb] at x1 x2 x3 x4
          refine ⟨x, x1, ?_, fun h => x3 fun o li le hm => h o li le (List.mem_cons_of_mem _ hm), x4⟩
          rintro ⟨o, li, le, hm, ho⟩
          rcases List.mem_cons.1 hm with hm | hm
          · injection hm with e1; exact absurd e1 hb
          · exact x2 ⟨o, li, le, hm, ho⟩
      · obtain ⟨o, pw, le, hm, ho⟩ := h
        exact ⟨o, pw, le, by simpa using hm, ho⟩
      · intro o pw le hm
        exact h o pw le (List.mem_cons_of_mem _ hm)

theorem ringMarker_taken (e : Epoch) (s : State) (h : s.ring.state = .up) : MarkerPlaced e s (placeMarker e s) := by
  have hq := relabelLate_places e (s.ring.queue.filter fun p => !p.isMark) [] [] (by simp)
  unfold placeMarker
  rw [if_pos h]
  dsimp only
  rw [hq]
  dsimp only [List.nil_append, List.length_nil]
  generalize hp : s.ring.queue.filter (fun p => !p.isMark) = q
  obtain ⟨m1, m2, m3, m4, -⟩ := moveLabels_labels (e + 1) (q.zipIdx.filterMap (movedAt e q))
    (s.onRing fun c => { c with queue := .mark e :: q.zipIdx.filterMap (keptAt e q), lastMark := some e })
  have hl : ((q.zipIdx.filterMap (movedAt e q)).foldl (moveLabel (e + 1))
      (s.onRing fun c => { c with queue := .mark e :: q.zipIdx.filterMap (keptAt e q), lastMark := some e })).ring.late
        = s.ring.late := by rw [(moveLabels_frame _ _ _).2]; rfl
  refine ⟨q, _, _, _, hp.symm, rfl, rfl, m1.trans rfl, fun b => ?_, m3, m4, fun hn => ?_, fun hn => ?_⟩
  · obtain ⟨x, x1, x2, x3, -⟩ := m2 b
    exact ⟨x, x1, x2, x3⟩
  · exact if_pos hn
  · refine (if_neg hn).trans ?_
    rw [← hl]
    rfl

/-! ## Offers to the queue (R156, R157) -/

theorem capAdmissible_iff (b : BlockIx) (label l : Epoch) (limit : Option Nat) (lease : Nat) (r : RingController)
    (hl : l = enteringLabel r label) : capAdmissible b label r = true ↔ QueueAdmits r (.cap b l limit lease) := by
  subst hl
  unfold capAdmissible QueueAdmits hasRoom
  rw [Bool.and_eq_true, beq_iff_eq, Bool.or_eq_true, List.any_eq_true, decide_eq_true_eq]
  simp only [same_cap]

theorem storeAdmissible_iff (label l : Epoch) (power : Int) (lease : Nat) (r : RingController)
    (hl : l = enteringLabel r label) : storeAdmissible label r = true ↔ QueueAdmits r (.store l power lease) := by
  subst hl
  unfold storeAdmissible QueueAdmits hasRoom
  rw [Bool.and_eq_true, beq_iff_eq, Bool.or_eq_true, List.any_eq_true, decide_eq_true_eq]
  simp only [same_store]

theorem offerCap_refused {b : BlockIx} {label : Epoch} {limit : Option Nat} {lease : Nat} {s : State}
    (h : ¬capAdmissible b label s.ring = true) : offerCap b label limit lease s = none :=
  if_neg h

theorem offerStore_refused {label : Epoch} {power : Int} {lease : Nat} {s : State}
    (h : ¬storeAdmissible label s.ring = true) : offerStore label power lease s = none :=
  if_neg h

/-- R14: an admissible CAP enters, and its block's record follows. -/
theorem offerCap_taken (b : BlockIx) (label : Epoch) (limit : Option Nat) (lease : Nat) (s : State)
    (h : capAdmissible b label s.ring = true) :
    ∃ u, offerCap b label limit lease s = some u ∧ CapEntered b label limit lease s u := by
  obtain ⟨v, h1, h2, h3⟩ := offerCap_entered b label limit lease s h
  have hk := modifyBlock_keeps (b := b) (s := v)
    (f := fun r => { r with capLabel := some (enteringLabel s.ring label), owed := r.owed || lease != 0 }) rfl
  have hv : v.table = s.table := by rw [h2]
  refine ⟨_, h1, h3.mono rfl, ?_, ?_, ?_, fun x hx => ?_, ?_⟩
  · show v.gov = s.gov
    rw [h2]
  · show v.nodes = s.nodes
    rw [h2]
  · show (modifyBlock b _ v).table = _
    rw [hk, ← hv]
    rfl
  · refine (modifyBlock_block_ne _ _ _ _ hx).trans ?_
    unfold State.block
    rw [hv]
  · refine (modifyBlock_block_self _ _ _).trans ?_
    unfold State.block
    rw [hv]
    simp [bne, Bool.beq_eq_decide_eq]

/-- R136: an admissible STORE enters, and the storage record follows. -/
theorem offerStore_taken (label : Epoch) (power : Int) (lease : Nat) (s : State) (h : storeAdmissible label s.ring = true) :
    ∃ u, offerStore label power lease s = some u ∧ StoreEntered label power lease s u := by
  obtain ⟨v, h1, h2, h3⟩ := offerStore_entered label power lease s h
  refine ⟨_, h1, h3.mono rfl, ?_, ?_, ?_⟩
  · show v.gov = s.gov
    rw [h2]
  · show v.table = s.table
    rw [h2]
  · show ({ v.nodes with storage := _ } : NodeRecords) = _
    have hv : v.nodes = s.nodes := by rw [h2]
    rw [hv]
    simp [bne, Bool.beq_eq_decide_eq]

/-! ## The Lease Scheduler (R163 to R165) -/

theorem QueueFrame.gov {s t : State} (h : QueueFrame s t) : t.gov = s.gov := by
  unfold QueueFrame at h
  rw [h]

theorem refreshDue_iff (e : Epoch) (n : Nat) (owed : Bool) (expiry : Option Epoch) :
    refreshDue e n owed expiry = true ↔ DueAt e n owed expiry := by
  unfold refreshDue DueAt
  cases expiry <;> simp

theorem keeps_iff (k : Nat) : (decide (k < 2 ^ 30) || decide (2 ^ 31 ≤ k)) = true ↔ ¬(2 ^ 30 ≤ k ∧ k < 2 ^ 31) := by
  rw [Bool.or_eq_true, decide_eq_true_eq, decide_eq_true_eq]
  omega

theorem ageField_aged (e : Epoch) (x : Option Epoch) : ageField e x = agedField e x := by
  unfold ageField agedField epochsSince
  cases x with
  | none => rfl
  | some v =>
    by_cases h : 2 ^ 30 ≤ (e - v).toNat ∧ (e - v).toNat < 2 ^ 31
    · exact (if_pos h).trans (if_neg fun hk => (keeps_iff _).1 hk h).symm
    · exact (if_neg h).trans (if_pos ((keeps_iff _).2 h)).symm

/-- R164: the ageing. -/
theorem ageFields_taken (e : Epoch) (s : State) : LabelsAged e s (ageFields e s) := by
  have h := foldl_modify (fun _ r => { r with capLabel := ageField e r.capLabel, leaseExpiry := ageField e r.leaseExpiry })
    (fun _ _ => rfl) allBlocks allBlocks_nodup s
  unfold ageFields
  have hf : ageBlock e = fun s b => modifyBlock b (fun r =>
      { r with capLabel := ageField e r.capLabel, leaseExpiry := ageField e r.leaseExpiry }) s := rfl
  rw [hf]
  generalize allBlocks.foldl (fun s b => modifyBlock b (fun r =>
      { r with capLabel := ageField e r.capLabel, leaseExpiry := ageField e r.leaseExpiry }) s) s = u at *
  obtain ⟨h1, h2⟩ := h
  refine ⟨?_, fun b => ?_⟩
  · simp only [← ageField_aged]
    rw [h1]
    rfl
  · simp only [← ageField_aged]
    exact (h2 b).trans (if_pos (allBlocks_all b))

theorem any_isCapAt (b : BlockIx) (l : Epoch) (q : List OwnPacket) :
    q.any (OwnPacket.isCapAt b l) = true ↔ ∃ limit lease, .cap b l limit lease ∈ q := by
  rw [List.any_eq_true]
  constructor
  · rintro ⟨p, hp, h⟩
    cases p <;> simp_all [OwnPacket.isCapAt]
    exact ⟨_, _, hp⟩
  · rintro ⟨limit, lease, h⟩
    exact ⟨_, h, by simp [OwnPacket.isCapAt]⟩

theorem any_isStoreAt (l : Epoch) (q : List OwnPacket) :
    q.any (OwnPacket.isStoreAt l) = true ↔ ∃ power lease, .store l power lease ∈ q := by
  rw [List.any_eq_true]
  constructor
  · rintro ⟨p, hp, h⟩
    cases p <;> simp_all [OwnPacket.isStoreAt]
    exact ⟨_, _, hp⟩
  · rintro ⟨power, lease, h⟩
    exact ⟨_, h, by simp [OwnPacket.isStoreAt]⟩

/-- R164, R165: an offer of a CAP, or none. -/
theorem capOffer_made (b : BlockIx) (label : Epoch) (limit : Option Nat) (lease : Nat) (queued : Prop) (s : State) (t : Option State)
    (hq : queued → t = some s) (hn : ¬queued → t = offerCap b label limit lease s) :
    OfferMade (some (.cap b (enteringLabel s.ring label) limit lease)) queued
      (fun p v => ∃ limit lease, p = .cap b (enteringLabel s.ring label) limit lease ∧ CapEntered b label limit lease s v) s t := by
  refine ⟨fun h => h.elim hq fun h => absurd h (by simp), fun p hp hs => ?_⟩
  cases hs
  rw [hn hp, ← capAdmissible_iff b label _ limit lease s.ring rfl]
  refine ⟨fun h => ?_, fun h => offerCap_refused h⟩
  obtain ⟨u, h1, h2⟩ := offerCap_taken b label limit lease s h
  exact ⟨u, h1, limit, lease, rfl, h2⟩

theorem noOffer_made (queued : Prop) (entered : OwnPacket → State → Prop) (s : State) : OfferMade none queued entered s (some s) :=
  ⟨fun _ => rfl, fun _ _ h => absurd h (by simp)⟩

theorem blockOffer_taken (e : Epoch) (b : BlockIx) (s : State) :
    BlockOffered e (leaseLength s) b s (offerBlockDue e b s) := by
  rintro r l rfl rfl
  have hq : (∃ limit lease, .cap b (e + 1) limit lease ∈ s.ring.queue) → offerBlockDue e b s = some s := fun h =>
    if_pos ((any_isCapAt _ _ _).2 h)
  have hn : ¬(∃ limit lease, .cap b (e + 1) limit lease ∈ s.ring.queue) → offerBlockDue e b s
      = match (s.block b).due e (leaseLength s) with
        | .nothing => some s
        | .cap limit => offerCap b (e + 1) (some limit) (leaseLength s) s
        | .release => offerCap b (e + 1) none 0 s := fun h =>
    if_neg fun h' => h ((any_isCapAt _ _ _).1 h')
  have hdue := refreshDue_iff e (leaseLength s) (s.block b).owed (s.block b).leaseExpiry
  have hnone (h : (s.block b).due e (leaseLength s) = .nothing) : offerBlockDue e b s = some s := by
    by_cases hp : ∃ limit lease, .cap b (e + 1) limit lease ∈ s.ring.queue
    · exact hq hp
    · rw [hn hp, h]
  by_cases hc : (s.block b).state = .capped ∨ (s.block b).state = .pinned
  · have hd : (s.block b).due e (leaseLength s)
        = if refreshDue e (leaseLength s) (s.block b).owed (s.block b).leaseExpiry then .cap ((s.block b).cap.getD 0)
          else .nothing := by
      unfold BlockRecord.due
      rcases hc with hc | hc <;> rw [hc]
    have hfree : (s.block b).state ∉ [BlockState.free, .resting, .silent, .barred, .out] ∧ (s.block b).state ≠ .empty := by
      rcases hc with hc | hc <;> rw [hc] <;> decide
    by_cases hD : DueAt e (leaseLength s) (s.block b).owed (s.block b).leaseExpiry
    · rw [if_pos (hdue.2 hD)] at hd
      refine ⟨_, capOffer_made b (e + 1) (some ((s.block b).cap.getD 0)) (leaseLength s) _ s _ hq fun h => ?_,
        fun _ => ⟨fun _ c h => by rw [h]; rfl, fun h => absurd hD h⟩, fun h => absurd h hfree.1, fun h => absurd h hfree.2⟩
      rw [hn h, hd]
    · rw [if_neg fun h => hD (hdue.1 h)] at hd
      rw [hnone hd]
      exact ⟨none, noOffer_made _ _ _, fun _ => ⟨fun h => absurd h hD, fun _ => rfl⟩, fun h => absurd h hfree.1,
        fun h => absurd h hfree.2⟩
  · by_cases he : (s.block b).state = .empty
    · have hd : (s.block b).due e (leaseLength s) = .nothing := by
        unfold BlockRecord.due
        rw [he]
      rw [hnone hd]
      exact ⟨none, noOffer_made _ _ _, fun h => absurd h hc, fun h => absurd h (by rw [he]; decide), fun _ => rfl⟩
    · have hd : (s.block b).due e (leaseLength s) = if (s.block b).owed then .release else .nothing := by
        unfold BlockRecord.due
        cases hs : (s.block b).state <;> simp_all
      by_cases ho : (s.block b).owed = true
      · rw [if_pos ho] at hd
        refine ⟨_, capOffer_made b (e + 1) none 0 _ s _ hq fun h => ?_, fun h => absurd h hc,
          fun _ => ⟨fun _ => rfl, fun h => absurd ho (by rw [h]; decide)⟩, fun h => absurd h he⟩
        rw [hn h, hd]
      · rw [if_neg ho] at hd
        rw [hnone hd]
        exact ⟨none, noOffer_made _ _ _, fun h => absurd h hc, fun _ => ⟨fun h => absurd h ho, fun _ => rfl⟩, fun h => absurd h he⟩

theorem storeOffer_made (label : Epoch) (power : Int) (lease : Nat) (queued : Prop) (s : State) (t : Option State)
    (hq : queued → t = some s) (hn : ¬queued → t = offerStore label power lease s) :
    OfferMade (some (.store (enteringLabel s.ring label) power lease)) queued
      (fun p v => ∃ power lease, p = .store (enteringLabel s.ring label) power lease ∧ StoreEntered label power lease s v) s t := by
  refine ⟨fun h => h.elim hq fun h => absurd h (by simp), fun p hp hs => ?_⟩
  cases hs
  rw [hn hp, ← storeAdmissible_iff label _ power lease s.ring rfl]
  refine ⟨fun h => ?_, fun h => offerStore_refused h⟩
  obtain ⟨u, h1, h2⟩ := offerStore_taken label power lease s h
  exact ⟨u, h1, power, lease, rfl, h2⟩

theorem storageOffer_taken (e : Epoch) (s : State) : StorageOffered e (leaseLength s) s (offerStorageDue e s) := by
  rintro r l rfl rfl
  have hdue := refreshDue_iff e (leaseLength s) s.nodes.storage.owed s.nodes.storage.leaseExpiry
  have hD : s.nodes.storage.due e (leaseLength s) = true ↔ (if s.nodes.storage.commanded = 0 then s.nodes.storage.owed = true
      else DueAt e (leaseLength s) s.nodes.storage.owed s.nodes.storage.leaseExpiry) := by
    unfold StorageRecord.due
    split
    · exact .rfl
    · exact hdue
  by_cases hd : s.nodes.storage.due e (leaseLength s) = true
  · refine ⟨_, storeOffer_made (e + 1) s.nodes.storage.commanded (storeLease s.nodes.storage.commanded s) _ s _
      (fun h => if_pos (by rw [(any_isStoreAt _ _).2 h]; rfl))
      (fun h => if_neg fun h' => ?_), fun hc _ => ?_, fun hc hn => ?_, fun hc _ => ?_, fun hc hn => ?_⟩
    · rw [hd] at h'
      exact h ((any_isStoreAt _ _).1 (by simpa using h'))
    · unfold storeLease
      rw [if_neg hc]
    · rw [if_neg hc] at hD
      exact absurd (hD.1 hd) hn
    · unfold storeLease
      rw [if_pos hc, hc]
    · rw [if_pos hc] at hD
      rw [hD.1 hd] at hn
      cases hn
  · have ht : offerStorageDue e s = some s := if_pos (by rw [Bool.eq_false_iff.2 hd]; simp)
    rw [ht]
    refine ⟨none, noOffer_made _ _ _, fun hc h => ?_, fun _ _ => rfl, fun hc h => ?_, fun _ _ => rfl⟩
    · rw [if_neg hc] at hD
      exact absurd (hD.2 h) hd
    · rw [if_pos hc] at hD
      exact absurd (hD.2 h) hd

theorem offerBlocks_taken (e : Epoch) (l : List BlockIx) (s : State) :
    BlocksOffered e (leaseLength s) l s (offerBlocks e l s) := by
  induction l generalizing s with
  | nil => rfl
  | cons b l ih =>
    refine ⟨_, blockOffer_taken e b s, fun h => ?_, fun v h => ?_⟩
    · unfold offerBlocks
      rw [h]
    · have hl : leaseLength v = leaseLength s := by
        unfold leaseLength
        rw [(offerBlockDue_frame h).1.gov]
      unfold offerBlocks
      rw [h, ← hl]
      exact ih v

theorem leaseScheduler_taken (e : Epoch) (s : State) : LeasesOffered e s (leaseEpochRule e s) := by
  intro p hp
  have hl (v : State) (h : v.gov = s.gov) : leaseLength v = p.leaseLength := by
    unfold leaseLength
    rw [h, hp]
  have hv : (ageFields e s).gov = s.gov := (ageFields_frame e s).1.gov
  refine ⟨_, _, ageFields_taken e s, by rw [← hl _ hv]; exact storageOffer_taken e _, fun h => ?_, fun w h => ?_⟩
  · unfold leaseEpochRule
    dsimp only
    rw [h]
  · have hw : w.gov = s.gov := (offerStorageDue_frame h).1.gov.trans hv
    have hr : leaseEpochRule e s = offerBlocks e allBlocks w := by
      unfold leaseEpochRule
      dsimp only
      rw [h]
    rw [hr, ← hl w hw]
    exact offerBlocks_taken e allBlocks w

end Sys2Proof.Machine
end

