-- ==== Sys2Proof/Laws/EpochRules.lean ====
section
/-! SUPPORT. What Run Control, the Front Tracker, the Node Records and the Block Table do at an epoch, said once for
each epoch rule. -/

namespace Sys2Proof.Machine

/-! ## Run Control (R54) -/

theorem epochLineEnds_iff (plant : Option PlantRecord) (c : RunControl) (line : HoldLine) :
    EpochLineEnds plant line (c.line line)
      ↔ ∃ h, lineInForce plant c line = some h ∧ h.mode = .epoch ∧ (c.line line).seen = some .inactive := by
  unfold EpochLineEnds lineInForce
  cases plant with
  | none => simp
  | some p => simp; tauto

/-- R54: one line at an epoch. -/
theorem releaseEpochLine_latch (s : State) (line : HoldLine) :
    ∃ a : Bool, (a = true ↔ (s.run.line line).latch = true ∧ ¬EpochLineEnds s.gov.plant line (s.run.line line))
      ∧ releaseEpochLine s line = { s with run := s.run.setLine line { s.run.line line with latch := a } } := by
  have keep : s = { s with run := s.run.setLine line { s.run.line line with latch := (s.run.line line).latch } } := by
    cases line <;> rfl
  have hi := epochLineEnds_iff s.gov.plant s.run line
  by_cases h : EpochLineEnds s.gov.plant line (s.run.line line)
  · refine ⟨false, by simp [h], ?_⟩
    obtain ⟨c, hc, hm, hs⟩ := hi.1 h
    unfold releaseEpochLine
    rw [hc]
    exact if_pos ⟨hm, hs⟩
  · refine ⟨(s.run.line line).latch, by simp [h], ?_⟩
    refine Eq.trans ?_ keep
    unfold releaseEpochLine
    cases hc : lineInForce s.gov.plant s.run line with
    | none => rfl
    | some c => exact if_neg fun hm => h (hi.2 ⟨c, hc, hm.1, hm.2⟩)

theorem runControl_taken (s : State) : HoldRuleTaken s (runControlEpochRule s) := by
  obtain ⟨a, ha, h1⟩ := releaseEpochLine_latch s .a
  obtain ⟨b, hb, h2⟩ := releaseEpochLine_latch (releaseEpochLine s .a) .b
  unfold runControlEpochRule
  rw [h1] at h2 hb ⊢
  rw [h2]
  refine ⟨a, b, _, ha, hb, rfl, fun hs h3 h4 => ?_, fun h => ?_⟩
  · exact if_pos ⟨hs, by rw [show RunControl.anyLatch _ = (a || b) from rfl, h3, h4]; rfl⟩
  · refine if_neg ?_
    rintro ⟨hs, hl⟩
    rw [show RunControl.anyLatch _ = (a || b) from rfl, Bool.or_eq_false_iff] at hl
    rcases h with h | h | h
    · exact h hs
    · rw [hl.1] at h; cases h
    · rw [hl.2] at h; cases h

/-! ## The Front Tracker (R89) -/

theorem clearHeld_fold (l : List Warning) (s : State) :
    (l.foldl (fun s w => setHeld w.station false s) s)
        = { s with sky := { s.sky with stations := (l.foldl (fun s w => setHeld w.station false s) s).sky.stations } }
      ∧ ∀ x : StationIx, (l.foldl (fun s w => setHeld w.station false s) s).station x
          = { s.station x with warningHeld := (s.station x).warningHeld && !l.any fun w => w.station == x } := by
  induction l generalizing s with
  | nil => exact ⟨rfl, fun x => by simp⟩
  | cons w l ih =>
    obtain ⟨h1, h2⟩ := ih (setHeld w.station false s)
    rw [List.foldl_cons]
    refine ⟨by rw [h1]; rfl, fun x => ?_⟩
    rw [h2]
    by_cases hx : x = w.station
    · subst hx
      rw [show (setHeld w.station false s).station w.station = _ from
        modifyStation_self w.station (fun st => { st with warningHeld := false }) s]
      simp
    · rw [show (setHeld w.station false s).station x = _ from
        modifyStation_ne w.station x (fun st => { st with warningHeld := false }) s hx]
      have : (w.station == x) = false := by simpa using fun h => hx h.symm
      simp [this]

theorem frontTracker_taken (e : Epoch) (s : State) : WarningsExpired e s (frontEpochRule e s) := by
  obtain ⟨h1, h2⟩ := clearHeld_fold (s.front.warnings.filter (Warning.expiredAt e))
    (s.onFront fun f => { f with warnings := f.warnings.filter fun w => !w.expiredAt e })
  unfold frontEpochRule
  dsimp only
  refine ⟨h1.trans rfl, fun x => ?_⟩
  rw [h2 x, List.any_filter]
  have : (s.front.warnings.any fun w => w.expiredAt e && w.station == x)
      = s.front.warnings.any fun w => w.station == x && w.arrivals.all fun a => atOrAfter e a.2 := by
    congr 1
    funext w
    exact Bool.and_comm _ _
  rw [this]
  rfl

/-! ## The Node Records (R137, R138) -/

theorem countsAsHeard_iff (e : Epoch) (limit : Nat) (heard : Option Epoch) :
    countsAsHeard e limit heard = true ↔ HeardAt e limit heard := by
  unfold countsAsHeard HeardAt epochsSince
  cases heard <;> simp

theorem hearingAt_silent (e : Epoch) (limit : Nat) (hearing : Hearing) (heard : Option Epoch) (h : hearing ≠ .silent) :
    hearingAt e limit hearing heard = .silent ↔ FallsSilent e limit hearing heard := by
  unfold hearingAt FallsSilent
  rw [← countsAsHeard_iff]
  cases hearing <;> simp at h ⊢

theorem hearingAt_keeps (e : Epoch) (limit : Nat) (hearing : Hearing) (heard : Option Epoch)
    (h : ¬FallsSilent e limit hearing heard) : hearingAt e limit hearing heard = hearing := by
  unfold FallsSilent at h
  rw [← countsAsHeard_iff] at h
  unfold hearingAt
  cases hearing <;> simp at h ⊢ <;> exact h

theorem FallsSilent.not_silent {e : Epoch} {limit : Nat} {hearing : Hearing} {heard : Option Epoch}
    (h : FallsSilent e limit hearing heard) : hearing ≠ .silent := by
  rcases h with h | h <;> rw [h.1] <;> decide

theorem nodeRecords_taken (e : Epoch) (s : State) : NodesJudged e s (nodeEpochRule e s) := by
  intro p hp
  have hm : nodeEpochRule e s = meterEpochRule e p.silenceLimit (storageEpochRule e p.silenceLimit s) := by
    unfold nodeEpochRule
    rw [hp]
  generalize p.silenceLimit = n at *
  have hs : ∀ u : State, meterEpochRule e n (raise .storageSilent u)
      = raise .storageSilent (meterEpochRule e n u) := by
    intro u
    have h := raise_as .storageSilent (s := u) (t := meterEpochRule e n u) rfl rfl rfl
    rw [h]
    unfold meterEpochRule State.onMeter
    rw [raise_frame]
  refine ⟨{ s.nodes.meter with hearing := hearingAt e n s.nodes.meter.hearing s.nodes.meter.heard }, _,
    fun h => ?_, fun h => ?_, rfl, fun h => ?_, fun h => ?_⟩
  · rw [(hearingAt_silent _ _ _ _ h.not_silent).2 h]
  · rw [hearingAt_keeps _ _ _ _ h]
  · rw [hm, show storageEpochRule e n s = _ from if_pos ⟨h.not_silent, (hearingAt_silent _ _ _ _ h.not_silent).2 h⟩, hs]
    rfl
  · rw [hm, show storageEpochRule e n s = _ from if_neg fun hc => h ((hearingAt_silent _ _ _ _ hc.1).1 hc.2)]
    rfl

/-! ## The Block Table (R26) -/

/-- R4: a collection after a pass in which blocks only leave it. -/
theorem relist_leave (key : BlockState) (before now : BlockIx → BlockState) (l c : List BlockIx)
    (h : ∀ b ∈ l, now b = key → before b = key) :
    l.foldl (fun c b => relist key (before b) (now b) b c) c
      = c.filter fun x => !(decide (x ∈ l) && before x == key && now x != key) := by
  induction l generalizing c with
  | nil => simp
  | cons a l ih =>
    rw [List.foldl_cons, ih _ fun b hb => h b (List.mem_cons_of_mem _ hb)]
    unfold relist
    by_cases h1 : before a = key
    · by_cases h2 : now a = key
      · rw [if_pos h1, if_pos h2]
        refine List.filter_congr fun x _ => ?_
        by_cases hx : x = a
        · subst hx; simp [h2]
        · simp [hx]
      · rw [if_pos h1, if_neg h2, List.filter_filter]
        refine List.filter_congr fun x _ => ?_
        by_cases hx : x = a
        · subst hx; simp [h1, h2]
        · simp [hx]
    · rw [if_neg h1, if_neg fun h2 => h1 (h a List.mem_cons_self h2)]
      refine List.filter_congr fun x _ => ?_
      by_cases hx : x = a
      · subst hx; rw [beq_eq_false_iff_ne.2 h1]; simp
      · simp [hx]

/-- R4: a collection after a pass in which blocks only enter it. -/
theorem relist_enter (key : BlockState) (before now : BlockIx → BlockState) (l c : List BlockIx)
    (h : ∀ b ∈ l, before b = key → now b = key) :
    l.foldl (fun c b => relist key (before b) (now b) b c) c = c ++ l.filter fun b => before b != key && now b == key := by
  induction l generalizing c with
  | nil => simp
  | cons a l ih =>
    rw [List.foldl_cons, ih _ fun b hb => h b (List.mem_cons_of_mem _ hb)]
    unfold relist
    by_cases h1 : before a = key
    · rw [if_pos h1, if_pos (h a List.mem_cons_self h1)]
      simp [h1]
    · by_cases h2 : now a = key
      · rw [if_neg h1, if_pos h2]
        simp [h1, h2]
      · rw [if_neg h1, if_neg h2]
        simp [h2]

/-- A pass that changes each record under one rule, which may read the committed settings. -/
theorem foldl_table (g : Governor → BlockRecord → BlockRecord) (l : List BlockIx) (hl : l.Nodup) (s t : State)
    (ht : t = l.foldl (fun s b => modifyBlock b (g s.gov) s) s) :
    t = { s with table := t.table } ∧ t.table.groupCapture = s.table.groupCapture
      ∧ (∀ b, t.block b = if b ∈ l then g s.gov (s.block b) else s.block b)
      ∧ t.table.capped
          = l.foldl (fun c b => relist .capped (s.block b).state (g s.gov (s.block b)).state b c) s.table.capped
      ∧ t.table.rotation
          = l.foldl (fun c b => relist .free (s.block b).state (g s.gov (s.block b)).state b c) s.table.rotation := by
  subst ht
  induction l generalizing s with
  | nil => exact ⟨rfl, rfl, fun b => by simp, rfl, rfl⟩
  | cons a l ih =>
    obtain ⟨ha, hl⟩ := List.nodup_cons.1 hl
    obtain ⟨h1, h2, h3, h4, h5⟩ := ih hl (modifyBlock a (g s.gov) s)
    have hne : ∀ b ∈ l, (modifyBlock a (g s.gov) s).block b = s.block b := fun b hb =>
      modifyBlock_block_ne _ _ _ _ fun h => ha (h ▸ hb)
    have hcongr (key : BlockState) (c : List BlockIx) :
        l.foldl (fun c b => relist key ((modifyBlock a (g s.gov) s).block b).state
            (g (modifyBlock a (g s.gov) s).gov ((modifyBlock a (g s.gov) s).block b)).state b c) c
          = l.foldl (fun c b => relist key (s.block b).state (g s.gov (s.block b)).state b c) c :=
      List.foldl_ext _ _ _ fun c b hb => by rw [hne b hb]; rfl
    rw [List.foldl_cons]
    refine ⟨h1.trans rfl, h2, fun b => ?_, ?_, ?_⟩
    · rw [h3]
      by_cases hb : b = a
      · subst hb
        rw [if_neg ha, modifyBlock_block_self]
        simp
      · rw [modifyBlock_block_ne _ _ _ _ hb]
        simp [hb]
    · rw [h4, hcongr]; rfl
    · rw [h5, hcongr]; rfl

theorem modifyBlock_congr {b : BlockIx} {f g : BlockRecord → BlockRecord} {s : State} (h : f (s.block b) = g (s.block b)) :
    modifyBlock b f s = modifyBlock b g s := by
  show ({ s with table := s.table.put b (f (s.block b)) } : State) = { s with table := s.table.put b (g (s.block b)) }
  rw [h]

theorem modifyBlock_none {b : BlockIx} {f : BlockRecord → BlockRecord} {s : State} (h : f (s.block b) = s.block b) :
    modifyBlock b f s = s := by
  rw [modifyBlock_keeps (by rw [h]), h]
  unfold State.block
  simp

/-- R26: the silence check and the watch epoch of one record. -/
def BlockRecord.checked (e : Epoch) (limit : Nat) (r : BlockRecord) : BlockRecord :=
  if r.isSilentAt e limit then r.silenced
  else if r.state ≠ .empty ∧ r.heard = none ∧ r.watch = none then { r with watch := some e } else r

/-- R26: the rest of one record. -/
def BlockRecord.rested (e : Epoch) (g : Governor) (r : BlockRecord) : BlockRecord :=
  if r.restServed e g.groups then { r with state := .free, revision := r.revision + 1 } else r

theorem restCheck_modify (e : Epoch) : restCheck e = fun s b => modifyBlock b (BlockRecord.rested e s.gov) s := by
  funext s b
  unfold restCheck
  by_cases h : (s.block b).restServed e s.gov.groups
  · rw [if_pos h]
    exact modifyBlock_congr (g := BlockRecord.rested e s.gov) (if_pos h).symm
  · rw [if_neg h, modifyBlock_none]
    exact if_neg h

theorem silenceCheck_modify (e : Epoch) (limit : Nat) (s : State) (b : BlockIx) :
    silenceCheck e limit s b
      = raiseIf ((s.block b).isSilentAt e limit) .blockSilent (modifyBlock b (BlockRecord.checked e limit) s) := by
  unfold silenceCheck raiseIf
  dsimp only
  by_cases h : (s.block b).isSilentAt e limit = true
  · rw [if_pos h, if_pos h, modifyBlock_congr (f := BlockRecord.checked e limit) (g := BlockRecord.silenced) (if_pos h)]
  · rw [if_neg h, if_neg h]
    by_cases h2 : (s.block b).state ≠ .empty ∧ (s.block b).heard = none ∧ (s.block b).watch = none
    · rw [if_pos h2]
      exact modifyBlock_congr (g := BlockRecord.checked e limit) ((if_neg h).trans (if_pos h2)).symm
    · rw [if_neg h2, modifyBlock_none]
      unfold BlockRecord.checked
      rw [if_neg h, if_neg h2]

theorem raise_modifyBlock (c : Condition) (b : BlockIx) (f : BlockRecord → BlockRecord) (s : State) :
    raise c (modifyBlock b f s) = modifyBlock b f (raise c s) := by
  rw [raise_as c (s := s) (t := modifyBlock b f s) rfl rfl rfl]
  conv => rhs; rw [raise_frame]
  rfl

theorem raise_again (c : Condition) (s : State) : raise c (raise c s) = raise c s := by
  refine raise_set _ c ?_
  rw [raise_sets]
  rw [conditionSet_setCondition]
  simp

theorem raise_foldl (c : Condition) (g : Governor → BlockRecord → BlockRecord) (l : List BlockIx) (s : State) :
    raise c (l.foldl (fun s b => modifyBlock b (g s.gov) s) s) = l.foldl (fun s b => modifyBlock b (g s.gov) s) (raise c s) := by
  induction l generalizing s with
  | nil => rfl
  | cons a l ih => rw [List.foldl_cons, List.foldl_cons, ih, raise_modifyBlock, raise_gov]

/-- R26: the silence pass: of all its raises the first alone does something. -/
theorem silencePass (e : Epoch) (limit : Nat) (l : List BlockIx) (hl : l.Nodup) (s : State) :
    l.foldl (silenceCheck e limit) s
      = raiseIf (l.any fun b => (s.block b).isSilentAt e limit) .blockSilent
          (l.foldl (fun s b => modifyBlock b (BlockRecord.checked e limit) s) s) := by
  induction l generalizing s with
  | nil => rfl
  | cons a l ih =>
    obtain ⟨ha, hl⟩ := List.nodup_cons.1 hl
    rw [List.foldl_cons, List.foldl_cons, ih hl, silenceCheck_modify]
    generalize hm : modifyBlock a (BlockRecord.checked e limit) s = u
    have hu : ∀ b ∈ l, u.block b = s.block b := fun b hb => by
      rw [← hm]; exact modifyBlock_block_ne _ _ _ _ fun h => ha (h ▸ hb)
    have hb (p : Bool) : ∀ b, (raiseIf p .blockSilent u).block b = u.block b := fun b => by
      unfold State.block; simp
    have hany : (l.any fun b => (u.block b).isSilentAt e limit) = l.any fun b => (s.block b).isSilentAt e limit := by
      rw [Bool.eq_iff_iff, List.any_eq_true, List.any_eq_true]
      exact exists_congr fun b => and_congr_right fun hb => by rw [hu b hb]
    simp only [hb, hany, List.any_cons]
    cases (s.block a).isSilentAt e limit
    · rfl
    · unfold raiseIf
      simp only [if_true, Bool.true_or]
      rw [← raise_foldl .blockSilent (fun _ => BlockRecord.checked e limit)]
      split
      · exact raise_again _ _
      · rfl

theorem isSilentAt_iff (e : Epoch) (limit : Nat) (r : BlockRecord) : r.isSilentAt e limit = true ↔ SilentAt e limit r := by
  unfold BlockRecord.isSilentAt SilentAt epochsSince
  cases r.state <;> cases r.heard <;> cases r.watch <;> simp

theorem restServed_iff (e : Epoch) (groups : Vector GroupRecord 8) (r : BlockRecord) :
    r.restServed e groups = true ↔ r.state = .resting
      ∧ ∃ l f, r.lastRelease = some l ∧ r.profile = some f ∧ groups[f.group].rest ≤ (e - l).toNat := by
  unfold BlockRecord.restServed epochsSince
  cases r.state <;> cases r.lastRelease <;> cases r.profile <;> simp

theorem blockTable_taken (e : Epoch) (s : State) : BlocksJudged e s (blockEpochRule e s) := by
  intro p hp
  have hrule : blockEpochRule e s = allBlocks.foldl (restCheck e) (allBlocks.foldl (silenceCheck e p.silenceLimit) s) := by
    unfold blockEpochRule
    rw [hp]
  rw [hrule, silencePass _ _ _ allBlocks_nodup, restCheck_modify]
  obtain ⟨u1, u2, u3, u4, u5⟩ := foldl_table (fun _ => BlockRecord.checked e p.silenceLimit) allBlocks allBlocks_nodup s _ rfl
  generalize allBlocks.foldl (fun s b => modifyBlock b (BlockRecord.checked e p.silenceLimit) s) s = u at *
  obtain ⟨v1, v2, v3, v4, v5⟩ := foldl_table (BlockRecord.rested e) allBlocks allBlocks_nodup u _ rfl
  have hv : allBlocks.foldl (fun s b => modifyBlock b (BlockRecord.rested e s.gov) s)
      (raiseIf (allBlocks.any fun b => (s.block b).isSilentAt e p.silenceLimit) .blockSilent u)
      = raiseIf (allBlocks.any fun b => (s.block b).isSilentAt e p.silenceLimit) .blockSilent
          (allBlocks.foldl (fun s b => modifyBlock b (BlockRecord.rested e s.gov) s) u) := by
    unfold raiseIf
    split
    · exact (raise_foldl _ _ _ _).symm
    · rfl
  rw [hv]
  generalize allBlocks.foldl (fun s b => modifyBlock b (BlockRecord.rested e s.gov) s) u = v at *
  have hgov : u.gov = s.gov := by rw [u1]
  simp only [allBlocks_all, if_true, hgov] at u3 v3
  have hc (b : BlockIx) : u.block b = if (s.block b).isSilentAt e p.silenceLimit then (s.block b).silenced
      else if (s.block b).state ≠ .empty ∧ (s.block b).heard = none ∧ (s.block b).watch = none
        then { s.block b with watch := some e } else s.block b := u3 b
  have hr (b : BlockIx) : v.block b = if (u.block b).restServed e s.gov.groups
      then { u.block b with state := .free, revision := (u.block b).revision + 1 } else u.block b := v3 b
  have hrest (b : BlockIx) : (u.block b).restServed e s.gov.groups
      = (!(s.block b).isSilentAt e p.silenceLimit && (s.block b).restServed e s.gov.groups) := by
    rw [hc b]
    split
    · rename_i h; rw [h]; rfl
    · rename_i h
      rw [Bool.eq_false_iff.2 h]
      split <;> rfl
  have hstate (b : BlockIx) : (u.block b).state
      = if (s.block b).isSilentAt e p.silenceLimit then .silent else (s.block b).state := by
    rw [hc b]
    split
    · rfl
    · split <;> rfl
  have hresting (b : BlockIx) (h : (s.block b).restServed e s.gov.groups = true) : (s.block b).state = .resting :=
    ((restServed_iff _ _ _).1 h).1
  have hafter (b : BlockIx) : (BlockRecord.rested e s.gov (u.block b)).state
      = if !(s.block b).isSilentAt e p.silenceLimit && (s.block b).restServed e s.gov.groups then .free
        else (u.block b).state := by
    unfold BlockRecord.rested
    rw [hrest b]
    split <;> rfl
  have hchk (b : BlockIx) : (BlockRecord.checked e p.silenceLimit (s.block b)).state = (u.block b).state := by
    rw [hc b]
    rfl
  have hmem (b : BlockIx) (x : Bool) : (decide (b ∈ allBlocks) && x) = x := by
    rw [decide_eq_true (allBlocks_all b), Bool.true_and]
  have hearly (key : BlockState) (hk : key ≠ .silent) (c : List BlockIx) :
      allBlocks.foldl (fun c b => relist key (s.block b).state (BlockRecord.checked e p.silenceLimit (s.block b)).state b c) c
        = c.filter fun b => !((s.block b).isSilentAt e p.silenceLimit && (s.block b).state == key) := by
    rw [relist_leave key (fun b => (s.block b).state) (fun b => (BlockRecord.checked e p.silenceLimit (s.block b)).state)]
    · refine List.filter_congr fun b _ => ?_
      rw [Bool.and_assoc, hmem, hchk, hstate]
      split
      · rename_i h
        rw [h, bne_iff_ne.2 hk.symm, Bool.and_true, Bool.true_and]
      · rename_i h
        rw [Bool.eq_false_iff.2 h]
        cases hkey : (s.block b).state == key <;> simp [bne, hkey]
    · intro b _
      rw [hchk, hstate]
      split
      · exact fun h => absurd h.symm hk
      · exact id
  have hlate (c : List BlockIx) :
      allBlocks.foldl (fun c b => relist .capped (u.block b).state (BlockRecord.rested e u.gov (u.block b)).state b c) c
        = c := by
    rw [relist_leave .capped (fun b => (u.block b).state) (fun b => (BlockRecord.rested e u.gov (u.block b)).state)]
    · refine List.filter_eq_self.2 fun b _ => ?_
      rw [Bool.and_assoc, hmem, hgov, hafter]
      split
      · rename_i h
        rw [hstate]
        cases h1 : (s.block b).isSilentAt e p.silenceLimit
        · rw [h1] at h
          rw [hresting b h]
          rfl
        · rfl
      · cases (u.block b).state <;> rfl
    · intro b _
      rw [hgov, hafter]
      split
      · exact fun h => absurd h (by decide)
      · exact id
  refine ⟨fun b => (s.block b).isSilentAt e p.silenceLimit,
    fun b => !(s.block b).isSilentAt e p.silenceLimit && (s.block b).restServed e s.gov.groups,
    fun b => decide ((s.block b).state ≠ .empty ∧ (s.block b).heard = none ∧ (s.block b).watch = none), v,
    fun b => isSilentAt_iff _ _ _, fun b => ?_, fun b => by simp, by rw [v1, u1], v2.trans u2, ?_, ?_, fun b => ⟨fun h => ?_, fun h => ?_⟩,
    fun ⟨b, h⟩ => ?_, fun h => ?_⟩
  · rw [Bool.and_eq_true, restServed_iff, Bool.not_eq_true']
    exact and_left_comm
  · exact v4.trans ((hlate _).trans (u4.trans (hearly .capped (by decide) _)))
  · rw [v5, relist_enter .free (fun b => (u.block b).state), u5, hearly .free (by decide)]
    · congr 1
      refine List.filter_congr fun b _ => ?_
      simp only [hgov, hafter, hstate]
      cases (s.block b).isSilentAt e p.silenceLimit <;> cases h2 : (s.block b).restServed e s.gov.groups <;>
        (try rw [hresting b h2]) <;> cases (s.block b).state <;> rfl
    · intro b _ h
      rw [hgov, hafter]
      split
      · rfl
      · exact h
  · have hs : v.block b = u.block b := by
      rw [hr b, if_neg]
      rw [hrest b, show (s.block b).isSilentAt e p.silenceLimit = true from h]
      exact Bool.false_ne_true
    rw [hs, hc b]
    exact if_pos h
  · have h : (s.block b).isSilentAt e p.silenceLimit = false := h
    have hu : u.block b = if (s.block b).state ≠ .empty ∧ (s.block b).heard = none ∧ (s.block b).watch = none
        then { s.block b with watch := some e } else s.block b := by
      rw [hc b]
      exact if_neg (by rw [h]; decide)
    have hw : u.block b = { s.block b with
        watch := if decide ((s.block b).state ≠ .empty ∧ (s.block b).heard = none ∧ (s.block b).watch = none) then some e
          else (s.block b).watch } := by
      rw [hu]
      by_cases h1 : (s.block b).state ≠ .empty ∧ (s.block b).heard = none ∧ (s.block b).watch = none
      · rw [if_pos h1, if_pos (decide_eq_true h1)]
      · rw [if_neg h1, if_neg (by rw [decide_eq_false h1]; decide)]
    have hd : (u.block b).restServed e s.gov.groups = (s.block b).restServed e s.gov.groups := by
      rw [hrest b, h]
      rfl
    have hd2 : (!(s.block b).isSilentAt e p.silenceLimit && (s.block b).restServed e s.gov.groups)
        = (s.block b).restServed e s.gov.groups := by
      rw [h]
      rfl
    rw [hr b]
    simp only [hd2]
    by_cases h2 : (s.block b).restServed e s.gov.groups = true
    · rw [if_pos (hd.trans h2), hw]
      simp only [h2, if_true]
    · rw [if_neg (by rw [hd]; exact h2), hw]
      simp only [h2, if_false, Bool.false_eq_true]
  · exact if_pos (List.any_eq_true.2 ⟨b, allBlocks_all b, h⟩)
  · refine if_neg fun hc => ?_
    obtain ⟨b, -, hb⟩ := List.any_eq_true.1 hc
    exact absurd hb (by rw [show (s.block b).isSilentAt e p.silenceLimit = false from h b]; decide)

end Sys2Proof.Machine
end

