-- ==== Sys2Proof/Laws/Opening.lean ====
section
/-! SUPPORT. The opening step of a dispatch: adoption, sample and band, snapshot. -/

namespace Sys2Proof.Machine

/-- The raise of a condition does not meet Run Control. -/
theorem raise_thenRun (c : Condition) (s : State) (r q : RunControl) :
    ({ raise c { s with run := r } with run := q } : State) = raise c { s with run := q } := by
  rw [raise_as c (s := s) (t := { s with run := r }) rfl rfl rfl, raise_as c (s := s) (t := { s with run := q }) rfl rfl rfl]

/-! ## Adoption (R39, R40, R52) -/

/-- R56: with no dispatch in flight there is nothing to cut. -/
theorem cutIfFreezeBegan_idle (before : Hold) (s : State) (h : s.gov.phase = .idle) : cutIfFreezeBegan before s = s := by
  unfold cutIfFreezeBegan cutDispatch
  rw [h]
  split <;> rfl

/-- R40, R52, R53: what an adoption makes of one hold line while no dispatch is in flight. -/
theorem adoptLine_idle (before : Option PlantRecord) (line : HoldLine) (s v : State) (x : Bool) (hp : s.gov.phase = .idle)
    (hx : x = adoptedLatch (lineEnabled before line) (lineEnabled s.gov.plant line) (s.run.line line))
    (hv : v = { s with run := s.run.setLine line { s.run.line line with latch := x } }) :
    (s.run.state = .running ∧ x = true ∧ (s.run.line line).latch = false →
      adoptLine before s line = raise .holdBegun { v with run := { v.run with state := .holding } })
    ∧ (¬(s.run.state = .running ∧ x = true ∧ (s.run.line line).latch = false) → adoptLine before s line = v) := by
  suffices h : adoptLine before s line = if s.run.state = .running ∧ x = true ∧ (s.run.line line).latch = false
      then raise .holdBegun { v with run := { v.run with state := .holding } } else v from
    ⟨fun hb => h.trans (if_pos hb), fun hb => h.trans (if_neg hb)⟩
  have keep : s = { s with run := s.run.setLine line { s.run.line line with latch := (s.run.line line).latch } } := by
    cases line <;> rfl
  have hrun : ∀ h : HoldState, (s.run.setLine line h).state = s.run.state := by cases line <;> exact fun _ => rfl
  have hset : setLatch line s = if s.run.state = .running ∧ (s.run.line line).latch = false
      then raise .holdBegun { s with run := { s.run.setLine line { s.run.line line with latch := true } with state := .holding } }
      else { s with run := s.run.setLine line { s.run.line line with latch := true } } := by
    unfold setLatch
    by_cases hl : (s.run.line line).latch = true
    · rw [if_pos hl, if_neg (by rw [hl]; simp), ← hl]
      exact keep
    · rw [if_neg hl, cutIfFreezeBegan_idle]
      · unfold beginHold State.onRun
        dsimp only
        rw [hrun]
        by_cases hr : s.run.state = .running
        · rw [if_pos hr, if_pos ⟨hr, Bool.eq_false_iff.2 hl⟩]
        · rw [if_neg hr, if_neg fun h => hr h.1]
      · rw [show ∀ u : State, (beginHold u).gov = u.gov from fun u => by rw [(beginHold_frame u).1]]
        exact hp
  subst hv
  have same (h : x = (s.run.line line).latch) (hs : adoptLine before s line = s) : adoptLine before s line
      = if s.run.state = .running ∧ x = true ∧ (s.run.line line).latch = false
        then raise .holdBegun { ({ s with run := s.run.setLine line { s.run.line line with latch := x } } : State) with
          run := { s.run.setLine line { s.run.line line with latch := x } with state := .holding } }
        else { s with run := s.run.setLine line { s.run.line line with latch := x } } := by
    rw [hs, h]
    exact keep.trans (if_neg fun h => absurd (h.2.1.symm.trans h.2.2) (by decide)).symm
  unfold adoptedLatch at hx
  cases h1 : lineEnabled before line <;> cases h2 : lineEnabled s.gov.plant line <;> rw [h1, h2] at hx
  · exact same (by simpa using hx) (by unfold adoptLine; rw [h1, h2])
  · by_cases hs : (s.run.line line).seen = some .asserted
    · have e : adoptLine before s line = setLatch line s := by
        unfold adoptLine
        rw [h1, h2]
        exact if_pos hs
      rw [e, hset, show x = true by simpa [hs] using hx]
      simp
    · exact same (by simpa [hs] using hx) (by unfold adoptLine; rw [h1, h2]; exact if_neg hs)
  · have e : adoptLine before s line = clearLatch line s := by
      unfold adoptLine
      rw [h1, h2]
    rw [e, show x = false by simpa using hx]
    exact (if_neg fun h => absurd h.2.1 (by decide)).symm
  · exact same (by simpa using hx) (by unfold adoptLine; rw [h1, h2])

theorem floorRaised_spec (groups : Vector GroupRecord 8) (r : BlockRecord) (floor : Nat)
    (h1 : ∀ f, r.profile = some f → floor = f.rated * groups[f.group].floorPercent / 100) (h2 : r.profile = none → floor = 0) :
    r.floorRaised groups = if r.state = .capped ∧ r.cap.getD 0 < floor
      then { r with cap := some floor, owed := true, revision := r.revision + 1 } else r := by
  have hf : r.floor groups = floor := by
    unfold BlockRecord.floor floorOf
    cases h : r.profile with
    | none => exact (h2 h).symm
    | some f => exact (h1 f h).symm
  unfold BlockRecord.floorRaised
  rw [hf]
  rfl

theorem adoption_taken (s : State) (hp : s.gov.phase = .idle) : AdoptionTaken s (adopt s) := by
  intro staged hst
  rw [← anyStaged_iff] at hst
  refine ⟨fun h => if_neg fun h' => h (hst.2 h'), fun h => ?_⟩
  have hA : adopt s = adoptLine s.gov.plant
      (adoptLine s.gov.plant (raiseFloors ((s.onGov (commitStaged s.store)).onStore emptyStaged)) .a) .b := if_pos (hst.1 h)
  rw [hA]
  obtain ⟨r1, r2⟩ := raiseFloors_all ((s.onGov (commitStaged s.store)).onStore emptyStaged)
  generalize raiseFloors ((s.onGov (commitStaged s.store)).onStore emptyStaged) = u at *
  have hrun : u.run = s.run := by rw [r1]; rfl
  have hgov : u.gov = commitStaged s.store s.gov := by rw [r1]; rfl
  have hA0 : u.run.line .a = s.run.lineA := by rw [hrun]; rfl
  generalize hga : adoptedLatch (lineEnabled s.gov.plant .a) (lineEnabled (commitStaged s.store s.gov).plant .a) s.run.lineA = a
  generalize hgb : adoptedLatch (lineEnabled s.gov.plant .b) (lineEnabled (commitStaged s.store s.gov).plant .b) s.run.lineB = b
  obtain ⟨a1, a2⟩ := adoptLine_idle s.gov.plant .a u _ a (by rw [hgov]; exact hp) (by rw [hgov, hA0, hga]) rfl
  rw [hA0] at a1 a2
  generalize hw : adoptLine s.gov.plant u .a = w at *
  have hstate : u.run.state = s.run.state := by rw [hrun]
  have hwB : w.run.line .b = s.run.lineB ∧ w.gov = commitStaged s.store s.gov := by
    by_cases hA : u.run.state = .running ∧ a = true ∧ s.run.lineA.latch = false
    · rw [a1 hA]
      unfold RunControl.line
      rw [raise_run, raise_gov, hrun]
      exact ⟨rfl, hgov⟩
    · rw [a2 hA, hrun]
      exact ⟨rfl, hgov⟩
  obtain ⟨b1, b2⟩ := adoptLine_idle s.gov.plant .b w _ b (by rw [hwB.2]; exact hp) (by rw [hwB.2, hwB.1, hgb]) rfl
  rw [hwB.1] at b1 b2
  refine ⟨commitStaged s.store s.gov, a, b,
    { u with run := { s.run with lineA := { s.run.lineA with latch := a }, lineB := { s.run.lineB with latch := b } } },
    _, rfl, fun g => by simp [commitStaged], fun p hpl => ?_, fun hn => ?_, hga.symm, hgb.symm, ?_, fun x floor hf1 hf2 => ?_,
    Iff.rfl, fun hbeg => ?_, fun hbeg => ?_⟩
  · show windowFor _ _ = _
    rw [show s.store.plant.or s.gov.plant = some p from hpl]
    rfl
  · show windowFor _ _ = _
    rw [show s.store.plant.or s.gov.plant = none from hn]
    rfl
  · rw [r1]; rfl
  · exact (r2 x).trans (floorRaised_spec _ _ _ hf1 hf2)
  · by_cases hA : u.run.state = .running ∧ a = true ∧ s.run.lineA.latch = false
    · have hw2 := congrArg State.run (a1 hA)
      rw [raise_run] at hw2
      have hh : w.run.state = .holding := congrArg RunControl.state hw2
      rw [b2 fun h => absurd (hh.symm.trans h.1) (by decide), hw2, a1 hA]
      dsimp only [RunControl.setLine]
      rw [hrun]
      exact raise_thenRun .holdBegun u { s.run with state := .holding, lineA := { s.run.lineA with latch := a } }
        { s.run with state := .holding, lineA := { s.run.lineA with latch := a }, lineB := { s.run.lineB with latch := b } }
    · have hB : w = _ := a2 hA
      have hst : w.run.state = .running := by rw [hB]; exact hstate.trans hbeg.1
      have hb : b = true ∧ s.run.lineB.latch = false := hbeg.2.resolve_left fun h => hA ⟨hstate.trans hbeg.1, h⟩
      rw [b1 ⟨hst, hb⟩, hB, hrun]
      rfl
  · have hA : ¬(u.run.state = .running ∧ a = true ∧ s.run.lineA.latch = false) := fun h =>
      hbeg ⟨hstate.symm.trans h.1, .inl h.2⟩
    have hB : w = _ := a2 hA
    rw [b2 fun h => hbeg ⟨by rw [hB] at h; exact hstate.symm.trans h.1, .inr h.2⟩, hB, hrun]
    rfl

/-! ## The sample and the band (R95 to R103) -/

theorem max_of_fold (x : Nat) (l : List Nat) : (x :: l).max? = some (l.foldl max x) := rfl

theorem min_of_fold (x : Nat) (l : List Nat) : (x :: l).min? = some (l.foldl min x) := rfl

theorem bandOf_computed (p : PlantRecord) (sample wmax wmin : Nat) : BandComputed p sample wmax wmin (bandOf p sample wmax wmin) := by
  refine ⟨max (sample - p.stepDown) (wmax - p.windowDown), _, by omega, rfl, fun h => if_pos h, fun h => if_neg (by omega)⟩

theorem formSample_formed (e : Epoch) (p : PlantRecord) (s : State) :
    SampleFormed e p s (formSample e p.silenceLimit s).1 (formSample e p.silenceLimit s).2 := by
  unfold SampleFormed formSample
  by_cases h : countsAsHeard e p.silenceLimit s.nodes.meter.heard = true
  · rw [if_pos h]
    refine ⟨⟨fun _ => (countsAsHeard_iff _ _ _).1 h, fun _ => rfl⟩, fun _ x hx => ?_, fun hn => Bool.noConfusion hn⟩
    unfold meterSample
    rw [hx]
    dsimp only
    omega
  · rw [if_neg h]
    refine ⟨⟨fun hn => Bool.noConfusion hn, fun hn => absurd ((countsAsHeard_iff _ _ _).2 hn) h⟩,
      fun hn => Bool.noConfusion hn, fun _ term h1 h2 => ?_⟩
    have hterm : storageTerm e p.silenceLimit s = term := by
      unfold storageTerm
      by_cases hs : countsAsHeard e p.silenceLimit s.nodes.storage.heard = true
      · rw [if_pos hs, h1 ((countsAsHeard_iff _ _ _).1 hs)]
      · rw [if_neg hs, h2 fun hn => hs ((countsAsHeard_iff _ _ _).2 hn)]
    unfold fallbackSample
    rw [hterm]
    unfold measuredSum State.block
    dsimp only
    omega

/-- R102: the breach check. -/
theorem checkBreach_taken (sample : Nat) (u : State) :
    (u.gov.lastBand = none → checkBreach sample u = u)
    ∧ ∀ last, u.gov.lastBand = some last →
      (sample < last.low → checkBreach sample u
        = raise .bandBreach { u with gov := { u.gov with downBreaches := min (u.gov.downBreaches + 1) (2 ^ 32 - 1) } })
      ∧ (last.low ≤ sample → last.high < sample → checkBreach sample u
        = raise .bandBreach { u with gov := { u.gov with upBreaches := min (u.gov.upBreaches + 1) (2 ^ 32 - 1) } })
      ∧ (last.low ≤ sample → sample ≤ last.high → checkBreach sample u = u) := by
  unfold checkBreach
  refine ⟨fun h => by rw [h], fun last h => ⟨fun h1 => ?_, fun h1 h2 => ?_, fun h1 h2 => ?_⟩⟩ <;> rw [h]
  · exact if_pos h1
  · exact (if_neg (by omega)).trans (if_pos h2)
  · exact (if_neg (by omega)).trans (if_neg (by omega))

theorem sampleAndBand_taken (e : Epoch) (p : PlantRecord) (s : State) :
    SampleTaken e p s (sampleAndBand e p s).1 (sampleAndBand e p s).2 := by
  have hf := formSample_formed e p s
  have hc (u : State) (d : Bool) : countFree d u = { u with freeCount := (countFree d u).freeCount } := countFree_frame d u
  unfold sampleAndBand
  generalize formSample e p.silenceLimit s = x at *
  obtain ⟨sample, meter⟩ := x
  dsimp only at *
  generalize hsrc : nextSource e p.silenceLimit meter s.gov.source = source
  have hw : appendSample p.windowLength sample s.gov.window
      = (s.gov.window ++ [sample]).drop (s.gov.window.length + 1 - p.windowLength) := by
    unfold appendSample newestSamples
    rw [List.length_append, List.length_singleton]
  rw [hw]
  generalize hwin : (s.gov.window ++ [sample]).drop (s.gov.window.length + 1 - p.windowLength) = window
  have hcf := hc s (drawsFree e p.silenceLimit s)
  generalize hd : countFree (drawsFree e p.silenceLimit s) s = c at *
  have hm : moveSource source c = if source = .fallback ∧ s.gov.source ≠ .fallback
      then raise .meterSilent { s with freeCount := c.freeCount, gov := { s.gov with source := source } }
      else { s with freeCount := c.freeCount, gov := { s.gov with source := source } } := by
    unfold moveSource raiseIf State.onGov
    rw [hcf]
    dsimp only
    cases source <;> cases s.gov.source <;> rfl
  have hfree (u : State) : (checkBreach sample u).freeCount = u.freeCount := by rw [checkBreach_frame]
  have hmf : (moveSource source c).freeCount = c.freeCount := by rw [moveSource_frame]
  have hmb : (moveSource source c).gov.lastBand = s.gov.lastBand ∧ (moveSource source c).gov.upBreaches = s.gov.upBreaches
      ∧ (moveSource source c).gov.downBreaches = s.gov.downBreaches := by
    rw [moveSource_frame, hcf]
    exact ⟨rfl, rfl, rfl⟩
  have hsrc1 : meter = true → source = .meter := fun h => by rw [← hsrc, h]; cases s.gov.source <;> rfl
  have hsrc2 : meter = false → s.gov.source = .waiting → e.toNat ≤ p.silenceLimit → source = .waiting := fun h h1 h2 => by
    rw [← hsrc, h, h1]
    exact if_pos h2
  have hsrc3 : meter = false → s.gov.source ≠ .waiting ∨ p.silenceLimit < e.toNat → source = .fallback := fun h h1 => by
    rw [← hsrc, h]
    cases hb : s.gov.source with
    | waiting => exact if_neg (Nat.not_le.2 (h1.resolve_left fun hn => hn hb))
    | meter => rfl
    | fallback => rfl
  obtain ⟨m1, m2, m3⟩ := hmb
  obtain ⟨c1, c2⟩ := checkBreach_taken sample (moveSource source c)
  rw [m1, m2, m3] at *
  have hfc : (checkBreach sample (moveSource source c)).freeCount = c.freeCount := (hfree _).trans hmf
  generalize hu : moveSource source c = u at *
  generalize checkBreach sample u = v at *
  refine ⟨meter, window, u, v, hf, hsrc1, hsrc2, hsrc3, fun h1 h2 => ?_, fun h1 => ?_, hwin.symm, rfl, rfl, rfl,
    bandOf_computed _ _ _ _, fun h => ?_, fun last h => ⟨fun h1 => ?_, fun h1 h2 => ?_, fun h1 h2 => ?_⟩, rfl⟩
  · exact hm.trans ((if_pos ⟨h1, h2⟩).trans (by rw [← hfc]; rfl))
  · exact hm.trans ((if_neg fun h => h1.elim (fun h3 => h3 h.1) fun h3 => h.2 h3).trans (by rw [← hfc]; rfl))
  · exact c1 h
  · exact (c2 last h).1 h1
  · exact (c2 last h).2.1 h1 h2
  · exact (c2 last h).2.2 h1 h2

/-! ## The snapshot (R108, R111) -/

theorem usable_is (r : BlockRecord) : UsableIs r r.usable := by
  refine ⟨fun h => ?_, fun a f h1 h2 h3 => ⟨fun h4 => ?_, fun d h4 => ?_⟩⟩
  · unfold BlockRecord.usable
    rcases h with h | h <;> rw [h]
    cases r.state <;> rfl
  all_goals
    have : r.usable = min (min a (r.derate.getD a)) r.rated := by
      unfold BlockRecord.usable
      rw [h2]
      cases hs : r.state <;> first | rfl | exact absurd hs h1
    rw [this, h4]
    unfold BlockRecord.rated
    rw [h3]
    simp

theorem snapshot_taken (e : Epoch) (p : PlantRecord) (s : State) : SnapshotTaken e p s (takeSnapshot e p s) := by
  have hsnap (b : BlockIx) (x : SnapBlock) (h : snapBlock s b = some x) : x.id = b ∧ (s.block b).profile = some x.profile
      ∧ x = { id := b, state := (s.block b).state, revision := (s.block b).revision, profile := x.profile,
              floor := (s.block b).floor s.gov.groups, usable := (s.block b).usable, measured := (s.block b).measured.getD 0,
              cap := (s.block b).cap, captureEpoch := (s.block b).captureEpoch, lastRelease := (s.block b).lastRelease } := by
    unfold snapBlock at h
    dsimp only at h
    cases hp : (s.block b).profile with
    | none => rw [hp] at h; cases h
    | some f =>
      rw [hp] at h
      dsimp only at h
      split at h
      · cases h
      · cases h
        exact ⟨rfl, rfl, rfl⟩
  refine ⟨?_, fun x hx r hr => ?_, rfl, rfl, rfl, rfl, rfl, rfl, rfl, rfl, ⟨fun soe h1 h2 h3 => ?_, fun h => ?_⟩,
    ⟨fun soe h1 h2 h3 => ?_, fun h => ?_⟩⟩
  · show (allBlocks.filterMap (snapBlock s)).map (·.id) = _
    rw [List.map_filterMap, ← List.filterMap_eq_filter]
    refine List.filterMap_congr fun b _ => ?_
    unfold snapBlock Option.guard
    dsimp only
    rcases Option.eq_none_or_eq_some (s.block b).profile with hf | ⟨f, hf⟩
    · simp [hf]
    · by_cases h : (s.block b).state = .empty <;> simp [h, hf]
  · obtain ⟨b, -, hb⟩ := List.mem_filterMap.1 hx
    obtain ⟨h1, h2, h3⟩ := hsnap b x hb
    rw [h1] at hr
    subst hr
    rw [h3]
    refine ⟨rfl, rfl, h2, ?_, usable_is _, rfl, rfl, rfl, rfl⟩
    unfold BlockRecord.floor floorOf
    rw [h2]
  · show dischargeOffer e p s.nodes.storage = _
    unfold dischargeOffer
    rw [h2]
    exact if_pos (by rw [(countsAsHeard_iff _ _ _).2 h1, decide_eq_true h3]; rfl)
  · show dischargeOffer e p s.nodes.storage = _
    unfold dischargeOffer
    cases hs : s.nodes.storage.soe with
    | none => rfl
    | some soe =>
      refine if_neg fun hc => ?_
      rw [Bool.and_eq_true, countsAsHeard_iff, decide_eq_true_eq] at hc
      exact h.elim (fun h => h hc.1) fun h => h soe hs hc.2
  · show chargeOffer e p s.nodes.storage = _
    unfold chargeOffer
    rw [h2]
    exact if_pos (by rw [(countsAsHeard_iff _ _ _).2 h1, decide_eq_true h3]; rfl)
  · show chargeOffer e p s.nodes.storage = _
    unfold chargeOffer
    cases hs : s.nodes.storage.soe with
    | none => rfl
    | some soe =>
      refine if_neg fun hc => ?_
      rw [Bool.and_eq_true, countsAsHeard_iff, decide_eq_true_eq] at hc
      exact h.elim (fun h => h hc.1) fun h => h soe hs hc.2

/-! ## The opening step (R105, R107) -/

theorem governor_taken (e : Epoch) (s : State) : DispatchOpened e s (openDispatch e s) := by
  have hidle : (overrunDispatch s).gov.phase = .idle := by rw [overrunDispatch_frame]
  refine ⟨overrunDispatch s, adopt (overrunDispatch s), fun h => ?_, fun h => ?_, adoption_taken _ hidle, fun h => ?_, fun p h => ?_⟩
  · unfold overrunDispatch
    rw [h]
  · unfold overrunDispatch
    cases hp : s.gov.phase with
    | idle => exact absurd hp h
    | computing o => rfl
    | staging o sup pl todo counts => rfl
  · unfold openDispatch
    dsimp only
    rw [h]
  · refine ⟨_, _, _, sampleAndBand_taken e p _, snapshot_taken e p _, ?_⟩
    unfold openDispatch
    dsimp only
    rw [h]
    rfl

end Sys2Proof.Machine
end

