-- ==== Sys2Proof/Laws/Epochs.lean ====
section
/-! SUPPORT. The epoch, whatever order reaches the seven blocks, and the trigger and the frame sync that bring it. -/

namespace Sys2Proof.Machine

/-! ## The epoch (R45, log 4) -/

theorem eraseDups_of_nodup {l : List EpochRule} (h : l.Nodup) : l.eraseDups = l := by
  induction l with
  | nil => rfl
  | cons a l ih =>
    obtain ⟨ha, hl⟩ := List.nodup_cons.1 h
    rw [List.eraseDups_cons, List.filter_eq_self.2, ih hl]
    intro b hb
    exact bne_iff_ne.2 fun h => ha (h ▸ hb)

theorem eraseDups_nodup (l : List EpochRule) : l.eraseDups.Nodup := by
  induction hn : l.length using Nat.strong_induction_on generalizing l with
  | _ n ih =>
    cases l with
    | nil => exact List.nodup_nil
    | cons a l =>
      rw [List.eraseDups_cons]
      refine List.nodup_cons.2 ⟨fun h => ?_, ih _ ?_ _ rfl⟩
      · simp at h
      · rw [← hn, List.length_cons]
        exact Nat.lt_succ_of_le (List.length_filter_le _ _)

theorem completeOrder_perm (order : EpochOrder) : (completeOrder order).Perm allEpochRules := by
  refine (List.perm_ext_iff_of_nodup ?_ (by decide)).2 fun a => ?_
  · unfold completeOrder
    generalize order ++ allEpochRules = l
    exact eraseDups_nodup l
  · exact iff_of_true (mem_completeOrder order a) (by cases a <;> decide)

theorem completeOrder_full {order : EpochOrder} (h : order.Perm allEpochRules) : completeOrder order = order := by
  have hn : order.Nodup := h.nodup_iff.2 (by decide)
  unfold completeOrder
  rw [List.eraseDups_append, eraseDups_of_nodup hn]
  have : allEpochRules.removeAll order = [] := by
    unfold List.removeAll
    refine List.filter_eq_nil_iff.2 fun a ha => ?_
    simpa using h.mem_iff.2 ha
  rw [this]
  simp

theorem applyEpochRule_taken (e : Epoch) (s : State) (rule : EpochRule) (hr : s.run.state.inRun = true) :
    RuleTaken e rule s (applyEpochRule e s rule) := by
  unfold applyEpochRule RuleTaken
  cases rule with
  | runControl => exact runControl_taken s
  | governor => dsimp only; rw [if_pos hr]; exact governor_taken e s
  | blockTable => dsimp only; rw [if_pos hr]; exact blockTable_taken e s
  | frontTracker => exact frontTracker_taken e s
  | nodeRecords => dsimp only; rw [if_pos hr]; exact nodeRecords_taken e s
  | ringMarker => exact ⟨placeMarker_idle e s, ringMarker_taken e s⟩
  | leaseScheduler => dsimp only; rw [if_pos hr]; exact leaseScheduler_taken e s

theorem rules_taken (e : Epoch) (l : List EpochRule) (s : State) (hr : s.run.state.inRun = true) :
    RulesTaken e l s (l.foldl (applyEpochRule e) s) := by
  induction l generalizing s with
  | nil => rfl
  | cons rule l ih =>
    exact ⟨_, applyEpochRule_taken e s rule hr, ih _ (by rw [(applyEpochRule_frame e s rule).frame.2.2.1]; exact hr)⟩

/-- R45: the blocks act on an epoch. -/
theorem takeEpoch_taken (order : EpochOrder) (s : State) (hr : s.run.state.inRun = true) :
    EpochTaken order (s.timer.epoch + 1) s (takeEpoch order s) :=
  ⟨⟨_, completeOrder_perm order, completeOrder_full, rules_taken _ _ _ hr⟩, takeEpoch_leaves order s hr⟩

/-! ## The monitors (R46, R63) -/

theorem stallDue_iff (s : State) : stallDue s = true ↔ StallOverdue s := by
  unfold stallDue stallTime nominalPeriod StallOverdue ms
  cases hs : s.timer.source
  · simp
  all_goals
    simp only [Option.map_some, Bool.and_eq_true, beq_iff_eq, decide_eq_true_eq, reduceCtorEq, false_and, true_and, false_or, or_false,
      exists_eq_left, and_assoc, ← Nat.mul_assoc]
    exact Iff.rfl

theorem tripStallDue_judged (s : State) : StallJudged s (tripStallDue s) := by
  unfold tripStallDue
  refine ⟨fun h => ?_, fun h => if_neg fun hd => h ((stallDue_iff s).1 hd)⟩
  have hd := (stallDue_iff s).2 h
  rw [if_pos hd]
  unfold stallDue at hd
  unfold tripStall
  split at hd
  · rename_i t ht
    simp only [Bool.and_eq_true, beq_iff_eq, decide_eq_true_eq] at hd
    dsimp only
    rw [if_pos hd.1]
    unfold OnlyRaised State.atTime State.onTimer
    rw [Nat.max_eq_left hd.2]
  · cases hd

theorem tripLoss_lost (s : State) (h : s.sky.loss = .armed) :
    SensorsLost { s with now := max s.now (s.sky.measureFrom + 3000 * s.sky.framePeriod + 1) } (tripLoss s) := by
  unfold tripLoss
  rw [if_pos h]
  have hl : lossTime s.sky = s.sky.measureFrom + 3000 * s.sky.framePeriod + 1 := by
    unfold lossTime ms
    rw [← Nat.mul_assoc]
  obtain ⟨h1, h2⟩ := loseStations_all
    (raise .sensorLoss ((s.atTime (lossTime s.sky)).onSky fun u => { u with loss := .tripped, frame := none }))
  rw [hl] at *
  generalize List.foldl loseStation _ (List.finRange 24) = v at *
  refine ⟨?_, fun x => ?_⟩
  · unfold OnlyRaised
    rw [raise_as .sensorLoss (s := (s.atTime (s.sky.measureFrom + 3000 * s.sky.framePeriod + 1)).onSky fun u =>
      { u with loss := .tripped, frame := none }) (by rfl) (by rfl) (by rfl), h1, raise_frame]
    rfl
  · rw [h2 x]
    unfold State.station
    rw [raise_sky]
    rfl

theorem lossDue_iff (s : State) : lossDue s = true ↔ LossOverdue s := by
  unfold lossDue lossTime LossOverdue ms
  simp only [Bool.and_eq_true, beq_iff_eq, decide_eq_true_eq, ← Nat.mul_assoc]
  exact Iff.rfl

theorem tripLossDue_judged (s : State) : LossJudged s (tripLossDue s) := by
  unfold tripLossDue
  refine ⟨fun h => ?_, fun h => if_neg fun hd => h ((lossDue_iff s).1 hd)⟩
  rw [if_pos ((lossDue_iff s).2 h)]
  have hl := tripLoss_lost s h.1
  rw [Nat.max_eq_left (Nat.succ_le_of_lt h.2)] at hl
  exact hl

/-- What a loss monitor that trips can change. -/
theorem tripLossDue_frame (s : State) :
    tripLossDue s = { s with link := (tripLossDue s).link, cond := (tripLossDue s).cond, sky := (tripLossDue s).sky } := by
  by_cases h : LossOverdue s
  · have hl := ((tripLossDue_judged s).1 h).1
    unfold OnlyRaised at hl
    rw [raise_frame] at hl
    generalize tripLossDue s = t at *
    rw [hl]
  · rw [(tripLossDue_judged s).2 h]

/-- R61, R63: a frame sync begins a new frame. -/
theorem beginFrame_begun (s : State) : SyncBegun s (tripLossDue s).sky.frame (beginFrame (tripLossDue s)) :=
  ⟨_, tripLossDue_judged s, rfl, by
    rw [show s.now = (tripLossDue s).now by rw [tripLossDue_frame]]
    rfl⟩

/-- R61: the Sky Station Unit as a frame sync leaves it, before the frame in progress closes. -/
theorem beginFrame_sky (s : State) (hl : SkyLawful s.sky) (he : s.sky.enabled = true) :
    SkyLawful (beginFrame (tripLossDue s)).sky :=
  beginFrame_lawful _ _ ((tripLossDue_enabled s).trans he)
    (Steps.keeps (P := fun s => SkyLawful s.sky) (fun _ _ h => h.keeps_sky) (tripLossDue_steps s) hl)

/-- R45, R46: an epoch occurs. -/
theorem epochEvent_occurs (order : EpochOrder) (s : State) (hr : s.run.state.inRun = true) :
    EpochOccurs order (s.timer.epoch + 1) s (epochEvent order s) := by
  obtain ⟨h1, h2, -⟩ := tripStallDue_kept s
  have h := takeEpoch_taken order (tripStallDue s) (by rw [h1]; exact hr)
  rw [h2] at h
  exact ⟨_, tripStallDue_judged s, h⟩

/-- R49: the trigger is taken, and epoch 1 occurs. -/
theorem takeTrigger_occurs (order : EpochOrder) (s : State) :
    ∃ u, TriggerTaken s u ∧ EpochOccurs order 1 u (takeTrigger order s) := by
  have h := triggerTaken s
  refine ⟨_, h, ?_⟩
  have ho := epochEvent_occurs order _ h.runs.1
  rw [h.runs.2] at ho
  exact ho

/-- R45, R49, R61: a frame sync beside the end of a short frame. -/
theorem syncEvent_taken (order : EpochOrder) (s : State) (hl : RunLawful s) : SyncTaken order s (syncEvent order s) := by
  obtain ⟨h1, -, -, -⟩ := hl
  have harmed (h : s.run.state = .armed) : s.timer.running = false := by rw [h1, h]; rfl
  refine ⟨fun ha ht => ?_, fun hr hs => ?_, fun h ht => ?_⟩
  · rw [show syncEvent order s = takeTrigger order s from if_pos ⟨ha, ht⟩]
    exact takeTrigger_occurs order s
  · have hn : ¬(s.run.state = .armed ∧ s.run.trigger = some .firstFrame) := fun h => by
      rw [harmed h.1] at hr
      cases hr
    have hc : syncEvent order s = if s.timer.divisor ≤ s.timer.syncCount + 1 then epochEvent order s
        else s.onTimer fun t => { t with syncCount := t.syncCount + 1 } := (if_neg hn).trans (if_pos ⟨hr, hs⟩)
    rw [hc]
    refine ⟨fun h => ?_, fun h => if_neg (by omega)⟩
    rw [if_pos h]
    exact epochEvent_occurs order s (h1 ▸ hr)
  · refine (if_neg fun hc => ?_).trans (if_neg fun hc => ?_)
    · exact ht.elim (fun h => h hc.1) fun h => h hc.2
    · exact h.elim (fun h => by rw [hc.1] at h; cases h) fun h => h hc.2

end Sys2Proof.Machine
end

