-- ==== Sys2Proof/Laws/Due.lean ====
section
/-! SUPPORT. What a tick brings: which commands are due, and in which order they enter the queue. -/

namespace Sys2Proof.Machine

theorem mem_dueIf {p : Bool} {c d : Instr} : c ∈ dueIf p d ↔ p = true ∧ c = d := by
  unfold dueIf
  cases p <;> simp

theorem dueIf_sublist (p : Bool) (c : Instr) : (dueIf p c).Sublist [c] := by
  unfold dueIf
  split
  · exact .refl _
  · exact List.nil_sublist _

theorem dueCommands_order (s : State) : (dueCommands s).Sublist
    [.hostFrameGapTimeout, .internalPeriodExpiry (Config.epochOrder s.now), .epochStall, .sensorLoss, .ringSettled,
      .probeWindowExpiry, .probeRetryExpiry, .heldRequestTaken (Config.epochOrder s.now), .stagingResumed, .outPortFree] := by
  have h (p : Bool) (c : Instr) := dueIf_sublist p c
  exact ((((((((((h _ _).append (h _ _)).append (h _ _)).append (h _ _)).append (h _ _)).append (h _ _)).append (h _ _)).append
    (h _ _)).append (h _ _)).append (h _ _))

/-! ## The conditions, one by one -/

theorem gapDue_iff (s : State) : gapDue s = true ↔ ∃ bytes last, s.link.receiver = .collect bytes last ∧ last + 5000 < s.now := by
  unfold gapDue gapTime ms
  cases h : s.link.receiver with
  | hunt => simp
  | collect bytes last => simp

theorem periodDue_iff (s : State) : periodDue s = true ↔ s.timer.running = true ∧ s.timer.source = .internal
    ∧ s.timer.lastEpochAt + 1000 * s.timer.period ≤ s.now := by
  simp [periodDue, periodEnd, ms, and_assoc]
  exact fun _ _ => decide_eq_true_iff

theorem settleDue_iff (s : State) : settleDue s = true ↔ s.ring.state = .down ∧ s.ring.signalSeen = true ∧ s.ring.nodes ≠ []
    ∧ s.ring.settleFrom + 10000 ≤ s.now := by
  simp [settleDue, settleTime, ms, and_assoc]
  exact fun _ _ _ => decide_eq_true_iff

theorem windowDue_iff (s : State) : windowDue s = true ↔ ∃ n sent, s.ring.probe = .outstanding n sent false ∧ sent + 20000 ≤ s.now := by
  unfold windowDue
  split
  · rename_i n sent h
    simp [h, windowTime, ms]
    exact decide_eq_true_iff
  · rename_i h
    simp only [Bool.false_eq_true, false_iff, not_exists, not_and]
    exact fun n sent hp => absurd hp (h n sent)

theorem retryDue_iff (s : State) : retryDue s = true ↔ s.ring.state = .probing
    ∧ ∃ n sent, s.ring.probe = .outstanding n sent true ∧ sent + 200000 ≤ s.now := by
  unfold retryDue
  split
  · rename_i n sent hs h
    simp [hs, h, retryTime, ms]
    exact decide_eq_true_iff
  · rename_i h
    simp only [Bool.false_eq_true, false_iff, not_and, not_exists]
    exact fun hs n sent hp => absurd hp (h n sent hs)

theorem heldDue_iff (s : State) : heldDue s = true ↔ s.link.holding ≠ none ∧ ¬PortBusy s ∧ s.link.resetScheduled = false := by
  unfold heldDue HostLink.busy PortBusy TxFrame.isNotice
  cases s.link.holding <;> cases s.link.inHand <;> cases s.link.resetScheduled <;> simp

theorem stagingDue_iff (s : State) : stagingDue s = true ↔ ∃ o sup pl d rest counts,
    s.gov.phase = .staging o sup pl (d :: rest) counts ∧ QueueAdmits s.ring (d.target (enteringLabel s.ring (o.epoch + 1))) := by
  unfold stagingDue
  split
  · rename_i o sup pl d rest counts h
    have one (q : Prop) : (∃ o' sup' pl' d' rest' counts', s.gov.phase = .staging o' sup' pl' (d' :: rest') counts'
        ∧ QueueAdmits s.ring (d'.target (enteringLabel s.ring (o'.epoch + 1))))
        ↔ QueueAdmits s.ring (d.target (enteringLabel s.ring (o.epoch + 1))) := by
      constructor
      · rintro ⟨o', sup', pl', d', rest', counts', h', ha⟩
        rw [h] at h'
        injection h' with e1 _ _ e4 _
        injection e4 with e4 _
        subst e1 e4
        exact ha
      · exact fun ha => ⟨o, sup, pl, d, rest, counts, h, ha⟩
    rw [one True]
    cases d with
    | store power => exact storeAdmissible_iff _ _ _ _ _ rfl
    | _ => exact capAdmissible_iff _ _ _ _ _ _ rfl
  · rename_i h
    simp only [Bool.false_eq_true, false_iff, not_exists, not_and]
    exact fun o sup pl d rest counts hp => absurd hp (h o sup pl d rest counts)

theorem portDue_iff (s : State) : portDue s = true ↔ s.ring.sending = none ∧ (s.ring.forward ≠ [] ∨ s.ring.queue ≠ []) := by
  simp [portDue]

/-- The commands that enter the queue are those that are due. -/
theorem mem_dueCommands (s : State) (c : Instr) : c ∈ dueCommands s ↔ DueNow s c := by
  unfold dueCommands
  simp only [List.mem_append, mem_dueIf, gapDue_iff, periodDue_iff, stallDue_iff, lossDue_iff, settleDue_iff, windowDue_iff,
    retryDue_iff, heldDue_iff, stagingDue_iff, portDue_iff]
  constructor
  · rintro (((((((((⟨h, rfl⟩ | ⟨h, rfl⟩) | ⟨h, rfl⟩) | ⟨h, rfl⟩) | ⟨h, rfl⟩) | ⟨h, rfl⟩) | ⟨h, rfl⟩) | ⟨h, rfl⟩) | ⟨h, rfl⟩) | ⟨h, rfl⟩)
    all_goals first | exact h | exact ⟨rfl, h⟩
  · intro h
    cases c with
    | hostFrameGapTimeout => exact .inl (.inl (.inl (.inl (.inl (.inl (.inl (.inl (.inl ⟨h, rfl⟩))))))))
    | internalPeriodExpiry order =>
      obtain ⟨rfl, h⟩ := h
      exact .inl (.inl (.inl (.inl (.inl (.inl (.inl (.inl (.inr ⟨h, rfl⟩))))))))
    | epochStall => exact .inl (.inl (.inl (.inl (.inl (.inl (.inl (.inr ⟨h, rfl⟩)))))))
    | sensorLoss => exact .inl (.inl (.inl (.inl (.inl (.inl (.inr ⟨h, rfl⟩))))))
    | ringSettled => exact .inl (.inl (.inl (.inl (.inl (.inr ⟨h, rfl⟩)))))
    | probeWindowExpiry => exact .inl (.inl (.inl (.inl (.inr ⟨h, rfl⟩))))
    | probeRetryExpiry => exact .inl (.inl (.inl (.inr ⟨h, rfl⟩)))
    | heldRequestTaken order =>
      obtain ⟨rfl, h⟩ := h
      exact .inl (.inl (.inr ⟨h, rfl⟩))
    | stagingResumed => exact .inl (.inr ⟨h, rfl⟩)
    | outPortFree => exact .inr ⟨h, rfl⟩
    | _ => exact h.elim

end Sys2Proof.Machine
end

