-- ==== Sys2Proof/Laws/Stopping.lean ====
section
/-! SUPPORT. STOP: the blocks freed, and the releases at the tail of the outbound queue. -/

namespace Sys2Proof.Machine

/-- R27: the record of a block freed by STOP. -/
def BlockRecord.stopped (r : BlockRecord) : BlockRecord :=
  { r with state := .free, cap := none, captureEpoch := none, revision := r.revision + 1 }

theorem freeForStop_fold (l : List BlockIx) (hl : l.Nodup) (s : State) (hn : ∀ b ∈ l, (s.block b).state ≠ .free)
    (hc : CollectionsAgree s.table) :
    l.foldl freeForStop s = { s with table := (l.foldl freeForStop s).table }
      ∧ CollectionsAgree (l.foldl freeForStop s).table
      ∧ (l.foldl freeForStop s).table.rotation = s.table.rotation ++ l
      ∧ (l.foldl freeForStop s).table.groupCapture = s.table.groupCapture
      ∧ ∀ b, (l.foldl freeForStop s).block b = if b ∈ l then (s.block b).stopped else s.block b := by
  induction l generalizing s with
  | nil => exact ⟨rfl, hc, by simp, rfl, fun b => by simp⟩
  | cons a l ih =>
    obtain ⟨ha, hl⟩ := List.nodup_cons.1 hl
    have hblock : ∀ b, b ≠ a → (freeForStop s a).block b = s.block b := fun b hb => modifyBlock_block_ne _ _ _ _ hb
    have hself : (freeForStop s a).block a = (s.block a).stopped := modifyBlock_block_self _ _ _
    obtain ⟨h1, h2, h3, h4, h5⟩ := ih hl (freeForStop s a)
      (fun b hb => by rw [hblock b (fun h => ha (h ▸ hb))]; exact hn b (List.mem_cons_of_mem _ hb))
      (put_collections _ _ _ hc)
    have hf : freeForStop s a = { s with table := (freeForStop s a).table } := rfl
    have hrot : (freeForStop s a).table.rotation = s.table.rotation ++ [a] := by
      refine (modifyBlock_rotation s a _).trans ?_
      unfold relist
      rw [if_neg (hn a (List.mem_cons_self ..))]
      exact if_pos rfl
    rw [List.foldl_cons]
    refine ⟨?_, h2, ?_, h4, fun b => ?_⟩
    · rw [h1, hf]
    · rw [h3, hrot]
      simp
    · rw [h5]
      by_cases hb : b = a
      · subst hb
        rw [if_neg ha, hself]
        simp
      · rw [hblock b hb]
        simp [hb]

/-- R27: after STOP the capped list is empty, and the freed blocks follow the rotation queue in their order. -/
theorem stopBlocks_all (s : State) (hc : CollectionsAgree s.table) :
    stopBlocks s = { s with table := (stopBlocks s).table }
      ∧ (stopBlocks s).table.capped = [] ∧ (stopBlocks s).table.groupCapture = s.table.groupCapture
      ∧ (stopBlocks s).table.rotation
          = s.table.rotation ++ s.table.capped ++ allBlocks.filter (fun b => (s.block b).state == .resting)
      ∧ ∀ b, (stopBlocks s).block b
          = if (s.block b).state = .capped ∨ (s.block b).state = .resting then (s.block b).stopped else s.block b := by
  have hcap : ∀ b, b ∈ s.table.capped ↔ (s.block b).state = .capped := hc.2.2.1
  have h1 := freeForStop_fold s.table.capped hc.1 s (fun b hb => by rw [(hcap b).1 hb]; decide) hc
  have hrest : ∀ b, b ∈ allBlocks.filter (fun b => (s.block b).state == .resting) ↔ (s.block b).state = .resting := by
    intro b
    simp [allBlocks_all b]
  have hl : (allBlocks.filter fun b => (s.block b).state == .resting).Nodup := allBlocks_nodup.filter _
  unfold stopBlocks
  dsimp only
  generalize s.table.capped.foldl freeForStop s = u at *
  generalize allBlocks.filter (fun b => (s.block b).state == .resting) = l at *
  obtain ⟨u1, u2, u3, u4, u5⟩ := h1
  have hu : ∀ b, (s.block b).state = .resting → u.block b = s.block b := by
    intro b hb
    rw [u5, if_neg (by rw [hcap, hb]; decide)]
  obtain ⟨v1, v2, v3, v4, v5⟩ := freeForStop_fold l hl u (fun b hb => by
    rw [hu b ((hrest b).1 hb), (hrest b).1 hb]; decide) u2
  have hb : ∀ b, (l.foldl freeForStop u).block b
      = if (s.block b).state = .capped ∨ (s.block b).state = .resting then (s.block b).stopped else s.block b := by
    intro b
    rw [v5, u5]
    by_cases h1 : (s.block b).state = .resting
    · simp [hrest, hcap, h1]
    · simp [hrest, hcap, h1]
  refine ⟨by rw [v1, u1], ?_, v4.trans u4, by rw [v3, u3], hb⟩
  refine List.eq_nil_iff_forall_not_mem.2 fun b hm => ?_
  have hst := (v2.2.2.1 b).1 hm
  have hst : ((l.foldl freeForStop u).block b).state = .capped := hst
  rw [hb b] at hst
  split at hst
  · exact absurd hst (by simp [BlockRecord.stopped])
  · rename_i h
    exact h (.inl hst)

/-- R157: a packet with no queued packet of its target goes to the tail. -/
theorem enqueue_tail {same : OwnPacket → Bool} {q : List OwnPacket} (p : OwnPacket) (h : q.any same = false) :
    enqueue same p q = q ++ [p] :=
  if_neg (by simp [h])

/-- R51: the releases of the blocks that were CAPPED, into a queue with room for them all and no CAP of their targets. -/
theorem sendRelease_fold (label : Epoch) (l : List BlockIx) (hl : l.Nodup) (s : State)
    (hr : (s.ring.queue.filter fun p => !p.isMark).length + l.length ≤ 63)
    (hn : ∀ b ∈ l, s.ring.queue.any (OwnPacket.isCapAt b label) = false) :
    l.foldl (sendRelease label) s
        = { s with table := { s.table with blocks := (l.foldl (sendRelease label) s).table.blocks }
                   ring := { s.ring with queue := s.ring.queue ++ l.map fun b => .cap b label none 0 } }
      ∧ ∀ b, (l.foldl (sendRelease label) s).block b
          = if b ∈ l then { s.block b with capLabel := some label } else s.block b := by
  induction l generalizing s with
  | nil => exact ⟨by simp, fun b => by simp⟩
  | cons a l ih =>
    obtain ⟨ha, hl⟩ := List.nodup_cons.1 hl
    have hroom : hasRoom s.ring.queue = true := by
      unfold hasRoom
      rw [List.length_cons] at hr
      exact decide_eq_true (by omega)
    have hs : sendRelease label s a
        = modifyBlock a (fun r => { r with capLabel := some label })
            (s.onRing fun r => { r with queue := r.queue ++ [.cap a label none 0] }) := by
      unfold sendRelease capEnters
      dsimp only
      rw [if_pos (by simp [hroom])]
      simp [State.onRing, enqueue_tail _ (hn a List.mem_cons_self)]
    have hk := modifyBlock_keeps (b := a) (f := fun r => { r with capLabel := some label })
      (s := s.onRing fun r => { r with queue := r.queue ++ [.cap a label none 0] }) rfl
    have hself : (sendRelease label s a).block a = { s.block a with capLabel := some label } := by
      rw [hs]
      exact modifyBlock_block_self _ _ _
    have hne : ∀ b, b ≠ a → (sendRelease label s a).block b = s.block b := by
      intro b hb
      rw [hs]
      exact modifyBlock_block_ne _ _ _ _ hb
    have hq : (sendRelease label s a).ring = { s.ring with queue := s.ring.queue ++ [.cap a label none 0] } := by
      rw [hs]
      rfl
    obtain ⟨h1, h2⟩ := ih hl (sendRelease label s a) (by
      have hm : (OwnPacket.cap a label none 0).isMark = false := rfl
      rw [hq]
      rw [List.length_cons] at hr
      simp only [List.filter_append, List.length_append, List.filter_cons, hm, List.filter_nil]
      simp only [Bool.not_false, if_true, List.length_cons, List.length_nil]
      omega) (fun b hb => by
      have hab : a ≠ b := fun e => ha (e ▸ hb)
      rw [hq]
      simp [hn b (List.mem_cons_of_mem _ hb), OwnPacket.isCapAt, hab])
    rw [List.foldl_cons]
    refine ⟨?_, fun b => ?_⟩
    · rw [h1, hs, hk]
      simp [State.onRing]
    · rw [h2]
      by_cases hb : b = a
      · subst hb
        rw [if_neg ha, hself]
        simp
      · rw [hne b hb]
        simp [hb]

end Sys2Proof.Machine
end

