-- ==== Sys2Proof/Laws/Ending.lean ====
section
/-! SUPPORT. What the end of a run leaves. -/

namespace Sys2Proof.Machine

/-- A byte above 1 is neither flag value. -/
theorem not_flag_byte {b : Byte} (h : 1 < b.toNat) : b ≠ 0 ∧ b ≠ 1 := by
  refine ⟨?_, ?_⟩ <;> (intro e; subst e; revert h; decide)

/-- A byte up to 1 is one of the two flag values. -/
theorem flag_byte {b : Byte} (h : b.toNat ≤ 1) : b = 0#8 ∧ b.toNat = 0 ∨ b = 1#8 ∧ b.toNat = 1 := by
  rcases byte_cases b with h | h | h
  · exact .inl ⟨h, by subst h; rfl⟩
  · exact .inr ⟨h, by subst h; rfl⟩
  · omega

/-- Of at most one probe, at most one is no marker. -/
theorem probes_unmarked_le {q : List OwnPacket} (h : (q.filter OwnPacket.isProbe).length ≤ 1) :
    ((q.filter OwnPacket.isProbe).filter fun p => !p.isMark).length ≤ 1 :=
  le_trans (List.length_filter_le _ _) h

/-- R51: the releases and the marker appended to an admitted queue, and the records they leave. -/
theorem sendReleases_all (label : Epoch) (l : List BlockIx) (hl : l.Nodup) (s : State)
    (hr : (s.ring.queue.filter fun p => !p.isMark).length + l.length ≤ 62) (hq : ∀ p ∈ s.ring.queue, p.isProbe = true) :
    sendReleases label l s
        = { s with table := { s.table with blocks := (sendReleases label l s).table.blocks }, ring := { s.ring with queue := s.ring.queue ++ (l.map fun b => .cap b label none 0) ++ [.store label 0 0, .mark label] }, nodes := { s.nodes with storage := { s.nodes.storage with commanded := 0, commandLabel := some label } } }
      ∧ ∀ b, (sendReleases label l s).block b = if b ∈ l then { s.block b with capLabel := some label } else s.block b := by
  have hnone (same : OwnPacket → Bool) (hs : ∀ n, same (.probe n) = false) : s.ring.queue.any same = false := by
    rw [List.any_eq_false]
    intro p hp
    have := hq p hp
    cases p with
    | probe n => simp [hs n]
    | _ => exact Bool.noConfusion this
  obtain ⟨h1, h2⟩ := sendRelease_fold label l hl s (by omega) fun b _ => hnone _ fun _ => rfl
  unfold sendReleases
  generalize l.foldl (sendRelease label) s = u at *
  have hroom : hasRoom u.ring.queue = true := by
    rw [h1]; unfold hasRoom
    have : ((l.map fun b => OwnPacket.cap b label none 0).filter fun p => !p.isMark).length ≤ l.length :=
      le_trans (List.length_filter_le _ _) (by simp)
    simp only [List.filter_append, List.length_append] at *
    exact decide_eq_true (by omega)
  have hs : sendStorageRelease label u =
      (u.onRing fun r => { r with queue := r.queue ++ [.store label 0 0] }).onStorage fun r => { r with commanded := 0, commandLabel := some label } := by
    have hn : u.ring.queue.any (OwnPacket.isStoreAt label) = false := by
      rw [h1]
      simp [hnone (OwnPacket.isStoreAt label) fun _ => rfl, OwnPacket.isStoreAt]
    unfold sendStorageRelease storeEnters
    dsimp only
    rw [if_pos (by simp [hroom])]
    simp [State.onRing, State.onStorage, enqueue_tail _ hn]
  rw [hs]
  refine ⟨?_, h2⟩
  rw [h1]
  simp [State.onRing, State.onStorage]

/-- R50: everything the end of a run changes. -/
theorem endRun_all (s : State) (hc : CollectionsAgree s.table) :
    endRun s = { s with run := { s.run with state := .stopped }, timer := { s.timer with running := false, stall := .disarmed }, gov := { s.gov with phase := .idle }, ring := { s.ring with queue := s.ring.queue.filter OwnPacket.isProbe }, table := (stopBlocks s).table, nodes := { s.nodes with storage := { s.nodes.storage with commanded := 0 } } } := by
  have hb (x : State) (hx : x.table = s.table) : stopBlocks x = { x with table := (stopBlocks s).table } := by
    have h1 := (stopBlocks_all x (by rw [hx]; exact hc)).1
    have h2 : (stopBlocks x).table = (stopBlocks s).table := by
      have hf : ∀ (l : List BlockIx) (x s : State), x.table = s.table → (l.foldl freeForStop x).table =
          (l.foldl freeForStop s).table := by
        intro l; induction l with
        | nil => exact fun _ _ h => h
        | cons a l ih => intro x s h; exact ih _ _ (by simp only [freeForStop, modifyBlock, State.onTable, h])
      unfold stopBlocks; dsimp only
      have : (fun b => (x.block b).state == .resting) = fun b => (s.block b).state == .resting := by
        funext b; unfold State.block; rw [hx]
      rw [this, hx]; exact hf _ _ _ (hf _ _ _ hx)
    rw [h1, h2]
  unfold endRun; rw [hb]; rfl; rfl

end Sys2Proof.Machine
end

