-- ==== Sys2Proof/Laws/Wire.lean ====
section
/-! SUPPORT. Fields written to bytes and read back (12, R190): lengths, plain fields, and lists of entries. -/

namespace Sys2Proof.Machine

@[simp] theorem leBytes_length (n v : Nat) : (leBytes n v).length = n := by
  induction n generalizing v with
  | zero => rfl
  | succ n ih => simp [leBytes, ih]

theorem leNat_leBytes (n v : Nat) : leNat (leBytes n v) = v % 256 ^ n := by
  induction n generalizing v with
  | zero => simp [leBytes, leNat, Nat.mod_one]
  | succ n ih =>
    simp only [leBytes, leNat, ih, BitVec.toNat_ofNat]
    rw [show (256 : Nat) ^ (n + 1) = 256 * 256 ^ n by rw [Nat.pow_succ, Nat.mul_comm], Nat.mod_mul]

@[simp] theorem halfBytes_length (h : Half) : (halfBytes h).length = 2 := leBytes_length _ _

@[simp] theorem wordBytes_length (w : Word) : (wordBytes w).length = 4 := leBytes_length _ _

@[simp] theorem epochBytes_length (e : Epoch) : (epochBytes e).length = 4 := leBytes_length _ _

/-- A field that stands after `pre` in a body. -/
theorem fieldAt_append (pre mid post : List Byte) (i n : Nat) (hi : pre.length = i) (hn : mid.length = n) :
    fieldAt (pre ++ mid ++ post) i n = mid := by
  subst hi hn
  simp [fieldAt]

theorem byteAt_append (pre post : List Byte) (b : Byte) (i : Nat) (hi : pre.length = i) :
    byteAt (pre ++ b :: post) i = b := by
  subst hi
  simp [byteAt]

theorem halfAt_append (pre post : List Byte) (h : Half) (i : Nat) (hi : pre.length = i) :
    halfAt (pre ++ halfBytes h ++ post) i = h := by
  rw [halfAt, fieldAt_append _ _ _ _ _ hi (halfBytes_length h), halfBytes, leNat_leBytes]
  have := h.isLt
  apply BitVec.eq_of_toNat_eq
  simp
  omega

theorem wordAt_append (pre post : List Byte) (w : Word) (i : Nat) (hi : pre.length = i) :
    wordAt (pre ++ wordBytes w ++ post) i = w := by
  rw [wordAt, fieldAt_append _ _ _ _ _ hi (wordBytes_length w), wordBytes, leNat_leBytes]
  have := w.isLt
  apply BitVec.eq_of_toNat_eq
  simp
  omega

/-- What is absent on the wire, as the statements say it. -/
theorem isAbsent_eq (bs : List Byte) : isAbsent bs = decide (bs = List.replicate bs.length 0xFF#8) := by
  unfold isAbsent
  rw [Bool.eq_iff_iff, decide_eq_true_eq, List.all_eq_true, List.eq_replicate_iff]
  simp

theorem optNatAt_append (pre mid post : List Byte) (i n : Nat) (hi : pre.length = i) (hn : mid.length = n) :
    optNatAt (pre ++ mid ++ post) i n = readField mid := by
  unfold optNatAt readField
  rw [fieldAt_append _ _ _ _ _ hi hn, isAbsent_eq]
  simp only [decide_eq_true_eq]

/-- Four bytes that stand after `pre`, whatever word they spell. -/
theorem wordAt_bytes (pre mid post : List Byte) (i : Nat) (hi : pre.length = i) (hn : mid.length = 4) :
    wordAt (pre ++ mid ++ post) i = BitVec.ofNat 32 (leNat mid) := by
  unfold wordAt
  rw [fieldAt_append _ _ _ _ _ hi hn]

theorem optIntAt_append (pre mid post : List Byte) (i : Nat) (hi : pre.length = i) (hn : mid.length = 5) :
    optIntAt (pre ++ mid ++ post) i = readPower mid := by
  unfold optIntAt readPower
  rw [fieldAt_append _ _ _ _ _ hi hn, isAbsent_eq]
  simp only [decide_eq_true_eq]
  have h := wordAt_bytes pre (mid.take 4) (mid.drop 4 ++ post) i hi (by simp [hn])
  have hs : pre ++ mid.take 4 ++ (mid.drop 4 ++ post) = pre ++ mid ++ post := by
    rw [List.append_assoc, ← List.append_assoc (mid.take 4), List.take_append_drop, ← List.append_assoc]
  rw [← hs, h]

theorem leNat_lt (bs : List Byte) : leNat bs < 256 ^ bs.length := by
  induction bs with
  | nil => decide
  | cons b bs ih =>
    have := b.isLt
    rw [leNat, List.length_cons, Nat.pow_succ]
    omega

@[simp] theorem leads_length (entries : List LeadBody) : (entries.flatMap leadBytes).length = 3 * entries.length := by
  induction entries with
  | nil => rfl
  | cons e rest ih => simp [ih, leadBytes]; omega

theorem readLeads_leadBytes (entries : List LeadBody) : readLeads (entries.flatMap leadBytes) = entries := by
  induction entries with
  | nil => rfl
  | cons e rest ih => simpa [leadBytes, readLeads] using ih

end Sys2Proof.Machine
end

