-- ==== Sys2Proof/Laws/Packets.lean ====
section
/-! SUPPORT. The check made of a packet, and packets of the part's own on the wire, as they leave and as they come round (R152, 12.5). -/

namespace Sys2Proof.Machine

/-- A CRC is the two bytes it is sent as (R191). -/
theorem crcOf_split (c : Half) : crcOf ((c >>> 8).setWidth 8) (c.setWidth 8) = c := by
  unfold crcOf
  apply BitVec.eq_of_getLsbD_eq
  intro i hi
  rw [BitVec.getLsbD_append]
  by_cases h : i < 8
  · simp [h]
  · rw [if_neg h, BitVec.getLsbD_setWidth, BitVec.getLsbD_ushiftRight, show 8 + (i - 8) = i by omega]
    simp
    omega

/-! ## Any packet of four header bytes, a payload and a CRC -/

theorem packet_length (origin kind flags marks high low : Byte) (payload : List Byte) :
    ([origin, kind, flags, marks] ++ payload ++ [high, low]).length = payload.length + 6 := by
  simp

theorem payloadOf_bytes (origin kind flags marks high low : Byte) (payload : List Byte) :
    payloadOf ([origin, kind, flags, marks] ++ payload ++ [high, low]) = payload := by
  unfold payloadOf
  rw [packet_length]
  simp

/-- R152, R191. -/
theorem ringCrcMatches_iff (origin kind flags marks high low : Byte) (payload : List Byte) :
    ringCrcMatches ([origin, kind, flags, marks] ++ payload ++ [high, low]) = true
      ↔ high ++ low = crc16 (origin :: kind :: payload) := by
  have hh : byteAt ([origin, kind, flags, marks] ++ payload ++ [high, low]) (payload.length + 6 - 2) = high :=
    byteAt_append ([origin, kind, flags, marks] ++ payload) [low] high _ (by simp)
  have hl : byteAt ([origin, kind, flags, marks] ++ payload ++ [high, low]) (payload.length + 6 - 1) = low := by
    simpa using byteAt_append ([origin, kind, flags, marks] ++ payload ++ [high]) [] low (payload.length + 6 - 1) (by simp)
  have h0 : byteAt ([origin, kind, flags, marks] ++ payload ++ [high, low]) 0 = origin := rfl
  have h1 : byteAt ([origin, kind, flags, marks] ++ payload ++ [high, low]) 1 = kind := rfl
  unfold ringCrcMatches
  rw [packet_length, payloadOf_bytes, hh, hl, h0, h1, beq_iff_eq]
  exact eq_comm

/-- R152, step 2: the check as a whole. -/
theorem checkPacket_bytes (origin kind flags marks high low : Byte) (payload : List Byte) :
    checkPacket ([origin, kind, flags, marks] ++ payload ++ [high, low]) = true
      ↔ lengthFor kind.toNat origin.toNat = some payload.length ∧ high ++ low = crc16 (origin :: kind :: payload)
        ∧ contentsValid kind.toNat origin.toNat payload = true := by
  have h0 : byteAt ([origin, kind, flags, marks] ++ payload ++ [high, low]) 0 = origin := rfl
  have h1 : byteAt ([origin, kind, flags, marks] ++ payload ++ [high, low]) 1 = kind := rfl
  unfold checkPacket
  rw [h0, h1, packet_length, payloadOf_bytes]
  cases lengthFor kind.toNat origin.toNat with
  | none => simp
  | some n =>
    rw [Bool.and_eq_true, Bool.and_eq_true, beq_iff_eq, ringCrcMatches_iff, Option.some.injEq, and_assoc,
      Nat.add_right_cancel_iff, eq_comm (a := n)]

/-- R152: a packet too short for its header and its CRC fails the check. -/
theorem checkPacket_short {bs : List Byte} (h : bs.length < 6) : checkPacket bs = false := by
  unfold checkPacket
  split
  · rw [beq_eq_false_iff_ne.2 (by omega)]
    rfl
  · rfl

theorem unitMode_isSome (b : Byte) : (UnitMode.ofCode b).isSome = true ↔ b.toNat ≤ 1 := by
  revert b
  decide +kernel

theorem alertClass_isSome (b : Byte) : (AlertClass.ofCode b).isSome = true ↔ b.toNat ≤ 3 := by
  revert b
  decide +kernel

/-- R152: kind, origin, length and contents together. -/
theorem kind_fits (kind origin : Byte) (payload : List Byte) :
    (lengthFor kind.toNat origin.toNat = some payload.length ∧ contentsValid kind.toNat origin.toNat payload = true)
      ↔ PacketFits origin kind payload := by
  have hff (b : Byte) : b = 0xFF#8 ↔ b.toNat = 255 := ⟨fun h => by rw [h]; rfl, fun h => BitVec.eq_of_toNat_eq h⟩
  have hlow (n : Nat) : (if origin.toNat = 0 then some n else none) = some payload.length
      ↔ origin.toNat = 0 ∧ payload.length = n := by
    split <;> simp_all [eq_comm]
  unfold PacketFits
  generalize hk : kind.toNat = k
  rcases k with _ | _ | _ | _ | _ | _ | _ | k <;> simp only [lengthFor, contentsValid, hlow, List.mem_cons, Prod.mk.injEq,
    List.not_mem_nil, or_false, true_and, inRange, Bool.and_eq_true, decide_eq_true_eq]
  case succ.succ.succ.succ.succ.zero =>
    by_cases h1 : 1 ≤ origin.toNat ∧ origin.toNat ≤ 48
    · rw [if_pos h1, if_pos h1, Option.some.injEq, unitMode_isSome]
      omega
    · rw [if_neg h1, if_neg h1]
      by_cases h2 : 49 ≤ origin.toNat ∧ origin.toNat ≤ 50
      · rw [if_pos h2, Option.some.injEq, Bool.or_eq_true, unitMode_isSome, beq_iff_eq, hff]
        omega
      · rw [if_neg h2]
        simp
        omega
  case succ.succ.succ.succ.succ.succ.zero =>
    by_cases h1 : 1 ≤ origin.toNat ∧ origin.toNat ≤ 50
    · rw [if_pos h1, Option.some.injEq, alertClass_isSome]
      omega
    · rw [if_neg h1]
      simp
      omega
  all_goals (simp; try omega)

/-- R152, step 2, 12.5. -/
theorem checkPacket_iff (origin kind flags marks high low : Byte) (payload : List Byte) :
    checkPacket ([origin, kind, flags, marks] ++ payload ++ [high, low]) = true
      ↔ high ++ low = crc16 (origin :: kind :: payload) ∧ PacketFits origin kind payload := by
  rw [checkPacket_bytes, ← kind_fits]
  exact and_left_comm

/-! ## Packets of the part's own -/

theorem payloadOf_packet (kind flags marks : Byte) (payload : List Byte) (crc : Half) :
    payloadOf ([0#8, kind, flags, marks] ++ payload ++ crcBytes crc) = payload :=
  payloadOf_bytes ..

theorem ringCrcMatches_packet (kind flags marks : Byte) (payload : List Byte) :
    ringCrcMatches ([0#8, kind, flags, marks] ++ payload ++ crcBytes (crc16 (0#8 :: kind :: payload))) = true :=
  (ringCrcMatches_iff ..).2 (crcOf_split _)

/-- R153: the bytes of a packet that came round. -/
theorem returnedBytes_eq (p : OwnPacket) (flags marks : Byte) :
    returnedBytes p flags marks
      = [0#8, p.kindCode, flags, marks] ++ p.payload ++ crcBytes (crc16 (0#8 :: p.kindCode :: p.payload)) := by
  unfold returnedBytes OwnPacket.bytes
  simp

/-- R152: a packet of the part's own that came round undamaged passes the check, and is known as the part's own. -/
theorem returnedBytes_check (p : OwnPacket) (flags marks : Byte) :
    passMark (returnedBytes p flags marks) = flags.getLsbD 0 ∧ takenFlag (returnedBytes p flags marks) = flags.getLsbD 1
      ∧ checkPacket (returnedBytes p flags marks) = true ∧ byteAt (returnedBytes p flags marks) 0 = 0#8
      ∧ byteAt (returnedBytes p flags marks) 1 = p.kindCode ∧ byteAt (returnedBytes p flags marks) 3 = marks
      ∧ payloadOf (returnedBytes p flags marks) = p.payload := by
  rw [returnedBytes_eq]
  refine ⟨rfl, rfl, ?_, rfl, rfl, rfl, payloadOf_packet _ _ _ _ _⟩
  have hl : ([0#8, p.kindCode, flags, marks] ++ p.payload
      ++ crcBytes (crc16 (0#8 :: p.kindCode :: p.payload))).length = p.payload.length + 6 := by simp [crcBytes]
  have hb0 : byteAt ([0#8, p.kindCode, flags, marks] ++ p.payload
      ++ crcBytes (crc16 (0#8 :: p.kindCode :: p.payload))) 0 = 0#8 := rfl
  have hb1 : byteAt ([0#8, p.kindCode, flags, marks] ++ p.payload
      ++ crcBytes (crc16 (0#8 :: p.kindCode :: p.payload))) 1 = p.kindCode := rfl
  unfold checkPacket
  rw [hl, hb0, hb1, ringCrcMatches_packet]
  cases p <;> simp [OwnPacket.kindCode, lengthFor, OwnPacket.payload, contentsValid, intBytes]

end Sys2Proof.Machine
end

