-- ==== Sys2Proof/Laws/Incoming.lean ====
section
/-! SUPPORT. What reports, alerts and packets leave alone, and the judgement of a report. -/

namespace Sys2Proof.Machine

theorem blockReport_ring (b rep) (s : State) : (blockReport b rep s).ring = s.ring := by
  have hj : ∀ (s : State), (judgeCompliance b rep s).ring = s.ring := by
    intro s; unfold judgeCompliance
    cases s.gov.plant with
    | none => rfl
    | some p =>
      dsimp only
      repeat' split
      all_goals first | rfl | (rw [raise_ring]; rfl)
  unfold blockReport; split
  · rfl
  · dsimp only; split
    · unfold currentReport; split <;> simp [hj]
    · rfl

theorem putAlerts_ring (c q) (s : State) : (putAlerts c q s).ring = s.ring := by
  unfold putAlerts followLevel; split <;> simp

theorem alertIntake_ring (n c d) (s : State) : (alertIntake n c d s).ring = s.ring := by
  have hs : ∀ (a) (s : State), (storeAlert a s).ring = s.ring := by
    intro a s; unfold storeAlert; dsimp only; split <;> simp [putAlerts_ring]
  unfold alertIntake; dsimp only; rw [hs]
  split
  · unfold blockAlert; split <;> simp
  · rfl

theorem storageReport_ring (rep) (s : State) : (storageReport rep s).ring = s.ring := by
  unfold storageReport judgeStorage storageOwed; dsimp only
  repeat' split
  all_goals simp

theorem applyPacket_ring (bs) (s : State) : (applyPacket bs s).ring = s.ring := by
  unfold applyPacket applyReport; dsimp only
  split
  · split
    · split
      · exact blockReport_ring _ _ _
      · rfl
    · split
      · exact storageReport_ring _ _
      · rfl
  · split
    · exact alertIntake_ring _ _ _ _
    · rfl

/-- A raise after a change of the Block Table alone. -/
theorem raise_onTable (c : Condition) (s v : State) (h : v = { s with table := v.table }) :
    OnlyRaised c { s with table := (raise c v).table } (raise c v) ∧ (raise c v).table = v.table := by
  have ht : (raise c v).table = v.table := by simp
  refine ⟨?_, ht⟩
  show raise c v = raise c _
  rw [ht, ← h]

/-- R22: the judgement of a CAPPED record by a current report. -/
theorem judgeCompliance_taken (b : BlockIx) (rep : BlockReport) (s v : State) (hs : (v.block b).state = .capped) (hv : v
    = { s with table := v.table })
    (hx : OthersKept b s v) (hr : v.table.rotation = s.table.rotation) :
    ComplianceTaken b rep v.table.capped (v.block b) s (judgeCompliance b rep v) := by
  have hg : v.gov = s.gov := by rw [hv]
  have key : ∀ (f : BlockRecord → BlockRecord), (f (v.block b)).state ≠ .free → OthersKept b s (modifyBlock b f v)
      ∧ (modifyBlock b f v).table.rotation = s.table.rotation := by
    intro f hf
    refine ⟨⟨fun x hn => (modifyBlock_block_ne _ _ _ _ hn).trans (hx.1 x hn), hx.2⟩, ?_⟩
    show relist .free (v.block b).state (f (v.block b)).state b v.table.rotation = _
    rw [hs]; unfold relist; rw [if_neg (by decide), if_neg hf, hr]
  have hmv (f) : modifyBlock b f v = { s with table := (modifyBlock b f v).table } := by
    rw [show modifyBlock b f v = { v with table := (modifyBlock b f v).table } from rfl]; dsimp only; rw [hv]
  have hcap (f : BlockRecord → BlockRecord) (h : (f (v.block b)).state = .capped) : (modifyBlock b f v).table.capped
      = v.table.capped := by
    show relist .capped (v.block b).state (f (v.block b)).state b v.table.capped = _
    rw [h, hs, relist_same]
  refine ⟨?_, ?_, fun hl => ?_, fun p l f late hp hl hf hlate => ?_⟩
  · unfold judgeCompliance
    split
    · exact hx
    · dsimp only
      split
      · split
        · split
          · unfold OthersKept State.block
            rw [raise_table]
            exact (key _ (by unfold BlockRecord.barredNoFollow BlockRecord.bump; simp)).1
          · exact (key (fun r => { r with nonFollowRun := r.nonFollowRun + 1 })
                (by rw [show _ = (v.block b).state from rfl, hs]; decide)).1
        · exact (key (fun r => { r with nonFollowRun := 0 }) (by rw [show _ = (v.block b).state from rfl, hs]; decide)).1
      · exact hx
  · unfold judgeCompliance
    split
    · exact hr
    · dsimp only
      split
      · split
        · split
          · rw [raise_table]; exact (key _ (by unfold BlockRecord.barredNoFollow BlockRecord.bump; simp)).2
          · exact (key (fun r => { r with nonFollowRun := r.nonFollowRun + 1 })
                (by rw [show _ = (v.block b).state from rfl, hs]; decide)).2
        · exact (key (fun r => { r with nonFollowRun := 0 }) (by rw [show _ = (v.block b).state from rfl, hs]; decide)).2
      · exact hr
  · have hj : (v.block b).judged v.gov rep = false := by
      unfold BlockRecord.judged; rw [hl]; rcases v.gov.plant <;> rfl
    have E : judgeCompliance b rep v = v := by
      unfold judgeCompliance; split
      · rfl
      · simp [hj]
    rw [E]; exact ⟨rfl, rfl, hv⟩
  · have hj : (v.block b).judged v.gov rep = late := by
      unfold BlockRecord.judged; rw [hg, hp, hl, hf, hlate]
    refine ⟨fun a => ?_, fun c m a hc hm => ?_⟩
    · have E : judgeCompliance b rep v = v := by
        unfold judgeCompliance; split
        · rfl
        · simp [hj, a]
      rw [E]; exact ⟨rfl, rfl, hv⟩
    have he : (v.block b).exceeds p.tolerance = decide (c + p.tolerance < m) := by
      unfold BlockRecord.exceeds; rw [hm, hc]; rfl
    have E : judgeCompliance b rep v =
        if c + p.tolerance < m then
          (if p.nonFollowLimit ≤ (v.block b).nonFollowRun + 1 then raise .blockNoFollow (modifyBlock b
              (BlockRecord.barredNoFollow ((v.block b).nonFollowRun + 1)) v)
           else modifyBlock b (fun r => { r with nonFollowRun := r.nonFollowRun + 1 }) v)
        else modifyBlock b (fun r => { r with nonFollowRun := 0 }) v := by
      unfold judgeCompliance; rw [hg, hp]; dsimp only; rw [← hg, hj, hs, he, a]
      by_cases b : c + p.tolerance < m <;> simp [b]
    rw [E]
    refine ⟨fun d => ?_, fun d e => ?_, fun d e => ?_⟩
    · rw [if_neg (by omega)]
      exact ⟨modifyBlock_block_self _ _ _, hcap _ hs, hmv _⟩
    · rw [if_pos d, if_neg (by omega)]
      exact ⟨modifyBlock_block_self _ _ _, hcap _ hs, hmv _⟩
    · rw [if_pos d, if_pos e]
      obtain ⟨h1, h2⟩ := raise_onTable .blockNoFollow s (modifyBlock b (BlockRecord.barredNoFollow
          ((v.block b).nonFollowRun + 1)) v) (hmv _)
      refine ⟨?_, ?_, h1⟩
      · exact (congrArg (fun t : BlockTable => t.blocks[b]) h2).trans (modifyBlock_block_self _ _ _)
      · rw [h2]; show relist .capped (v.block b).state _ b v.table.capped = _
        rw [hs]; rfl

end Sys2Proof.Machine
end

