-- ==== Sys2Proof/Laws/Layout.lean ====
section
/-! SUPPORT. The fields that the serializers of reply data write (12.4, R190), said once for each. -/

namespace Sys2Proof.Machine

theorem absentBytes_length (n : Nat) : (absentBytes n).length = n := List.length_replicate

/-- Fields follow one another. -/
theorem Fields.append {a b : List Byte} {fs gs : List (Nat × Option Nat)} (h1 : Fields a fs) (h2 : Fields b gs) :
    Fields (a ++ b) (fs ++ gs) := by
  induction fs generalizing a with
  | nil =>
    rw [show a = [] from h1]
    exact h2
  | cons f fs ih =>
    obtain ⟨n, v⟩ := f
    obtain ⟨h3, h4, h5, h6⟩ := h1
    have ht : (a ++ b).take n = a.take n := List.take_append_of_le_length h3
    have hd : (a ++ b).drop n = a.drop n ++ b := List.drop_append_of_le_length h3
    refine ⟨by rw [List.length_append]; omega, fun x hx => ?_, fun hv => ?_, ?_⟩
    · rw [ht]; exact h4 x hx
    · rw [ht]; exact h5 hv
    · rw [hd]; exact ih h6

theorem Fields.cons {a b : List Byte} {f : Nat × Option Nat} {fs : List (Nat × Option Nat)} (h1 : Fields a [f]) (h2 : Fields b fs) :
    Fields (a ++ b) (f :: fs) :=
  h1.append h2

/-- One field, present. -/
theorem fields_present {a : List Byte} {n x : Nat} (hl : a.length = n) (hx : leNat a = x % 256 ^ n) : Fields a [(n, some x)] := by
  subst hl
  refine ⟨Nat.le_refl _, fun y hy => ?_, fun h => absurd h (by simp), List.drop_length⟩
  cases hy
  rw [List.take_length]
  exact hx

/-- One field, absent. -/
theorem fields_none (n : Nat) : Fields (absentBytes n) [(n, none)] := by
  have hl := absentBytes_length n
  refine ⟨by omega, fun y hy => absurd hy (by simp), fun _ => ?_, ?_⟩
  · rw [List.take_of_length_le (by omega)]
    rfl
  · exact List.drop_eq_nil_of_le (by omega)

/-- A record absent as a whole is each of its fields absent. -/
theorem fields_absent (widths : List Nat) : Fields (absentBytes widths.sum) (widths.map fun n => (n, none)) := by
  induction widths with
  | nil => rfl
  | cons n widths ih =>
    have h := (fields_none n).append ih
    unfold absentBytes at *
    rw [List.replicate_append_replicate] at h
    exact h

theorem fields_le (n x : Nat) : Fields (leBytes n x) [(n, some x)] :=
  fields_present (leBytes_length n x) (leNat_leBytes n x)

theorem fields_opt (n : Nat) (o : Option Nat) : Fields (optBytes n o) [(n, o)] := by
  cases o with
  | none => exact fields_none n
  | some x => exact fields_le n x

theorem fields_byte (c : Nat) : Fields [BitVec.ofNat 8 c] [(1, some c)] := fields_le 1 c

theorem fields_code (o : Option Nat) : Fields (codeByte o) [(1, o)] := by
  cases o with
  | none => exact fields_none 1
  | some c => exact fields_byte c

theorem fields_flag (b : Bool) : Fields (flagByte b) [flagField b] := by
  cases b <;> exact fields_present rfl rfl

theorem fields_epoch4 (e : Epoch) : Fields (epochBytes e) [(4, some e.toNat)] := fields_le 4 e.toNat

/-- A field widened by a zero byte. -/
theorem leNat_zero_byte (a : List Byte) : leNat (a ++ [0#8]) = leNat a := by
  induction a with
  | nil => rfl
  | cons b a ih => rw [List.cons_append, leNat, leNat, ih]

theorem fields_epoch (e : Option Epoch) : Fields (optEpochBytes e) [epochField e] := by
  cases e with
  | none => exact fields_none 5
  | some e =>
    refine fields_present (show (epochBytes e ++ [0#8]).length = 5 by rw [List.length_append, epochBytes_length]; rfl) ?_
    show leNat (leBytes 4 e.toNat ++ [0#8]) = _
    rw [leNat_zero_byte, leNat_leBytes]
    have := e.isLt
    omega

theorem toNat_ofInt32 (v : Int) : (BitVec.ofInt 32 v).toNat = (v % 2 ^ 32).toNat := by
  rw [BitVec.toNat_ofInt]
  rfl

theorem fields_int (v : Int) : Fields (intBytes v) [(4, some (v % 2 ^ 32).toNat)] := by
  unfold intBytes
  rw [toNat_ofInt32]
  exact fields_le 4 _

theorem fields_power (v : Option Int) : Fields (optIntBytes v) [powerField v] := by
  cases v with
  | none => exact fields_none 5
  | some v =>
    refine fields_present (show (intBytes v ++ [0#8]).length = 5 by rw [List.length_append, intBytes, leBytes_length]; rfl) ?_
    show leNat (leBytes 4 (BitVec.ofInt 32 v).toNat ++ [0#8]) = _
    rw [leNat_zero_byte, leNat_leBytes, toNat_ofInt32]
    have : (v % 2 ^ 32).toNat < 2 ^ 32 := by omega
    dsimp only
    omega

theorem fields_flatMap {α : Type} (f : α → List Byte) (g : α → List (Nat × Option Nat)) (h : ∀ a, Fields (f a) (g a)) (l : List α) :
    Fields (l.flatMap f) (l.flatMap g) := by
  induction l with
  | nil => rfl
  | cons a l ih => exact (h a).append ih

/-- Bytes of a request, each a field. -/
theorem fields_bytes (l : List Byte) : Fields l (l.map byteField) := by
  induction l with
  | nil => rfl
  | cons b l ih =>
    refine Fields.cons (a := [b]) (fields_present rfl ?_) ih
    have := b.isLt
    simp [leNat]
    omega

theorem fields_half (h : Half) : Fields (halfBytes h) [halfField h] := fields_le 2 _

theorem fields_word (w : Word) : Fields (wordBytes w) [wordField w] := fields_le 4 _

theorem holdBody_fields (h : HoldBody) : Fields (holdBytes h) (holdBodyFields h) :=
  (fields_bytes [h.enabled, h.mode, h.action]).append (fields_word _)

theorem hold_fields (h : HoldConfig) : Fields (holdConfigBytes h) (holdFields h) :=
  (((fields_flag _).append (fields_code _)).append (fields_code _)).append (fields_le 4 _)

theorem plant_fields (p : Option PlantRecord) : Fields (plantRecordBytes p) (plantFields p) := by
  cases p with
  | none => exact fields_none 40
  | some p =>
    exact (((((((((((((((fields_le 2 _).append (fields_le 2 _)).append (fields_le 2 _)).append (fields_le 4 _)).append
      (fields_le 4 _)).append (fields_le 2 _)).append (fields_le 1 _)).append (fields_le 1 _)).append (fields_le 2 _)).append
      (fields_le 1 _)).append (fields_flag _)).append (fields_le 2 _)).append (fields_le 2 _)).append (hold_fields _)).append
      (hold_fields _))

theorem group_fields (g : GroupRecord) : Fields (groupRecordBytes g) (groupFields g) :=
  (((((fields_le 1 _).append (fields_le 1 _)).append (fields_le 2 _)).append (fields_le 2 _)).append (fields_le 2 _)).append
    (fields_le 1 _)

theorem supply_fields (f : Option SupplyFigures) : Fields (supplyBytes f) (supplyFields f) := by
  cases f with
  | none => exact fields_absent [4, 4, 4, 4, 4, 4, 4]
  | some f =>
    exact ((((((fields_le 4 _).append (fields_le 4 _)).append (fields_le 4 _)).append (fields_le 4 _)).append
      (fields_le 4 _)).append (fields_opt 4 _)).append (fields_le 4 _)

theorem planPart_fields (f : Option PlanFigures) :
    Fields (planBytes f) [powerField (f.map (·.command)), (4, f.map (·.curtailment)), (4, f.map (·.placed))] := by
  cases f with
  | none => exact fields_absent [5, 4, 4]
  | some f => exact ((fields_power _).append (fields_le 4 _)).append (fields_le 4 _)

theorem holdOf_fields (h : Hold) : Fields (holdBytesOf h) [(1, some h.code), (4, h.value)] :=
  (fields_code _).append (fields_opt 4 _)

theorem status_fields (r : Option PlantStatus) : Fields (statusBytes r) (statusFields r) := by
  cases r with
  | none => exact fields_none 82
  | some r =>
    unfold statusBytes statusFields
    simp only [List.append_assoc, List.cons_append, List.nil_append]
    refine (fields_epoch _).cons ((fields_code _).cons ((fields_le 4 _).cons ((fields_code _).cons ((fields_le 2 _).cons
      ((fields_le 4 _).cons ((fields_le 4 _).cons ((fields_le 4 _).cons ((fields_le 4 _).cons
        ((supply_fields _).append ((fields_code _).cons ((holdOf_fields _).append ((planPart_fields _).append ?_))))))))))))
    exact (fields_le 1 _).cons ((fields_le 1 _).cons ((fields_le 1 _).cons ((fields_flag _).cons ((fields_le 1 _).cons
      (fields_le 1 _)))))

/-- What is written is as long as its fields. -/
theorem Fields.length {bs : List Byte} {fs : List (Nat × Option Nat)} (h : Fields bs fs) : bs.length = (fs.map (·.1)).sum := by
  induction fs generalizing bs with
  | nil =>
    rw [show bs = [] from h]
    rfl
  | cons f fs ih =>
    obtain ⟨n, v⟩ := f
    obtain ⟨h1, -, -, h4⟩ := h
    have := ih h4
    rw [List.length_drop] at this
    rw [List.map_cons, List.sum_cons]
    omega

/-! ## Widths -/

theorem plantFields_width (p : Option PlantRecord) : ((plantFields p).map (·.1)).sum = 40 := by
  cases p <;> simp [plantFields, holdFields, flagField]

theorem groupFields_width (l : List GroupRecord) : ((l.flatMap groupFields).map (·.1)).sum = 9 * l.length := by
  induction l with
  | nil => rfl
  | cons g l ih =>
    rw [List.flatMap_cons, List.map_append, List.sum_append, ih, List.length_cons]
    simp [groupFields]
    omega

theorem statusFields_width (r : Option PlantStatus) : ((statusFields r).map (·.1)).sum = 82 := by
  cases r <;> simp [statusFields, supplyFields, epochField, powerField, flagField]

theorem arrivalFields_width (l : List (Option (BlockIx × Epoch))) : ((l.flatMap arrivalFields).map (·.1)).sum = 6 * l.length := by
  induction l with
  | nil => rfl
  | cons a l ih =>
    rw [List.flatMap_cons, List.map_append, List.sum_append, ih, List.length_cons]
    simp [arrivalFields, epochField]
    omega

/-- Fields of one byte each. -/
theorem ones_width (l : List (Option Nat)) : ((l.map fun v => (1, v)).map (·.1)).sum = l.length := by
  induction l with
  | nil => rfl
  | cons a l ih =>
    rw [List.map_cons, List.map_cons, List.sum_cons, ih, List.length_cons]
    omega

/-! ## The staged-pending marker (R35, 12.4) -/

/-- A number written bit by bit, least significant first. -/
def bitsNat : List Bool → Nat
  | [] => 0
  | b :: bs => b.toNat + 2 * bitsNat bs

theorem bitsNat_testBit (bs : List Bool) (i : Nat) : (bitsNat bs).testBit i = bs.getD i false := by
  induction bs generalizing i with
  | nil => simp [bitsNat]
  | cons b bs ih =>
    cases i with
    | zero => cases b <;> simp [bitsNat, Nat.testBit_zero]
    | succ i =>
      rw [Nat.testBit_succ, show bitsNat (b :: bs) / 2 = bitsNat bs by cases b <;> (simp [bitsNat]; try omega), ih]
      rfl

theorem bitsNat_lt (bs : List Bool) : bitsNat bs < 2 ^ bs.length := by
  induction bs with
  | nil => decide
  | cons b bs ih =>
    have := b.toNat_le
    rw [List.length_cons, Nat.pow_succ, bitsNat]
    omega

theorem stagedMarker_bits (st : SettingsStore) :
    stagedMarker st = bitsNat (st.plant.isSome :: (List.finRange 8).map fun g : GroupIx => (st.groups[g]).isSome) := by
  unfold stagedMarker
  have h (b : Bool) (n : Nat) : (if b = true then n else 0) = b.toNat * n := by cases b <;> simp
  simp only [h, List.finRange, List.ofFn, Fin.foldr, Fin.foldr.loop, List.map_cons, List.map_nil, List.sum_cons, List.sum_nil, bitsNat,
    Nat.reduceAdd, Nat.reducePow]
  ring

end Sys2Proof.Machine
end

