-- ==== Sys2Proof/Laws/PerInstr.lean ====
section
/-! SUPPORT. The family Wire: a well-formed command that is a request fits a host frame, under a kind of the request index. -/

namespace Sys2Proof.Laws

open Sys2Proof.Machine

/-- A request's body fits a frame, and its kind is one of 12.2. -/
def Wire.Statement (i : Instr) : Prop :=
  ∀ (order : EpochOrder) (tag : Byte) (r : Request), i = r.row order tag → i.wellFormed = true →
    r.body.length ≤ 250 ∧ 1 ≤ r.kind.toNat ∧ r.kind.toNat ≤ 0x24

theorem wire_all (i : Instr) : Wire.Statement i := by
  intro order tag r h hw
  subst h
  refine ⟨?_, by cases r <;> simp [Request.kind], by cases r <;> simp [Request.kind]⟩
  cases r
  case leadsAdd entries =>
    simp only [Request.row, Instr.wellFormed, wfLeads, Bool.and_eq_true, decide_eq_true_eq] at hw
    simp only [Request.body, leads_length]
    omega
  case loadRing ids =>
    simp only [Request.row, Instr.wellFormed, wfNodes, decide_eq_true_eq] at hw
    simp only [Request.body]
    omega
  all_goals
    simp [Request.body, leBytes_length, halfBytes, wordBytes, plantBytes, holdBytes, groupBytes, stationBytes]

theorem Wire.enroll (tag block : Byte) (rated : Half) (group : Byte) : Wire.Statement (.enroll tag block rated group) := wire_all _
theorem Wire.profile (tag block : Byte) (rated : Half) (group : Byte) : Wire.Statement (.profile tag block rated group) := wire_all _
theorem Wire.withdraw (tag block : Byte) : Wire.Statement (.withdraw tag block) := wire_all _
theorem Wire.pin (tag block : Byte) (cap : Half) : Wire.Statement (.pin tag block cap) := wire_all _
theorem Wire.unpin (tag block : Byte) : Wire.Statement (.unpin tag block) := wire_all _
theorem Wire.bar (tag block : Byte) : Wire.Statement (.bar tag block) := wire_all _
theorem Wire.unbar (tag block : Byte) : Wire.Statement (.unbar tag block) := wire_all _
theorem Wire.readBlock (tag block : Byte) : Wire.Statement (.readBlock tag block) := wire_all _
theorem Wire.setPlant (tag : Byte) (body : PlantBody) : Wire.Statement (.setPlant tag body) := wire_all _
theorem Wire.setGroup (tag group : Byte) (body : GroupBody) : Wire.Statement (.setGroup tag group body) := wire_all _
theorem Wire.readSettings (tag : Byte) : Wire.Statement (.readSettings tag) := wire_all _
theorem Wire.setEpoch (tag source : Byte) (period : Half) (divisor : Byte) : Wire.Statement (.setEpoch tag source period divisor) := wire_all _
theorem Wire.start (tag trigger : Byte) (order : EpochOrder) : Wire.Statement (.start tag trigger order) := wire_all _
theorem Wire.stop (tag option : Byte) : Wire.Statement (.stop tag option) := wire_all _
theorem Wire.clearHold (tag line : Byte) : Wire.Statement (.clearHold tag line) := wire_all _
theorem Wire.setSensor (tag : Byte) (period : Half) (enable : Byte) : Wire.Statement (.setSensor tag period enable) := wire_all _
theorem Wire.loadStation (tag station : Byte) (body : StationBody) : Wire.Statement (.loadStation tag station body) := wire_all _
theorem Wire.readStation (tag station : Byte) : Wire.Statement (.readStation tag station) := wire_all _
theorem Wire.leadsBegin (tag : Byte) : Wire.Statement (.leadsBegin tag) := wire_all _
theorem Wire.leadsAdd (tag : Byte) (entries : List LeadBody) : Wire.Statement (.leadsAdd tag entries) := wire_all _
theorem Wire.leadsCommit (tag : Byte) : Wire.Statement (.leadsCommit tag) := wire_all _
theorem Wire.flushWarnings (tag : Byte) : Wire.Statement (.flushWarnings tag) := wire_all _
theorem Wire.readWarning (tag index : Byte) : Wire.Statement (.readWarning tag index) := wire_all _
theorem Wire.readPlant (tag : Byte) : Wire.Statement (.readPlant tag) := wire_all _
theorem Wire.readNodes (tag : Byte) : Wire.Statement (.readNodes tag) := wire_all _
theorem Wire.probeRing (tag : Byte) : Wire.Statement (.probeRing tag) := wire_all _
theorem Wire.loadRing (tag : Byte) (ids : List Byte) : Wire.Statement (.loadRing tag ids) := wire_all _
theorem Wire.readRing (tag : Byte) : Wire.Statement (.readRing tag) := wire_all _
theorem Wire.alertTake (tag cls : Byte) : Wire.Statement (.alertTake tag cls) := wire_all _
theorem Wire.alertPeek (tag cls index : Byte) : Wire.Statement (.alertPeek tag cls index) := wire_all _
theorem Wire.alertFlush (tag cls : Byte) : Wire.Statement (.alertFlush tag cls) := wire_all _
theorem Wire.readConditions (tag : Byte) : Wire.Statement (.readConditions tag) := wire_all _
theorem Wire.clearConditions (tag : Byte) (named : Word) : Wire.Statement (.clearConditions tag named) := wire_all _
theorem Wire.setNoticeMask (tag : Byte) (mask : Word) : Wire.Statement (.setNoticeMask tag mask) := wire_all _
theorem Wire.noticeRearm (tag : Byte) : Wire.Statement (.noticeRearm tag) := wire_all _
theorem Wire.reset (tag : Byte) : Wire.Statement (.reset tag) := wire_all _
theorem Wire.hostFrameComplete (frame : RxFrame) (order : EpochOrder) : Wire.Statement (.hostFrameComplete frame order) := wire_all _
theorem Wire.hostFrameGapTimeout : Wire.Statement .hostFrameGapTimeout := wire_all _
theorem Wire.heldRequestTaken (order : EpochOrder) : Wire.Statement (.heldRequestTaken order) := wire_all _
theorem Wire.hostFrameSent : Wire.Statement .hostFrameSent := wire_all _
theorem Wire.resetReplySent (straps : Straps) : Wire.Statement (.resetReplySent straps) := wire_all _
theorem Wire.resetNAsserted : Wire.Statement .resetNAsserted := wire_all _
theorem Wire.resetNReleased (straps : Straps) : Wire.Statement (.resetNReleased straps) := wire_all _
theorem Wire.internalPeriodExpiry (order : EpochOrder) : Wire.Statement (.internalPeriodExpiry order) := wire_all _
theorem Wire.epochInEdge (since : Time) (order : EpochOrder) : Wire.Statement (.epochInEdge since order) := wire_all _
theorem Wire.epochStall : Wire.Statement .epochStall := wire_all _
theorem Wire.startInEdge (order : EpochOrder) : Wire.Statement (.startInEdge order) := wire_all _
theorem Wire.holdLineAsserted (line : HoldLine) : Wire.Statement (.holdLineAsserted line) := wire_all _
theorem Wire.holdLineInactive (line : HoldLine) : Wire.Statement (.holdLineInactive line) := wire_all _
theorem Wire.dispatchComputingEnd : Wire.Statement .dispatchComputingEnd := wire_all _
theorem Wire.stagingResumed : Wire.Statement .stagingResumed := wire_all _
theorem Wire.sensorFrameSync (frameFirst : Bool) (order : EpochOrder) : Wire.Statement (.sensorFrameSync frameFirst order) := wire_all _
theorem Wire.sensorFrameFull (word : Half) : Wire.Statement (.sensorFrameFull word) := wire_all _
theorem Wire.sensorLoss : Wire.Statement .sensorLoss := wire_all _
theorem Wire.ringSignalLoss : Wire.Statement .ringSignalLoss := wire_all _
theorem Wire.ringSignalPresent : Wire.Statement .ringSignalPresent := wire_all _
theorem Wire.ringSettled : Wire.Statement .ringSettled := wire_all _
theorem Wire.probeWindowExpiry : Wire.Statement .probeWindowExpiry := wire_all _
theorem Wire.probeRetryExpiry : Wire.Statement .probeRetryExpiry := wire_all _
theorem Wire.ringPacketReceived (bytes : List Byte) : Wire.Statement (.ringPacketReceived bytes) := wire_all _
theorem Wire.outPortFree : Wire.Statement .outPortFree := wire_all _
theorem Wire.hostByteReceived (byte : Byte) (stopBit : Bool) (order : EpochOrder) : Wire.Statement (.hostByteReceived byte stopBit order) := wire_all _
theorem Wire.sensorWordReceived (word : Half) : Wire.Statement (.sensorWordReceived word) := wire_all _

end Sys2Proof.Laws
end

