-- ==== Sys2Proof/Laws/Placing.lean ====
section
/-! SUPPORT. The staged lead map under LEADS_ADD, and the shares of a placed curtailment. -/

namespace Sys2Proof.Machine

/-- R79: the entry a body in range stands for. -/
theorem checkLead_of {e : LeadBody} {x : LeadEntry} (h : (e.station.toNat, e.block.toNat, e.lead.toNat) = (x.station.val + 1,
    x.block.val + 1, x.lead)) (hl : 1 ≤ x.lead) : checkLead e = some x := by
  simp only [Prod.mk.injEq] at h
  unfold checkLead; rw [stationOf_id h.1, blockOf_id h.2.1]; dsimp only; rw [if_pos (by omega)]; cases x; simp [h.2.2]

/-- R79, step 1: new pairs are appended, and a held pair refuses the whole. -/
theorem appendLeads_new (entries : List LeadBody) : ∀ (st new : List LeadEntry), entries.map (fun e => (e.station.toNat,
    e.block.toNat, e.lead.toNat))
          = new.map (fun x => (x.station.val + 1, x.block.val + 1, x.lead)) → (∀ x ∈ new, 1 ≤ x.lead) →
   (((∀ x ∈ new, ∀ y ∈ st, x.samePair y = false) ∧ new.Pairwise (fun x y => y.samePair x = false)) → appendLeads st entries
       = some (st ++ new))
   ∧ (¬((∀ x ∈ new, ∀ y ∈ st, x.samePair y = false) ∧ new.Pairwise (fun x y => y.samePair x = false)) → appendLeads st entries
       = none) := by
  induction entries with
  | nil => intro st new h _; cases new with
    | nil => simp [appendLeads]
    | cons => simp at h
  | cons e rest ih =>
    intro st new h hl
    cases new with
    | nil => simp at h
    | cons x new =>
      simp only [List.map_cons, List.cons.injEq] at h
      have hc := checkLead_of h.1 (hl x (List.mem_cons_self ..))
      have ih := ih (st ++ [x]) new h.2 (fun y hy => hl y (List.mem_cons_of_mem _ hy))
      unfold appendLeads; rw [hc]; dsimp only
      by_cases ha : st.any x.samePair = true
      · rw [if_pos ha]
        refine ⟨fun ⟨h1, _⟩ => ?_, fun _ => rfl⟩
        obtain ⟨y, hy, h'⟩ := List.any_eq_true.1 ha
        rw [h1 x (List.mem_cons_self ..) y hy] at h'; cases h'
      · rw [if_neg ha]
        have hnx : ∀ y ∈ st, x.samePair y = false := by
          intro y hy; by_contra hc; exact ha (List.any_eq_true.2 ⟨y, hy, by simpa using hc⟩)
        have key : ((∀ z ∈ x :: new, ∀ y ∈ st, z.samePair y = false) ∧ (x :: new).Pairwise (fun x y => y.samePair x = false)) ↔
            ((∀ z ∈ new, ∀ y ∈ st ++ [x], z.samePair y = false) ∧ new.Pairwise (fun x y => y.samePair x = false)) := by
          simp only [List.pairwise_cons, List.mem_cons, List.mem_append]
          constructor
          · rintro ⟨h1, h2, h3⟩
            refine ⟨fun z hz y hy => ?_, h3⟩
            rcases hy with hy | hy | hy
            · exact h1 z (.inr hz) y hy
            · subst hy; exact h2 z hz
            · cases hy
          · rintro ⟨h1, h2⟩
            refine ⟨fun z hz y hy => ?_, fun z hz => h1 z hz x (.inr (.inl rfl)), h2⟩
            rcases hz with hz | hz
            · subst hz; exact hnx y hy
            · exact h1 z hz y (.inl hy)
        rw [key]
        refine ⟨fun h => by rw [ih.1 h]; simp, ih.2⟩

/-- R79, step 1: one entry out of range refuses the whole. -/
theorem appendLeads_bad (entries : List LeadBody) (e) (he : e ∈ entries) (hb : checkLead e = none) : ∀ st,
    appendLeads st entries = none := by
  induction entries with
  | nil => cases he
  | cons a rest ih =>
    intro st; unfold appendLeads
    by_cases h : a = e
    · subst h; rw [hb]
    · have := ih (List.mem_of_ne_of_mem (fun h' => h h'.symm) he)
      split
      · rename_i x _; split; rfl; exact this _
      · rfl

/-- R121: handing out keeps the members and their order. -/
theorem handOut_fst (r : Nat) (l) : (handOut r l).map (·.1) = l.map (·.1) := by
  induction l generalizing r with
  | nil => cases r <;> rfl
  | cons a l ih => 
    cases r with
    | zero => rfl
    | succ r => obtain ⟨b, sh⟩ := a; unfold handOut; split <;> simp [ih]

/-- R121: no share exceeds its capacity. -/
theorem handOut_le (r : Nat) (l) (h : ∀ m ∈ l, m.2 ≤ m.1.capacity) : ∀ m ∈ handOut r l, m.2 ≤ m.1.capacity := by
  induction l generalizing r with
  | nil => cases r <;> exact h
  | cons a l ih =>
    cases r with
    | zero => exact h
    | succ r =>
      obtain ⟨b, sh⟩ := a; unfold handOut
      have hl := fun m hm => h m (List.mem_cons_of_mem _ hm)
      split
      · intro m hm; rcases List.mem_cons.1 hm with hm | hm
        · subst hm; dsimp only; omega
        · exact ih _ hl m hm
      · intro m hm; rcases List.mem_cons.1 hm with hm | hm
        · subst hm; exact h _ (List.mem_cons_self ..)
        · exact ih _ hl m hm

/-- R121: one pass hands out all that is left. -/
theorem handOut_sum (r : Nat) (l) (h : r ≤ (l.filter fun m : SnapBlock × Nat => m.2 < m.1.capacity).length) :
    ((handOut r l).map (·.2)).sum = (l.map (·.2)).sum + r := by
  induction l generalizing r with
  | nil => cases r with
    | zero => rfl
    | succ r => simp at h
  | cons a l ih =>
    cases r with
    | zero => simp [handOut]
    | succ r =>
      obtain ⟨b, sh⟩ := a; unfold handOut
      split
      · rename_i hlt
        rw [List.filter_cons_of_pos (by simpa using hlt)] at h
        simp only [List.length_cons] at h
        simp only [List.map_cons, List.sum_cons, ih r (by omega)]; omega
      · rename_i hlt
        rw [List.filter_cons_of_neg (by simpa using hlt)] at h
        simp only [List.map_cons, List.sum_cons, ih (r+1) h]; omega

/-- R121: of the remainder r, the first r members with room get 1 each. -/
theorem handOut_at (r : Nat) (before after : List (SnapBlock × Nat)) (b : SnapBlock) (share : Nat) :
    (handOut r (before ++ (b, share) :: after))[before.length]? = some (b,
      if share < b.capacity ∧ (before.filter fun m => decide (m.2 < m.1.capacity)).length < r then share + 1 else share) := by
  induction before generalizing r with
  | nil =>
    cases r with
    | zero => simp [handOut]
    | succ r =>
      rw [List.nil_append, handOut]
      by_cases h : share < b.capacity
      · rw [if_pos h, if_pos ⟨h, Nat.succ_pos r⟩]; rfl
      · rw [if_neg h, if_neg fun g => h g.1]; rfl
  | cons a before ih =>
    obtain ⟨x, n⟩ := a
    cases r with
    | zero => simp [handOut]
    | succ r =>
      rw [List.cons_append, handOut]
      by_cases h : n < x.capacity
      · rw [if_pos h, List.filter_cons_of_pos (by simpa using h), List.length_cons, List.length_cons, List.getElem?_cons_succ, ih r]
        simp only [Nat.add_lt_add_iff_right]
      · rw [if_neg h, List.filter_cons_of_neg (by simpa using h), List.length_cons, List.getElem?_cons_succ, ih (r + 1)]

end Sys2Proof.Machine
end

