-- ==== Sys2Proof/Laws/Planning.lean ====
section
/-! SUPPORT. What a dispatch computes on its snapshot: supply, glide ceiling, allocation and decision list. -/

namespace Sys2Proof.Machine

/-! ## Supply (R110) -/

theorem contributes (b : SnapBlock) : Contributes b (controllableOf b) (fixedOf b) := by
  unfold Contributes controllableOf fixedOf
  cases b.state <;> simp

/-! ## The glide ceiling (R112, R113) -/

theorem mem_laterArrivals (e : Epoch) (b : BlockIx) (w : Warning) (x : Nat × Nat) :
    x ∈ laterArrivals e b w ↔ ∃ a, NamedLater e b w a ∧ x = ((a - e).toNat, w.depth) := by
  unfold laterArrivals NamedLater laterThan epochsSince
  simp only [List.mem_map, List.mem_filter, Bool.and_eq_true, beq_iff_eq, bne_iff_ne]
  constructor
  · rintro ⟨⟨b', a⟩, ⟨h1, h2, h3⟩, rfl⟩
    exact ⟨a, ⟨h2 ▸ h1, h3⟩, rfl⟩
  · rintro ⟨a, ⟨h1, h3⟩, rfl⟩
    exact ⟨⟨b, a⟩, ⟨h1, rfl, h3⟩, rfl⟩

theorem foldl_least (l : List (Nat × Nat)) (m : Nat) :
    let r := l.foldl (fun m a => min m a.1) m
    r ≤ m ∧ (∀ x ∈ l, r ≤ x.1) ∧ (r = m ∨ ∃ x ∈ l, r = x.1) := by
  induction l generalizing m with
  | nil => exact ⟨Nat.le_refl _, fun x hx => absurd hx List.not_mem_nil, .inl rfl⟩
  | cons y l ih =>
    obtain ⟨h1, h2, h3⟩ := ih (min m y.1)
    refine ⟨by simp only [List.foldl_cons]; omega, fun x hx => ?_, ?_⟩
    · rcases List.mem_cons.1 hx with rfl | hx
      · simp only [List.foldl_cons]; omega
      · exact h2 x hx
    · rcases h3 with h3 | ⟨x, hx, h3⟩
      · by_cases hm : m ≤ y.1
        · exact .inl (h3.trans (by omega))
        · exact .inr ⟨y, List.mem_cons_self, h3.trans (by omega)⟩
      · exact .inr ⟨x, List.mem_cons_of_mem _ hx, h3⟩

theorem foldl_greatest (l : List (Nat × Nat)) (m : Nat) :
    let r := l.foldl (fun m a => max m a.2) m
    m ≤ r ∧ (∀ x ∈ l, x.2 ≤ r) ∧ (r = m ∨ ∃ x ∈ l, r = x.2) := by
  induction l generalizing m with
  | nil => exact ⟨Nat.le_refl _, fun x hx => absurd hx List.not_mem_nil, .inl rfl⟩
  | cons y l ih =>
    obtain ⟨h1, h2, h3⟩ := ih (max m y.2)
    refine ⟨by simp only [List.foldl_cons]; omega, fun x hx => ?_, ?_⟩
    · rcases List.mem_cons.1 hx with rfl | hx
      · simp only [List.foldl_cons]; omega
      · exact h2 x hx
    · rcases h3 with h3 | ⟨x, hx, h3⟩
      · by_cases hm : y.2 ≤ m
        · exact .inl (h3.trans (by omega))
        · exact .inr ⟨y, List.mem_cons_self, h3.trans (by omega)⟩
      · exact .inr ⟨x, List.mem_cons_of_mem _ hx, h3⟩

/-- R112: the shadow of a block. -/
theorem shadowOf_falls (e : Epoch) (ws : List Warning) (b : SnapBlock) (d l : Nat) :
    (shadowOf e ws b).map (fun x => (x.distance, x.loss)) = some (d, l)
      ↔ ShadowFalls e ws b.id (controllableOf b + fixedOf b) d l := by
  have hmem (x : Nat × Nat) : x ∈ ws.flatMap (laterArrivals e b.id)
      ↔ ∃ w ∈ ws, ∃ a, NamedLater e b.id w a ∧ x = ((a - e).toNat, w.depth) := by
    simp only [List.mem_flatMap, mem_laterArrivals]
  unfold shadowOf ShadowFalls
  rw [show contributionOf b = controllableOf b + fixedOf b from rfl]
  generalize controllableOf b + fixedOf b = c
  by_cases hc : c = 0
  · simp [hc]
  · rw [if_neg hc]
    generalize ws.flatMap (laterArrivals e b.id) = list at *
    cases list with
    | nil =>
      refine ⟨fun h => absurd h (by simp), ?_⟩
      rintro ⟨-, ⟨w, hw, a, ha, -⟩, -⟩
      exact absurd ((hmem _).2 ⟨w, hw, a, ha, rfl⟩) List.not_mem_nil
    | cons y rest =>
      obtain ⟨yd, yw⟩ := y
      obtain ⟨m1, m2, m3⟩ := foldl_least rest yd
      obtain ⟨g1, g2, g3⟩ := foldl_greatest rest yw
      dsimp only at *
      generalize rest.foldl (fun m a => min m a.1) yd = least at *
      generalize rest.foldl (fun m a => max m a.2) yw = greatest at *
      have hle : ∀ x ∈ (yd, yw) :: rest, least ≤ x.1 ∧ x.2 ≤ greatest := fun x hx => by
        rcases List.mem_cons.1 hx with rfl | hx
        · exact ⟨m1, g1⟩
        · exact ⟨m2 x hx, g2 x hx⟩
      have hl : ∃ x ∈ (yd, yw) :: rest, least = x.1 := by
        rcases m3 with h | ⟨x, hx, h⟩
        · exact ⟨_, List.mem_cons_self, h⟩
        · exact ⟨x, List.mem_cons_of_mem _ hx, h⟩
      have hg : ∃ x ∈ (yd, yw) :: rest, greatest = x.2 := by
        rcases g3 with h | ⟨x, hx, h⟩
        · exact ⟨_, List.mem_cons_self, h⟩
        · exact ⟨x, List.mem_cons_of_mem _ hx, h⟩
      obtain ⟨x1, hx1, e1⟩ := hl
      obtain ⟨x2, hx2, e2⟩ := hg
      obtain ⟨w1, hw1, a1, ha1, q1⟩ := (hmem x1).1 hx1
      obtain ⟨w2, hw2, a2, ha2, q2⟩ := (hmem x2).1 hx2
      rw [Option.map_some, Option.some_inj, Prod.mk.injEq]
      constructor
      · rintro ⟨rfl, rfl⟩
        refine ⟨hc, ⟨w1, hw1, a1, ha1, by rw [e1, q1]⟩, fun w hw a ha => (hle _ ((hmem _).2 ⟨w, hw, a, ha, rfl⟩)).1,
          greatest, ⟨w2, hw2, ⟨a2, ha2⟩, by rw [e2, q2]⟩, fun w hw ⟨a, ha⟩ => (hle _ ((hmem _).2 ⟨w, hw, a, ha, rfl⟩)).2, rfl⟩
      · rintro ⟨-, ⟨w, hw, a, ha, rfl⟩, hmin, depth, ⟨w', hw', ⟨a', ha'⟩, rfl⟩, hmax, rfl⟩
        refine ⟨?_, ?_⟩
        · have h1 := hmin w1 hw1 a1 ha1
          have h2 := (hle _ ((hmem _).2 ⟨w, hw, a, ha, rfl⟩)).1
          rw [e1, q1] at h2 ⊢
          dsimp only at h2 ⊢
          omega
        · have h1 := hmax w2 hw2 ⟨a2, ha2⟩
          have h2 := (hle _ ((hmem _).2 ⟨w', hw', a', ha', rfl⟩)).2
          rw [e2, q2] at h2 ⊢
          dsimp only at h2 ⊢
          rw [show w2.depth = w'.depth by omega]

/-- R113: the loss by a distance, over the shadows as pairs. -/
theorem lossWithin_pairs (a : Nat) (shadows : List Shadow) :
    lossWithin a shadows
      = (((shadows.map fun x => (x.distance, x.loss)).filter fun x => decide (x.1 ≤ a)).map (·.2)).sum := by
  unfold lossWithin
  rw [List.filter_map, List.map_map]
  rfl

/-- R110 to R113. -/
theorem supplyFigures_computed (p : PlantRecord) (o : Opened) (target : Nat) :
    SupplyComputed p.stepDown o (supplyFigures p o target) := by
  have hs : o.snapshot.blocks.filterMap (fun b => (shadowOf o.epoch o.snapshot.warnings b).map fun x => (x.distance, x.loss))
      = (o.snapshot.blocks.filterMap (shadowOf o.epoch o.snapshot.warnings)).map fun x => (x.distance, x.loss) :=
    List.map_filterMap.symm
  refine ⟨controllableOf, fixedOf, fun b => (shadowOf o.epoch o.snapshot.warnings b).map fun x => (x.distance, x.loss), _, _,
    contributes, rfl, rfl, rfl, rfl, rfl, fun b arrival loss => shadowOf_falls _ _ _ _ _, rfl, fun _ => rfl, ?_, fun ceiling h => ?_⟩
  · rw [hs, List.map_eq_nil_iff]
    unfold supplyFigures glideCeiling
    dsimp only
    rw [List.min?_eq_none_iff, List.map_eq_nil_iff]
  · simp only [hs, ← lossWithin_pairs]
    unfold supplyFigures glideCeiling at h ⊢
    dsimp only at h ⊢
    rw [List.min?_eq_some_iff] at h
    obtain ⟨h1, h2⟩ := h
    refine ⟨fun a l hm => ?_, ?_⟩
    · obtain ⟨x, hx, e⟩ := List.mem_map.1 hm
      cases e
      exact h2 _ (List.mem_map.2 ⟨x, hx, rfl⟩)
    · obtain ⟨x, hx, e⟩ := List.mem_map.1 h1
      exact ⟨x.distance, x.loss, List.mem_map.2 ⟨x, hx, rfl⟩, e.symm⟩

/-! ## Walks (R118 to R120) -/

theorem Walked.nil (test : List SnapBlock → SnapBlock → Prop) : Walked test [] [] [] :=
  ⟨[], rfl, rfl, rfl, fun before x m after h => absurd h (by cases before <;> simp)⟩

/-- One step of a walk. -/
theorem Walked.cons {test : List SnapBlock → SnapBlock → Prop} {b : SnapBlock} {l taken left : List SnapBlock} (m : Bool)
    (hm : m = true ↔ test [] b) (h : Walked (fun t x => test ((if m then [b] else []) ++ t) x) l taken left) :
    Walked test (b :: l) (if m then b :: taken else taken) (if m then left else b :: left) := by
  obtain ⟨marks, rfl, rfl, rfl, h4⟩ := h
  refine ⟨(b, m) :: marks, rfl, ?_, ?_, fun before x k after e => ?_⟩
  · cases m <;> rfl
  · cases m <;> rfl
  · cases before with
    | nil =>
      cases e
      exact hm
    | cons y before =>
      obtain ⟨hy, e2⟩ := List.cons.inj e
      subst hy
      rw [h4 before x k after e2]
      cases m <;> rfl

theorem Walked.congr {test test' : List SnapBlock → SnapBlock → Prop} {l taken left : List SnapBlock}
    (h : ∀ t x, test t x ↔ test' t x) (hw : Walked test l taken left) : Walked test' l taken left := by
  obtain ⟨marks, h1, h2, h3, h4⟩ := hw
  exact ⟨marks, h1, h2, h3, fun before x m after e => (h4 before x m after e).trans (h _ _)⟩

/-- A walk whose test does not look at the blocks taken before. -/
theorem walked_filter (p : SnapBlock → Bool) (test : SnapBlock → Prop) (h : ∀ b, p b = true ↔ test b) (l : List SnapBlock) :
    Walked (fun _ b => test b) l (l.filter p) (l.filter fun b => !p b) := by
  induction l with
  | nil => exact .nil _
  | cons b l ih =>
    have hw := Walked.cons (test := fun _ b => test b) (b := b) (p b) (h b) ih
    cases hb : p b
    · rw [hb] at hw
      simpa [hb] using hw
    · rw [hb] at hw
      simpa [hb] using hw

/-- A walk whose test nothing passes. -/
theorem walked_none {test : List SnapBlock → SnapBlock → Prop} (h : ∀ taken b, ¬test taken b) (l : List SnapBlock) :
    Walked test l [] l := by
  induction l generalizing test with
  | nil => exact .nil _
  | cons b l ih => exact Walked.cons false (iff_of_false (by decide) (h _ _)) (ih fun taken x => h _ x)

theorem agedAtLeast_iff (e : Epoch) (n : Nat) (since : Option Epoch) : agedAtLeast e n since = true ↔ AgedBy e n since := by
  unfold agedAtLeast AgedBy epochsSince
  cases since <;> simp

theorem forcedOut_iff (e : Epoch) (sn : Snapshot) (b : SnapBlock) :
    forcedOut e sn b = true ↔ ForcedOut e sn.groups[b.profile.group] b := by
  unfold forcedOut ForcedOut Snapshot.groupOf
  rw [Bool.and_eq_true, agedAtLeast_iff, bne_iff_ne]

theorem clearFor_iff (e : Epoch) (n : Nat) (last : Option Epoch) : clearFor e n last = true ↔ last = none ∨ AgedBy e n last := by
  unfold clearFor
  rw [Bool.or_eq_true, agedAtLeast_iff, Option.isNone_iff_eq_none]

theorem capturable_iff (e : Epoch) (sn : Snapshot) (taken : List SnapBlock) (groups : List GroupIx) (b : SnapBlock)
    (hg : ∀ g, g ∈ groups ↔ ∃ y ∈ taken, y.profile.group = g) :
    capturable e sn groups b = true ↔ Capturable e sn sn.groups[b.profile.group] taken b := by
  unfold capturable Capturable Snapshot.groupOf
  simp only [Bool.and_eq_true, clearFor_iff, decide_eq_true_eq, Bool.not_eq_true', List.contains_eq_mem, decide_eq_false_iff_not, hg,
    and_assoc]
  refine and_congr_left fun _ => ?_
  exact ⟨fun h y hy hg => h ⟨y, hy, hg⟩, fun h ⟨y, hy, hg⟩ => h y hy hg⟩

theorem capacitySum_cons (b : SnapBlock) (l : List SnapBlock) : capacitySum (b :: l) = b.capacity + capacitySum l := rfl

theorem capacitySum_append (k l : List SnapBlock) : capacitySum (k ++ l) = capacitySum k + capacitySum l := by
  unfold capacitySum
  rw [List.map_append, List.sum_append]

/-- R119: the walk of the rotation queue. -/
theorem captureWalk_walked (e : Epoch) (sn : Snapshot) (c s0 : Nat) (l done : List SnapBlock) (groups : List GroupIx)
    (hg : ∀ g, g ∈ groups ↔ ∃ y ∈ done, y.profile.group = g) :
    ∃ passed, Walked (fun taken b => s0 + capacitySum (done ++ taken) < c
        ∧ Capturable e sn sn.groups[b.profile.group] (done ++ taken) b) l
      (captureWalk e sn c (s0 + capacitySum done) groups l) passed := by
  induction l generalizing done groups with
  | nil => exact ⟨[], .nil _⟩
  | cons b l ih =>
    unfold captureWalk
    by_cases hc : c ≤ s0 + capacitySum done
    · rw [if_pos hc]
      refine ⟨_, walked_none (fun taken x h => ?_) _⟩
      have := h.1
      rw [capacitySum_append] at this
      omega
    · rw [if_neg hc]
      have hcap := capturable_iff e sn done groups b hg
      by_cases hb : capturable e sn groups b = true
      · rw [if_pos hb]
        obtain ⟨passed, hw⟩ := ih (done ++ [b]) (b.profile.group :: groups) fun g => by
          rw [List.mem_cons, hg]
          simp [or_comm, eq_comm]
        rw [capacitySum_append, capacitySum_cons, ← Nat.add_assoc] at hw
        refine ⟨passed, Walked.cons true ?_ ?_⟩
        · simp only [List.append_nil, true_iff]
          exact ⟨by omega, hcap.1 hb⟩
        · refine hw.congr fun t x => ?_
          simp
      · rw [if_neg hb]
        obtain ⟨passed, hw⟩ := ih done groups hg
        refine ⟨b :: passed, Walked.cons false ?_ ?_⟩
        · simp only [List.append_nil, Bool.false_eq_true, false_iff, not_and]
          exact fun _ h => hb (hcap.2 h)
        · exact hw

/-- R120: the walk of the voluntary releases. -/
theorem releaseWalk_walked (e : Epoch) (sn : Snapshot) (c s0 : Nat) (l done : List SnapBlock)
    (hs : capacitySum (done ++ l) ≤ s0) :
    Walked (fun taken b => AgedBy e sn.groups[b.profile.group].minCapped b.captureEpoch
        ∧ c + b.capacity + capacitySum (done ++ taken) ≤ s0) l
      (releaseWalk e sn c (s0 - capacitySum done) l).2 (releaseWalk e sn c (s0 - capacitySum done) l).1 := by
  induction l generalizing done with
  | nil => exact .nil _
  | cons b l ih =>
    have hsum := hs
    rw [capacitySum_append, capacitySum_cons] at hsum
    have hb : (agedAtLeast e (sn.groupOf b).minCapped b.captureEpoch && decide (c ≤ s0 - capacitySum done - b.capacity)) = true
        ↔ AgedBy e sn.groups[b.profile.group].minCapped b.captureEpoch ∧ c + b.capacity + capacitySum (done ++ []) ≤ s0 := by
      rw [Bool.and_eq_true, agedAtLeast_iff, decide_eq_true_eq, List.append_nil]
      refine and_congr_right fun _ => ?_
      omega
    unfold releaseWalk
    by_cases h : (agedAtLeast e (sn.groupOf b).minCapped b.captureEpoch && decide (c ≤ s0 - capacitySum done - b.capacity)) = true
    · rw [if_pos h]
      have hw := ih (done ++ [b]) (by simpa using hs)
      rw [capacitySum_append, capacitySum_cons, ← Nat.sub_sub] at hw
      exact Walked.cons true (by simpa only [true_iff] using hb.1 h) (hw.congr fun t x => by simp)
    · rw [if_neg h]
      have hw := ih done (by rw [capacitySum_append]; omega)
      exact Walked.cons false (by simpa only [Bool.false_eq_true, false_iff] using fun h' => h (hb.2 h')) hw

/-- R118 to R120. -/
theorem allocate_allocated (e : Epoch) (sn : Snapshot) (c : Nat) :
    Allocated e sn c (allocate e sn c).members (allocate e sn c).released := by
  unfold allocate
  dsimp only
  refine ⟨fun b => sn.groups[b.profile.group], sn.capped.filterMap sn.find, _, _, fun _ => rfl, rfl,
    walked_filter (forcedOut e sn) _ (fun b => forcedOut_iff e sn b) _, fun h => ?_, fun h => ?_⟩
  · rw [if_pos h]
    obtain ⟨passed, hw⟩ := captureWalk_walked e sn c
      (capacitySum ((sn.capped.filterMap sn.find).filter fun b => !forcedOut e sn b)) (sn.rotation.filterMap sn.find) [] []
      (by simp)
    exact ⟨_, passed, hw, rfl, rfl⟩
  · rw [if_neg (by omega)]
    exact ⟨_, releaseWalk_walked e sn c _ _ [] (Nat.le_refl _), rfl⟩

/-! ## The decision list (R122, R123) -/

theorem filterMap_ifs {α β : Type} (p : α → Bool) (f : α → β) (g : α → Option β) (l : List α)
    (h : ∀ x, g x = if p x then some (f x) else none) : l.filterMap g = (l.filter p).map f := by
  induction l with
  | nil => rfl
  | cons a l ih =>
    rw [List.filterMap_cons, h a, ih]
    cases hp : p a <;> simp [hp]

theorem decisionList_formed (sn : Snapshot) (command : Int) (shares : List (SnapBlock × Nat)) (released : List SnapBlock) :
    DecisionsFormed sn command shares released (decisionList sn command shares released) := by
  refine ⟨fun m => newCap m.1 m.2, storeDecision sn command, fun _ => rfl, fun h => if_pos ?_, fun h1 h2 => if_neg ?_, ?_⟩
  · simpa using h
  · simp [h1, h2]
  · unfold decisionList
    rw [filterMap_ifs (fun m => m.1.state != .capped) (fun m => .capture m.1.id (newCap m.1 m.2) m.1.revision),
      filterMap_ifs (fun m => m.1.state == .capped && decide (newCap m.1 m.2 < m.1.cap.getD 0))
        (fun m => .capChange m.1.id (newCap m.1 m.2) m.1.revision),
      filterMap_ifs (fun m => m.1.state == .capped && decide (m.1.cap.getD 0 < newCap m.1 m.2))
        (fun m => .capChange m.1.id (newCap m.1 m.2) m.1.revision)]
    all_goals intro m
    · unfold changeDecision; simp
    · unfold changeDecision; simp
    · unfold captureDecision; by_cases h : m.1.state = .capped <;> simp [h]

/-- R110 to R123. -/
theorem planOf_computed (p : PlantRecord) (o : Opened) : PlanComputed p o (planOf p o) := by
  obtain h := supplyFigures_computed p o (planOf p o).supply.target
  exact ⟨h, _, _, _, _, rfl, rfl, allocate_allocated _ _ _, rfl, rfl, decisionList_formed _ _ _ _⟩

end Sys2Proof.Machine
end

