-- ==== Sys2Proof/Laws/RingMoves.lean ====
section
/-! SUPPORT. The ring leaving UP, and the emptying of the alert queues. -/

namespace Sys2Proof.Machine

/-- R144: what the purge of all but probes drops. -/
theorem onlyProbes_dropped (q : List OwnPacket) : q.length - (onlyProbes q).length = (q.filter fun p => !p.isProbe).length := by
  have := List.length_eq_length_filter_add (l := q) OwnPacket.isProbe
  unfold onlyProbes; omega

/-- R126, R144: what a ring state change leaves of a dispatch in STAGING. -/
theorem endStaging_left (before : RingState) (s v : State) (hb : before = s.ring.state) (hg : v.gov = s.gov) : 
   endStagingIfUp before v = { v with gov := (endStagingIfUp before v).gov } ∧ RingLeft s (endStagingIfUp before v) := by
  unfold endStagingIfUp
  split
  · rename_i h
    unfold ringDownDispatch
    split
    · rename_i o sup pl todo counts hp
      refine ⟨rfl, fun o' sup' pl' todo' counts' _ hp' => ?_, fun hn => ?_⟩
      · rw [hg, hp'] at hp; injection hp with e1 e2 e3 e4 e5; subst e1 e2 e3 e4 e5; unfold completeDispatch stagingStatus State.onGov; rw [hg]
      · rcases hn with hn | hn
        · exact absurd (hb ▸ h) hn
        · rw [hg] at hp; exact absurd hp (hn _ _ _ _ _)
    · rename_i hp; refine ⟨rfl,
          fun o' sup' pl' todo' counts' _ hp' => by (have hp' : s.gov.phase = _ := hp'; rw [hg, hp'] at hp; cases hp), fun _ => hg⟩
    · rename_i hp; refine ⟨rfl,
          fun o' sup' pl' todo' counts' _ hp' => by (have hp' : s.gov.phase = _ := hp'; rw [hg, hp'] at hp; cases hp), fun _ => hg⟩
  · rename_i h
    refine ⟨rfl, fun o' sup' pl' todo' counts' hu _ => absurd (hb.trans hu) h, fun _ => hg⟩

/-- R144: the fields of the Ring Controller on entering DOWN. -/
theorem enterDown_eq (now : Time) (r : RingController) : r.enterDown now
    = { r with state := .down, queue := [], forward := [], probe := .absent, settleFrom := now, purged := if r.state = .up then min (r.purged + (r.queue.filter fun p => !p.isProbe).length) (2 ^ 32 - 1) else r.purged } := by
  unfold RingController.enterDown; split
  · dsimp only [RingController.purge]; rw [onlyProbes_dropped]; rfl
  · rfl

/-- R144: entering DOWN. -/
theorem goDown_left (s v : State) (hr : v.ring.state = s.ring.state) (hg : v.gov = s.gov) : goDown v
    = { v with ring := v.ring.enterDown v.now, gov := (goDown v).gov } ∧ RingLeft s (goDown v) := by
  unfold goDown
  have := endStaging_left v.ring.state s (v.onRing (RingController.enterDown v.now)) hr hg
  exact ⟨this.1, this.2⟩

/-- R172: one emptied queue. -/
theorem emptyAlerts_one (s c) : emptyAlerts s c = dropLevel c.level (s.onAlerts
    (AlertQueues.set c { s.alerts.get c with entries := [] })) := by
  unfold emptyAlerts putAlerts followLevel
  rw [if_pos]; cases c <;> rfl

/-- R172: what emptying the queues may reach. -/
theorem emptyAlerts_gov (s : State) : (emptyAllAlerts s)
    = { s with link := (emptyAllAlerts s).link, cond := (emptyAllAlerts s).cond, alerts := (emptyAllAlerts s).alerts } := by
  unfold emptyAllAlerts
  generalize [AlertClass.trip, .derate, .restore, .note] = l
  exact foldl_frame (R := fun s t => t = { s with link := t.link, cond := t.cond, alerts := t.alerts }) (fun _ => rfl)
      (fun s t u h1 h2 => by rw [h2, h1]) (fun s c => by rw [emptyAlerts_one]; rfl) l s

/-- R172: a pass over queues. -/
theorem emptyAlerts_fold (l : List AlertClass) (s : State) : (l.foldl emptyAlerts s).link = s.link ∧ (∀ c,
    (l.foldl emptyAlerts s).alerts.get c = if c ∈ l then { s.alerts.get c with entries := [] } else s.alerts.get c) ∧ 
   ∀ c : Condition, conditionSet (l.foldl emptyAlerts s).cond.conditions c =
       (conditionSet s.cond.conditions c && !(l.any fun a => c == a.level)) := by
  induction l generalizing s with
  | nil => exact ⟨rfl, fun c => by simp, fun c => by simp⟩
  | cons a l ih =>
    obtain ⟨h1, h2, h3⟩ := ih (emptyAlerts s a)
    rw [List.foldl_cons]
    refine ⟨?_, fun c => ?_, fun c => ?_⟩
    · rw [h1, emptyAlerts_one]; rfl
    · rw [h2, emptyAlerts_one]; simp only [dropLevel_alerts, State.onAlerts, AlertQueues.get_set]
      by_cases hc : c = a
      · subst hc; simp
      · simp [hc, Ne.symm hc]
    · rw [h3, emptyAlerts_one]; simp only [dropLevel, State.onCond, conditionSet_clearCondition, List.any_cons]
      by_cases hc : c = a.level
      · simp [hc, State.onAlerts]
      · have : (c == a.level) = false := by simpa using hc
        simp [this, Ne.symm hc, State.onAlerts]

/-- R150, R172, R173: all four queues emptied, their levels clear. -/
theorem emptyAlerts_parts (s : State) : (emptyAllAlerts s).link = s.link ∧ (∀ c, (emptyAllAlerts s).alerts.get c
    = { s.alerts.get c with entries := [] }) ∧ 
   ∀ c : Condition, conditionSet (emptyAllAlerts s).cond.conditions c = (conditionSet s.cond.conditions c
              && !(c == .tripPending || c == .deratePending || c == .restorePending || c == .notePending)) := by
  obtain ⟨h1, h2, h3⟩ := emptyAlerts_fold [AlertClass.trip, .derate, .restore, .note] s
  refine ⟨h1, fun c => ?_, fun c => ?_⟩
  · exact (h2 c).trans (if_pos (by cases c <;> simp))
  · refine (h3 c).trans ?_; simp [AlertClass.level, Bool.or_assoc]

end Sys2Proof.Machine
end

