-- ==== Sys2Proof/Laws/Samples.lean ====
section
/-! SUPPORT. What a sample, a slot and a whole frame do to the station records, said once for each, and the requests of the
Front Tracker that come of them. -/

namespace Sys2Proof.Machine

/-- Only warning held flags of the stations changed, and what requests of the Front Tracker reach. -/
def HeldOnly (s t : State) : Prop :=
  t = { s with link := t.link, cond := t.cond, sky := { s.sky with stations := t.sky.stations },
               front := { s.front with warnings := t.front.warnings, nextId := t.front.nextId } }
    ∧ ∀ x : StationIx, t.station x = { s.station x with warningHeld := (t.station x).warningHeld }

theorem HeldOnly.refl (s : State) : HeldOnly s s := ⟨rfl, fun _ => rfl⟩

theorem HeldOnly.trans {s t u : State} (h1 : HeldOnly s t) (h2 : HeldOnly t u) : HeldOnly s u := by
  refine ⟨?_, fun x => ?_⟩
  · rw [h2.1]; dsimp only; rw [h1.1]
  · rw [h2.2 x, h1.2 x]

theorem raise_heldOnly (c : Condition) (s : State) : HeldOnly s (raise c s) := by
  have h := (raise_reach c s).1
  refine ⟨?_, fun x => ?_⟩
  · rw [h]
  · rw [h]; rfl

theorem setHeld_heldOnly (t : StationIx) (b : Bool) (s : State) : HeldOnly s (setHeld t b s) := by
  refine ⟨rfl, fun x => ?_⟩
  by_cases h : x = t
  · subst h; exact (modifyStation_self x (fun st => { st with warningHeld := b }) s).trans
        (by rw [show (setHeld x b s).station x = _ from modifyStation_self x (fun st => { st with warningHeld := b }) s])
  · exact (modifyStation_ne t x (fun st => { st with warningHeld := b }) s h).trans
        (by rw [show (setHeld t b s).station x = _ from modifyStation_ne t x (fun st => { st with warningHeld := b }) s h])

theorem onFront_heldOnly (s : State) (ws : List Warning) (n : Nat) : HeldOnly s
    (s.onFront fun f => { f with warnings := ws, nextId := n }) := ⟨rfl, fun _ => rfl⟩

theorem listWarning_heldOnly (w s) : HeldOnly s (listWarning w s) :=
  (onFront_heldOnly s _ _).trans ((setHeld_heldOnly _ _ _).trans (raise_heldOnly _ _))

theorem openRequest_heldOnly (t : StationIx) (d : Nat) (s : State) : HeldOnly s (openRequest t d s) := by
  have h1 : HeldOnly s (removeOwn t s) := by
    unfold removeOwn; split
    · exact (onFront_heldOnly s _ s.front.nextId).trans (setHeld_heldOnly _ _ _)
    · exact .refl s
  have h2 (w : Warning) (u : State) : HeldOnly u (enterWarning w u) := by
    unfold enterWarning; split
    · exact listWarning_heldOnly w u
    · split
      · rename_i last _
        unfold judgeFull; split
        · exact (((onFront_heldOnly u u.front.warnings.dropLast u.front.nextId).trans
              (setHeld_heldOnly last.station false _)).trans (listWarning_heldOnly w _)).trans
              (raise_heldOnly .warningDropped _)
        · exact raise_heldOnly .warningDropped u
      · exact .refl u
  unfold openRequest; dsimp only
  split
  · split
    · exact h1.trans (h2 _ _)
    · exact h1
  · exact h1

theorem askFront_heldOnly (t q s) : HeldOnly s (askFront t q s) := by
  unfold askFront; split
  · exact .refl s
  · exact openRequest_heldOnly _ _ _
  · exact onFront_heldOnly s _ s.front.nextId

/-- What the processing of slots may reach. -/
def Skies (s t : State) : Prop :=
  t = { s with link := t.link, cond := t.cond, sky := { s.sky with stations := t.sky.stations },
               front := { s.front with warnings := t.front.warnings, nextId := t.front.nextId } }

theorem Skies.trans {s t u : State} (h1 : Skies s t) (h2 : Skies t u) : Skies s u := by
  unfold Skies at *; rw [h2]; dsimp only; rw [h1]

theorem modifyStation_skies (t f) (s : State) : Skies s (modifyStation t f s) := rfl

/-- Station x takes the record `st`, up to its warning held flag; of the other stations only that flag may change. -/
def TakesTo (x : StationIx) (st : Station) (s t : State) : Prop :=
  Skies s t ∧ (∀ y : StationIx, y ≠ x → t.station y = { s.station y with warningHeld := (t.station y).warningHeld })
    ∧ t.station x = { st with warningHeld := (t.station x).warningHeld }

theorem takes_modify (x : StationIx) (f : Station → Station) (s : State) : TakesTo x (f (s.station x)) s
    (modifyStation x f s) := by
  refine ⟨modifyStation_skies _ _ _, fun y hy => ?_, ?_⟩
  · rw [modifyStation_ne _ _ _ _ hy]
  · rw [modifyStation_self]

theorem TakesTo.held {x : StationIx} {st : Station} {s t u : State} (h : TakesTo x st s t)
    (h2 : HeldOnly t u) : TakesTo x st s u := by
  refine ⟨h.1.trans h2.1, fun y hy => ?_, ?_⟩
  · rw [h2.2 y, h.2.1 y hy]
  · rw [h2.2 x, h.2.2]

theorem TakesTo.then {x : StationIx} {a b : Station} {s t u : State} (h : TakesTo x a s t)
    (h2 : TakesTo x b t u) : TakesTo x b s u := by
  refine ⟨h.1.trans h2.1, fun y hy => ?_, h2.2.2⟩
  rw [h2.2.1 y hy, h.2.1 y hy]

theorem drop_iff_fallOf {d x r : Nat} (hd : 8 ≤ d) (hr : 0 < r) : (d * r ≤ (r - x) * 256) ↔ ((d * r : Int) ≤ fallOf x r) := by
  unfold fallOf
  have : 8 * r ≤ d * r := Nat.mul_le_mul_right _ hd
  have e : ((d * r : Nat) : Int) = (d : Int) * r := by push_cast; rfl
  rw [← e]
  generalize d * r = k at *
  omega

theorem validTaken_judge (x : Nat) (st : Station) (hl : st.Lawful) (st' : Station)
    (h1 : st.detector = .lost → st' = st.recover x)
    (h2 : st.detector ≠ .lost → st' = ({ st with invalidRun := 0 }.judge x).1.push x) : ValidTaken x st st' := by
  obtain ⟨⟨r1, r2, r3, r4, r5, r6, r7, r8, r9⟩, l1, l2, -⟩ := hl
  refine ⟨h1, fun h depth hh hdep => ⟨fun hd => ?_, fun hd r d n hr hd' hn => ?_, fun hd r hr => ?_⟩⟩
  all_goals
    have e := h2 (by rw [hd]; decide)
    have hpush (u : Station) (hu : u.history = st.history) (hlen : u.historyLength = st.historyLength) :
        u.push x = { u with history := h } := by
      unfold Station.push; rw [hu, hlen, hh, List.drop_append_of_le_length (by omega)]
  · rw [show ({ st with invalidRun := 0 } : Station).judge x
        = Station.judgeClear x { st with invalidRun := 0 } by unfold Station.judge; dsimp only [hd]; rw [hd]] at e
    refine ⟨fun r hm hr hdrop => ?_, fun hn => ?_⟩
    · have hb : ({ st with invalidRun := 0 } : Station).bestOf = some r := hm
      have hdr : ({ st with invalidRun := 0 } : Station).isDrop x r = true := decide_eq_true ((drop_iff_fallOf r3.1 hr).2 hdrop)
      have hdep' : depthOf x r = depth r := (hdep r).symm
      unfold Station.judgeClear at e; rw [hb] at e; dsimp only at e; rw [if_pos ⟨hr, hdr⟩, hdep'] at e
      refine ⟨fun hp => ?_, fun hp => ?_⟩
      · rw [if_pos hp] at e; rw [e, hpush _ (by rfl) (by rfl)]; rfl
      · rw [if_neg hp] at e; rw [e, hpush _ (by rfl) (by rfl)]
    · unfold Station.judgeClear at e
      cases hb : ({ st with invalidRun := 0 } : Station).bestOf with
      | none => rw [hb] at e; dsimp only at e; rw [e, hpush _ (by rfl) (by rfl)]
      | some r =>
        rw [hb] at e; dsimp only at e
        rw [if_neg (fun hc => by
          have := hn r hb hc.1
          have := (drop_iff_fallOf r3.1 hc.1).1 (of_decide_eq_true hc.2)
          omega)] at e
        rw [e, hpush _ (by rfl) (by rfl)]
  · rw [show ({ st with invalidRun := 0 } : Station).judge x
        = Station.judgePending x { st with invalidRun := 0 } by unfold Station.judge; dsimp only [hd]; rw [hd]] at e
    have hdep' : depthOf x r = depth r := (hdep r).symm
    unfold Station.judgePending at e
    dsimp only at e
    rw [hr, hd', hn] at e
    dsimp only [Option.getD_some] at e
    rw [hdep'] at e
    have hpos := (r7 r hr).1
    refine ⟨fun hdrop => ?_, fun hdrop => ?_⟩
    · have hdr : decide (st.drop * r ≤ (r - x) * 256) = true := decide_eq_true ((drop_iff_fallOf r3.1 hpos).2 hdrop)
      rw [if_pos (by exact hdr)] at e
      refine ⟨fun hp => ?_, fun hp => ?_⟩
      · rw [if_pos hp] at e; rw [e, hpush _ (by rfl) (by rfl)]; unfold Station.shade; dsimp only; rw [hr]
      · rw [if_neg hp] at e; rw [e, hpush _ (by rfl) (by rfl)]; dsimp only; rw [hr]
    · rw [if_neg (fun hc => by
          have := (drop_iff_fallOf r3.1 hpos).1 (of_decide_eq_true hc)
          omega)] at e
      rw [e, hpush _ (by rfl) (by rfl)]; rfl
  · rw [show ({ st with invalidRun := 0 } : Station).judge x
        = Station.judgeShaded x { st with invalidRun := 0 } by unfold Station.judge; dsimp only [hd]; rw [hd]] at e
    unfold Station.judgeShaded at e
    dsimp only at e
    rw [hr] at e
    dsimp only [Option.getD_some] at e
    have hc : (r * (256 - st.clear) ≤ x * 256) ↔ ((r : Int) * (256 - st.clear) ≤ x * 256) := by
      have : ((256 - st.clear : Nat) : Int) = 256 - (st.clear : Int) := by omega
      rw [← this]
      have h2 : ((r * (256 - st.clear) : Nat) : Int) = (r : Int) * ((256 - st.clear : Nat) : Int) := by push_cast; rfl
      rw [← h2]; omega
    refine ⟨fun hx => ?_, fun hx => ?_⟩
    · rw [if_pos (hc.2 hx)] at e; rw [e, hpush _ (by rfl) (by rfl)]; rfl
    · rw [if_neg (fun g => by have := hc.1 g; omega)] at e; rw [e, hpush _ (by rfl) (by rfl)]; dsimp only; rw [hr]

theorem validSample_takes (t : StationIx) (x : Nat) (s : State) (hl : (s.station t).Lawful) :
    ∃ st, TakesTo t st s (validSample t x s) ∧ ValidTaken x (s.station t) st := by
  by_cases h : (s.station t).detector = .lost
  · refine ⟨(s.station t).recover x, ?_, validTaken_judge x _ hl _ (fun _ => rfl) (fun g => absurd h g)⟩
    unfold validSample; dsimp only; rw [h]
    exact takes_modify t (Station.recover x) s
  · refine ⟨({ s.station t with invalidRun := 0 }.judge x).1.push x, ?_, validTaken_judge x _ hl _ (fun g => absurd g h)
        (fun _ => rfl)⟩
    have e : validSample t x s = modifyStation t (Station.push x) (askFront t ({ s.station t with invalidRun := 0 }.judge x).2
        (modifyStation t (fun _ => ({ s.station t with invalidRun := 0 }.judge x).1) s)) := by
      unfold validSample; dsimp only; split
      · rename_i g; exact absurd g h
      all_goals rfl
    rw [e]
    have a1 := (takes_modify t (fun _ => ({ s.station t with invalidRun := 0 }.judge x).1) s).held (askFront_heldOnly t
        ({ s.station t with invalidRun := 0 }.judge x).2 _)
    have a2 := takes_modify t (Station.push x) (askFront t ({ s.station t with invalidRun := 0 }.judge x).2 (modifyStation t
        (fun _ => ({ s.station t with invalidRun := 0 }.judge x).1) s))
    have a3 := a1.then a2
    refine ⟨a3.1, a3.2.1, ?_⟩
    rw [a3.2.2, a1.2.2]
    rfl

theorem invalidSample_takes (t : StationIx) (s : State) :
    ∃ st, TakesTo t st s (invalidSample t s) ∧ InvalidTaken (s.station t) st := by
  by_cases h : (s.station t).detector = .lost
  · refine ⟨s.station t, ?_, fun _ => rfl, fun g => absurd h g, fun g => absurd h g⟩
    unfold invalidSample; dsimp only; rw [h]
    exact ⟨rfl, fun _ _ => rfl, rfl⟩
  · have e : invalidSample t s = if (s.station t).invalidRun < 4 then modifyStation t
        (fun st => { st with invalidRun := st.invalidRun + 1 }) s
        else raise .stationLost (modifyStation t Station.lose s) := by
      unfold invalidSample; dsimp only; split
      · rename_i g; exact absurd g h
      all_goals rfl
    rw [e]
    split
    · rename_i hr
      exact ⟨_, takes_modify t (fun st => { st with invalidRun := st.invalidRun + 1 }) s, fun g => absurd g h, fun _ _ => rfl,
          fun _ g => absurd hr (by omega)⟩
    · rename_i hr
      exact ⟨_, (takes_modify t Station.lose s).held (raise_heldOnly _ _), fun g => absurd g h, fun _ g => absurd g hr,
          fun _ _ => rfl⟩

/-- R62, R64: what its slot of a closed frame makes of a station record. -/
def SlotTaken (words : List Half) (r st : Station) : Prop :=
  (r.enabled = false → st = r)
        ∧ (r.enabled = true → words[r.slot]? = none → InvalidTaken r st)
        ∧ (r.enabled = true → ∀ w, words[r.slot]? = some w →
            (ValidSample r w → ValidTaken (w.toNat / 16) { r with lastSequence := some (w.setWidth 3) } st)
            ∧ (¬ValidSample r w → InvalidTaken { r with lastSequence := some (w.setWidth 3) } st))

theorem irradianceOf_eq (w : Half) : irradianceOf w = w.toNat / 16 := by
  unfold irradianceOf; rw [BitVec.toNat_ushiftRight, Nat.shiftRight_eq_div_pow]

theorem sampleOf_spec (st : Station) (w : Half) : sampleOf st.lastSequence w = if st.lastSequence ≠ some (w.setWidth 3)
    ∧ w.getLsbD 3 = true ∧ w.toNat / 16 ≤ 1600 then some (w.toNat / 16) else none := by
  unfold sampleOf stationValid sequenceOf
  rw [irradianceOf_eq]
  by_cases h1 : w.getLsbD 3 = true <;> by_cases h2 : w.toNat / 16 ≤ 1600 <;> by_cases h3 : st.lastSequence = some
      (w.setWidth 3) <;> simp [h1, h2, h3]

theorem takeSlot_takes (words : List Half) (t : StationIx) (s : State) (hl : (s.station t).Lawful) :
    ∃ st, TakesTo t st s (takeSlot words s t) ∧ SlotTaken words (s.station t) st := by
  unfold takeSlot; dsimp only
  by_cases he : (s.station t).enabled = true
  · rw [if_pos he]
    split
    · rename_i hw
      obtain ⟨st, a, b⟩ := invalidSample_takes t s
      exact ⟨st, a, fun g => by rw [he] at g; contradiction, fun _ _ => b, fun _ w g => by rw [hw] at g; contradiction⟩
    · rename_i w hw
      have m := takes_modify t (fun st => { st with lastSequence := some (sequenceOf w) }) s
      have hst : (modifyStation t (fun st => { st with lastSequence := some (sequenceOf w) }) s).station t
          = { s.station t with lastSequence := some (w.setWidth 3) } := modifyStation_self _ _ _
      have hl' : ((modifyStation t (fun st => { st with lastSequence := some (sequenceOf w) }) s).station t).Lawful := by
        rw [hst]; exact sequence_lawful _ hl
      rw [sampleOf_spec]
      split
      · rename_i x hx
        split at hx
        · rename_i hv
          obtain ⟨st, a, b⟩ := validSample_takes t x _ hl'
          rw [hst] at b
          have hx := Option.some.inj hx
          refine ⟨st, m.then a,
              fun g => by rw [he] at g; contradiction, fun _ g => by rw [hw] at g; contradiction, fun _ w' g => ?_⟩
          rw [hw] at g; cases g
          exact ⟨fun _ => hx ▸ b, fun g => absurd ⟨hv.2.1, hv.2.2, hv.1⟩ g⟩
        · contradiction
      · rename_i hx
        split at hx
        · contradiction
        · rename_i hv
          obtain ⟨st, a, b⟩ := invalidSample_takes t (modifyStation t
              (fun st => { st with lastSequence := some (sequenceOf w) }) s)
          rw [hst] at b
          refine ⟨st, m.then a,
              fun g => by rw [he] at g; contradiction, fun _ g => by rw [hw] at g; contradiction, fun _ w' g => ?_⟩
          rw [hw] at g; cases g
          exact ⟨fun g => absurd ⟨g.2.2, g.1, g.2.1⟩ hv, fun _ => b⟩
  · rw [if_neg he]
    exact ⟨s.station t, ⟨rfl, fun _ _ => rfl, rfl⟩, fun _ => rfl, fun g => absurd g he, fun g => absurd g he⟩

/-- The warning held flag has no part in what a slot makes of a record. -/
theorem SlotTaken.flag {words : List Half} {r st : Station} (f : Bool) (h : SlotTaken words { r with warningHeld := f } st) :
    ∃ st', st = { st' with warningHeld := st.warningHeld } ∧ SlotTaken words r st' := by
  refine ⟨{ st with warningHeld := r.warningHeld }, rfl, fun he => ?_, fun he hw => ?_, fun he w hw => ⟨fun hv => ?_,
      fun hv => ?_⟩⟩
  · rw [h.1 he]
  · obtain ⟨a, b, c⟩ := h.2.1 he hw
    exact ⟨fun g => by rw [a g], fun g1 g2 => by rw [b g1 g2], fun g1 g2 => by rw [c g1 g2]⟩
  · obtain ⟨a, b⟩ := (h.2.2 he w hw).1 hv
    refine ⟨fun g => by rw [a g], fun hist depth h1 h2 => ?_⟩
    obtain ⟨p1, p2, p3⟩ := b hist depth h1 h2
    refine ⟨fun g => ⟨fun x hx hp hd => ⟨fun e => ?_, fun e => ?_⟩, fun q => ?_⟩,
        fun g x d n hx hd hn => ⟨fun k => ⟨fun e => ?_, fun e => ?_⟩, fun k => ?_⟩, fun g x hx => ⟨fun k => ?_, fun k => ?_⟩⟩
    · rw [((p1 g).1 x hx hp hd).1 e]
    · rw [((p1 g).1 x hx hp hd).2 e]
    · rw [(p1 g).2 q]
    · rw [((p2 g x d n hx hd hn).1 k).1 e]
    · rw [((p2 g x d n hx hd hn).1 k).2 e]
    · rw [(p2 g x d n hx hd hn).2 k]
    · rw [(p3 g x hx).1 k]
    · rw [(p3 g x hx).2 k]
  · obtain ⟨a, b, c⟩ := (h.2.2 he w hw).2 hv
    exact ⟨fun g => by rw [a g], fun g1 g2 => by rw [b g1 g2], fun g1 g2 => by rw [c g1 g2]⟩

theorem takeSlots_taken (words : List Half) (l : List StationIx) (hn : l.Nodup) (s : State) (hl : ∀ x ∈ l,
    (s.station x).Lawful) :
    Skies s (l.foldl (takeSlot words) s)
      ∧ (∀ x ∉ l, (l.foldl (takeSlot words) s).station x
          = { s.station x with warningHeld := ((l.foldl (takeSlot words) s).station x).warningHeld })
      ∧ ∀ x ∈ l, ∃ st, (l.foldl (takeSlot words) s).station x
          = { st with warningHeld := ((l.foldl (takeSlot words) s).station x).warningHeld } ∧ SlotTaken words
          (s.station x) st := by
  induction l generalizing s with
  | nil => exact ⟨rfl, fun _ _ => rfl, fun x hx => absurd hx (List.not_mem_nil)⟩
  | cons a l ih =>
    obtain ⟨ha, hn⟩ := List.nodup_cons.1 hn
    obtain ⟨st, ht, hst⟩ := takeSlot_takes words a s (hl a List.mem_cons_self)
    have hne : ∀ x ∈ l, x ≠ a := fun x hx e => ha (e ▸ hx)
    obtain ⟨i1, i2, i3⟩ : Skies (takeSlot words s a) (l.foldl (takeSlot words) (takeSlot words s a)) ∧ _ ∧ _ := ih hn _
        (fun x hx => by
      rw [ht.2.1 x (hne x hx)]; exact held_lawful _ (hl x (List.mem_cons_of_mem _ hx)))
    rw [List.foldl_cons]
    refine ⟨ht.1.trans i1, fun x hx => ?_, fun x hx => ?_⟩
    · obtain ⟨h1, h2⟩ := not_or.1 (fun h => hx (List.mem_cons.2 h))
      rw [i2 x h2, ht.2.1 x h1]
    · rcases List.mem_cons.1 hx with e | hx
      · subst e
        exact ⟨st, by rw [i2 x ha, ht.2.2], hst⟩
      · obtain ⟨st2, e2, h2⟩ := i3 x hx
        rw [ht.2.1 x (hne x hx)] at h2
        obtain ⟨st3, e3, h3⟩ := h2.flag
        exact ⟨st3, by rw [e2, e3], h3⟩

theorem processFrame_leaves (words : List Half) (s : State) (hl : SkyLawful s.sky) : FrameLeaves words s
    (processFrame words s) := by
  have hn := List.nodup_finRange 24
  have hm : ∀ x : StationIx, x ∈ List.finRange 24 := List.mem_finRange
  unfold processFrame
  generalize List.finRange 24 = l at *
  obtain ⟨h1, -, h3⟩ := takeSlots_taken words l hn s (fun x _ => hl.2.1 x)
  generalize l.foldl (takeSlot words) s = u at *
  exact ⟨h1, fun x => h3 x (hm x)⟩

/-! ## Requests of the Front Tracker, and the record that makes them (R69) -/

/-- A change of one station record that leaves its warning held flag to the Front Tracker. -/
def FlagBlind (f : Station → Station) : Prop :=
  ∀ (st : Station) (b : Bool), f { st with warningHeld := b } = { f st with warningHeld := b }

theorem push_flagBlind (x : Nat) : FlagBlind (Station.push x) := fun _ _ => rfl

theorem modifyStation_setHeld {f : Station → Station} (hf : FlagBlind f) (t y : StationIx) (b : Bool) (s : State) :
    modifyStation t f (setHeld y b s) = setHeld y b (modifyStation t f s) := by
  have h : ∀ v : Vector Station 24, (v.set y { v[y] with warningHeld := b }).set t (f (v.set y { v[y] with warningHeld := b })[t])
      = (v.set t (f v[t])).set y { (v.set t (f v[t]))[y] with warningHeld := b } := by
    intro v
    by_cases hy : y = t
    · subst hy
      simp only [Fin.getElem_fin, Vector.getElem_set_self, Vector.set_set]
      rw [hf]
    · have h1 : (y : Nat) ≠ t := fun e => hy (Fin.ext e)
      have h2 : (t : Nat) ≠ y := fun e => hy (Fin.ext e.symm)
      simp only [Fin.getElem_fin, Vector.getElem_set_ne _ _ h1, Vector.getElem_set_ne _ _ h2]
      exact Vector.set_comm _ _ h1
  unfold modifyStation setHeld State.onSky
  dsimp only
  rw [h]

theorem modifyStation_raise (f : Station → Station) (t : StationIx) (c : Condition) (s : State) :
    modifyStation t f (raise c s) = raise c (modifyStation t f s) := by
  rw [raise_as c (s := s) (t := modifyStation t f s) rfl rfl rfl]
  conv => lhs; rw [raise_frame]
  rfl

theorem modifyStation_listWarning {f : Station → Station} (hf : FlagBlind f) (t : StationIx) (w : Warning) (s : State) :
    modifyStation t f (listWarning w s) = listWarning w (modifyStation t f s) := by
  unfold listWarning
  dsimp only
  rw [modifyStation_raise, modifyStation_setHeld hf]
  rfl

theorem modifyStation_enterWarning {f : Station → Station} (hf : FlagBlind f) (t : StationIx) (w : Warning) (s : State) :
    modifyStation t f (enterWarning w s) = enterWarning w (modifyStation t f s) := by
  unfold enterWarning
  have h : (modifyStation t f s).front = s.front := rfl
  rw [h]
  split
  · exact modifyStation_listWarning hf t w s
  · cases s.front.warnings.getLast? with
    | none => rfl
    | some last =>
      dsimp only
      unfold judgeFull
      split
      · rw [modifyStation_raise, modifyStation_listWarning hf, modifyStation_setHeld hf]
        rfl
      · exact modifyStation_raise ..

theorem modifyStation_openRequest {f : Station → Station} (hf : FlagBlind f) (t y : StationIx) (d : Nat) (s : State) :
    modifyStation t f (openRequest y d s) = openRequest y d (modifyStation t f s) := by
  have hr (s : State) : modifyStation t f (removeOwn y s) = removeOwn y (modifyStation t f s) := by
    unfold removeOwn
    have h : (modifyStation t f s).front = s.front := rfl
    rw [h]
    split
    · rw [modifyStation_setHeld hf]
      rfl
    · rfl
  unfold openRequest
  dsimp only
  rw [← hr]
  have h1 : (modifyStation t f s).run = s.run := rfl
  have h2 : (modifyStation t f s).timer = s.timer := rfl
  have h3 : (modifyStation t f s).front = s.front := rfl
  rw [h1, h2, h3]
  split
  · split
    · exact modifyStation_enterWarning hf t _ _
    · rfl
  · rfl

theorem modifyStation_askFront {f : Station → Station} (hf : FlagBlind f) (t y : StationIx) (q : FrontRequest) (s : State) :
    modifyStation t f (askFront y q s) = askFront y q (modifyStation t f s) := by
  cases q with
  | nothing => rfl
  | opening d => exact modifyStation_openRequest hf t y d s
  | deepening d => rfl

/-- R71 to R73: the request that a judgement makes. -/
theorem judge_request (x : Nat) (st : Station) :
    (st.detector ≠ .shaded → (st.judge x).1.detector = .shaded → ∃ d, (st.judge x).1.depth = some d ∧ (st.judge x).2 = .opening d)
    ∧ (st.detector ≠ .shaded → (st.judge x).1.detector ≠ .shaded → (st.judge x).2 = .nothing)
    ∧ (st.detector = .shaded → st.warningHeld = true → ∀ r, st.reference = some r → (st.judge x).2 = .deepening (depthOf x r))
    ∧ (st.detector = .shaded → st.warningHeld = false → (st.judge x).2 = .nothing) := by
  unfold Station.judge
  cases hd : st.detector with
  | clear =>
    unfold Station.judgeClear
    cases st.bestOf with
    | none => simp [hd]
    | some r =>
      dsimp only
      split
      · split <;> simp [Station.shade]
      · simp [hd]
  | pending =>
    unfold Station.judgePending
    dsimp only
    split
    · split <;> simp [Station.shade, hd]
    · simp [Station.unfreeze]
  | shaded =>
    unfold Station.judgeShaded
    dsimp only
    refine ⟨fun h => absurd rfl h, fun h => absurd rfl h, fun _ h r hr => ?_, fun _ h => ?_⟩
    · rw [h, hr]; rfl
    · rw [h]; rfl
  | lost => simp [hd]

/-- R65, R69 to R74: a valid sample. -/
theorem validSample_taken (t : StationIx) (v : Nat) (s : State) (hl : (s.station t).Lawful) :
    ValidSampleTaken t v (s.station t) s (validSample t v s) := by
  by_cases h : (s.station t).detector = .lost
  · have e : validSample t v s = withStation t ((s.station t).recover v) s := by
      unfold validSample
      dsimp only
      rw [h]
      rfl
    rw [e]
    refine ⟨_, validTaken_judge v _ hl _ (fun _ => rfl) (fun g => absurd h g), fun _ h2 => ?_, fun h2 => ?_, fun _ => rfl⟩
    · cases h2
    · rw [h] at h2
      cases h2
  · obtain ⟨j1, j2, j3, j4⟩ := judge_request v { s.station t with invalidRun := 0 }
    have e : validSample t v s = askFront t ({ s.station t with invalidRun := 0 }.judge v).2
        (withStation t (({ s.station t with invalidRun := 0 }.judge v).1.push v) s) := by
      have e1 : validSample t v s = modifyStation t (Station.push v) (askFront t ({ s.station t with invalidRun := 0 }.judge v).2
          (modifyStation t (fun _ => ({ s.station t with invalidRun := 0 }.judge v).1) s)) := by
        unfold validSample
        dsimp only
        split
        · rename_i g; exact absurd g h
        all_goals rfl
      rw [e1, modifyStation_askFront (push_flagBlind v)]
      congr 1
      unfold modifyStation withStation State.onSky
      simp
    rw [e]
    refine ⟨_, validTaken_judge v _ hl _ (fun g => absurd g h) (fun _ => rfl), fun h1 h2 d hd => ?_, fun h1 h2 f hf => ?_, fun h1 => ?_⟩
    · obtain ⟨d', hd', hq⟩ := j1 h1 h2
      rw [show d = d' from Option.some.inj (hd.symm.trans hd'), hq]
      rfl
    · rw [j3 h1 h2 f hf]
      rfl
    · have hq : ({ s.station t with invalidRun := 0 }.judge v).2 = .nothing := h1.elim (fun h1 => j2 h1.1 h1.2) fun h1 => j4 h1.1 h1.2
      rw [hq]
      rfl

theorem withStation_self (t : StationIx) (s : State) : withStation t (s.station t) s = s := by
  unfold withStation State.station
  simp

/-- R65: an invalid sample. -/
theorem invalidSample_taken (t : StationIx) (s : State) : InvalidSampleTaken t (s.station t) s (invalidSample t s) := by
  by_cases h : (s.station t).detector = .lost
  · have e : invalidSample t s = s := by
      unfold invalidSample
      dsimp only
      rw [h]
    refine ⟨s.station t, ⟨fun _ => rfl, fun g => absurd h g, fun g => absurd h g⟩, fun _ => ?_, fun g => absurd h g⟩
    rw [e, withStation_self]
  · have e : invalidSample t s = if (s.station t).invalidRun < 4 then modifyStation t
        (fun st => { st with invalidRun := st.invalidRun + 1 }) s
        else raise .stationLost (modifyStation t Station.lose s) := by
      unfold invalidSample; dsimp only; split
      · rename_i g; exact absurd g h
      all_goals rfl
    by_cases hr : (s.station t).invalidRun < 4
    · rw [e, if_pos hr]
      exact ⟨_, ⟨fun g => absurd g h, fun _ _ => rfl, fun _ g => absurd hr (by omega)⟩, fun _ => rfl, fun _ g => absurd hr (by omega)⟩
    · rw [e, if_neg hr]
      exact ⟨_, ⟨fun g => absurd g h, fun _ g => absurd g hr, fun _ _ => rfl⟩, fun g => g.elim (absurd · h) (absurd · hr), fun _ _ => rfl⟩

theorem withStation_again (t : StationIx) (a b : Station) (s : State) : withStation t a (withStation t b s) = withStation t a s := by
  unfold withStation
  simp

/-- A station's record just replaced is the record that a sample meets. -/
theorem ValidSampleTaken.after {t : StationIx} {v : Nat} {a r : Station} {s u : State}
    (h : ValidSampleTaken t v r (withStation t a s) u) : ValidSampleTaken t v r s u := by
  unfold ValidSampleTaken at *
  simpa only [withStation_again] using h

theorem InvalidSampleTaken.after {t : StationIx} {a r : Station} {s u : State}
    (h : InvalidSampleTaken t r (withStation t a s) u) : InvalidSampleTaken t r s u := by
  unfold InvalidSampleTaken at *
  simpa only [withStation_again] using h

/-- R62, R64: one station takes its slot. -/
theorem takeSlot_taken (words : List Half) (t : StationIx) (s : State) (hl : (s.station t).Lawful) :
    SlotOfFrameTaken words t s (takeSlot words s t) := by
  have hself (r : Station) : (withStation t r s).station t = r := by
    unfold withStation State.station
    simp
  refine ⟨fun he => ?_, fun he hw => ?_, fun he w hw => ?_⟩
  · unfold takeSlot
    exact if_neg (by rw [he]; decide)
  · unfold takeSlot
    dsimp only
    rw [if_pos he, hw]
    exact invalidSample_taken t s
  · have e : takeSlot words s t = match sampleOf (s.station t).lastSequence w with
        | some x => validSample t x (withStation t { s.station t with lastSequence := some (w.setWidth 3) } s)
        | none => invalidSample t (withStation t { s.station t with lastSequence := some (w.setWidth 3) } s) := by
      unfold takeSlot
      dsimp only
      rw [if_pos he, hw]
      rfl
    rw [e, sampleOf_spec]
    refine ⟨fun hv => ?_, fun hv => ?_⟩
    · rw [if_pos ⟨hv.2.2, hv.1, hv.2.1⟩]
      have h := validSample_taken t (w.toNat / 16) (withStation t { s.station t with lastSequence := some (w.setWidth 3) } s)
        (by rw [hself]; exact sequence_lawful _ hl)
      rw [hself] at h
      exact h.after
    · rw [if_neg fun hc => hv ⟨hc.2.1, hc.2.2, hc.1⟩]
      have h := invalidSample_taken t (withStation t { s.station t with lastSequence := some (w.setWidth 3) } s)
      rw [hself] at h
      exact h.after

theorem takeSlots_slots (words : List Half) (l : List StationIx) (hn : l.Nodup) (s : State) (hl : ∀ x ∈ l, (s.station x).Lawful) :
    SlotsOfFrameTaken words l s (l.foldl (takeSlot words) s) := by
  induction l generalizing s with
  | nil => rfl
  | cons a l ih =>
    obtain ⟨ha, hn⟩ := List.nodup_cons.1 hn
    obtain ⟨st, ht, -⟩ := takeSlot_takes words a s (hl a List.mem_cons_self)
    refine ⟨_, takeSlot_taken words a s (hl a List.mem_cons_self), ih hn _ fun x hx => ?_⟩
    rw [ht.2.1 x fun e => ha (e ▸ hx)]
    exact held_lawful _ (hl x (List.mem_cons_of_mem _ hx))

/-- R62: a closed frame is processed. -/
theorem processFrame_processed (words : List Half) (s : State) (hl : SkyLawful s.sky) :
    FrameProcessed words s (processFrame words s) :=
  ⟨takeSlots_slots words _ (List.nodup_finRange 24) s fun x _ => hl.2.1 x, processFrame_leaves words s hl⟩

/-- R61: the frame in progress closes short. -/
theorem closeFrame_taken (frame : Option (List Half)) (s : State) (hl : SkyLawful s.sky) : ShortFrameTaken frame s (closeFrame frame s) := by
  cases frame with
  | none => exact ⟨fun _ => rfl, fun _ h => absurd h (by simp)⟩
  | some words =>
    refine ⟨fun h => absurd h (by simp), fun w h => ?_⟩
    cases h
    exact processFrame_processed words s hl

end Sys2Proof.Machine
end

