-- ==== Sys2Proof/Laws/Warnings.lean ====
section
/-! SUPPORT. The warnings list under an open request. -/

namespace Sys2Proof.Machine

/-- R85, step 1. -/
theorem removeOwn_all (x : StationIx) (s : State) :
    removeOwn x s
        = { s with front := { s.front with warnings := s.front.warnings.filter (fun w => w.station != x) }, sky := { s.sky with stations := (removeOwn x s).sky.stations } }
      ∧ (∀ y : StationIx, y ≠ x → (removeOwn x s).station y = s.station y)
      ∧ (removeOwn x s).station x
          = { s.station x with warningHeld := (s.station x).warningHeld && !s.front.warnings.any fun w => w.station == x } := by
  unfold removeOwn
  by_cases h : (s.front.warnings.any fun w => w.station == x) = true
  · rw [if_pos h]
    refine ⟨rfl, fun y hy => modifyStation_ne x y (fun st => { st with warningHeld := false }) _ hy, ?_⟩
    refine (modifyStation_self x (fun st => { st with warningHeld := false }) _).trans ?_
    rw [h]; simp [State.onFront, State.station]
  · rw [if_neg h]
    have hf : s.front.warnings.filter (fun w => w.station != x) = s.front.warnings := by
      rw [List.filter_eq_self]
      intro w hw
      rw [List.any_eq_true] at h
      by_contra hc
      exact h ⟨w, hw, by simpa using hc⟩
    refine ⟨by rw [hf], fun _ _ => rfl, ?_⟩
    rw [Bool.eq_false_iff.2 h]; simp

/-- Arrival epochs of one warning compare as their leads do. -/
theorem laterThan_add (e : Epoch) (a b : Nat) (ha : a ≤ 255) (hb : b ≤ 255) :
    laterThan (e + BitVec.ofNat 32 a) (e + BitVec.ofNat 32 b) = decide (b < a) := by
  have h (n : Nat) (hn : n ≤ 255) : (e + BitVec.ofNat 32 n - e).toNat = n := by
    rw [add_sub_cancel_left, BitVec.toNat_ofNat]
    omega
  rw [laterThan_offset e _ _ (by rw [h a ha]; exact ha) (by rw [h b hb]; exact hb), h a ha, h b hb]

/-- R82: the earliest arrival is the epoch of the least lead. -/
theorem earliestOf_min (e : Epoch) (l : List LeadEntry) (m : Nat) (hm : m ≤ 255) (hl : ∀ y ∈ l, y.lead ≤ 255) :
    earliestOf (e + BitVec.ofNat 32 m) (l.map fun y => (y.block, e + BitVec.ofNat 32 y.lead)) = e + BitVec.ofNat 32 (l.foldl
        (fun a y => min a y.lead) m) := by
  unfold earliestOf
  induction l generalizing m with
  | nil => rfl
  | cons y l ih =>
    have hy := hl y List.mem_cons_self
    simp only [List.map_cons, List.foldl_cons]
    rw [laterThan_add e m y.lead hm hy]
    have : (if decide (y.lead < m) = true then e + BitVec.ofNat 32 y.lead else e + BitVec.ofNat 32 m) = e + BitVec.ofNat 32
        (min m y.lead) := by
      by_cases h : y.lead < m
      · rw [if_pos (decide_eq_true h), Nat.min_eq_right (by omega)]
      · rw [if_neg (by simpa using h), Nat.min_eq_left (by omega)]
    rw [this]
    exact ih _ (by omega) (fun z hz => hl z (List.mem_cons_of_mem _ hz))

/-- R86: where a warning is listed. -/
theorem insert_splits (w : Warning) (l : List Warning) : ∃ before after, l = before ++ after ∧ insertWarning w l
    = before ++ w :: after
    ∧ (∀ y ∈ before, laterThan y.earliest w.earliest = false) ∧ ∀ y ∈ after.head?, laterThan y.earliest w.earliest = true := by
  induction l with
  | nil => exact ⟨[], [], rfl, rfl, nofun, nofun⟩
  | cons a l ih =>
    unfold insertWarning
    by_cases h : laterThan a.earliest w.earliest = true
    · rw [if_pos h]
      exact ⟨[], a :: l, rfl, rfl, nofun, fun y hy => by cases Option.some.inj hy; exact h⟩
    · rw [if_neg h]
      obtain ⟨b, c, h1, h2, h3, h4⟩ := ih
      refine ⟨a :: b, c, by rw [h1]; rfl, by rw [h2]; rfl, fun y hy => ?_, h4⟩
      rcases List.mem_cons.1 hy with e | hy
      · subst e; exact Bool.eq_false_iff.2 h
      · exact h3 y hy

/-- R84, R86: all that listing a warning changes. -/
theorem listWarning_all (w : Warning) (s : State) :
    listWarning w s
        = { s with link := (listWarning w s).link, cond := (listWarning w s).cond, sky := { s.sky with stations := (listWarning w s).sky.stations }, front := { s.front with warnings := insertWarning { w with id := freeId s.front.warnings 255 s.front.nextId } s.front.warnings, nextId := stepId (freeId s.front.warnings 255 s.front.nextId) } }
      ∧ OnlyRaised .warningOpened { s with
          sky := { s.sky with stations := (listWarning w s).sky.stations }, front := (listWarning w s).front } (listWarning w s)
      ∧ (∀ y : StationIx, y ≠ w.station → (listWarning w s).station y = s.station y)
      ∧ (listWarning w s).station w.station = { s.station w.station with warningHeld := true } := by
  unfold listWarning
  dsimp only
  generalize hv : (setHeld w.station true
      (s.onFront fun f => { f with warnings := insertWarning { w with id := freeId s.front.warnings 255 s.front.nextId } f.warnings, nextId := stepId (freeId s.front.warnings 255 s.front.nextId) })) = v
  have h := raise_reach .warningOpened v
  generalize hu : raise .warningOpened v = u at *
  have e1 : u.sky = v.sky := by rw [h.1]
  refine ⟨?_, ?_, fun y hy => ?_, ?_⟩
  · rw [h.1]; dsimp only; rw [← hv]; rfl
  · have e2 : u.front = v.front := by rw [h.1]
    unfold OnlyRaised
    rw [e1, e2, ← hu]
    refine congrArg _ ?_
    rw [← hv]
    rfl
  · unfold State.station; rw [e1, ← hv]
    exact modifyStation_ne w.station y (fun st => { st with warningHeld := true }) _ hy
  · unfold State.station; rw [e1, ← hv]
    exact modifyStation_self w.station (fun st => { st with warningHeld := true }) _

end Sys2Proof.Machine
end

