-- ==== Sys2Proof/Tests/Slice0.lean ====
section
/-! SUPPORT. The model's own tests: ill-formed operands, one step of each command on a small state, figures of the manual's worked
examples, and a witness for the hypotheses of every statement. -/

namespace Sys2Proof.Tests

set_option Elab.async false

open Sys2Proof Sys2Proof.Machine

/-! ## Ill-formed operands -/

theorem test_leads_empty_refused : (Instr.leadsAdd 0 []).wellFormed = false := by decide
theorem test_leads_61_refused : wfLeads (List.replicate 61 { station := 1, block := 1, lead := 1 }) = false := by decide +kernel
theorem test_leads_60_accepted : wfLeads (List.replicate 60 { station := 1, block := 1, lead := 1 }) = true := by decide +kernel
theorem test_nodes_51_refused : wfNodes (List.replicate 51 1) = false := by decide +kernel
theorem test_nodes_50_accepted : (Instr.loadRing 0 (List.replicate 50 1)).wellFormed = true := by decide +kernel
theorem test_body_251_refused :
    wfFrame { kind := 1, tag := 0, body := List.replicate 251 0, crcHigh := 0, crcLow := 0 } = false := by decide +kernel
theorem test_body_250_accepted :
    wfFrame { kind := 1, tag := 0, body := List.replicate 250 0, crcHigh := 0, crcLow := 0 } = true := by decide +kernel
theorem test_order_twice_refused : (Instr.start 0 0 (.governor :: allEpochRules)).wellFormed = false := by decide
theorem test_order_short_refused : wfOrder [.governor] = false := by decide
theorem test_order_accepted : wfOrder allEpochRules = true := by decide

/-! ## The table gives no bits -/

theorem test_no_word_spells_a_command : decodeTableWord 8 0 = none ∧ State.reset.withFetchWord 8 0 = State.reset := ⟨rfl, rfl⟩

/-! ## Small states -/

/-- The state that a command leaves. -/
def after (c : Instr) (s : State) : State :=
  match exec c s with
  | .next t => t
  | _ => s

/-- The plant record of 6.7, with a compliance tolerance of 50 kW and a non-follow limit of 3 (1.10). -/
def plant : PlantRecord :=
  { stepUp := 6000, stepDown := 4000, windowLength := 5, windowUp := 10000, windowDown := 8000, tolerance := 50,
    nonFollowLimit := 3, silenceLimit := 4, leaseLength := 20, lagMultiplier := 1, absorb := true, reserveFloor := 100,
    reserveCeiling := 900, lineA := { enabled := true, mode := .latched, action := .freeze, ceiling := 0 },
    lineB := { enabled := true, mode := .epoch, action := .ceiling, ceiling := 20000 } }

/-- The same record as a body of SET_PLANT. -/
def plantBody : PlantBody :=
  { stepUp := 6000, stepDown := 4000, windowLength := 5, windowUp := 10000, windowDown := 8000, tolerance := 50,
    nonFollowLimit := 3, silenceLimit := 4, leaseLength := 20, lagMultiplier := 1, absorb := 1, reserveFloor := 100,
    reserveCeiling := 900, lineA := { enabled := 1, mode := 0, action := 0, ceiling := 0 },
    lineB := { enabled := 1, mode := 1, action := 1, ceiling := 20000 } }

def groupBody : GroupBody :=
  { lag := 7, floorPercent := 100, minCapped := 1, maxCapped := 3000, rest := 600, spacing := 100 }

/-- Block 1, rated 1,000 kW in group 1, in a state, with a cap and a revision. -/
def inState (st : BlockState) : State :=
  modifyBlock 0 (fun r => { r with state := st, profile := some { rated := 1000, group := 0 }, cap := some 400, revision := 9 })
    State.reset

/-- RUNNING at epoch 7 with the plant record committed and the ring UP. -/
def running : State :=
  { State.reset with
      run := { RunControl.atReset with state := .running }
      timer := { EpochTimer.atReset 0 with running := true, stall := .armed, epoch := 7 }
      store := { SettingsStore.atReset with configured := true }
      gov := { Governor.atReset with plant := some plant }
      ring := { RingController.atReset 0 true with state := .up, nodes := [1, 2, 49, 50] } }

/-- `running` with block 1 CAPPED at 2,900 kW under label 6, rated 4,000 kW. -/
def capped : State :=
  modifyBlock 0 (fun r => { r with state := .capped, profile := some { rated := 4000, group := 0 }, revision := 53,
                                   cap := some 2900, capLabel := some 6, captureEpoch := some 5 }) running

def armed (t : Trigger) : State :=
  { State.reset with run := { RunControl.atReset with state := .armed, trigger := some t } }

/-- A port enabled, with 63 words of the frame in progress. -/
def sensing : State :=
  { State.reset with sky := { SkyUnit.atReset 0 with
      enabled := true, loss := .armed, frame := some (List.replicate 63 (0x3EBB : Half)) } }

def note : AlertEntry :=
  { node := 3, cls := .note, data := 0x01020304, arrival := 7 }

/-- One NOTE in its queue, with its level set. -/
def alerted : State :=
  { State.reset with
      alerts := { AlertQueues.atReset with note := { entries := [note], overflow := 0 } }
      cond := { ConditionUnit.atReset with conditions := Condition.notePending.flag } }

/-! ## Requests on blocks, one step each -/

theorem test_enroll : (after (.enroll 1 48 65000 8) State.reset).block 47
    = { BlockRecord.emptyAt 1 with state := .silent, profile := some { rated := 65000, group := 7 } } := by decide +kernel
theorem test_profile : ((after (.profile 1 1 500 2) (inState .free)).block 0).profile = some { rated := 500, group := 1 } := by
  decide +kernel
theorem test_withdraw : (after (.withdraw 1 1) (inState .free)).block 0 = BlockRecord.emptyAt 10
    ∧ (after (.withdraw 1 1) (inState .free)).table.rotation = [] := by decide +kernel
theorem test_pin : ((after (.pin 1 1 1000) (inState .free)).block 0).cap = some 1000
    ∧ ((after (.pin 1 1 1000) (inState .free)).block 0).state = .pinned := by decide +kernel
/-- 1.11: an UNPIN below the floor. -/
theorem test_unpin_below_floor :
    let s := { (inState .pinned) with
      gov := { Governor.atReset with groups := Governor.atReset.groups.set 0 { GroupRecord.atReset with floorPercent := 50 } }
      timer := { EpochTimer.atReset 0 with epoch := 300 } }
    (after (.unpin 1 1) s).block 0 = { s.block 0 with
      state := .capped, cap := some 500, captureEpoch := some 300, owed := true, revision := 10 } := by decide +kernel
theorem test_bar : ((after (.bar 1 1) (inState .capped)).block 0).barCause = some .host
    ∧ (after (.bar 1 1) (inState .capped)).table.capped = [] := by decide +kernel
theorem test_unbar : (after (.unbar 1 1) (inState .barred)).table.rotation = [0] := by decide +kernel
theorem test_read_block : ((after (.readBlock 5 1) (inState .free)).link.sending.map fun f => (f.kind, f.tag, f.body.length))
    = some (0x88, 5, 63) := by decide +kernel

/-! ## Settings, epochs and run control -/

theorem test_set_plant : (after (.setPlant 1 plantBody) State.reset).store.plant = some plant := by decide +kernel
theorem test_set_group : ((after (.setGroup 1 8 groupBody) State.reset).store.groups[7]).map (·.spacing) = some 100 := by
  decide +kernel
theorem test_read_settings : ((after (.readSettings 1) State.reset).link.sending.map fun f => f.body.length) = some 116 := by
  decide +kernel
theorem test_set_epoch : (after (.setEpoch 1 2 1000 16) State.reset).timer.divisor = 16 := by decide +kernel
theorem test_start_refused_unconfigured :
    (after (.start 1 0 allEpochRules) State.reset).link.sending.map (·.body) = some [10] := by decide +kernel
theorem test_start_immediate :
    let t := after (.start 1 0 allEpochRules) { State.reset with
      store := { SettingsStore.atReset with plant := some plant, configured := true } }
    t.run.state = .running ∧ t.timer.epoch = 1 ∧ t.gov.plant = some plant ∧ t.store.plant = none := by decide +kernel
theorem test_stop_with_release :
    let t := after (.stop 1 1) capped
    t.ring.queue = [.cap 0 8 none 0, .store 8 0 0, .mark 8] ∧ (t.block 0).state = .free ∧ t.run.state = .stopped := by
  decide +kernel
theorem test_clear_hold_line_active :
    let s := { State.reset with run := { RunControl.atReset with lineA := { latch := true, seen := some .asserted } } }
    (after (.clearHold 1 0) s).run.lineA.latch = true ∧ (after (.clearHold 1 1) s).run.lineA.latch = true := by decide +kernel
theorem test_clear_hold :
    let s := { State.reset with run := { RunControl.atReset with lineB := { latch := true, seen := some .inactive } } }
    (after (.clearHold 1 1) s).run.lineB.latch = false := by decide +kernel
theorem test_period_expiry : (after (.internalPeriodExpiry allEpochRules) running).timer.epoch = 8
    ∧ (after (.internalPeriodExpiry allEpochRules) running).now = 100000
    ∧ (after (.internalPeriodExpiry allEpochRules) running).ring.queue.head? = some (.mark 8) := by decide +kernel
theorem test_epoch_in_too_early :
    let s := { running with timer := { running.timer with source := .epochLine } }
    (after (.epochInEdge 9999 allEpochRules) s).timer.epoch = 7
      ∧ (after (.epochInEdge 10000 allEpochRules) s).timer.epoch = 8 := by decide +kernel
theorem test_stall :
    let s := { running with timer := { running.timer with source := .epochLine } }
    (after .epochStall s).timer.stall = .tripped ∧ (after .epochStall s).now = 400001 := by decide +kernel
/-- R46, R63: an epoch or a frame sync that comes past the limit finds the monitor tripped, and arms it again. -/
theorem test_late_edge_stalls_first :
    let s := { running with timer := { running.timer with source := .epochLine } }
    conditionSet (after (.epochInEdge 400001 allEpochRules) s).cond.conditions .epochStall = true
      ∧ conditionSet (after (.epochInEdge 400000 allEpochRules) s).cond.conditions .epochStall = false
      ∧ (after (.epochInEdge 400001 allEpochRules) s).timer.stall = .armed
      ∧ (after (.epochInEdge 400001 allEpochRules) s).timer.epoch = 8 := by decide +kernel
theorem test_late_sync_loses_first :
    (after (.sensorFrameSync true allEpochRules) { sensing with now := 300001 }).cond.conditions = Condition.sensorLoss.flag
      ∧ (after (.sensorFrameSync true allEpochRules) { sensing with now := 300000 }).cond.conditions = 0
      ∧ (after (.sensorFrameSync true allEpochRules) { sensing with now := 300001 }).sky.loss = .armed := by decide +kernel
theorem test_start_line : (after (.startInEdge allEpochRules) (armed .startLine)).run.state = .running
    ∧ (after (.startInEdge allEpochRules) (armed .firstFrame)).run.state = .armed := by decide +kernel
theorem test_hold_a : (after (.holdLineAsserted .a) running).run.state = .holding
    ∧ (after (.holdLineAsserted .a) running).hold = .freeze := by decide +kernel
theorem test_hold_inactive_keeps_latch :
    let s := { running with run := { running.run with lineA := { latch := true, seen := some .asserted } } }
    (after (.holdLineInactive .a) s).run.lineA = { latch := true, seen := some .inactive } := by decide +kernel

/-! ## Sky stations and warnings -/

theorem test_set_sensor : (after (.setSensor 1 10 1) State.reset).sky.loss = .armed := by decide +kernel
theorem test_load_station :
    ((after (.loadStation 1 24 { slot := 63, enabled := 1, historyLength := 4, drop := 8, persistence := 1, clear := 255 })
      State.reset).station 23).slot = 63 := by decide +kernel
theorem test_read_station : ((after (.readStation 1 24) State.reset).link.sending.map fun f => f.body.length) = some 19 := by
  decide +kernel
theorem test_frame_sync : (after (.sensorFrameSync true allEpochRules) { sensing with now := 5 }).sky.frame = some []
    ∧ (after (.sensorFrameSync true allEpochRules) { sensing with now := 5 }).sky.measureFrom = 5 := by decide +kernel
theorem test_frame_full : (after (.sensorFrameFull 0x3EBB) sensing).sky.frame = none := by decide +kernel
theorem test_word_received : (after (.sensorWordReceived 0x3EBB)
    { sensing with sky := { sensing.sky with frame := some [] } }).sky.frame = some [0x3EBB] := by decide +kernel
theorem test_sensor_loss : (after .sensorLoss sensing).sky.loss = .tripped ∧ (after .sensorLoss sensing).now = 300001 := by
  decide +kernel

/-- 4.5: station 6 before frame k. -/
def station6 : Station :=
  { Station.atReset 11 with
      enabled := true, historyLength := 8, persistence := 2, lastSequence := some 4
      history := [1000, 1020, 1010, 990, 1005, 1015, 1000, 1012] }

/-- 4.5: 700 W/m², valid, count 5. -/
theorem test_word_of_frame_k : sampleOf (some 4) 0x2BCD = some 700 ∧ sampleOf (some 5) 0x2BCD = none := by decide +kernel
/-- 4.5: frames k, k + 2, k + 3 and k + 4 at the detector. -/
theorem test_detector_frame_k : (station6.judge 700).1.push 700 = { station6 with
    detector := .pending, reference := some 1020, depth := some 80, pendingCount := some 1
    history := [1020, 1010, 990, 1005, 1015, 1000, 1012, 700] } := by decide +kernel
theorem test_detector_frame_k2 :
    ({ station6 with detector := .pending, reference := some 1020, depth := some 80, pendingCount := some 1 } : Station).judge 610
      = ({ station6 with detector := .shaded, reference := some 1020, depth := some 102 }, .opening 102) := by decide +kernel
theorem test_detector_frame_k3 :
    (({ station6 with detector := .shaded, reference := some 1020, depth := some 102, warningHeld := true } : Station).judge 520).2
      = .deepening 125 := by decide +kernel
theorem test_detector_frame_k4 :
    (({ station6 with detector := .shaded, reference := some 1020, depth := some 102, warningHeld := true } : Station).judge 980).1
      = { station6 with warningHeld := true } := by decide +kernel

def oneLead : LeadBody :=
  { station := 24, block := 48, lead := 255 }

theorem test_leads_begin : (after (.leadsBegin 1) { State.reset with front := { FrontTracker.atReset with
    staging := [{ station := 0, block := 0, lead := 1 }] } }).front.staging = [] := by decide +kernel
theorem test_leads_add : (after (.leadsAdd 1 [oneLead]) State.reset).front.staging
    = [{ station := 23, block := 47, lead := 255 }] := by decide +kernel
theorem test_leads_add_twice : (after (.leadsAdd 1 [oneLead, oneLead]) State.reset).front.staging = [] := by decide +kernel
theorem test_leads_commit : (after (.leadsCommit 1) { State.reset with front := { FrontTracker.atReset with
    staging := [{ station := 0, block := 0, lead := 1 }] } }).front.active = [{ station := 0, block := 0, lead := 1 }] := by
  decide +kernel

/-- The warning of 7.11, and the warnings list that holds it alone. -/
def warning : Warning :=
  { id := 1, station := 5, depth := 192, opened := 205, arrivals := [(0, 212), (3, 214)], earliest := 212 }

def warned : State :=
  { running with
      front := { FrontTracker.atReset with warnings := [warning], nextId := 2 }
      sky := { SkyUnit.atReset 0 with
        stations := (SkyUnit.atReset 0).stations.set 5 { Station.atReset 5 with warningHeld := true } } }

theorem test_flush_warnings : (after (.flushWarnings 1) warned).front.warnings = []
    ∧ ((after (.flushWarnings 1) warned).station 5).warningHeld = false := by decide +kernel
theorem test_read_warning : ((after (.readWarning 1 0) warned).link.sending.map fun f => f.body.length) = some 62 := by
  decide +kernel
theorem test_open_request :
    let s := { running with front := { FrontTracker.atReset with active := [{ station := 5, block := 0, lead := 5 },
                                                                            { station := 5, block := 3, lead := 3 }] } }
    (openRequest 5 192 s).front.warnings
      = [{ id := 1, station := 5, depth := 192, opened := 7, arrivals := [(0, 12), (3, 10)], earliest := 10 }] := by decide +kernel

/-! ## The ring, nodes and alerts -/

theorem test_read_plant : ((after (.readPlant 1) running).link.sending.map fun f => f.body.length) = some 119 := by decide +kernel
theorem test_read_nodes : ((after (.readNodes 1) running).link.sending.map fun f => f.body.length) = some 56 := by decide +kernel
theorem test_probe_ring : (after (.probeRing 1) running).ring.queue = [.probe 0]
    ∧ (after (.probeRing 1) running).ring.probe = .queued := by decide +kernel
theorem test_load_ring : (after (.loadRing 1 [50, 1]) running).ring.nodes = [50, 1]
    ∧ (after (.loadRing 1 [50, 1]) running).ring.state = .down := by decide +kernel
theorem test_load_ring_twice : (after (.loadRing 1 [1, 1]) running).ring.nodes = [1, 2, 49, 50] := by decide +kernel
theorem test_read_ring : ((after (.readRing 1) running).link.sending.map fun f => f.body.length) = some 91 := by decide +kernel
theorem test_signal_loss : (after .ringSignalLoss running).ring.state = .down
    ∧ (after .ringSignalLoss running).cond.conditions = Condition.ringLoss.flag := by decide +kernel
theorem test_signal_present : (after .ringSignalPresent { State.reset with now := 3 }).ring.settleFrom = 3 := by decide +kernel
theorem test_settled :
    let s := { running with ring := { running.ring with state := .down } }
    (after .ringSettled s).ring.state = .probing ∧ (after .ringSettled s).now = 10000 := by decide +kernel
theorem test_window_expiry :
    let s := { running with ring := { running.ring with state := .probing, probe := .outstanding 3 100 false } }
    (after .probeWindowExpiry s).ring.probe = .outstanding 3 100 true ∧ (after .probeWindowExpiry s).now = 20100 := by
  decide +kernel
theorem test_retry_expiry :
    let s := { running with ring := { running.ring with state := .probing, nextProbe := 4, probe := .outstanding 3 100 true } }
    (after .probeRetryExpiry s).ring.queue = [.probe 4] ∧ (after .probeRetryExpiry s).now = 200100 := by decide +kernel
theorem test_probe_returns :
    let s := { running with ring := { running.ring with state := .probing, probe := .outstanding 3 0 false } }
    (after (.ringPacketReceived (OwnPacket.probe 3).bytes) s).ring.state = .up := by decide +kernel
theorem test_out_port : (after .outPortFree { running with ring := { running.ring with
    queue := [.mark 7], forward := [[1, 2, 3]] } }).ring.sending = some [1, 2, 3] := by decide +kernel
theorem test_alert_take : (after (.alertTake 2 3) alerted).link.sending.map (·.body)
    = some [0, 3, 3, 0x04, 0x03, 0x02, 0x01, 7, 0, 0, 0, 0, 0] ∧ (after (.alertTake 2 3) alerted).cond.conditions = 0 := by
  decide +kernel
theorem test_alert_peek : (after (.alertPeek 2 3 0) alerted).alerts = alerted.alerts
    ∧ (after (.alertPeek 2 3 1) alerted).link.sending.map (·.body) = some [6] := by decide +kernel
theorem test_alert_flush : ((after (.alertFlush 2 3) alerted).alerts.get .note).entries = [] := by decide +kernel

/-! ## Host link, conditions and reset -/

theorem test_read_conditions : (after (.readConditions 9) alerted).link.sending.map (·.body.length) = some 12 := by decide +kernel
theorem test_clear_conditions_keeps_levels :
    (after (.clearConditions 1 0xFFFFFFFF) { alerted with cond := { alerted.cond with conditions := 0xFFFFFFFF } }).cond.conditions
      = 0xFFFFFFFF &&& levelConditions := by decide +kernel
theorem test_mask_sends_notice : (after (.setNoticeMask 1 0xFFFFFFFF) alerted).link.sending.map (·.kind) = some 0x7F
    ∧ (after (.setNoticeMask 1 0xFFFFFFFF) alerted).cond.gate = .closed := by decide +kernel
theorem test_rearm : (after (.noticeRearm 1) { State.reset with
    cond := { conditions := 0, mask := 1, gate := .closed } }).cond.gate = .opened := by decide +kernel
theorem test_reset_waits_for_reply : (after (.reset 1) running).link.resetScheduled = true
    ∧ (after (.reset 1) running).run.state = .running := by decide +kernel
theorem test_reset_reply_sent :
    (after (.resetReplySent { lrate1 := true, lrate0 := false }) (after (.reset 1) running)).link.rate = .baud460800 := by
  decide +kernel
/-- R182, R189: a BAD_LENGTH reply to an earlier RESET frame leaves before the OK reply, and resets nothing. -/
theorem test_refused_reset_reply_leaves_first :
    let s := after (.reset 1) { running with link := { running.link with sending := some { kind := 0xA4, tag := 3, body := [2] } } }
    (after .hostFrameSent s).run.state = .running ∧ (after .hostFrameSent s).link.sending = some { kind := 0xA4, tag := 1, body := [0] }
      ∧ (after .hostFrameSent (after .hostFrameSent s)).run.state = .stopped := by decide +kernel
theorem test_reset_asserted : (after .resetNAsserted running).run.state = .stopped
    ∧ (after .resetNAsserted running).resetLow = true := by decide +kernel
theorem test_reset_released : (after (.resetNReleased { lrate1 := true, lrate0 := true })
    { running with resetLow := true }).link.rate = .baud921600 := by decide +kernel
theorem test_byte_starts_frame : (after (.hostByteReceived 0xC3 true []) State.reset).link.receiver = .collect [] 0
    ∧ (after (.hostByteReceived 0xC2 true []) State.reset).link.receiver = .hunt := by decide +kernel
theorem test_frame_taken :
    (after (.hostFrameComplete (frameWithCrc 0x20 9 []) []) State.reset).link.sending.map (·.kind) = some 0xA0 := by decide +kernel
theorem test_frame_bad_crc : (after (.hostFrameComplete { frameWithCrc 0x20 9 [] with crcLow := 0 } []) State.reset).link.linkErrors
    = 1 := by decide +kernel
theorem test_gap_timeout : (after .hostFrameGapTimeout { State.reset with
    link := { State.reset.link with receiver := .collect [1] 0 } }).link.linkErrors = 1 := by decide +kernel
theorem test_held_request : (after (.heldRequestTaken []) { State.reset with
    link := { State.reset.link with holding := some { kind := 0x20, tag := 4, body := [] } } }).link.sending.map (·.tag) = some 4 := by
  decide +kernel
theorem test_frame_sent : (after .hostFrameSent { State.reset with
    link := { State.reset.link with
                sending := some { kind := 0x7F, tag := 0, body := [] }
                waiting := [{ kind := 0xA0, tag := 4, body := [] }] } }).link.sending.map (·.kind) = some 0xA0 := by decide +kernel

/-- R191. -/
theorem test_crc : crc16 [0x31, 0x32, 0x33, 0x34, 0x35, 0x36, 0x37, 0x38, 0x39] = 0x29B1 := by decide +kernel

/-! ## 6.7: the bands of seven dispatches -/

theorem test_bands :
    bandOf plant 99400 99400 99400 = { low := 95400, high := 105400 }
    ∧ bandOf plant 100200 100200 99400 = { low := 96200, high := 106200 }
    ∧ bandOf plant 104000 104000 99400 = { low := 100000, high := 109400 }
    ∧ bandOf plant 109900 109900 99400 = { low := 105900, high := 109400 }
    ∧ bandOf plant 101000 109900 99400 = { low := 101900, high := 107000 }
    ∧ bandOf plant 94000 109900 94000 = { low := 94000, high := 94000 }
    ∧ bandOf { plant with windowLength := 3 } 95500 101000 94000 = { low := 93000, high := 101500 } := by decide +kernel

theorem test_window_of_dispatch_6 :
    appendSample 5 94000 [99400, 100200, 104000, 109900, 101000] = [100200, 104000, 109900, 101000, 94000] := by decide +kernel

/-! ## 7.11: one dispatch -/

def plant711 : PlantRecord :=
  { plant with stepUp := 3000, stepDown := 1500, windowLength := 10, windowUp := 8000, windowDown := 6000, silenceLimit := 6 }

def snap (id : BlockIx) (g : GroupIx) (st : BlockState) (rev : Half) (rated usable : Nat) (cap : Option Nat) (at_ : Option Epoch) :
    SnapBlock :=
  { id, state := st, revision := rev, profile := { rated, group := g }, floor := 2000, usable, measured := 0, cap,
    captureEpoch := at_, lastRelease := none }

def groups711 : Vector GroupRecord 8 :=
  (Governor.atReset.groups.set 0 { GroupRecord.atReset with floorPercent := 20, spacing := 5 }).set 1
    { GroupRecord.atReset with floorPercent := 25, maxCapped := 60, spacing := 5 }

def opened711 : Opened :=
  { epoch := 210
    sample := { sample := 25400, source := .meter, count := 10, wmax := 26000, wmin := 24800,
                band := { low := 23900, high := 28400 } }
    snapshot :=
      { blocks := [snap 0 0 .free 12 10000 9000 none none, snap 1 0 .capped 88 10000 3800 (some 3000) (some 207),
                   snap 2 1 .capped 41 8000 7400 (some 6000) (some 150), snap 3 1 .free 19 8000 7600 none none]
        capped := [2, 1], rotation := [0, 3], groups := groups711
        groupCapture := ((Vector.replicate 8 none).set 0 (some 207)).set 1 (some 150)
        sDis := 3000, sChg := 1000, commanded := 0, storageOwed := false, warnings := [warning], hold := .none } }

theorem test_plan_figures :
    (planOf plant711 opened711).supply
      = { controllable := 27800, fixed := 0, available := 27800, sDis := 3000, sChg := 1000, glide := some 24350, target := 24350 }
    ∧ (planOf plant711 opened711).plan = { path := .within, command := -1000, curtailment := 2450, placed := 2450 } := by
  decide +kernel

theorem test_plan_decisions : (planOf plant711 opened711).todo
    = [.store (-1000), .capture 3 5746 19, .capChange 1 3204 88, .release 2 41] := by decide +kernel

/-- The blocks of 7.11 as staging meets them: block 2 has lost its derate and stands at revision 89. -/
def staging711 : State :=
  let put (b : BlockIx) (g : GroupIx) (st : BlockState) (rev : Half) (cap : Option Nat) (at_ : Option Epoch) (s : State) : State :=
    modifyBlock b (fun r => { r with state := st, profile := some { rated := 8000, group := g }, revision := rev, cap,
                                     captureEpoch := at_ }) s
  let blocks := put 3 1 .free 19 none none (put 0 0 .free 12 none none
    (put 1 0 .capped 89 (some 3000) (some 207) (put 2 1 .capped 41 (some 6000) (some 150) running)))
  { blocks with gov := { blocks.gov with plant := some plant711, phase := .computing opened711 } }

theorem test_staging_queue : (after .dispatchComputingEnd staging711).ring.queue
    = [.store 211 (-1000) 20, .cap 3 211 (some 5746) 20, .cap 2 211 none 0] := by decide +kernel

theorem test_staging_records :
    let t := after .dispatchComputingEnd staging711
    t.table.capped = [1, 3] ∧ t.table.rotation = [0] ∧ (t.block 1).revision = 89 ∧ (t.block 2).state = .resting
      ∧ t.gov.staleDecisions = 1 ∧ t.gov.heldTarget = some 24350 ∧ t.gov.phase = .idle
      ∧ t.gov.status.map (·.counts)
          = some { captures := 1, capChanges := 0, releases := 1, storeStaged := true, stale := 1 } := by decide +kernel

/-- R107: the dispatch in flight is ended as the next one opens. -/
theorem test_period_expiry_overrun :
    let t := after (.internalPeriodExpiry allEpochRules) staging711
    t.gov.overruns = 1 ∧ t.gov.phase.epoch = some 8 ∧ conditionSet t.cond.conditions .dispatchOverrun = true := by decide +kernel

/-! ## 1.10: compliance and lapse -/

def report (e : Epoch) (mode : UnitMode) (measured : Nat) : BlockReport :=
  { epoch := e, measured := some measured, available := some 3610, mode, applied := some 2900, leaseLeft := 10 }

theorem test_compliance : ((blockReport 0 (report 7 .capped 2960) capped).block 0).nonFollowRun = 1
    ∧ ((blockReport 0 (report 7 .capped 2950) capped).block 0).nonFollowRun = 0 := by decide +kernel
theorem test_lapse :
    let t := blockReport 0 (report 7 .free 3580) capped
    (t.block 0).state = .free ∧ (t.block 0).revision = 54 ∧ (t.block 0).lapseCount = 1 ∧ t.table.rotation = [0]
      ∧ t.cond.conditions = Condition.blockLapsed.flag := by decide +kernel

/-! ## 4.2, 8.2: a lost station, and the bounds of an export -/

theorem test_station_lost :
    let s : State := { State.reset with sky := { SkyUnit.atReset 0 with
      stations := (SkyUnit.atReset 0).stations.set 5 { station6 with invalidRun := 4 } } }
    ((invalidSample 5 s).station 5).detector = .lost ∧ (invalidSample 5 s).cond.conditions = Condition.stationLost.flag := by
  decide +kernel

def nodeReport (v : Int) : NodeReport :=
  { epoch := 7, measured := some v, soe := none, discharge := none, charge := none, mode := none, applied := none }

/-- Log 24. -/
theorem test_export_bounds :
    (meterReport (nodeReport (-2147483648)) running).nodes.meter.exported = some (-2147483647)
    ∧ (meterReport (nodeReport 2147483647) running).nodes.meter.exported = some 2147483647 := by decide +kernel

/-- R3, log 27: adopted and at once barred for NOFOLLOW, at a non-follow limit of 1: the revision increases twice. -/
theorem test_adopted_and_barred :
    let s := { (modifyBlock 0 (fun r => { r with state := .silent, cap := none, captureEpoch := none }) capped) with
      gov := { capped.gov with plant := some { plant with nonFollowLimit := 1 } } }
    let t := blockReport 0 (report 7 .capped 2951) s
    (t.block 0).state = .barred ∧ (s.block 0).revision = 53 ∧ (t.block 0).revision = 55 := by decide +kernel

/-! ## Witnesses: states and operands that meet the hypotheses of the statements, clause by clause -/

theorem ready_reset : Ready State.reset := ⟨rfl, rfl⟩
theorem ready_running : Ready running := ⟨rfl, rfl⟩
theorem ready_inState (st : BlockState) : Ready (inState st) := ⟨rfl, rfl⟩
theorem state_inState (st : BlockState) : ((inState st).block 0).state = st := by
  unfold inState; rw [modifyBlock_block_self]
theorem profile_inState (st : BlockState) :
    ((inState st).block 0).profile = some { rated := 1000, group := 0 } ∧ ((inState st).block 0).cap = some 400 := by
  unfold inState; rw [modifyBlock_block_self]; exact ⟨rfl, rfl⟩
theorem agree_inState (st : BlockState) : CollectionsAgree (inState st).table := by
  cases st <;> (unfold CollectionsAgree; decide +kernel)
theorem runLawful_reset : RunLawful State.reset := by unfold RunLawful; decide +kernel
theorem runLawful_running : RunLawful running := by unfold RunLawful; decide +kernel
theorem queueLawful_running : QueueLawful running.ring := by unfold QueueLawful; decide +kernel
theorem levelsFollow_alerted : LevelsFollow alerted := fun c => by cases c <;> decide +kernel
theorem levelsFollow_reset : LevelsFollow State.reset := fun c => by cases c <;> decide +kernel
theorem agree_running : CollectionsAgree running.table := by unfold CollectionsAgree; decide +kernel
theorem agree_capped : CollectionsAgree capped.table := by unfold CollectionsAgree; decide +kernel

theorem skyLawful_sensing : SkyLawful sensing.sky := by
  have hd : sensing.sky = { SkyUnit.atReset 0 with enabled := true, loss := .armed, frame := some (List.replicate 63 0x3EBB) } := rfl
  have h := reset_sky_lawful 0
  rw [hd]
  refine ⟨⟨by simp, fun words hw => ?_⟩, h.2⟩
  cases hw
  exact ⟨rfl, by decide +kernel⟩

theorem skyLawful_enabled : SkyLawful { SkyUnit.atReset 0 with enabled := true, loss := .armed } :=
  ⟨⟨by simp, fun _ hw => absurd hw (by simp [SkyUnit.atReset])⟩, (reset_sky_lawful 0).2⟩

theorem witness_StepRunsFrontCommand :
    ({ State.reset with pending := [.outPortFree] } : State).pending = .outPortFree :: [] := rfl

theorem witness_IdleStepAdvancesClock :
    (State.reset.pending = [] ∧ State.reset.resetLow = false)
      ∧ ({ State.reset with resetLow := true } : State).pending = [] := ⟨⟨rfl, rfl⟩, rfl⟩

theorem witness_FullResetLeavesItsValues (p : Straps) (k : Bool) :
    State.afterReset [] 3 0 k p = State.afterReset [] 3 0 k p := rfl

/-- The commands that an idle step brings when the clock of `s` comes to `n`. -/
def brought (n : Time) (s : State) : List Instr :=
  match step { s with now := n - 1 } with
  | .next t => t.pending
  | _ => []

/-- `running` with an epoch source other than the period, every 100 ms. -/
def timedBy (src : EpochSource) : State :=
  { running with timer := { running.timer with source := src } }

/-- `running` with its link as it is after reset but for `f`. -/
def linked (f : HostLink → HostLink) : State :=
  { running with link := f running.link }

/-- The instants of R45, R46, R63, R145, R146, R148 and R178: each command is brought at its microsecond, and nothing at the one before. -/
theorem witness_commands_due_at_an_instant :
    (brought 5001 (linked fun l => { l with receiver := .collect [] 0 }) = [.hostFrameGapTimeout]
      ∧ brought 5000 (linked fun l => { l with receiver := .collect [] 0 }) = [])
    ∧ (brought 100000 running = [.internalPeriodExpiry (Config.epochOrder 100000)] ∧ brought 99999 running = [])
    ∧ (brought 400001 (timedBy .epochLine) = [.epochStall] ∧ brought 400000 (timedBy .epochLine) = []
      ∧ brought 400001 (timedBy .sensor) = [.epochStall])
    ∧ (brought 300001 { State.reset with sky := sensing.sky } = [.sensorLoss]
      ∧ brought 300000 { State.reset with sky := sensing.sky } = [])
    ∧ (let seen := { State.reset with ring := { State.reset.ring with signalSeen := true, nodes := [1] } }
       brought 10000 seen = [.ringSettled] ∧ brought 9999 seen = []
        ∧ brought 10000 { seen with ring := { seen.ring with nodes := [] } } = [])
    ∧ (let probed (past : Bool) :=
        { State.reset with ring := { State.reset.ring with state := .probing, probe := .outstanding 3 0 past } }
       (brought 20000 (probed false) = [.probeWindowExpiry] ∧ brought 19999 (probed false) = [])
        ∧ brought 200000 (probed true) = [.probeRetryExpiry] ∧ brought 199999 (probed true) = []
        ∧ brought 20000 { probed true with ring := { (probed true).ring with state := .up } } = []) :=
  ⟨⟨rfl, rfl⟩, ⟨rfl, rfl⟩, ⟨rfl, rfl, rfl⟩, ⟨rfl, rfl⟩, ⟨rfl, rfl, rfl⟩, ⟨rfl, rfl⟩, rfl, rfl, rfl⟩

/-- The commands of R125, R155 and R180 that wait on a condition: each brought at once, and not while what it waits for is missing. -/
theorem witness_commands_due_at_once :
    (let held (inHand : Option (Byte × Byte)) := linked fun l => { l with inHand, holding := some { kind := 0x18, tag := 1, body := [] } }
     brought 1 (held none) = [.heldRequestTaken (Config.epochOrder 1)] ∧ brought 1 (held (some (0x18, 0))) = [])
    ∧ (let staging (queue : List OwnPacket) := { running with
        gov := { running.gov with phase := .staging opened711 (planOf plant711 opened711).supply (planOf plant711 opened711).plan
                                    [.release 2 41] noCounts }
        ring := { running.ring with queue, sending := some [] } }
       brought 1 (staging []) = [.stagingResumed] ∧ brought 1 (staging (List.replicate 63 (.cap 0 211 none 0))) = []
        ∧ brought 1 (staging (List.replicate 63 (.cap 2 211 none 0))) = [.stagingResumed])
    ∧ (let porting (sending : Option (List Byte)) (queue : List OwnPacket) (forward : List (List Byte)) :=
        { running with ring := { running.ring with sending, queue, forward } }
       brought 1 (porting none [.mark 7] []) = [.outPortFree] ∧ brought 1 (porting none [] [[1]]) = [.outPortFree]
        ∧ brought 1 (porting (some [1]) [.mark 7] [[1]]) = [] ∧ brought 1 (porting none [] []) = []) :=
  ⟨⟨rfl, rfl⟩, ⟨rfl, rfl, rfl⟩, rfl, rfl, rfl, rfl⟩

/-- While RESET_N is low nothing is brought (R189). -/
theorem test_nothing_due_in_reset : brought 100000 { running with resetLow := true } = [] := rfl

/-- A warning opened at epoch `o` with its one arrival at `a`. -/
def arriving (id : Nat) (t : StationIx) (o a : Epoch) : Warning :=
  { id, station := t, depth := 100, opened := o, arrivals := [(0, a)], earliest := a }

/-- RUNNING at epoch 300 with three warnings: one opened 254 epochs before, whose last arrivals are the latest a lead allows, and two of
one arrival, the older first. The queue holds MARK 300 and a CAP behind it. -/
def busy : State :=
  setHeld 2 true (setHeld 1 true (setHeld 0 true { running with
    timer := { running.timer with epoch := 300 }
    ring := { running.ring with queue := [.mark 300, .cap 0 301 (some 5) 20, .store 301 0 0], lastMark := some 300 }
    front := { FrontTracker.atReset with
      warnings := [arriving 255 0 46 301, arriving 1 1 250 302, arriving 2 2 299 302], nextId := 3 } }))

theorem skyLawful_busy : SkyLawful busy.sky :=
  setHeld_lawful 2 true _ (setHeld_lawful 1 true _ (setHeld_lawful 0 true _ (reset_sky_lawful 0)))

theorem flagsFollow_busy : FlagsFollow busy := by unfold FlagsFollow; decide +kernel

theorem warningStands_arriving (e : Epoch) (id : Nat) (t : StationIx) (o a : Epoch) :
    WarningStands e (arriving id t o a) ↔ (e - o).toNat < 255 ∧ 1 ≤ (a - o).toNat ∧ (a - o).toNat ≤ 255 := by
  simp [WarningStands, arriving]

theorem warningStands_boundaries :
    WarningStands 300 (arriving 1 0 46 301) ∧ ¬WarningStands 301 (arriving 1 0 46 301) ∧ WarningStands 300 (arriving 1 0 300 301)
    ∧ ¬WarningStands 300 (arriving 1 0 300 300) ∧ ¬WarningStands 300 (arriving 1 0 300 556) := by
  simp only [warningStands_arriving]
  decide +kernel

theorem standsAhead_boundaries :
    StandsAhead 300 (arriving 1 1 250 302) (arriving 2 2 299 302) ∧ ¬StandsAhead 300 (arriving 2 2 299 302) (arriving 1 1 250 302)
    ∧ StandsAhead 300 (arriving 2 2 299 302) (arriving 1 1 250 303)
    ∧ ¬StandsAhead 300 (arriving 1 1 250 303) (arriving 2 2 299 302) := by
  unfold StandsAhead
  decide +kernel

theorem warningsOrdered_busy : WarningsOrdered busy := by
  refine ⟨nofun, fun w hw => ?_, by unfold StandsAhead; decide +kernel⟩
  have hl : w ∈ [arriving 255 0 46 301, arriving 1 1 250 302, arriving 2 2 299 302] := hw
  simp only [List.mem_cons, List.not_mem_nil, or_false] at hl
  rcases hl with rfl | rfl | rfl <;> exact (warningStands_arriving 300 _ _ _ _).2 (by decide +kernel)

/-- R156: a CAP of the epoch of a MARK, or of an earlier one, may not stand behind it, and one of the next epoch may. -/
theorem mayFollow_boundaries :
    MayFollow (.mark 300) (.cap 0 301 none 0) ∧ ¬MayFollow (.mark 300) (.cap 0 300 none 0) ∧ ¬MayFollow (.mark 300) (.store 299 0 0)
    ∧ MayFollow (.mark 300) (.probe 1) ∧ MayFollow (.cap 0 300 none 0) (.mark 300) := by
  refine ⟨fun e l he hl => ?_, fun h => absurd (h 300 300 rfl rfl) (by decide +kernel),
    fun h => absurd (h 300 299 rfl rfl) (by decide +kernel),
    fun _ _ _ hl => (nomatch hl), fun _ _ he => (nomatch he)⟩
  cases he
  cases hl
  decide +kernel

theorem marksLead_busy : MarksLead busy.run.state busy.ring := by
  refine ⟨?_, fun _ e he => ?_⟩
  · refine .cons (fun q hq => ?_) (.cons (fun q _ _ _ he => (nomatch he)) (.cons (fun q _ _ _ he => (nomatch he)) .nil))
    intro e l he hl
    cases he
    rcases List.mem_cons.mp hq with rfl | hq
    · cases hl
      decide +kernel
    · cases List.mem_singleton.mp hq
      cases hl
      decide +kernel
  · rcases List.mem_cons.mp he with he | he
    · cases he
      rfl
    · simp at he

/-- The invariants in a state with a command at the front, which a step runs; the queue and the warnings list hold entries. -/
theorem witness_invariants_at_every_step :
    let s : State := { busy with pending := [.readRing 1] }
    CollectionsAgree s.table ∧ QueueLawful s.ring ∧ GateQuiet s.cond ∧ LevelsFollow s ∧ RunLawful s ∧ SkyLawful s.sky
      ∧ FrontLawful s.front ∧ WindowLawful s.gov ∧ MarksLead s.run.state s.ring ∧ FlagsFollow s ∧ WarningsOrdered s
      ∧ ∃ t, step s = .next t := by
  refine ⟨agree_running, by unfold QueueLawful; decide +kernel, fun _ => rfl, levelsFollow_reset, by unfold RunLawful; decide +kernel,
    skyLawful_busy, ⟨reset_front_lawful.1, reset_front_lawful.2.1, by decide +kernel⟩, ⟨fun _ _ => Nat.zero_le _, nofun⟩,
    marksLead_busy, flagsFollow_busy, warningsOrdered_busy, _, rfl⟩

theorem witness_BlockEnrolledProfiledWithdrawn :
    (Ready State.reset ∧ (1#8).toNat = (0 : BlockIx).val + 1 ∧ (48#8).toNat = (47 : BlockIx).val + 1 ∧ 1 ≤ (1#16).toNat
      ∧ (65000#16).toNat ≤ 65000 ∧ (1#8).toNat = (0 : GroupIx).val + 1 ∧ (8#8).toNat = (7 : GroupIx).val + 1
      ∧ (State.reset.block 0).state = .empty ∧ (State.reset.block 47).state = .empty)
    ∧ ∀ st, Ready (inState st) ∧ ((inState st).block 0).state = st :=
  ⟨⟨ready_reset, by decide +kernel⟩, fun st => ⟨ready_inState st, state_inState st⟩⟩

theorem witness_PinAndUnpinTaken :
    (∀ st, Ready (inState st) ∧ ((inState st).block 0).state = st
      ∧ ((inState st).block 0).profile = some { rated := 1000, group := 0 } ∧ ((inState st).block 0).cap = some 400)
    ∧ (0#16).toNat ≤ 1000 ∧ (1000#16).toNat ≤ 1000 :=
  ⟨fun st => ⟨ready_inState st, state_inState st, profile_inState st⟩, by decide, by decide⟩

theorem witness_BarAndUnbarTaken :
    (∀ st, Ready (inState st) ∧ ((inState st).block 0).state = st) ∧ BlockState.out ≠ .barred ∧ BlockState.silent ≠ .empty :=
  ⟨fun st => ⟨ready_inState st, state_inState st⟩, by decide, by decide⟩

theorem witness_BlockRequestsRefused :
    NoBlock 0 ∧ NoBlock 49 ∧ NoBlock 255 ∧ ¬NoBlock 1 ∧ ¬NoBlock 48 ∧ NoProfile 0 1 ∧ NoProfile 65001 1 ∧ NoProfile 1 0
    ∧ NoProfile 1 9 ∧ ¬NoProfile 1 1 ∧ ¬NoProfile 65000 8 ∧ 1000 < (1001#16).toNat ∧ 1000 < (65535#16).toNat
    ∧ (∀ st, Ready (inState st) ∧ ((inState st).block 0).state = st)
    ∧ ((inState .free).block 0).profile = some { rated := 1000, group := 0 } := by
  refine ⟨?_, ?_, ?_, ?_, ?_, ?_, ?_, ?_, ?_, ?_, ?_, by decide, by decide, fun st => ⟨ready_inState st, state_inState st⟩,
    (profile_inState _).1⟩ <;> (first | unfold NoBlock | unfold NoProfile) <;> decide

theorem witness_PlainReadsAnswer : Ready State.reset ∧ Ready running := ⟨ready_reset, ready_running⟩

theorem witness_NamedReadsAnswer :
    Ready warned ∧ Ready alerted ∧ (48#8).toNat = (47 : BlockIx).val + 1 ∧ (24#8).toNat = (23 : StationIx).val + 1 ∧ 24 < (25#8).toNat
    ∧ (warned.front.warnings[(0#8).toNat]? = some warning ∧ (31#8).toNat ≤ 31 ∧ 31 < (32#8).toNat)
    ∧ warned.front.warnings.length ≤ (1#8).toNat ∧ (3 < (4#8).toNat)
    ∧ AlertClass.ofCode 3 = some .note ∧ (alerted.alerts.get .note).entries[(0#8).toNat]? = some note
    ∧ (alerted.alerts.get .note).entries ≠ [] ∧ (alerted.alerts.get .note).entries.length ≤ (1#8).toNat
    ∧ AlertClass.ofCode 0 = some .trip ∧ (alerted.alerts.get .trip).entries = [] :=
  ⟨⟨rfl, rfl⟩, ⟨rfl, rfl⟩, by decide +kernel⟩

theorem witness_ReplyDataHaveTheirWidths : warning.arrivals.length ≤ 8 ∧ running.ring.nodes.length ≤ 50
    ∧ (List.replicate 8 ((0 : BlockIx), (1 : Epoch))).length ≤ 8 ∧ (List.replicate 50 1).length ≤ 50 ∧ 31 < 32 := by
  decide +kernel

/-- 12.1, 12.3: the body of a refusal and of an answer, and the first and last condition. -/
theorem test_replies_and_conditions :
    (replyFrame 0x08 5 .notFound [1, 2]).body = [6] ∧ (replyFrame 0x08 5 .ok [1, 2]).body = [0, 1, 2]
    ∧ (replyFrame 0x08 5 .ok []).kind = 0x88 ∧ setCondition 0 .ringLoss = 1 ∧ setCondition 0 .staleDecision = 0x80000000
    ∧ clearCondition 0xFFFFFFFF .staleDecision = 0x7FFFFFFF := by decide +kernel

/-- NOTE_PENDING set, with the gate OPEN and nothing masked; `masked` has it in the mask. -/
def masked (g : Gate) : State :=
  { alerted with cond := { alerted.cond with mask := 0xFFFFFFFF, gate := g } }

theorem witness_RaiseFollowsTheGate :
    conditionSet alerted.cond.conditions .notePending = true ∧ conditionSet alerted.cond.conditions .linkError = false
    ∧ (masked .opened).cond.gate = .opened
    ∧ setCondition (masked .opened).cond.conditions .linkError &&& (masked .opened).cond.mask ≠ 0
    ∧ (masked .closed).cond.gate = .closed
    ∧ setCondition alerted.cond.conditions .linkError &&& alerted.cond.mask = 0 := by decide +kernel

theorem witness_ClearConditionsTaken : Ready alerted := ⟨rfl, rfl⟩

theorem witness_SetNoticeMaskTaken :
    Ready alerted ∧ Ready (masked .closed) ∧ alerted.cond.gate = .opened ∧ alerted.cond.conditions &&& (0xFFFFFFFF : Word) ≠ 0
    ∧ (masked .closed).cond.gate = .closed ∧ alerted.cond.conditions &&& (0 : Word) = 0 :=
  ⟨⟨rfl, rfl⟩, ⟨rfl, rfl⟩, by decide +kernel⟩

theorem witness_NoticeRearmTaken :
    Ready (masked .closed) ∧ (masked .closed).cond.conditions &&& (masked .closed).cond.mask ≠ 0
    ∧ alerted.cond.conditions &&& alerted.cond.mask = 0 ∧ alerted.cond.gate = .opened ∧ GateQuiet alerted.cond :=
  ⟨⟨rfl, rfl⟩, by decide +kernel, by decide +kernel, rfl, fun _ => by decide +kernel⟩

theorem witness_SettingsStaged :
    PlantInRange plantBody ∧ ¬PlantInRange { plantBody with reserveFloor := 900 } ∧ GroupInRange groupBody
    ∧ ¬GroupInRange { groupBody with minCapped := 0 } ∧ ¬GroupInRange { groupBody with maxCapped := 1 }
    ∧ (1#8).toNat = (0 : GroupIx).val + 1 ∧ (8#8).toNat = (7 : GroupIx).val + 1 ∧ 8 < (9#8).toNat := by
  refine ⟨?_, ?_, ?_, ?_, ?_, by decide, by decide, by decide⟩ <;>
    (first | unfold PlantInRange HoldInRange | unfold GroupInRange) <;> decide

/-! ### Host link -/

theorem witness_RequestBodiesReadBack :
    (Request.leadsAdd (List.replicate 60 oneLead)).wellFormed = true ∧ (Request.leadsAdd [oneLead]).wellFormed = true
    ∧ (Request.loadRing []).wellFormed = true ∧ (Request.loadRing (List.replicate 50 1)).wellFormed = true
    ∧ (Request.setPlant plantBody).wellFormed = true := by decide +kernel

theorem portFree_reset : PortFree State.reset := by
  refine ⟨fun h => ?_, rfl⟩
  rcases h with h | ⟨f, hf, -⟩
  · exact h rfl
  · cases hf

theorem witness_FramedRequestIsItsRow : Request.readPlant.wellFormed = true ∧ Ready State.reset ∧ PortFree State.reset :=
  ⟨rfl, ready_reset, portFree_reset⟩

/-- A request waits in the holding slot; `holding true` has another in hand. -/
def holding (busy : Bool) : State :=
  { State.reset with
      link := { State.reset.link with
                  inHand := if busy then some (0x20, 1) else none
                  holding := some { kind := Request.readPlant.kind, tag := 4, body := Request.readPlant.body } } }

theorem notBusy_holding : ¬PortBusy (holding false) := by
  rintro (h | ⟨f, hf, -⟩)
  · exact h rfl
  · cases hf

theorem busy_holding : PortBusy (holding true) := .inl (by decide)

theorem witness_HeldRequestIsTaken :
    (Request.readPlant.wellFormed = true ∧ Ready (holding false) ∧ ¬PortBusy (holding false)
      ∧ (holding false).link.holding = some { kind := Request.readPlant.kind, tag := 4, body := Request.readPlant.body })
    ∧ PortBusy (holding true) ∧ State.reset.link.holding = none :=
  ⟨⟨rfl, ⟨rfl, rfl⟩, notBusy_holding, rfl⟩, busy_holding, rfl⟩

theorem witness_BusyPortHoldsOrDrops :
    let s : State := { State.reset with link := { State.reset.link with inHand := some (0x20, 1) } }
    (Awake s ∧ PortBusy s ∧ s.link.holding = none) ∧ (Awake (holding true) ∧ PortBusy (holding true)
      ∧ (holding true).link.holding ≠ none) ∧ (0x7E#8).toNat < 0x7F ∧ (List.replicate 250 (0 : Byte)).length ≤ 250 :=
  ⟨⟨rfl, .inl (by decide), rfl⟩, ⟨rfl, busy_holding, by decide⟩, by decide, by decide +kernel⟩

theorem witness_BadKindOrLengthRefused :
    Ready State.reset ∧ PortFree State.reset ∧ (0#8).toNat = 0 ∧ 0x24 < (0x25#8).toNat ∧ (0x7E#8).toNat < 0x7F
    ∧ (∀ r : Request, r.wellFormed = true → r.kind = 0x01 → r.body.length ≠ 250)
    ∧ ∀ r : Request, r.wellFormed = true → r.kind = 0x24 → r.body.length ≠ 1 := by
  refine ⟨ready_reset, portFree_reset, by decide, by decide, by decide, fun r _ hk => ?_, fun r _ hk => ?_⟩
  all_goals
    revert hk
    cases r <;> simp [Request.kind, Request.body, halfBytes_length]

theorem witness_BadFramesAreCounted :
    Awake State.reset ∧ State.reset.link.holding = none
    ∧ crc16 [0, 0x20, 9] ≠ (0 : Byte) ++ (0 : Byte) ∧ 0x7F ≤ (0x7F#8).toNat ∧ 0x7F ≤ (0xFF#8).toNat
    ∧ (let s : State := { State.reset with link := { State.reset.link with receiver := .collect [1] 0 } }
       Awake s ∧ s.link.receiver = .collect [1] 0) ∧ State.reset.link.receiver = .hunt :=
  ⟨rfl, rfl, by decide +kernel, by decide, by decide, ⟨rfl, rfl⟩, rfl⟩

/-- A receiver that has collected `bytes`, the last at time 0, met at time `now`. -/
def collecting (bytes : List Byte) (now : Time) : State :=
  { State.reset with now, link := { State.reset.link with receiver := .collect bytes 0 } }

theorem witness_ReceiverFollowsItsTable :
    (Awake State.reset ∧ State.reset.link.receiver = .hunt)
    ∧ (∀ bytes now, Awake (collecting bytes now) ∧ (collecting bytes now).link.receiver = .collect bytes 0
        ∧ (collecting bytes now).now = now)
    ∧ 5000 ≤ 0 + 5000 ∧ 0 + 5000 < 5001 ∧ 250 < (251#8).toNat ∧ (250#8).toNat ≤ 250
    ∧ ([] : List Byte).length < (0#8).toNat + 3
    ∧ ((0x20#8 :: 9#8 :: [] ++ [0x11#8] = [0x20#8, 9#8, 0x11#8]) ∧ ([] : List Byte).length = (0#8).toNat) :=
  ⟨⟨rfl, rfl⟩, fun _ _ => ⟨rfl, rfl, rfl⟩, by decide, by decide, by decide, by decide, by decide, by decide⟩

theorem notLeaving_reset : ¬ResetReplyLeaving State.reset := fun h => by cases h.1

theorem witness_TransmitterSendsInOrder :
    let s : State := { State.reset with link := { State.reset.link with
      sending := some { kind := 0x7F, tag := 0, body := [] }, waiting := [{ kind := 0xA0, tag := 4, body := [] }] } }
    (Awake State.reset ∧ ¬ResetReplyLeaving State.reset ∧ State.reset.link.waiting = [])
    ∧ (Awake s ∧ ¬ResetReplyLeaving s ∧ s.link.waiting = { kind := 0xA0, tag := 4, body := [] } :: [])
    ∧ ∀ l : HostLink, ¬ResetReplyLeaving { s with link := { l with sending := some { kind := 0xA4, tag := 4, body := [2] } } } :=
  ⟨⟨rfl, notLeaving_reset, rfl⟩, ⟨rfl, fun ⟨h, _⟩ => (by cases h), rfl⟩, fun _ ⟨_, _, h⟩ => (by cases h)⟩

theorem witness_ReadiedFramesQueue :
    let reply : TxFrame := { kind := 0xA0, tag := 4, body := [] }
    let notice : TxFrame := { kind := 0x7F, tag := 0, body := [1] }
    State.reset.link.sending = none ∧ (some reply ≠ none ∧ ∀ g ∈ [reply], g.kind ≠ 0x7F#8)
    ∧ ([reply, notice] = [reply] ++ notice :: [] ∧ notice.kind = 0x7F#8 ∧ ∀ x ∈ [reply] ++ [], x.kind ≠ 0x7F#8) := by
  decide +kernel

theorem witness_ResetRequestTaken :
    let s := after (.reset 1) running
    Ready running ∧ s.link.resetScheduled = true ∧ Awake s ∧ ResetReplyLeaving s ∧ ¬ResetReplyLeaving State.reset :=
  ⟨ready_running, by decide +kernel, by unfold Awake; decide +kernel,
    ⟨by decide +kernel, 1, by decide +kernel⟩, notLeaving_reset⟩

theorem witness_ResetPinHoldsThePart :
    running.resetLow = false ∧ ({ running with resetLow := true } : State).resetLow = true
    ∧ Instr.outPortFree ≠ .ringSignalLoss ∧ Instr.outPortFree ≠ .ringSignalPresent ∧ ∀ p, Instr.outPortFree ≠ .resetNReleased p :=
  ⟨rfl, rfl, by decide, by decide, nofun⟩

/-! ### Epochs and run control -/

theorem witness_SetEpochTaken :
    (Ready State.reset ∧ State.reset.run.state = .stopped) ∧ (Ready running ∧ running.run.state ≠ .stopped)
    ∧ ((0#8).toNat, EpochSource.internal) ∈ [(0, EpochSource.internal), (1, .epochLine), (2, .sensor)]
    ∧ ((2#8).toNat, EpochSource.sensor) ∈ [(0, EpochSource.internal), (1, .epochLine), (2, .sensor)]
    ∧ 10 ≤ (10#16).toNat ∧ (1000#16).toNat ≤ 1000 ∧ (1000#16).toNat % 10 = 0 ∧ 1 ≤ (1#8).toNat ∧ (16#8).toNat ≤ 16
    ∧ 2 < (3#8).toNat ∧ (9#16).toNat < 10 ∧ 1000 < (1001#16).toNat ∧ (11#16).toNat % 10 ≠ 0 ∧ 16 < (17#8).toNat :=
  ⟨⟨ready_reset, rfl⟩, ⟨ready_running, by decide⟩, by decide +kernel⟩

/-- STOPPED with a staged plant record. -/
def startable : State :=
  { State.reset with store := { SettingsStore.atReset with plant := some plant, configured := true } }

theorem witness_StartArmsThePart :
    (Ready startable ∧ RunLawful startable ∧ startable.run.state = .stopped ∧ startable.store.configured = true)
    ∧ ((1#8).toNat, Trigger.startLine) ∈ [(1, Trigger.startLine), (2, .firstFrame)]
    ∧ ((2#8).toNat, Trigger.firstFrame) ∈ [(1, Trigger.startLine), (2, .firstFrame)]
    ∧ 2 < (3#8).toNat ∧ (2#8).toNat ≤ 2 ∧ running.run.state ≠ .stopped ∧ State.reset.store.configured = false :=
  ⟨⟨⟨rfl, rfl⟩, by unfold RunLawful; decide +kernel, rfl, rfl⟩, by decide +kernel⟩

theorem witness_TriggerStartsTheRun :
    (Ready startable ∧ RunLawful startable ∧ startable.run.state = .stopped ∧ startable.store.configured = true)
    ∧ (Awake (armed .startLine) ∧ (armed .startLine).run.state = .armed ∧ (armed .startLine).run.trigger = some .startLine)
    ∧ State.reset.run.state ≠ .armed
    ∧ (let s : State := { armed .firstFrame with sky := { SkyUnit.atReset 0 with enabled := true, loss := .armed } }
       Awake s ∧ SkyLawful s.sky ∧ s.run.state = .armed ∧ s.run.trigger = some .firstFrame ∧ s.sky.enabled = true ∧ s.sky.frame = none)
    ∧ (let s : State := { armed .firstFrame with sky := sensing.sky }
       Awake s ∧ SkyLawful s.sky ∧ s.run.state = .armed ∧ s.run.trigger = some .firstFrame ∧ s.sky.enabled = true
         ∧ s.sky.frame = some (List.replicate 63 0x3EBB)) :=
  ⟨⟨⟨rfl, rfl⟩, by unfold RunLawful; decide +kernel, rfl, rfl⟩, ⟨rfl, rfl, rfl⟩, by decide, ⟨rfl, skyLawful_enabled, rfl, rfl, rfl, rfl⟩,
    ⟨rfl, skyLawful_sensing, rfl, rfl, rfl, rfl⟩⟩

/-- `running` under another source, with `n` frame syncs counted of 3, and the port enabled. -/
def sourced (src : EpochSource) (n : Nat) : State :=
  { running with
      timer := { running.timer with source := src, divisor := 3, syncCount := n }
      sky := { SkyUnit.atReset 0 with enabled := true, loss := .armed } }

theorem runLawful_sourced (src : EpochSource) (n : Nat) : RunLawful (sourced src n) := by
  unfold RunLawful; exact ⟨rfl, fun _ => rfl, ⟨nofun, nofun⟩, fun h => rfl⟩

theorem witness_EpochsComeFromTheirSource :
    (∀ src n, Awake (sourced src n) ∧ RunLawful (sourced src n) ∧ (sourced src n).timer.running = true
      ∧ (sourced src n).timer.source = src ∧ SkyLawful (sourced src n).sky ∧ (sourced src n).sky.enabled = true
      ∧ (sourced src n).sky.frame = none ∧ RunLawful { sourced src n with sky := sensing.sky })
    ∧ (Awake (armed .firstFrame) ∧ RunLawful (armed .firstFrame) ∧ (armed .firstFrame).run.trigger = some .firstFrame)
    ∧ (Awake State.reset ∧ RunLawful State.reset ∧ State.reset.timer.running = false ∧ State.reset.run.state ≠ .armed
        ∧ State.reset.sky.enabled = false)
    ∧ ((sourced .epochLine 0).timer.lastEdgeAt + 10000 ≤ max (sourced .epochLine 0).now ((sourced .epochLine 0).timer.lastEdgeAt + 10000))
    ∧ max (sourced .epochLine 0).now ((sourced .epochLine 0).timer.lastEdgeAt + 9999) < (sourced .epochLine 0).timer.lastEdgeAt + 10000
    ∧ (sourced .sensor 2).timer.divisor ≤ (sourced .sensor 2).timer.syncCount + 1
    ∧ (sourced .sensor 1).timer.syncCount + 1 < (sourced .sensor 1).timer.divisor :=
  ⟨fun src n => ⟨rfl, runLawful_sourced src n, rfl, rfl, skyLawful_enabled, rfl, rfl, runLawful_sourced src n⟩,
    ⟨rfl, by unfold RunLawful; decide +kernel, rfl⟩, ⟨rfl, runLawful_reset, rfl, by decide, rfl⟩, by decide +kernel⟩

/-- `running` with its lines seen at `level`, line A's latch at `latch`, and a dispatch computing. -/
def lined (level : LineLevel) (latch : Bool) : State :=
  { running with
      run := { running.run with lineA := { latch, seen := some level }, lineB := { latch := false, seen := some level } }
      gov := { running.gov with phase := .computing opened711 } }

/-! ### The rules of an epoch, clause by clause, at their bounds -/

/-- R53, R54, R89, R158, R159: lines that end a hold, warnings that expire, late packets. -/
theorem witness_epoch_lines_warnings_packets :
    let s : State := { running with run := { running.run with state := .holding, lineB := { latch := true, seen := some .inactive } } }
    let caps : List OwnPacket := [.cap 0 6 (some 3) 20, .cap 0 7 (some 4) 20, .cap 1 7 none 0, .cap 1 8 none 0, .store 7 5 20]
    (EpochLineEnds s.gov.plant .b s.run.lineB ∧ ¬EpochLineEnds s.gov.plant .a s.run.lineA)
    ∧ (after (.internalPeriodExpiry allEpochRules) s).run.state = .running
    ∧ ((warning.arrivals.all fun a => atOrAfter 214 a.2) = true ∧ (warning.arrivals.all fun a => atOrAfter 213 a.2) = false)
    ∧ caps.map (OwnPacket.lateAt 7) = [true, true, true, false, true]
    ∧ caps.zipIdx.map (fun x => lateRemoved 7 caps x.1 x.2) = [false, true, true, true, false]
    ∧ running.ring.state = .up ∧ State.reset.ring.state ≠ .up := by
  refine ⟨⟨⟨plant, rfl, by decide⟩, ?_⟩, by decide +kernel⟩
  rintro ⟨_, -, -, -, h, -⟩
  exact absurd h (by decide)

/-- R26, R95, R137: silence at the limit of 4 epochs, and one past it. -/
theorem witness_epoch_silence :
    let heard : BlockRecord := { BlockRecord.emptyAt 0 with state := .free, heard := some 3 }
    let watched : BlockRecord := { BlockRecord.emptyAt 0 with state := .pinned, watch := some 3 }
    (SilentAt 8 4 heard ∧ ¬SilentAt 7 4 heard) ∧ (SilentAt 8 4 watched ∧ ¬SilentAt 7 4 watched)
    ∧ ¬SilentAt 8 4 { heard with state := .out } ∧ ¬SilentAt 8 4 { heard with heard := none }
    ∧ (HeardAt 7 4 (some 3) ∧ ¬HeardAt 8 4 (some 3) ∧ ¬HeardAt 7 4 none)
    ∧ (FallsSilent 8 4 .heard (some 3) ∧ FallsSilent 5 4 .waiting none ∧ ¬FallsSilent 4 4 .waiting none
      ∧ ¬FallsSilent 8 4 .silent none) := by
  simp [SilentAt, FallsSilent, HeardAt, BlockRecord.emptyAt]

/-- R163, R164: a lease of 20 epochs is due 10 before its expiry, and a field ages out from 2^30 to 2^31 epochs back. -/
theorem witness_epoch_leases :
    (DueAt 7 20 false (some 17) ∧ ¬DueAt 7 20 false (some 18) ∧ DueAt 7 20 false none ∧ DueAt 7 20 true (some 18))
    ∧ [BitVec.ofNat 32 (2 ^ 30 - 1), BitVec.ofNat 32 (2 ^ 30), BitVec.ofNat 32 (2 ^ 31 - 1), BitVec.ofNat 32 (2 ^ 31)].map
        (fun d => (agedField 7 (some (7 - d))).isSome) = [true, false, false, true]
    ∧ QueueAdmits running.ring (.cap 0 8 none 0) ∧ ¬QueueAdmits State.reset.ring (.cap 0 8 none 0) := by
  refine ⟨⟨.inr (.inr ⟨17, rfl, by decide⟩), ?_, .inr (.inl rfl), .inl rfl⟩, by decide +kernel, ?_, ?_⟩
  · rintro (h | h | ⟨x, hx, h⟩)
    · cases h
    · cases h
    · cases hx
      exact absurd h (by decide)
  · unfold QueueAdmits; decide +kernel
  · unfold QueueAdmits; decide +kernel

/-- log 34: an owed storage with commanded power 0 that falls silent at epoch 8, before and after the snapshot of dispatch 8. -/
theorem test_snapshot_and_silence :
    let s := { running with nodes := { running.nodes with
      storage := { running.nodes.storage with heard := some 3, hearing := .heard, owed := true } } }
    let owedIn (order : EpochOrder) : Option Bool :=
      match (after (.internalPeriodExpiry order) s).gov.phase with
      | .computing o => some o.snapshot.storageOwed
      | _ => none
    owedIn [.governor, .nodeRecords] = some true ∧ owedIn [.nodeRecords, .governor] = some false := by decide +kernel

/-- R39, R52, R96, R102, R107, R111: what the opening step of a dispatch meets. -/
theorem witness_epoch_opening :
    let h : HoldState := { latch := true, seen := some .asserted }
    let band : Band := { low := 95000, high := 105000 }
    (adoptedLatch true false h = false ∧ adoptedLatch false true { h with latch := false } = true ∧ adoptedLatch true true h = true)
    ∧ (startable.store.plant.isSome = true ∧ running.store.plant.isSome = false)
    ∧ (running.gov.source = .waiting ∧ (4 : Epoch).toNat ≤ plant.silenceLimit ∧ plant.silenceLimit < (5 : Epoch).toNat)
    ∧ (94999 < band.low ∧ band.low ≤ 95000 ∧ 105000 ≤ band.high ∧ band.high < 105001)
    ∧ (running.gov.phase = .idle ∧ (lined .inactive true).gov.phase ≠ .idle)
    ∧ (plant.reserveFloor < 101 ∧ ¬plant.reserveFloor < 100 ∧ 899 < plant.reserveCeiling ∧ ¬900 < plant.reserveCeiling) := by
  decide +kernel

theorem witness_MonitorsTripOnce :
    (Awake (sourced .epochLine 0) ∧ (sourced .epochLine 0).timer.stall = .armed ∧ (sourced .epochLine 0).timer.running = true
      ∧ (sourced .epochLine 0).timer.source = .epochLine ∧ (100 : Nat) = (sourced .epochLine 0).timer.period)
    ∧ ((sourced .sensor 0).timer.source = .sensor ∧ (300 : Nat) = (sourced .sensor 0).timer.divisor * (sourced .sensor 0).sky.framePeriod)
    ∧ running.timer.source = .internal ∧ (Awake sensing ∧ sensing.sky.loss = .armed) ∧ State.reset.sky.loss ≠ .armed :=
  ⟨⟨rfl, rfl, rfl, rfl, rfl⟩, ⟨rfl, by decide⟩, rfl, ⟨rfl, rfl⟩, by decide⟩

/-- R46, R63: the monitors at their limits, and one microsecond past them. -/
theorem witness_overdue_monitors :
    (StallOverdue { sourced .epochLine 0 with now := 400001 } ∧ ¬StallOverdue { sourced .epochLine 0 with now := 400000 })
    ∧ (StallOverdue { sourced .sensor 0 with now := 1200001 } ∧ ¬StallOverdue { sourced .sensor 0 with now := 1200000 })
    ∧ ¬StallOverdue { sourced .internal 0 with now := 400001 }
    ∧ (LossOverdue { sensing with now := 300001 } ∧ ¬LossOverdue { sensing with now := 300000 }) := by
  simp only [← stallDue_iff, ← lossDue_iff]
  decide +kernel

/-- The state of 7.11 with no room in the queue. -/
def fullQueue711 : State :=
  { staging711 with ring := { staging711.ring with queue := List.replicate 63 (.cap 0 210 none 0) } }

/-- With no room, the dispatch waits to stage its whole list. -/
theorem fullQueue711_stages : (after .dispatchComputingEnd fullQueue711).gov.phase
    = .staging opened711 (planOf plant711 opened711).supply (planOf plant711 opened711).plan (planOf plant711 opened711).todo noCounts := by
  decide +kernel

theorem witness_HoldLinesSeen :
    (Awake State.reset ∧ (State.reset.run.line .a).seen ≠ some .asserted ∧ lineEnabled State.reset.gov.plant .a = false)
    ∧ (((lined .inactive true).run.line .a).seen ≠ some .asserted ∧ ((lined .inactive true).run.line .a).latch = true)
    ∧ (Awake (lined .inactive false) ∧ ((lined .inactive false).run.line .a).seen ≠ some .asserted
        ∧ lineEnabled (lined .inactive false).gov.plant .a = true ∧ ((lined .inactive false).run.line .a).latch = false
        ∧ (lined .inactive false).run.state = .running ∧ (lined .inactive false).hold ≠ .freeze
        ∧ (after (.holdLineAsserted .a) (lined .inactive false)).hold = .freeze ∧ (lined .inactive false).gov.phase ≠ .idle
        ∧ (after (.holdLineAsserted .b) (lined .inactive false)).hold ≠ .freeze
        ∧ (lined .inactive false).gov.phase = .computing opened711)
    ∧ (∃ o sup pl todo counts, (after .dispatchComputingEnd fullQueue711).gov.phase = .staging o sup pl todo counts)
    ∧ ((lined .asserted false).run.line .b).seen = some .asserted := by
  refine ⟨⟨rfl, by decide, rfl⟩, by decide +kernel, ⟨rfl, ?_⟩, ⟨_, _, _, _, _, fullQueue711_stages⟩, rfl⟩
  decide +kernel

theorem witness_HoldInForceFollowsTheLines :
    let q : PlantRecord := { plant with lineA := { plant.lineA with action := .ceiling, ceiling := 30000 } }
    (plant.lineA.enabled = true ∧ plant.lineA.action = .freeze ∧ plant.lineB.enabled = true ∧ plant.lineB.action = .ceiling)
    ∧ q.lineA.action = .ceiling ∧ q.lineB.action = .ceiling := by decide

theorem witness_ClearHoldTaken :
    Ready State.reset ∧ 1 < (2#8).toNat ∧ ((0#8).toNat, HoldLine.a) ∈ [(0, HoldLine.a), (1, .b)]
    ∧ ((1#8).toNat, HoldLine.b) ∈ [(0, HoldLine.a), (1, .b)]
    ∧ (Ready (lined .asserted true) ∧ ((lined .asserted true).run.line .a).seen = some .asserted)
    ∧ (Ready (lined .inactive true) ∧ ((lined .inactive true).run.line .b).seen ≠ some .asserted) :=
  ⟨ready_reset, by decide, by decide, by decide, ⟨⟨rfl, rfl⟩, rfl⟩, ⟨rfl, rfl⟩, by decide⟩

theorem witness_StopEndsTheRun :
    (Ready capped ∧ capped.run.state = .running ∧ CollectionsAgree capped.table ∧ QueueLawful capped.ring
      ∧ capped.ring.state = .up ∧ (capped.block 0).state = .capped)
    ∧ 1 < (2#8).toNat ∧ (1#8).toNat ≤ 1 ∧ (Ready State.reset ∧ State.reset.run.state = .stopped)
    ∧ (Ready (armed .startLine) ∧ (armed .startLine).run.state = .armed)
    ∧ (Ready (lined .inactive true) ∧ CollectionsAgree (lined .inactive true).table ∧ QueueLawful (lined .inactive true).ring) :=
  ⟨⟨⟨rfl, rfl⟩, rfl, agree_capped, queueLawful_running, rfl, by decide +kernel⟩, by decide, by decide, ⟨ready_reset, rfl⟩,
    ⟨⟨rfl, rfl⟩, rfl⟩, ⟨rfl, rfl⟩, agree_running, queueLawful_running⟩

/-! ### Stations, leads and warnings -/

def stationBody : StationBody :=
  { slot := 63, enabled := 1, historyLength := 4, drop := 8, persistence := 1, clear := 8 }

/-- Station 2 enabled on slot 63. -/
def slotHeld : State :=
  { State.reset with sky := { SkyUnit.atReset 0 with
      stations := (SkyUnit.atReset 0).stations.set 1 { Station.atReset 63 with enabled := true } } }

theorem witness_SensorPortSetAndStationLoaded :
    (Ready State.reset ∧ State.reset.sky.enabled = false) ∧ (Ready sensing ∧ sensing.sky.enabled = true)
    ∧ (10 ≤ (10#16).toNat ∧ (1000#16).toNat ≤ 1000 ∧ (1#8).toNat ≤ 1 ∧ (9#16).toNat < 10 ∧ 1000 < (1001#16).toNat ∧ 1 < (2#8).toNat)
    ∧ ((1#8).toNat = (0 : StationIx).val + 1 ∧ (24#8).toNat = (23 : StationIx).val + 1 ∧ 24 < (25#8).toNat)
    ∧ StationInRange stationBody ∧ ¬StationInRange { stationBody with drop := 7 }
    ∧ (∀ y : StationIx, y ≠ 0 → (State.reset.station y).enabled = true → (State.reset.station y).slot ≠ stationBody.slot.toNat)
    ∧ (∃ y : StationIx, y ≠ 0 ∧ (slotHeld.station y).enabled = true ∧ (slotHeld.station y).slot = stationBody.slot.toNat)
    ∧ stationBody.enabled.toNat = 1 := by
  refine ⟨⟨ready_reset, rfl⟩, ⟨⟨rfl, rfl⟩, rfl⟩, by decide, by decide, ?_, ?_, by decide +kernel, ⟨1, by decide +kernel⟩, by decide⟩ <;>
    unfold StationInRange <;> decide

def lead (t : StationIx) (b : BlockIx) : LeadEntry :=
  { station := t, block := b, lead := 255 }

theorem witness_LeadMapStagedAndCommitted :
    Ready State.reset ∧ ([] : List LeadBody).length = 0 ∧ 60 < (List.replicate 61 oneLead).length
    ∧ (1 ≤ [oneLead].length ∧ (List.replicate 60 oneLead).length ≤ 60)
    ∧ [oneLead].map (fun e => (e.station.toNat, e.block.toNat, e.lead.toNat))
        = [lead 23 47].map (fun x => (x.station.val + 1, x.block.val + 1, x.lead))
    ∧ (∀ x ∈ [lead 23 47], 1 ≤ x.lead) ∧ (∀ x ∈ [lead 23 47], ∀ y ∈ [lead 23 46], x.samePair y = false)
    ∧ [lead 23 47].Pairwise (fun x y => y.samePair x = false)
    ∧ ([lead 23 47].length ≤ 192 ∧ ∀ x : StationIx, ([lead 23 47].filter fun y => y.station == x).length ≤ 8)
    ∧ 192 < (List.replicate 193 (lead 0 0)).length
    ∧ 8 < (((List.finRange 9).map fun n : Fin 9 => lead 5 ⟨n.val, by omega⟩).filter fun y => y.station == 5).length
    ∧ (lead 23 47).samePair (lead 23 47) = true ∧ ¬[lead 23 47, lead 23 47].Pairwise (fun x y => y.samePair x = false)
    ∧ ((0#8).toNat = 0 ∧ 24 < (25#8).toNat ∧ 48 < (49#8).toNat) :=
  ⟨ready_reset, by decide +kernel⟩

theorem witness_BandTargetAndSplit :
    ((95400 : Nat) : Int) = max 0 (max ((99400 : Int) - plant.stepDown) ((99400 : Int) - plant.windowDown))
    ∧ (105400 : Nat) = min (99400 + plant.stepUp) (99400 + plant.windowUp) ∧ 95400 ≤ 105400
    ∧ ((101900 : Nat) : Int) = max 0 (max ((94000 : Int) - plant.stepDown) ((109900 : Int) - plant.windowDown))
    ∧ (100000 : Nat) = min (94000 + plant.stepUp) (94000 + plant.windowUp) ∧ 100000 < 101900
    ∧ (24350 : Nat) = min (min 28400 (27800 + 3000)) 24350 ∧ 23900 ≤ 24350
    ∧ (20000 : Nat) = min 28400 (17000 + 3000) ∧ 20000 < 23900 ∧ 17000 + 3000 < 23900
    ∧ (20000 : Nat) = min (min 28400 (27800 + 3000)) 20000 ∧ 23900 ≤ 27800 + 3000
    ∧ 24350 ≤ 27800 + 3000 ∧ 24350 < 27800 ∧ 27800 ≤ 27800 := by decide

theorem witness_SharesPlaceTheCurtailment :
    let k := [snap 1 0 .capped 88 10000 3800 (some 3000) (some 207), snap 3 1 .free 19 8000 7600 none none]
    2450 ≤ capacitySum k ∧ 0 ≤ capacitySum ([] : List SnapBlock) ∧ capacitySum k ≠ 0 ∧ k ≠ []
    -- the remainder of 1 goes to the first member, and to no other
    ∧ k.map (fun b => (b, 2450 * b.capacity / capacitySum k))
        = [] ++ (snap 1 0 .capped 88 10000 3800 (some 3000) (some 207), 595) :: [(snap 3 1 .free 19 8000 7600 none none, 1854)]
    ∧ sharesOf 2450 k = [(snap 1 0 .capped 88 10000 3800 (some 3000) (some 207), 596), (snap 3 1 .free 19 8000 7600 none none, 1854)] := by
  decide +kernel

theorem witness_SensorWordsReachTheStations :
    (Awake sensing ∧ SkyLawful sensing.sky ∧ sensing.sky.enabled = true
      ∧ sensing.sky.frame = some (List.replicate 63 0x3EBB) ∧ (List.replicate 63 (0x3EBB : Half)).length = 63)
    ∧ ([] : List Half).length < 63 ∧ State.reset.sky.enabled = false ∧ (sourced .sensor 0).sky.frame = none
    ∧ sensing.timer.running = false ∧ sensing.run.state ≠ .armed
    ∧ ((armed .startLine).run.trigger ≠ some .firstFrame ∧ running.timer.source ≠ .sensor) :=
  ⟨⟨rfl, skyLawful_sensing, rfl, rfl, by decide +kernel⟩, by decide, rfl, rfl, rfl, by decide, by decide, by decide⟩

/-- R64 to R74: the samples and the drops of 4.5, clause by clause, and a reference and a depth at their bounds. -/
theorem witness_stations_of_a_frame :
    (ValidSample { station6 with lastSequence := some 4 } 0x2BCD ∧ ¬ValidSample { station6 with lastSequence := some 5 } 0x2BCD
      ∧ ValidSample station6 0x6408 ∧ ¬ValidSample station6 0x6418 ∧ ¬ValidSample station6 0x2BC5)
    ∧ (station6.history.max? = some 1020 ∧ (64 * 1020 : Int) ≤ fallOf 765 1020 ∧ fallOf 766 1020 < 64 * 1020)
    ∧ ((1020 : Int) * (256 - station6.clear) ≤ 893 * 256 ∧ (892 * 256 : Int) < 1020 * (256 - station6.clear))
    ∧ min 255 ((1020 - 0) * 256 / 1020) = 255 ∧ [(3 : Nat), 4].map (fun n => decide (n < 4)) = [true, false] := by
  refine ⟨?_, ?_⟩
  · unfold ValidSample
    decide +kernel
  · unfold fallOf
    decide +kernel

/-- 32 warnings of two stations, the earliest arrivals all 530. -/
def fullList : List Warning :=
  List.replicate 16 { warning with station := 1, earliest := 530 } ++ List.replicate 16 { warning with station := 2, earliest := 530 }

theorem mapLawful_one : MapLawful [lead 5 0] := by
  refine ⟨by decide, by decide +kernel, by decide, by decide⟩

/-- R84: an ID in use is passed over, and 1 follows 255. -/
theorem test_ids :
    freeId [] 255 7 = 7 ∧ freeId [arriving 255 0 0 1] 255 255 = 1 ∧ freeId [arriving 255 0 0 1, arriving 1 1 0 1] 255 255 = 2
    ∧ freeId [arriving 1 0 0 1] 255 255 = 255 := by decide +kernel

theorem witness_WarningsOpenedAndDeepened :
    MapLawful [lead 5 0] ∧ 1 ≤ warned.front.nextId ∧ warned.front.nextId ≤ 255
    ∧ State.reset.run.state = .stopped ∧ running.run.state = .running
    ∧ [lead 5 0] = [lead 5 0].filter (fun y => y.station == 5) ∧ ([lead 5 0].map (·.lead)).min? = some 255
    ∧ (warned.front.warnings.filter fun w => w.station != 5).length < 32
    ∧ fullList.filter (fun w => w.station != 5) = fullList ∧ fullList.length = 32
    ∧ (fullList.getLast?.map (·.earliest)) = some 530
    ∧ laterThan 530 530 = false ∧ laterThan 530 529 = true ∧ laterThan 0 0xFFFFFFFF = true ∧ laterThan 0x80000000 0 = false :=
  ⟨mapLawful_one, by decide +kernel⟩

/-! ### The dispatch and the ring -/

/-- 7.11 with no block to curtail. -/
def unplaced711 : Opened :=
  { opened711 with snapshot := { opened711.snapshot with capped := [], rotation := [] } }

theorem witness_ComputingEnds :
    let frozen : Opened := { opened711 with snapshot := { opened711.snapshot with hold := .freeze } }
    (Awake staging711 ∧ staging711.gov.phase = .computing opened711 ∧ staging711.gov.plant = some plant711
      ∧ opened711.snapshot.hold ≠ .freeze ∧ staging711.ring.state = .up)
    ∧ frozen.snapshot.hold = .freeze
    ∧ ((planOf plant711 opened711).plan.curtailment ≤ (planOf plant711 opened711).plan.placed
      ∧ (planOf plant711 unplaced711).plan.placed < (planOf plant711 unplaced711).plan.curtailment)
    ∧ ({ staging711 with ring := { staging711.ring with state := .probing } } : State).ring.state ≠ .up
    ∧ ∀ o, running.gov.phase ≠ .computing o :=
  ⟨⟨rfl, rfl, rfl, by decide, rfl⟩, rfl, by decide +kernel, by decide, nofun⟩

def planned711 : Plan :=
  planOf plant711 opened711

/-- The state of 7.11 with `todo` left to stage, and `queue` before it. -/
def stagingWith (todo : List Decision) (queue : List OwnPacket) : State :=
  { staging711 with
      gov := { staging711.gov with phase := .staging opened711 planned711.supply planned711.plan todo noCounts }
      ring := { staging711.ring with queue } }

theorem blocks_of_staging711 :
    (staging711.block 3).revision = 19 ∧ (staging711.block 1).revision ≠ 88
    ∧ (staging711.block 3).state = .free ∧ (staging711.block 2).state = .capped := by decide +kernel

theorem witness_StagedDecisionTakesEffect :
    (∀ todo q, Awake (stagingWith todo q) ∧ (stagingWith todo q).gov.plant = some plant711
      ∧ (stagingWith todo q).gov.phase = .staging opened711 planned711.supply planned711.plan todo noCounts
      ∧ ((stagingWith todo q).block 3).revision = 19 ∧ ((stagingWith todo q).block 1).revision ≠ 88
      ∧ ((stagingWith todo q).block 3).state = .free ∧ ((stagingWith todo q).block 2).state = .capped)
    ∧ enteringLabel (stagingWith [] []).ring 211 = 211
    ∧ (QueueAdmits (stagingWith [] []).ring (.store 211 (-1000) 20) ∧ QueueAdmits (stagingWith [] []).ring (.cap 3 211 none 0))
    ∧ (¬QueueAdmits (stagingWith [] (List.replicate 63 (.cap 0 210 none 0))).ring (.store 211 (-1000) 20)
      ∧ ¬QueueAdmits (stagingWith [] (List.replicate 63 (.cap 0 210 none 0))).ring (.cap 3 211 none 0))
    ∧ QueueAdmits (stagingWith [] (List.replicate 63 (.cap 3 211 none 0))).ring (.cap 3 211 none 0)
    ∧ ∀ o sup pl todo counts, running.gov.phase ≠ .staging o sup pl todo counts :=
  ⟨fun _ _ => ⟨rfl, rfl, rfl, blocks_of_staging711⟩, by decide +kernel, by unfold QueueAdmits; decide +kernel,
    by unfold QueueAdmits; decide +kernel, by unfold QueueAdmits; decide +kernel, nofun⟩

/-- R159: an offer at the last MARK is late, one after it is not, and none is where no MARK has been placed. -/
theorem witness_entering_label :
    busy.ring.lastMark = some 300 ∧ (enteringLabel busy.ring 300 = 301 ∧ lateLabel busy.ring 299 = some 301)
    ∧ (enteringLabel busy.ring 301 = 301 ∧ lateLabel busy.ring 301 = none)
    ∧ running.ring.lastMark = none ∧ enteringLabel running.ring 1 = 1 := by decide +kernel

/-- log 32: a whole frame drops what the receiver has collected, uncounted. -/
theorem test_frame_over_collected :
    let s := linked fun l => { l with receiver := .collect [5, 1] 0 }
    (after (.hostFrameComplete (Request.readRing.frame 1) allEpochRules) s).link
      = (after (.hostFrameComplete (Request.readRing.frame 1) allEpochRules) running).link := by decide +kernel

theorem witness_RingRequestsTaken :
    (Ready running ∧ running.ring.state = .up ∧ running.ring.probe = .absent
      ∧ (running.ring.queue.filter fun p => !p.isMark).length < 63)
    ∧ (Ready State.reset ∧ State.reset.ring.state ≠ .up)
    ∧ 63 ≤ ((List.replicate 63 (.cap 0 210 none 0)).filter fun p : OwnPacket => !p.isMark).length
    ∧ 50 < (List.replicate 51 (1 : Byte)).length ∧ (List.replicate 50 (1 : Byte)).length ≤ 50
    ∧ (∃ n ∈ [(51 : Byte)], n.toNat = 0 ∨ 50 < n.toNat) ∧ ¬[(1 : Byte), 1].Nodup
    ∧ (∀ n ∈ [(50 : Byte), 1], 1 ≤ n.toNat ∧ n.toNat ≤ 50) ∧ [(50 : Byte), 1].Nodup :=
  ⟨⟨ready_running, by decide +kernel⟩, ⟨ready_reset, by decide⟩, by decide +kernel⟩

/-- `running` with the ring in a state and its probe record at `probe`. -/
def ringAt (st : RingState) (probe : ProbeRecord) : State :=
  { running with ring := { running.ring with state := st, probe } }

theorem witness_RingStateEvents :
    (Awake State.reset ∧ State.reset.ring.signalSeen = false) ∧ (Awake running ∧ running.ring.signalSeen = true)
    ∧ ((ringAt .down .absent).ring.state = .down ∧ (ringAt .down .absent).ring.nodes ≠ []
        ∧ QueueLawful (ringAt .down .absent).ring) ∧ State.reset.ring.nodes = []
    ∧ (∀ st o, (ringAt st (.outstanding 3 100 o)).ring.probe = .outstanding 3 100 o ∧ Awake (ringAt st (.outstanding 3 100 o))
        ∧ (ringAt st (.outstanding 3 100 o)).ring.state = st)
    ∧ (∀ n sent o, running.ring.probe ≠ .outstanding n sent o) :=
  ⟨⟨rfl, rfl⟩, ⟨rfl, rfl⟩, ⟨rfl, by decide, by unfold QueueLawful; decide +kernel⟩, rfl, fun _ _ => ⟨rfl, rfl, rfl⟩, nofun⟩

/-- A packet with its CRC. -/
def packetOf (origin kind : Byte) (payload : List Byte) : List Byte :=
  let crc := crc16 (origin :: kind :: payload)
  [origin, kind, 0, 0] ++ payload ++ [(crc >>> 8).setWidth 8, crc.setWidth 8]

def alertPacket (origin : Byte) (payload : List Byte) : List Byte :=
  packetOf origin 6 payload

def reportPacket (origin : Byte) (payload : List Byte) : List Byte :=
  packetOf origin 5 payload

/-- 12.5, R190: the payloads of a REPORT, least significant byte first, with fields absent, and a power whose fifth byte is not read. -/
theorem witness_payloads_received :
    ([1, 2, 3, 4] : List Byte).length = 4 ∧ ([9, 9] : List Byte).length = 2 ∧ ([0, 0, 0, 0x80, 0xFF] : List Byte).length = 5
    ∧ payloadOf ([0, 3, 1, 0] ++ [7] ++ [9, 9]) = [7]
    ∧ blockReportOf .free ([1, 2, 3, 4] ++ [0xFF, 0xFF, 0xFF, 0xFF] ++ [0xFF, 0xFF, 0xFF, 0] ++ [0] ++ [0xFF, 0xFF] ++ [0xFF, 0xFF])
      = { epoch := 0x04030201, measured := none, available := some 0xFFFFFF, mode := .free, applied := none, leaseLeft := 65535 }
    ∧ nodeReportOf ([1, 0, 0, 0] ++ [0, 0, 0, 0x80, 0xFF] ++ [0xE8, 3] ++ [0xFF, 0xFF, 0xFF, 0xFF] ++ [5, 0, 0, 0] ++ [7]
        ++ [0xFF, 0xFF, 0xFF, 0xFF, 0xFF] ++ [20, 0])
      = { epoch := 1, measured := some (-2147483648), soe := some 1000, discharge := none, charge := some 5, mode := none,
          applied := none }
    ∧ readPower [0xFF, 0xFF, 0xFF, 0xFF, 0] = some (-1) ∧ wordAt [3, 4, 3, 2, 1] 1 = 0x01020304 := by decide +kernel

/-- 12.5: the payloads of the part's own packets. -/
theorem test_payloads_sent :
    (OwnPacket.cap 47 0x04030201 (some 5746) 20).payload = [48, 1, 2, 3, 4, 0x72, 0x16, 20, 0]
    ∧ (OwnPacket.store 211 (-1000) 20).payload = [211, 0, 0, 0, 0x18, 0xFC, 0xFF, 0xFF, 20, 0]
    ∧ (OwnPacket.mark 7).payload = [7, 0, 0, 0] ∧ (OwnPacket.probe 9).payload = [9] := by decide +kernel

theorem witness_PacketsHandled :
    (Awake State.reset ∧ State.reset.ring.state = .down) ∧ (Awake running ∧ running.ring.state ≠ .down)
    ∧ passMark [0, 3, 1, 0] = true ∧ (passMark [3, 6, 0, 0] = false ∧ checkPacket [3, 6, 0, 0] = false)
    ∧ (passMark (alertPacket 3 [3, 1, 2, 3, 4]) = false ∧ checkPacket (alertPacket 3 [3, 1, 2, 3, 4]) = true
        ∧ 3 ∉ running.ring.nodes ∧ checkPacket (alertPacket 1 [3, 1, 2, 3, 4]) = true ∧ 1 ∈ running.ring.nodes)
    ∧ (checkPacket (reportPacket 1 (List.replicate 12 0 ++ [0, 0, 0, 0, 0])) = true
        ∧ checkPacket (reportPacket 49 (List.replicate 27 0)) = true ∧ checkPacket (reportPacket 50 (List.replicate 27 0)) = true
        ∧ 49 ∈ running.ring.nodes ∧ 50 ∈ running.ring.nodes ∧ UnitMode.ofCode 0 = some .free)
    ∧ (running.ring.nodes.length ≤ (4#8).toNat ∧ (3#8).toNat < running.ring.nodes.length)
    ∧ ((ringAt .probing (.outstanding 3 100 false)).now ≤ 100 + 20000
        ∧ (ringAt .up (.outstanding 3 100 false)).ring.probe = .outstanding 3 100 false ∧ 0 + 20000 < 20001)
    ∧ (∃ p rest, ({ running.ring with forward := [[1, 2, 3]] } : RingController).forward = p :: rest)
    ∧ (running.ring.forward = [] ∧ running.ring.queue = [] ∧ OwnPacket.isProbe (.mark 7) = false) :=
  ⟨⟨rfl, rfl⟩, ⟨rfl, by decide⟩, by decide +kernel, by decide +kernel, by decide +kernel, by decide +kernel, by decide +kernel,
    by decide +kernel, ⟨_, _, rfl⟩, by decide +kernel⟩

/-- R152, step 2: packets with their CRC at the bounds of what fits. -/
theorem witness_check_of_a_packet :
    (checkPacket (packetOf 0 1 (List.replicate 9 0)) = true ∧ checkPacket (packetOf 0 1 (List.replicate 8 0)) = false
      ∧ checkPacket (packetOf 1 1 (List.replicate 9 0)) = false ∧ checkPacket (packetOf 0 4 [7]) = true)
    ∧ (checkPacket (packetOf 48 5 (List.replicate 17 1)) = true ∧ checkPacket (packetOf 48 5 (List.replicate 17 2)) = false
      ∧ checkPacket (packetOf 49 5 (List.replicate 17 1)) = false ∧ checkPacket (packetOf 50 5 (List.replicate 27 0xFF)) = true
      ∧ checkPacket (packetOf 49 5 (List.replicate 27 2)) = false ∧ checkPacket (packetOf 51 5 (List.replicate 27 1)) = false)
    ∧ (checkPacket (packetOf 50 6 [3, 0, 0, 0, 0]) = true ∧ checkPacket (packetOf 50 6 [4, 0, 0, 0, 0]) = false
      ∧ checkPacket (packetOf 0 6 [3, 0, 0, 0, 0]) = false ∧ checkPacket (packetOf 0 7 [0]) = false)
    ∧ (checkPacket ((packetOf 0 4 [7]).set 4 8) = false ∧ checkPacket ((packetOf 0 4 [7]).set 2 0xFE) = true
      ∧ setPassMark [9, 6, 0xF0, 1] = [9, 6, 0xF1, 1] ∧ passMark [9, 6] = false ∧ setPassMark [9, 6] = [9, 6])
    ∧ ((0xFE#8).getLsbD 0 = false ∧ (0xFE#8).getLsbD 1 = true ∧ (0#8).getLsbD 1 = false) := by decide +kernel

theorem witness_ReportsAndReturnsTaken :
    (State.reset.block 0).state = .empty ∧ (∀ st, ((inState st).block 0).state = st)
    ∧ ((capped.block 0).capLabel = some 6 ∧ atOrAfter 5 6 = false ∧ atOrAfter 6 6 = true ∧ (capped.block 0).state = .capped)
    ∧ (capped.gov.plant = some plant ∧ (capped.block 0).profile = some { rated := 4000, group := 0 } ∧ (capped.block 0).cap = some 2900
        ∧ 2950 ≤ 2900 + plant.tolerance ∧ 2900 + plant.tolerance < 2951 ∧ (capped.block 0).nonFollowRun + 1 < plant.nonFollowLimit
        ∧ plant.nonFollowLimit ≤ 2 + 1)
    ∧ ((inState .silent).block 0).capLabel = none
    ∧ (running.nodes.storage.commanded = 0 ∧ (-1000 : Int) ≠ 0 ∧ (-999 : Int) ≠ -1000 ∧ running.nodes.storage.commandLabel = none) :=
  ⟨by decide +kernel, state_inState, by decide +kernel⟩

theorem witness_AlertsStoredTakenFlushed :
    LevelsFollow alerted ∧ Ready alerted ∧ 3 < (4#8).toNat
    ∧ ((3#8).toNat, AlertClass.note) ∈ [(0, AlertClass.trip), (1, .derate), (2, .restore), (3, .note)]
    ∧ (alerted.alerts.get .note).entries = note :: [] ∧ (alerted.alerts.get .trip).entries = []
    ∧ (48 : Nat) = (47 : BlockIx).val + 1 ∧ 48 < 49
    ∧ (65535#32).toNat = 65535 ∧ (65534#32).toNat < 65535 ∧ 65535 < (65536#32).toNat
    ∧ (∀ st, ((inState st).block 0).state = st) :=
  ⟨levelsFollow_alerted, ⟨rfl, rfl⟩, by decide, by decide, by decide +kernel, by decide +kernel, by decide, by decide, by decide,
    by decide, by decide, state_inState⟩

end Sys2Proof.Tests
end

section
/-! PROOFS. The values after a full reset, and the invariants of the eleven statements at reset and, for the block collections, at every
step. -/

namespace Sys2Proof.Proofs

open Sys2Proof.Machine

/-- Settles O5: every step is a sequence of moves, and each move keeps the two collections (R4). -/
theorem collectionsAgreeAtEveryStep : Obligations.CollectionsAgreeAtEveryStep := by
  unfold Obligations.CollectionsAgreeAtEveryStep
  exact fun s t hs ht => Steps.keeps (P := fun u => CollectionsAgree u.table) (fun _ _ hm => hm.keeps_collections) (step_steps ht) hs

/-! ## The state after a full reset -/

section
variable (pending : List Instr) (now : Time) (k : Nat) (signal : Bool) (p : Straps)

@[simp] theorem afterReset_block (b : BlockIx) :
    (State.afterReset pending now k signal p).block b = BlockRecord.emptyAt 0 := by
  simp [State.block, State.afterReset, BlockTable.atReset]

@[simp] theorem afterReset_station (x : StationIx) :
    (State.afterReset pending now k signal p).station x = Station.atReset x.val := by
  simp [State.station, State.afterReset, SkyUnit.atReset]

end

/-- R172: the four queues are empty, with overflow counts of 0. -/
@[simp] theorem atReset_alerts (c : AlertClass) : AlertQueues.atReset.get c = { entries := [], overflow := 0 } := by
  cases c <;> rfl

/-- Settles O4: each unit's reset record read off field by field. -/
theorem fullResetLeavesItsValues : Obligations.FullResetLeavesItsValues := by
  unfold Obligations.FullResetLeavesItsValues
  refine ⟨⟨0, rfl⟩, rfl, fun _ => rfl, ?_⟩
  rintro pending now k signal p s rfl
  refine ⟨⟨rfl, rfl, rfl, rfl, rfl, rfl⟩, ⟨rfl, rfl, rfl, rfl, rfl, rfl⟩, ⟨fun b => ?_, rfl, rfl, fun g => ?_⟩,
    ⟨rfl, fun g => ?_, rfl, fun g => ?_, rfl⟩, ⟨rfl, rfl, rfl, rfl, rfl, rfl, rfl, rfl, rfl, rfl⟩, ⟨rfl, rfl, rfl, rfl⟩,
    fun x => ?_, ⟨rfl, rfl, rfl, rfl⟩, rfl, ⟨rfl, rfl, rfl, rfl, rfl, rfl, rfl, rfl, rfl, rfl, rfl, rfl, rfl, rfl, rfl, rfl, rfl⟩,
    atReset_alerts, ⟨rfl, rfl, rfl, rfl, rfl, rfl, rfl, rfl, rfl⟩, rfl, rfl, rfl⟩
  case refine_1 => exact afterReset_block ..
  case refine_2 => simp [State.afterReset, BlockTable.atReset]
  case refine_3 => simp [State.afterReset, Governor.atReset, GroupRecord.atReset]
  case refine_4 => simp [State.afterReset, SettingsStore.atReset]
  case refine_5 => exact afterReset_station ..

/-! ## The invariants at reset -/

theorem reset_collections : CollectionsAgree State.reset.table := by
  refine ⟨List.nodup_nil, List.nodup_nil, fun b => ?_, fun b => ?_⟩ <;>
    simp [State.reset, State.afterReset, BlockTable.atReset, BlockRecord.emptyAt]

theorem reset_queue : QueueLawful State.reset.ring := by
  simp [State.reset, State.afterReset, RingController.atReset, QueueLawful]

theorem reset_gate : GateQuiet State.reset.cond :=
  fun _ => rfl

theorem reset_levels : LevelsFollow State.reset := by
  intro c
  refine ⟨?_, ?_, ?_⟩
  · cases c <;> rfl
  · cases c <;> exact Nat.zero_le _
  · cases c <;> exact Nat.zero_le _

theorem reset_run : RunLawful State.reset :=
  ⟨rfl, fun h => absurd rfl h, by decide, fun h => absurd rfl h⟩

theorem reset_marks : MarksLead State.reset.run.state State.reset.ring :=
  ⟨List.Pairwise.nil, fun h => absurd rfl h⟩

theorem reset_flags : FlagsFollow State.reset := by
  intro x
  simp [State.reset, State.station, State.afterReset, FrontTracker.atReset, SkyUnit.atReset, Station.atReset]

theorem reset_ordered : WarningsOrdered State.reset :=
  ⟨fun _ => rfl, fun _ hw => absurd hw List.not_mem_nil, List.Pairwise.nil⟩

/-- R47: the timer runs in RUNNING and HOLDING. -/
theorem inRun_iff (r : RunState) : r.inRun = true ↔ r = .running ∨ r = .holding := by
  cases r <;> decide

/-- Settles O13: one lemma for each of the eleven invariants. -/
theorem invariantsHoldAtReset : Obligations.InvariantsHoldAtReset := by
  unfold Obligations.InvariantsHoldAtReset
  exact ⟨reset_collections, reset_queue, reset_gate, reset_levels, reset_run, reset_sky_lawful 0, reset_front_lawful,
    reset_window_lawful, reset_marks, reset_flags, reset_ordered, ⟨rfl, rfl, rfl, rfl, rfl⟩, inRun_iff, fun _ _ => rfl⟩

end Sys2Proof.Proofs
end

section
/-! PROOFS. The eight requests on blocks (R5 to R13): what each changes where it is taken, and its refusals. -/

namespace Sys2Proof.Proofs

open Sys2Proof.Machine

/-! ## The collections, by the state a block leaves and the state it enters (R4) -/

/-- A block that neither leaves `key` nor enters it. -/
theorem relist_outside {key before now : BlockState} (b : BlockIx) (l : List BlockIx) (h1 : before ≠ key) (h2 : now ≠ key) :
    relist key before now b l = l := by
  simp [relist, h1, h2]

/-- A block that does not enter `key`: it leaves the collection if it was in it. -/
theorem relist_leaves {key before now : BlockState} (b : BlockIx) (l : List BlockIx) (h : now ≠ key) :
    relist key before now b l = if before = key then l.filter (· != b) else l := by
  simp [relist, h]

/-- A block that was not in `key`: it joins at the tail if it enters. -/
theorem relist_joins {key before now : BlockState} (b : BlockIx) (l : List BlockIx) (h : before ≠ key) :
    relist key before now b l = if now = key then l ++ [b] else l := by
  simp [relist, h]

/-! ## ENROLL, PROFILE and WITHDRAW -/

theorem enrolWatch_eq (s : State) : enrolWatch s
    = if (s.run.state = .running ∨ s.run.state = .holding) ∧ s.ring.state = .up then some s.timer.epoch else none := by
  simp [enrolWatch, inRun_iff]

theorem enroll_taken {tag block : Byte} {rated : Half} {group : Byte} {s : State} {b : BlockIx} {p : Profile} (hr : Ready s)
    (hb : blockOf block = some b) (hp : profileOf rated group = some p) (hs : (s.block b).state = .empty) :
    ∃ t, exec (.enroll tag block rated group) s = .next t ∧ OnlyBlock b s t ∧ Answered 0x01 tag .ok [] s t ∧ CollectionsKept s t
      ∧ t.block b = (s.block b).enrolled p (enrolWatch s) := by
  obtain ⟨t, ht, ho, ha, hc, hq, hrec⟩ := block_answers (tag := tag) (b := b) (f := BlockRecord.enrolled p (enrolWatch s)) hr
    (owner := serveEnroll block rated group) (kind := 0x01) (by unfold serveEnroll; rw [hb, hp]; exact if_pos hs)
  refine ⟨t, ht, ho, ha, ⟨?_, ?_⟩, hrec⟩
  · rw [hc, hs]
    exact relist_outside _ _ (by decide) (by simp [BlockRecord.enrolled])
  · rw [hq, hs]
    exact relist_outside _ _ (by decide) (by simp [BlockRecord.enrolled])

theorem profile_taken {tag block : Byte} {rated : Half} {group : Byte} {s : State} {b : BlockIx} {p : Profile} (hr : Ready s)
    (hb : blockOf block = some b) (hp : profileOf rated group = some p)
    (hs : (s.block b).state = .free ∨ (s.block b).state = .silent) :
    ∃ t, exec (.profile tag block rated group) s = .next t ∧ OnlyBlock b s t ∧ Answered 0x02 tag .ok [] s t ∧ CollectionsKept s t
      ∧ t.block b = (s.block b).reprofiled p := by
  obtain ⟨t, ht, ho, ha, hc, hq, hrec⟩ := block_answers (tag := tag) (b := b) (f := BlockRecord.reprofiled p) hr
    (owner := serveProfile block rated group) (kind := 0x02) (by
      unfold serveProfile
      rw [hb, hp]
      rcases hs with hs | hs <;> simp [hs])
  exact ⟨t, ht, ho, ha, ⟨hc.trans (relist_same ..), hq.trans (relist_same ..)⟩, hrec⟩

theorem withdraw_taken {tag block : Byte} {s : State} {b : BlockIx} (hr : Ready s) (hb : blockOf block = some b)
    (hs : (s.block b).state = .free ∨ (s.block b).state = .silent ∨ (s.block b).state = .barred ∨ (s.block b).state = .out) :
    ∃ t, exec (.withdraw tag block) s = .next t ∧ OnlyBlock b s t ∧ Answered 0x03 tag .ok [] s t
      ∧ t.table.capped = s.table.capped
      ∧ t.table.rotation = (if (s.block b).state = .free then s.table.rotation.filter (· != b) else s.table.rotation)
      ∧ t.block b = BlockRecord.emptyAt ((s.block b).revision + 1) := by
  obtain ⟨t, ht, ho, ha, hc, hq, hrec⟩ := block_answers (tag := tag) (b := b) (f := BlockRecord.withdrawn) hr
    (owner := serveWithdraw block) (kind := 0x03) (by
      unfold serveWithdraw
      rw [hb]
      rcases hs with hs | hs | hs | hs <;> simp [hs])
  refine ⟨t, ht, ho, ha, ?_, hq.trans (relist_leaves _ _ (by simp [BlockRecord.withdrawn, BlockRecord.emptyAt])), hrec⟩
  have hne : (s.block b).state ≠ .capped := by rcases hs with hs | hs | hs | hs <;> simp [hs]
  exact hc.trans (relist_outside _ _ hne (by simp [BlockRecord.withdrawn, BlockRecord.emptyAt]))

/-- Settles O14: the three requests, with the operands read as R12 reads them. -/
theorem blockEnrolledProfiledWithdrawn : Obligations.BlockEnrolledProfiledWithdrawn := by
  unfold Obligations.BlockEnrolledProfiledWithdrawn
  refine ⟨fun tag block rated group s b g hr hb h1 h2 hg hs => ?_, fun tag block rated group s b g hr hb h1 h2 hg hs => ?_,
    fun tag block s b hr hb hs => withdraw_taken hr (blockOf_id hb) hs⟩
  · rw [← enrolWatch_eq]
    exact enroll_taken hr (blockOf_id hb) (profileOf_in h1 h2 hg) hs
  · exact profile_taken hr (blockOf_id hb) (profileOf_in h1 h2 hg) hs

/-! ## PIN and UNPIN -/

/-- A record with a profile: its rated power, and its floor (R32). -/
theorem rated_of_profile {r : BlockRecord} {p : Profile} (h : r.profile = some p) : r.rated = p.rated := by
  simp [BlockRecord.rated, h]

theorem floor_of_profile {r : BlockRecord} {p : Profile} (groups : Vector GroupRecord 8) (h : r.profile = some p) :
    r.floor groups = p.rated * groups[p.group].floorPercent / 100 := by
  simp [BlockRecord.floor, floorOf, h]

/-- R9, R19: the record of a block with a profile that becomes CAPPED at a clamped cap. -/
theorem cappedFrom_of_profile {r : BlockRecord} {p : Profile} (groups : Vector GroupRecord 8) (cap : Nat) (epoch : Epoch)
    (h : r.profile = some p) {floor : Nat} (hf : floor = p.rated * groups[p.group].floorPercent / 100) :
    r.cappedFrom groups cap epoch = { r with
      state := .capped, cap := some (max floor (min p.rated cap)), captureEpoch := some epoch, nonFollowRun := 0,
      owed := r.owed || decide (max floor (min p.rated cap) ≠ cap), revision := r.revision + 1 } := by
  rw [BlockRecord.cappedFrom, clampNat, rated_of_profile h, floor_of_profile _ h, hf]
  simp [BlockRecord.bump, bne, Bool.beq_eq_decide_eq]

theorem pin_taken {tag block : Byte} {cap : Half} {s : State} {b : BlockIx} {p : Profile} (hr : Ready s)
    (hb : blockOf block = some b) (hp : (s.block b).profile = some p) (hc : cap.toNat ≤ p.rated)
    (hs : (s.block b).state = .free ∨ (s.block b).state = .capped ∨ (s.block b).state = .resting) :
    ∃ t, exec (.pin tag block cap) s = .next t ∧ OnlyBlock b s t ∧ Answered 0x04 tag .ok [] s t
      ∧ t.table.capped = (if (s.block b).state = .capped then s.table.capped.filter (· != b) else s.table.capped)
      ∧ t.table.rotation = (if (s.block b).state = .free then s.table.rotation.filter (· != b) else s.table.rotation)
      ∧ t.block b = (s.block b).pinnedAt cap.toNat := by
  rw [← rated_of_profile hp] at hc
  obtain ⟨t, ht, ho, ha, hl, hq, hrec⟩ := block_answers (tag := tag) (b := b) (f := BlockRecord.pinnedAt cap.toNat) hr
    (owner := servePin block cap) (kind := 0x04) (by
      unfold servePin
      rw [hb]
      rcases hs with hs | hs | hs <;> simp [hs, hc])
  exact ⟨t, ht, ho, ha, hl.trans (relist_leaves _ _ (by simp [BlockRecord.pinnedAt, BlockRecord.bump])),
    hq.trans (relist_leaves _ _ (by simp [BlockRecord.pinnedAt, BlockRecord.bump])), hrec⟩

theorem unpin_taken {tag block : Byte} {s : State} {b : BlockIx} (hr : Ready s) (hb : blockOf block = some b)
    (hs : (s.block b).state = .pinned) :
    ∃ t, exec (.unpin tag block) s = .next t ∧ OnlyBlock b s t ∧ Answered 0x05 tag .ok [] s t
      ∧ t.table.capped = s.table.capped ++ [b] ∧ t.table.rotation = s.table.rotation
      ∧ t.block b = (s.block b).cappedFrom s.gov.groups ((s.block b).cap.getD 0) s.timer.epoch := by
  obtain ⟨t, ht, ho, ha, hl, hq, hrec⟩ := block_answers (tag := tag) (b := b)
    (f := fun r => r.cappedFrom s.gov.groups (r.cap.getD 0) s.timer.epoch) hr
    (owner := serveUnpin block) (kind := 0x05) (by unfold serveUnpin; rw [hb]; exact if_pos hs)
  refine ⟨t, ht, ho, ha, ?_, ?_, hrec⟩
  · rw [hl, hs, relist_joins _ _ (by decide)]
    exact if_pos rfl
  · rw [hq, hs]
    exact relist_outside _ _ (by decide) (by simp [BlockRecord.cappedFrom, BlockRecord.bump])

/-- Settles O15: the cap that UNPIN clamps is the one the block was pinned at. -/
theorem pinAndUnpinTaken : Obligations.PinAndUnpinTaken := by
  unfold Obligations.PinAndUnpinTaken
  refine ⟨fun tag block cap s b p hr hb hp hc hs => pin_taken hr (blockOf_id hb) hp hc hs,
    fun tag block s b p c floor hr hb hs hp hc hf => ?_⟩
  obtain ⟨t, ht, ho, ha, hl, hq, hrec⟩ := unpin_taken (tag := tag) hr (blockOf_id hb) hs
  refine ⟨t, ht, ho, ha, hl, hq, ?_⟩
  rw [hrec, hc, Option.getD_some, cappedFrom_of_profile _ _ _ hp hf]

/-! ## BAR and UNBAR -/

theorem bar_taken {tag block : Byte} {s : State} {b : BlockIx} (hr : Ready s) (hb : blockOf block = some b)
    (h1 : (s.block b).state ≠ .barred) (h2 : (s.block b).state ≠ .empty) :
    ∃ t, exec (.bar tag block) s = .next t ∧ OnlyBlock b s t ∧ Answered 0x06 tag .ok [] s t
      ∧ t.table.capped = (if (s.block b).state = .capped then s.table.capped.filter (· != b) else s.table.capped)
      ∧ t.table.rotation = (if (s.block b).state = .free then s.table.rotation.filter (· != b) else s.table.rotation)
      ∧ t.block b = (s.block b).barredByHost := by
  obtain ⟨t, ht, ho, ha, hl, hq, hrec⟩ := block_answers (tag := tag) (b := b) (f := BlockRecord.barredByHost) hr
    (owner := serveBar block) (kind := 0x06) (by
      unfold serveBar
      rw [hb]
      cases hs : (s.block b).state <;> simp_all)
  exact ⟨t, ht, ho, ha, hl.trans (relist_leaves _ _ (by simp [BlockRecord.barredByHost, BlockRecord.bump])),
    hq.trans (relist_leaves _ _ (by simp [BlockRecord.barredByHost, BlockRecord.bump])), hrec⟩

theorem holdsCap_eq (st : BlockState) : st.holdsCap = (st == .capped || st == .pinned) := by
  cases st <;> rfl

theorem unbar_taken {tag block : Byte} {s : State} {b : BlockIx} (hr : Ready s) (hb : blockOf block = some b)
    (hs : (s.block b).state = .barred) :
    ∃ t, exec (.unbar tag block) s = .next t ∧ OnlyBlock b s t ∧ Answered 0x07 tag .ok [] s t
      ∧ t.table.capped = s.table.capped
      ∧ t.table.rotation = (if (s.block b).tripFlag then s.table.rotation else s.table.rotation ++ [b])
      ∧ t.block b = (s.block b).unbarred := by
  obtain ⟨t, ht, ho, ha, hl, hq, hrec⟩ := block_answers (tag := tag) (b := b) (f := BlockRecord.unbarred) hr
    (owner := serveUnbar block) (kind := 0x07) (by unfold serveUnbar; rw [hb]; exact if_pos hs)
  have hst : (s.block b).unbarred.state = if (s.block b).tripFlag then .out else .free := rfl
  refine ⟨t, ht, ho, ha, ?_, ?_, hrec⟩
  · rw [hl, hs, hst]
    exact relist_outside _ _ (by decide) (by split <;> decide)
  · rw [hq, hs, hst, relist_joins _ _ (by decide)]
    cases (s.block b).tripFlag <;> rfl

/-- Settles O16: the two ways between BARRED and the other states. -/
theorem barAndUnbarTaken : Obligations.BarAndUnbarTaken := by
  unfold Obligations.BarAndUnbarTaken
  refine ⟨fun tag block s b hr hb h1 h2 => ?_, fun tag block s b hr hb hs => unbar_taken hr (blockOf_id hb) hs⟩
  rw [Bool.or_assoc, ← holdsCap_eq]
  exact bar_taken hr (blockOf_id hb) h1 h2

/-! ## The refusals (R12) -/

section
variable {tag block : Byte} {s : State} {b : BlockIx}

/-- R12, step 1: no block ID. -/
theorem noBlock_refused (rated cap : Half) (group : Byte) (hr : Ready s) (h : blockOf block = none) :
    (∃ t, exec (.enroll tag block rated group) s = .next t ∧ Refused 0x01 tag .badValue s t)
    ∧ (∃ t, exec (.profile tag block rated group) s = .next t ∧ Refused 0x02 tag .badValue s t)
    ∧ (∃ t, exec (.withdraw tag block) s = .next t ∧ Refused 0x03 tag .badValue s t)
    ∧ (∃ t, exec (.pin tag block cap) s = .next t ∧ Refused 0x04 tag .badValue s t)
    ∧ (∃ t, exec (.unpin tag block) s = .next t ∧ Refused 0x05 tag .badValue s t)
    ∧ (∃ t, exec (.bar tag block) s = .next t ∧ Refused 0x06 tag .badValue s t)
    ∧ (∃ t, exec (.unbar tag block) s = .next t ∧ Refused 0x07 tag .badValue s t)
    ∧ (∃ t, exec (.readBlock tag block) s = .next t ∧ Refused 0x08 tag .badValue s t) :=
  ⟨request_refused hr (by simp [serveEnroll, h]), request_refused hr (by simp [serveProfile, h]),
    request_refused hr (by simp [serveWithdraw, h]), request_refused hr (by simp [servePin, h]),
    request_refused hr (by simp [serveUnpin, h]), request_refused hr (by simp [serveBar, h]),
    request_refused hr (by simp [serveUnbar, h]), request_refused hr (by simp [serveReadBlock, h])⟩

/-- R12, step 2: no rated power or no group. -/
theorem noProfile_refused {rated : Half} {group : Byte} (hr : Ready s) (hb : blockOf block = some b)
    (h : profileOf rated group = none) :
    (∃ t, exec (.enroll tag block rated group) s = .next t ∧ Refused 0x01 tag .badValue s t)
    ∧ ∃ t, exec (.profile tag block rated group) s = .next t ∧ Refused 0x02 tag .badValue s t :=
  ⟨request_refused hr (by simp [serveEnroll, hb, h]), request_refused hr (by simp [serveProfile, hb, h])⟩

/-! R12, step 3: the state of the block. -/

theorem enroll_wrongState {rated : Half} {group : Byte} {p : Profile} (hr : Ready s) (hb : blockOf block = some b)
    (hp : profileOf rated group = some p) (hs : (s.block b).state ≠ .empty) :
    ∃ t, exec (.enroll tag block rated group) s = .next t ∧ Refused 0x01 tag .wrongState s t :=
  request_refused hr (by simp [serveEnroll, hb, hp, hs])

theorem profile_notFree {rated : Half} {group : Byte} {p : Profile} (hr : Ready s) (hb : blockOf block = some b)
    (hp : profileOf rated group = some p) (h1 : (s.block b).state ≠ .free) (h2 : (s.block b).state ≠ .silent) :
    ∃ t, exec (.profile tag block rated group) s = .next t ∧ Refused 0x02 tag .notFree s t :=
  request_refused hr (by
    unfold serveProfile
    rw [hb, hp]
    cases hs : (s.block b).state <;> simp_all)

theorem withdraw_notFree (hr : Ready s) (hb : blockOf block = some b)
    (hs : (s.block b).state ∈ [BlockState.capped, .resting, .pinned, .empty]) :
    ∃ t, exec (.withdraw tag block) s = .next t ∧ Refused 0x03 tag .notFree s t :=
  request_refused hr (by
    simp only [List.mem_cons, List.not_mem_nil, or_false] at hs
    unfold serveWithdraw
    rw [hb]
    rcases hs with hs | hs | hs | hs <;> simp [hs])

theorem pin_wrongState (cap : Half) (hr : Ready s) (hb : blockOf block = some b)
    (hs : (s.block b).state ∈ [BlockState.silent, .pinned, .barred, .out, .empty]) :
    ∃ t, exec (.pin tag block cap) s = .next t ∧ Refused 0x04 tag .wrongState s t :=
  request_refused hr (by
    simp only [List.mem_cons, List.not_mem_nil, or_false] at hs
    unfold servePin
    rw [hb]
    rcases hs with hs | hs | hs | hs | hs <;> simp [hs])

theorem unpin_wrongState (hr : Ready s) (hb : blockOf block = some b) (hs : (s.block b).state ≠ .pinned) :
    ∃ t, exec (.unpin tag block) s = .next t ∧ Refused 0x05 tag .wrongState s t :=
  request_refused hr (by simp [serveUnpin, hb, hs])

theorem bar_wrongState (hr : Ready s) (hb : blockOf block = some b) (hs : (s.block b).state ∈ [BlockState.barred, .empty]) :
    ∃ t, exec (.bar tag block) s = .next t ∧ Refused 0x06 tag .wrongState s t :=
  request_refused hr (by
    simp only [List.mem_cons, List.not_mem_nil, or_false] at hs
    unfold serveBar
    rw [hb]
    rcases hs with hs | hs <;> simp [hs])

theorem unbar_wrongState (hr : Ready s) (hb : blockOf block = some b) (hs : (s.block b).state ≠ .barred) :
    ∃ t, exec (.unbar tag block) s = .next t ∧ Refused 0x07 tag .wrongState s t :=
  request_refused hr (by simp [serveUnbar, hb, hs])

/-- R12, step 4: a cap above the rated power. -/
theorem pin_badValue {cap : Half} {p : Profile} (hr : Ready s) (hb : blockOf block = some b) (hp : (s.block b).profile = some p)
    (hc : p.rated < cap.toNat) (hs : (s.block b).state ∈ [BlockState.free, .capped, .resting]) :
    ∃ t, exec (.pin tag block cap) s = .next t ∧ Refused 0x04 tag .badValue s t :=
  request_refused hr (by
    rw [← rated_of_profile hp] at hc
    simp only [List.mem_cons, List.not_mem_nil, or_false] at hs
    unfold servePin
    rw [hb]
    rcases hs with hs | hs | hs <;> simp [hs, Nat.not_le.2 hc])

end

/-- Settles O17: the checks of R12 in their order. -/
theorem blockRequestsRefused : Obligations.BlockRequestsRefused := by
  unfold Obligations.BlockRequestsRefused
  intro tag block rated cap group s hr
  refine ⟨fun h => noBlock_refused rated cap group hr (blockOf_out h), fun b hid => ?_⟩
  have hb := blockOf_id hid
  refine ⟨fun h => noProfile_refused hr hb (profileOf_out h), fun h hs => ?_, fun h h1 h2 => ?_, withdraw_notFree hr hb,
    pin_wrongState cap hr hb, unpin_wrongState hr hb, bar_wrongState hr hb, unbar_wrongState hr hb,
    fun p hp hc hs => pin_badValue hr hb hp hc hs⟩
  · obtain ⟨p, hp⟩ := profileOf_some h
    exact enroll_wrongState hr hb hp hs
  · obtain ⟨p, hp⟩ := profileOf_some h
    exact profile_notFree hr hb hp h1 h2

/-! ## The reads that name something -/

/-- R92: READ_WARNING at an index up to 31, by whether the list reaches it. -/
theorem readWarning_found {index : Byte} {s : State} {w : Warning} (h : index.toNat ≤ 31)
    (hw : s.front.warnings[index.toNat]? = some w) :
    serveReadWarning index s = servedWith (warningData s.front.warnings.length w) s := by
  unfold serveReadWarning
  rw [if_neg (by omega), hw]

theorem readWarning_notFound {index : Byte} {s : State} (h : index.toNat ≤ 31) (hw : s.front.warnings.length ≤ index.toNat) :
    serveReadWarning index s = refuse .notFound s := by
  unfold serveReadWarning
  rw [if_neg (by omega), List.getElem?_eq_none hw]

/-- R175: ALERT_PEEK of a class, at an index up to 31. -/
theorem alertPeek_found {cls index : Byte} {c : AlertClass} {a : AlertEntry} {s : State} (hc : AlertClass.ofCode cls = some c)
    (h : index.toNat ≤ 31) (ha : (s.alerts.get c).entries[index.toNat]? = some a) :
    serveAlertPeek cls index s = servedWith (alertData a (s.alerts.get c)) s := by
  have hne : (s.alerts.get c).entries.isEmpty = false := by
    rw [List.isEmpty_eq_false_iff]
    rintro he
    simp [he] at ha
  unfold serveAlertPeek
  rw [hc]
  simp only [ha, hne]
  exact if_neg (by omega)

theorem alertPeek_empty {cls index : Byte} {c : AlertClass} {s : State} (hc : AlertClass.ofCode cls = some c)
    (h : index.toNat ≤ 31) (he : (s.alerts.get c).entries = []) : serveAlertPeek cls index s = refuse .empty s := by
  unfold serveAlertPeek
  rw [hc]
  simp only [he]
  exact if_neg (by omega)

theorem alertPeek_notFound {cls index : Byte} {c : AlertClass} {s : State} (hc : AlertClass.ofCode cls = some c)
    (h : index.toNat ≤ 31) (hne : (s.alerts.get c).entries ≠ []) (hl : (s.alerts.get c).entries.length ≤ index.toNat) :
    serveAlertPeek cls index s = refuse .notFound s := by
  unfold serveAlertPeek
  rw [hc]
  simp only [List.getElem?_eq_none hl, List.isEmpty_eq_false_iff.2 hne]
  exact if_neg (by omega)

theorem alertPeek_badValue {cls index : Byte} (s : State) (h : 3 < cls.toNat ∨ 31 < index.toNat) :
    serveAlertPeek cls index s = refuse .badValue s := by
  unfold serveAlertPeek
  cases hc : AlertClass.ofCode cls with
  | none => rfl
  | some c =>
    refine if_pos (h.resolve_left fun h3 => ?_)
    rw [alertClass_out h3] at hc
    cases hc

/-- Settles O19: each read leaves the state to its reply, found or refused. -/
theorem namedReadsAnswer : Obligations.NamedReadsAnswer := by
  unfold Obligations.NamedReadsAnswer
  intro tag s hr
  refine ⟨fun block b hb => ?_, fun station x hx => ?_, fun station hx => ?_, fun index w h hw => ?_, fun index h => ?_,
    fun index h hl => ?_, fun cls index c a hc h ha => ?_, fun cls index h => ?_, fun cls index c hc h he => ?_,
    fun cls index c hc h hne hl => ?_⟩
  · exact request_reads hr (by unfold serveReadBlock; rw [blockOf_id hb]; rfl)
  · exact request_reads hr (by unfold serveReadStation; rw [stationOf_id hx]; rfl)
  · exact request_refused hr (by unfold serveReadStation; rw [stationOf_out hx])
  · exact request_reads hr (readWarning_found h hw)
  · exact request_refused hr (if_pos h)
  · exact request_refused hr (readWarning_notFound h hl)
  · exact request_reads hr (alertPeek_found hc h ha)
  · exact request_refused hr (alertPeek_badValue _ h)
  · exact request_refused hr (alertPeek_empty hc h he)
  · exact request_refused hr (alertPeek_notFound hc h hne hl)

end Sys2Proof.Proofs
end

section
/-! PROOFS. START with a trigger to wait for (R48), and its refusals. -/

namespace Sys2Proof.Proofs

open Sys2Proof.Machine

/-! ## The trigger byte -/

theorem triggerOf_waiting {trigger : Byte} {tr : Trigger}
    (h : (trigger.toNat, tr) ∈ [(1, Trigger.startLine), (2, .firstFrame)]) :
    Trigger.ofCode trigger = some tr ∧ (tr = .startLine ∨ tr = .firstFrame) := by
  have hb : trigger = BitVec.ofNat 8 trigger.toNat := by simp
  simp only [List.mem_cons, Prod.mk.injEq, List.not_mem_nil, or_false] at h
  rcases h with ⟨h, rfl⟩ | ⟨h, rfl⟩ <;> rw [hb, h]
  · exact ⟨rfl, .inl rfl⟩
  · exact ⟨rfl, .inr rfl⟩

theorem triggerOf_out {trigger : Byte} (h : 2 < trigger.toNat) : Trigger.ofCode trigger = none := by
  unfold Trigger.ofCode
  rw [if_neg, if_neg, if_neg] <;> (intro e; subst e; revert h; decide)

theorem triggerOf_in {trigger : Byte} (h : trigger.toNat ≤ 2) : ∃ tr, Trigger.ofCode trigger = some tr := by
  have hb : trigger = BitVec.ofNat 8 trigger.toNat := by simp
  have hc : trigger.toNat = 0 ∨ trigger.toNat = 1 ∨ trigger.toNat = 2 := by omega
  rcases hc with hc | hc | hc <;> rw [hb, hc]
  · exact ⟨.immediate, rfl⟩
  · exact ⟨.startLine, rfl⟩
  · exact ⟨.firstFrame, rfl⟩

/-! ## The settings an adoption leaves (R39) -/

/-- R39: after an adoption nothing is staged, whether or not anything was before. -/
theorem adopt_store (s : State) (hp : s.gov.phase = .idle) :
    (adopt s).store = { plant := none, groups := Vector.replicate 8 none, configured := s.store.configured } := by
  obtain ⟨hn, hs⟩ := adoption_taken s hp _ Iff.rfl
  by_cases h : s.store.plant.isSome = true ∨ ∃ g : GroupIx, (s.store.groups[g]).isSome = true
  · obtain ⟨gov, a, b, v, begins, -, -, -, -, -, -, hv, -, -, hb, hk⟩ := hs h
    by_cases hbeg : begins
    · rw [hb hbeg, raise_store, hv]
    · rw [hk hbeg, hv]
  · rw [hn h]
    obtain ⟨hplant, hgroups⟩ := not_or.1 h
    have hg : s.store.groups = Vector.replicate 8 none := Vector.ext fun i hi => by
      simpa using fun hsome => hgroups ⟨⟨i, hi⟩, hsome⟩
    rw [← hg, ← Option.not_isSome_iff_eq_none.1 hplant]

/-- R39: after an adoption the committed group records are the staged ones where there were any. -/
theorem adopt_groups (s : State) (hp : s.gov.phase = .idle) (g : GroupIx) :
    (adopt s).gov.groups[g] = (s.store.groups[g]).getD s.gov.groups[g] := by
  obtain ⟨hn, hs⟩ := adoption_taken s hp _ Iff.rfl
  by_cases h : s.store.plant.isSome = true ∨ ∃ g : GroupIx, (s.store.groups[g]).isSome = true
  · obtain ⟨gov, a, b, v, begins, -, hgroups, -, -, -, -, hv, -, -, hb, hk⟩ := hs h
    rw [← hgroups g]
    by_cases hbeg : begins
    · rw [hb hbeg, raise_gov, hv]
    · rw [hk hbeg, hv]
  · rw [hn h, Option.not_isSome_iff_eq_none.1 fun hsome => h (.inr ⟨g, hsome⟩), Option.getD_none]

/-! ## START -/

/-- R48: what START leaves of a record is what its adoption left of it, renumbered. -/
theorem start_block {s : State} (hs : s.run.state = .stopped) (hp : s.gov.phase = .idle) (b : BlockIx) :
    (prepareRun s).block b
      = (if s.store.anyStaged = true then (s.block b).floorRaised (adopt s).gov.groups else s.block b).renumbered := by
  rw [(prepareRun_all s hs hp).2.2.2.2.2 b, (adopt_whileStopped s hs hp).2 b]

/-- R28: the record made ready for the new numbering. -/
theorem renumbered_eq (r : BlockRecord) : r.renumbered
    = if r.state = .empty then r
      else { r with heard := none, watch := none, capLabel := none, leaseExpiry := none, lastRelease := none,
                    captureEpoch := if r.state = .capped then some 0 else r.captureEpoch,
                    owed := r.owed || r.state == .capped || r.state == .pinned } := by
  unfold BlockRecord.renumbered
  rw [holdsCap_eq, Bool.or_assoc]

/-- R48: a waiting trigger is recorded. -/
theorem startWith_waiting {tr : Trigger} (h : tr = .startLine ∨ tr = .firstFrame) (order : EpochOrder) (s : State) :
    startWith tr order s = (prepareRun s).onRun fun c => { c with state := .armed, trigger := some tr } := by
  rcases h with rfl | rfl <;> rfl

theorem prepareRun_link {s : State} (hs : s.run.state = .stopped) (hp : s.gov.phase = .idle) :
    (prepareRun s).link = s.link := by
  rw [(prepareRun_all s hs hp).1]

theorem stopped_idle {s : State} (hl : RunLawful s) (hs : s.run.state = .stopped) : s.gov.phase = .idle := by
  obtain ⟨-, -, -, hphase⟩ := hl
  by_contra hne
  have hin := hphase hne
  rw [hs] at hin
  cases hin

/-- R48: the answer to a START that arms the part. -/
theorem start_answers {tag trigger : Byte} {order : EpochOrder} {tr : Trigger} {s : State} (hr : Ready s)
    (hs : s.run.state = .stopped) (hp : s.gov.phase = .idle) (hc : s.store.configured = true)
    (htr : Trigger.ofCode trigger = some tr) (hwait : tr = .startLine ∨ tr = .firstFrame) :
    ∃ t, exec (.start tag trigger order) s = .next t ∧ Answered 0x0D tag .ok [] s t
      ∧ t = { (prepareRun (s.inHand 0x0D tag)).onRun (fun c => { c with state := .armed, trigger := some tr }) with
                link := t.link } := by
  refine request_serves (owner := serveStart trigger order) _ hr ?_ ((State.onRun_link _ _).trans (prepareRun_link hs hp))
  unfold serveStart
  rw [htr, ← startWith_waiting hwait order]
  simp [hs, hc]

/-- R28, R29: the block records of a START. -/
theorem start_block_eq {s : State} (hs : s.run.state = .stopped) (hp : s.gov.phase = .idle) (b : BlockIx) {r : BlockRecord}
    (hr : r = if (s.store.plant.isSome = true ∨ ∃ g : GroupIx, (s.store.groups[g]).isSome = true)
          ∧ (s.block b).state = .capped ∧ (s.block b).cap.getD 0 < (s.block b).floor (adopt s).gov.groups
        then { s.block b with cap := some ((s.block b).floor (adopt s).gov.groups), owed := true,
                              revision := (s.block b).revision + 1 }
        else s.block b) : (prepareRun s).block b = r.renumbered := by
  rw [start_block hs hp, hr]
  have hst := anyStaged_iff s.store
  by_cases hany : s.store.anyStaged = true
  · simp only [hany, hst.1 hany, true_and, if_true]
    rfl
  · simp only [hany, mt hst.2 hany, false_and, if_false, Bool.false_eq_true]

/-- Settles O40: the state START leaves is read off what it prepares, in STOPPED with no dispatch in flight. -/
theorem startArmsThePart : Obligations.StartArmsThePart := by
  unfold Obligations.StartArmsThePart
  refine ⟨fun r groups => ⟨fun h => by simp [BlockRecord.floor, h], fun f h => floor_of_profile groups h⟩,
    fun tag trigger order tr s hr hl hs hc ht => ?_, fun tag trigger order s hr => ⟨fun h => ?_, fun h hs => ?_, fun h hs hc => ?_⟩⟩
  · obtain ⟨htr, hwait⟩ := triggerOf_waiting ht
    have hp := stopped_idle hl hs
    obtain ⟨t, hx, ha, he⟩ := start_answers (tag := tag) (order := order) hr hs hp hc htr hwait
    obtain ⟨hall, hst, hcap, hrot, hgc, -⟩ := prepareRun_all (s.inHand 0x0D tag) hs hp
    have hblk := fun b r => @start_block_eq (s.inHand 0x0D tag) hs hp b r
    have hstore := adopt_store (s.inHand 0x0D tag) hp
    have hgroups := adopt_groups (s.inHand 0x0D tag) hp
    have hgov := congrArg State.gov hall
    generalize prepareRun (s.inHand 0x0D tag) = v at *
    have htg : t.gov.groups = (adopt (s.inHand 0x0D tag)).gov.groups := by
      rw [he]
      exact (congrArg Governor.groups hgov : v.gov.groups = _)
    refine ⟨t, hx, ha, ?_, ?_, ?_, ?_, fun g => ?_, fun x => ?_, ?_, ?_, fun g => ?_, ?_⟩
    · rw [he, hall]; rfl
    · rw [he, hall]; rfl
    · rw [he, hall]
      exact hstore.trans (by rw [inHand_store, hc])
    · rw [he, hall]; rfl
    · rw [htg]
      exact hgroups g
    · rw [he]
      exact hst x
    · rw [he]
      exact hcap
    · rw [he]
      exact hrot
    · rw [he]
      show v.table.groupCapture[g] = none
      rw [hgc]
      simp
    · rintro b floor r rfl rfl
      rw [← renumbered_eq, htg, he]
      exact hblk b _ rfl
  · exact request_refused hr (by unfold serveStart; rw [triggerOf_out h])
  · obtain ⟨tr, htr⟩ := triggerOf_in h
    exact request_refused hr (by unfold serveStart; rw [htr]; exact if_pos hs)
  · obtain ⟨tr, htr⟩ := triggerOf_in h
    exact request_refused hr (by unfold serveStart; rw [htr]; simp [hs, hc])

end Sys2Proof.Proofs
end

section
/-! PROOFS. STOP in every run state, under each option (R27, R50, R51). -/

namespace Sys2Proof.Proofs

open Sys2Proof.Machine

/-! ## The option byte -/

theorem stopRelease_out {option : Byte} (h : 1 < option.toNat) : stopReleaseOfCode option = none := by
  obtain ⟨h0, h1⟩ := not_flag_byte h
  unfold stopReleaseOfCode
  rw [if_neg h0, if_neg h1]

theorem stopRelease_in {option : Byte} (h : option.toNat ≤ 1) : stopReleaseOfCode option = some (decide (option.toNat = 1)) := by
  rcases flag_byte h with ⟨rfl, -⟩ | ⟨rfl, -⟩ <;> rfl

/-! ## What ends with the run -/

/-- R51, R157: after the removals of R50 the queue has room for the releases of every CAPPED block and for the STORE 0. -/
theorem stop_room {s : State} (hc : CollectionsAgree s.table) (hq : QueueLawful s.ring) :
    ((s.ring.queue.filter OwnPacket.isProbe).filter fun p => !p.isMark).length + s.table.capped.length ≤ 62 := by
  obtain ⟨hnodup, -⟩ := hc
  obtain ⟨-, -, -, -, hprobe, -⟩ := hq
  have hcap : s.table.capped.length ≤ 48 := by simpa using hnodup.length_le_card
  have hone : (s.ring.queue.filter OwnPacket.isProbe).length ≤ 1 := by
    rw [hprobe]
    split <;> omega
  have hmark := probes_unmarked_le hone
  omega

/-- R50: what the end of a run leaves of a block record. -/
theorem endRun_block {s : State} (hc : CollectionsAgree s.table) (b : BlockIx) : (endRun s).block b
    = if (s.block b).state = .capped ∨ (s.block b).state = .resting then (s.block b).stopped else s.block b := by
  rw [endRun_all s hc]
  exact (stopBlocks_all s hc).2.2.2.2 b

/-- R50, R51: STOP with the option RELEASE while the ring is UP. -/
theorem stopRun_releases {s : State} (hup : s.ring.state = .up) (hc : CollectionsAgree s.table) (hq : QueueLawful s.ring) :
    stopRun true s
        = { endRun s with
              table := { (endRun s).table with blocks := (stopRun true s).table.blocks }
              ring := { s.ring with queue := s.ring.queue.filter OwnPacket.isProbe
                ++ (s.table.capped.map fun b => .cap b (s.timer.epoch + 1) none 0)
                ++ [.store (s.timer.epoch + 1) 0 0, .mark (s.timer.epoch + 1)] }
              nodes := { s.nodes with storage := { s.nodes.storage with
                commanded := 0, commandLabel := some (s.timer.epoch + 1) } } }
      ∧ ∀ b, (stopRun true s).block b = if (s.block b).state = .capped
          then { (s.block b).stopped with capLabel := some (s.timer.epoch + 1) } else (endRun s).block b := by
  have hring : (endRun s).ring = { s.ring with queue := s.ring.queue.filter OwnPacket.isProbe } := by rw [endRun_all s hc]
  have hnodes : (endRun s).nodes = { s.nodes with storage := { s.nodes.storage with commanded := 0 } } := by
    rw [endRun_all s hc]
  obtain ⟨hall, hblk⟩ := sendReleases_all (s.timer.epoch + 1) s.table.capped hc.1 (endRun s)
    (by rw [hring]; exact stop_room hc hq)
    (by rw [hring]; exact fun p hp => (List.mem_filter.1 hp).2)
  have he : stopRun true s = sendReleases (s.timer.epoch + 1) s.table.capped (endRun s) := if_pos ⟨rfl, hup⟩
  rw [he]
  refine ⟨?_, fun b => ?_⟩
  · rw [hring, hnodes] at hall
    exact hall
  · rw [hblk b]
    have hmem : b ∈ s.table.capped ↔ (s.block b).state = .capped := hc.2.2.1 b
    by_cases hb : (s.block b).state = .capped
    · rw [if_pos (hmem.2 hb), if_pos hb, endRun_block hc, if_pos (.inl hb)]
    · rw [if_neg (mt hmem.1 hb), if_neg hb]

/-- R50: STOP otherwise. -/
theorem stopRun_keeps {s : State} {release : Bool} (h : ¬(release = true ∧ s.ring.state = .up)) : stopRun release s = endRun s :=
  if_neg h

/-- R27, R50, R51, R139: everything that STOP changes in a run. -/
theorem stopRun_all {s : State} (release : Bool) (hc : CollectionsAgree s.table) (hq : QueueLawful s.ring) :
    stopRun release s
        = { s with
              run := { s.run with state := .stopped }, timer := { s.timer with running := false, stall := .disarmed },
              gov := { s.gov with phase := .idle }, table := (stopRun release s).table,
              ring := { s.ring with queue := (stopRun release s).ring.queue },
              nodes := { s.nodes with storage := { s.nodes.storage with
                commanded := 0, commandLabel := (stopRun release s).nodes.storage.commandLabel } } }
      ∧ (release = true ∧ s.ring.state = .up →
          (stopRun release s).nodes.storage.commandLabel = some (s.timer.epoch + 1)
          ∧ (stopRun release s).ring.queue = s.ring.queue.filter OwnPacket.isProbe
              ++ (s.table.capped.map fun b => .cap b (s.timer.epoch + 1) none 0)
              ++ [.store (s.timer.epoch + 1) 0 0, .mark (s.timer.epoch + 1)])
      ∧ (¬(release = true ∧ s.ring.state = .up) →
          (stopRun release s).nodes.storage.commandLabel = s.nodes.storage.commandLabel
          ∧ (stopRun release s).ring.queue = s.ring.queue.filter OwnPacket.isProbe)
      ∧ (stopRun release s).table.capped = (stopBlocks s).table.capped
      ∧ (stopRun release s).table.groupCapture = (stopBlocks s).table.groupCapture
      ∧ (stopRun release s).table.rotation = (stopBlocks s).table.rotation := by
  have hend := endRun_all s hc
  by_cases h : release = true ∧ s.ring.state = .up
  · obtain ⟨rfl, hup⟩ := h
    obtain ⟨hall, -⟩ := stopRun_releases hup hc hq
    generalize stopRun true s = v at *
    rw [hend] at hall
    refine ⟨?_, fun _ => ⟨?_, ?_⟩, fun h => absurd ⟨rfl, hup⟩ h, ?_, ?_, ?_⟩ <;> rw [hall]
  · rw [stopRun_keeps h]
    generalize endRun s = v at *
    refine ⟨?_, fun h' => absurd h' h, fun _ => ⟨?_, ?_⟩, ?_, ?_, ?_⟩ <;> rw [hend]

/-- R27, R51: what STOP leaves of a block record in a run. -/
theorem stopRun_block {s : State} (release : Bool) (hc : CollectionsAgree s.table) (hq : QueueLawful s.ring) (b : BlockIx) :
    ((s.block b).state = .capped → (stopRun release s).block b = { (s.block b).stopped with
        capLabel := if release = true ∧ s.ring.state = .up then some (s.timer.epoch + 1) else (s.block b).capLabel })
    ∧ ((s.block b).state = .resting → (stopRun release s).block b = (s.block b).stopped)
    ∧ ((s.block b).state ≠ .capped → (s.block b).state ≠ .resting → (stopRun release s).block b = s.block b) := by
  have hend := endRun_block hc b
  by_cases h : release = true ∧ s.ring.state = .up
  · obtain ⟨rfl, hup⟩ := h
    have hblk := (stopRun_releases hup hc hq).2 b
    refine ⟨fun h1 => ?_, fun h1 => ?_, fun h1 h2 => ?_⟩
    · rw [hblk, if_pos h1, if_pos ⟨rfl, hup⟩]
    · rw [hblk, if_neg (by rw [h1]; decide), hend, if_pos (.inr h1)]
    · rw [hblk, if_neg h1, hend, if_neg (by simp [h1, h2])]
  · rw [stopRun_keeps h]
    refine ⟨fun h1 => ?_, fun h1 => ?_, fun h1 h2 => ?_⟩
    · rw [hend, if_pos (.inl h1), if_neg h]
      rfl
    · rw [hend, if_pos (.inr h1)]
    · rw [hend, if_neg (by simp [h1, h2])]

/-- R50: a STOP taken in a run. -/
theorem stop_answers {tag option : Byte} {s : State} (hr : Ready s) (h : option.toNat ≤ 1)
    (hs : s.run.state = .running ∨ s.run.state = .holding) (hc : CollectionsAgree s.table) (hq : QueueLawful s.ring) :
    ∃ t, exec (.stop tag option) s = .next t ∧ Answered 0x0E tag .ok [] s t
      ∧ t = { stopRun (decide (option.toNat = 1)) (s.inHand 0x0E tag) with link := t.link } := by
  refine request_serves (owner := serveStop option) _ hr ?_ ?_
  · unfold serveStop
    rw [stopRelease_in h, inHand_run]
    rcases hs with hs | hs <;> rw [hs]
  · rw [(stopRun_all (s := s.inHand 0x0E tag) _ hc hq).1]

/-- Settles O47: the end of the run, with and without the packets of R51. -/
theorem stopEndsTheRun : Obligations.StopEndsTheRun := by
  unfold Obligations.StopEndsTheRun
  intro tag option s hr
  refine ⟨fun h => ?_, fun h hs => ?_, fun h hs => ?_, fun release label h hs hc hq hrel hlab => ?_⟩
  · exact request_refused hr (by unfold serveStop; rw [stopRelease_out h])
  · exact request_refused hr (by unfold serveStop; rw [stopRelease_in h, inHand_run, hs])
  · exact request_serves (owner := serveStop option) (disarm (s.inHand 0x0E tag)) hr
      (by unfold serveStop; rw [stopRelease_in h, inHand_run, hs]) rfl
  · subst hlab
    obtain ⟨t, hx, ha, he⟩ := stop_answers (tag := tag) hr h hs hc hq
    have hrel : decide (option.toNat = 1) = true ∧ s.ring.state = .up ↔ release := by rw [hrel, decide_eq_true_eq]
    obtain ⟨hall, hyes, hno, hcap, hgc, hrot⟩ :=
      stopRun_all (s := s.inHand 0x0E tag) (decide (option.toNat = 1)) hc hq
    have hblk := stopRun_block (s := s.inHand 0x0E tag) (decide (option.toNat = 1)) hc hq
    obtain ⟨-, bcap, bgc, brot, -⟩ := stopBlocks_all (s.inHand 0x0E tag) hc
    generalize stopRun (decide (option.toNat = 1)) (s.inHand 0x0E tag) = v at *
    have hn : t.nodes = v.nodes := by rw [he]
    have hg : t.ring = v.ring := by rw [he]
    have htab : t.table = v.table := by rw [he]
    have hb (b : BlockIx) : t.block b = v.block b := by rw [he]; rfl
    refine ⟨t, hx, ha, ?_, fun h => ?_, fun h => ?_, ?_, ?_, ?_, fun b => ⟨fun h => ?_, fun h => ?_, fun h1 h2 => ?_⟩⟩
    · rw [hn, hg, htab, he, hall]; rfl
    · rw [hn, hg]
      exact hyes (hrel.2 h)
    · rw [hn, hg]
      exact hno (mt hrel.1 h)
    · rw [htab, hcap, bcap]
    · rw [htab, hgc, bgc]; rfl
    · rw [htab, hrot, brot]; rfl
    · exact ⟨_, fun h => if_pos (hrel.2 h), fun h => if_neg (mt hrel.1 h), (hb b).trans ((hblk b).1 h)⟩
    · exact (hb b).trans ((hblk b).2.1 h)
    · exact (hb b).trans ((hblk b).2.2 h1 h2)

end Sys2Proof.Proofs
end

section
/-! PROOFS. The three sources of an epoch (R45) and the frame sync (R61). -/

namespace Sys2Proof.Proofs

open Sys2Proof.Machine

/-! ## Late packets and relabels (R159) -/

theorem lateAt_iff (e : Epoch) (p : OwnPacket) : p.lateAt e = true ↔ ∃ l, p.label? = some l ∧ atOrAfter e l = true := by
  cases p <;> simp [OwnPacket.lateAt, OwnPacket.label?]

/-! ## INTERNAL and EPOCH_LINE (R45) -/

theorem running_inRun {s : State} (hl : RunLawful s) (h : s.timer.running = true) : s.run.state.inRun = true :=
  hl.1.symm.trans h

theorem periodExpiry_epoch {order : EpochOrder} {s : State} (hl : RunLawful s) (hr : s.timer.running = true)
    (hs : s.timer.source = .internal) :
    EpochOccurs order (s.timer.epoch + 1) { s with now := max s.now (s.timer.lastEpochAt + 1000 * s.timer.period) }
      (periodExpiry order s) := by
  unfold periodExpiry
  rw [if_pos ⟨hr, hs⟩]
  exact epochEvent_occurs order (s.atTime (periodEnd s.timer)) (running_inRun hl hr)

theorem periodExpiry_none {order : EpochOrder} {s : State} (h : s.timer.running = false ∨ s.timer.source ≠ .internal) :
    periodExpiry order s = s := by
  unfold periodExpiry
  refine if_neg fun ⟨hr, hs⟩ => ?_
  rcases h with h | h
  · rw [h] at hr
    cases hr
  · exact h hs

theorem epochEdge_accepted {since : Time} {order : EpochOrder} {s : State} (hl : RunLawful s) (hr : s.timer.running = true)
    (hs : s.timer.source = .epochLine) (hn : s.timer.lastEdgeAt + 10000 ≤ max s.now (s.timer.lastEdgeAt + since)) :
    EpochOccurs order (s.timer.epoch + 1)
      { s with now := max s.now (s.timer.lastEdgeAt + since),
               timer := { s.timer with lastEdgeAt := max s.now (s.timer.lastEdgeAt + since) } }
      (epochEdge since order s) := by
  have he : epochEdge since order s = epochEvent order ((s.atTime (s.timer.lastEdgeAt + since)).onTimer fun t =>
      { t with lastEdgeAt := (s.atTime (s.timer.lastEdgeAt + since)).now }) := by
    unfold epochEdge
    rw [if_pos ⟨hr, hs⟩]
    exact if_pos hn
  rw [he]
  exact epochEvent_occurs order _ (running_inRun hl hr)

theorem epochEdge_early {since : Time} {order : EpochOrder} {s : State} (hr : s.timer.running = true)
    (hs : s.timer.source = .epochLine) (hn : max s.now (s.timer.lastEdgeAt + since) < s.timer.lastEdgeAt + 10000) :
    epochEdge since order s = { s with now := max s.now (s.timer.lastEdgeAt + since) } := by
  unfold epochEdge
  rw [if_pos ⟨hr, hs⟩]
  exact if_neg (Nat.not_le.2 hn)

theorem epochEdge_none {since : Time} {order : EpochOrder} {s : State}
    (h : s.timer.running = false ∨ s.timer.source ≠ .epochLine) : epochEdge since order s = s := by
  unfold epochEdge
  refine if_neg fun ⟨hr, hs⟩ => ?_
  rcases h with h | h
  · rw [h] at hr
    cases hr
  · exact h hs

/-! ## The frame sync (R61) -/

/-- R61: a new frame keeps the run lawful. -/
theorem frameBegun_runLawful {s : State} (hl : RunLawful s) (he : s.sky.enabled = true) :
    RunLawful (beginFrame (tripLossDue s)) :=
  Steps.keeps (fun _ _ h => h.keeps_run)
    ((tripLossDue_steps s).trans (beginFrame_steps _ ((tripLossDue_enabled s).trans he))) hl

theorem closeFrame_runLawful {s : State} (frame : Option (List Half)) (hl : RunLawful s) : RunLawful (closeFrame frame s) :=
  Steps.keeps (fun _ _ h => h.keeps_run) (closeFrame_steps frame s) hl

theorem syncEvent_skyLawful {s : State} (order : EpochOrder) (hl : SkyLawful s.sky) : SkyLawful (syncEvent order s).sky :=
  Steps.keeps (P := fun s => SkyLawful s.sky) (fun _ _ h => h.keeps_sky) (syncEvent_steps order s).fine hl

/-- R61: at the enabled port the frame in progress closes before the sync is counted, or after it (log 4). -/
theorem frameSync_taken {frameFirst : Bool} {order : EpochOrder} {s : State} (hl : RunLawful s) (hsky : SkyLawful s.sky)
    (he : s.sky.enabled = true) :
    ∃ frame u, SyncBegun s frame u
      ∧ (frameFirst = true → ∃ v, ShortFrameTaken frame u v ∧ SyncTaken order v (frameSync frameFirst order s))
      ∧ (frameFirst = false → ∃ v, SyncTaken order u v ∧ ShortFrameTaken frame v (frameSync frameFirst order s)) := by
  have hrun := frameBegun_runLawful hl he
  have hlaw := beginFrame_sky s hsky he
  have hx : frameSync frameFirst order s
      = if frameFirst then syncEvent order (closeFrame (tripLossDue s).sky.frame (beginFrame (tripLossDue s)))
        else closeFrame (tripLossDue s).sky.frame (syncEvent order (beginFrame (tripLossDue s))) := if_pos he
  rw [hx]
  refine ⟨_, _, beginFrame_begun s, ?_, ?_⟩
  · rintro rfl
    exact ⟨_, closeFrame_taken _ _ hlaw, syncEvent_taken order _ (closeFrame_runLawful _ hrun)⟩
  · rintro rfl
    exact ⟨_, syncEvent_taken order _ hrun, closeFrame_taken _ _ (syncEvent_skyLawful order hlaw)⟩

theorem frameSync_disabled {frameFirst : Bool} {order : EpochOrder} {s : State} (he : s.sky.enabled = false) :
    frameSync frameFirst order s = s := by
  unfold frameSync
  exact if_neg (by rw [he]; decide)

/-- Settles O42: each source where it gives an epoch, and where it gives none; the epoch itself is `epochEvent_occurs`. -/
theorem epochsComeFromTheirSource : Obligations.EpochsComeFromTheirSource := by
  unfold Obligations.EpochsComeFromTheirSource
  refine ⟨⟨rfl, rfl⟩, fun e p q => ⟨lateAt_iff e p, by rw [sameTargetAt_eq], ?_, ?_⟩, fun order s ha hl => ⟨fun hr hs => ?_, fun h => ?_⟩,
    fun since now order s ha hl hnow => ⟨fun hr hs => ⟨fun hn => ?_, fun hn => ?_⟩, fun h => ?_⟩,
    fun frameFirst order s ha hl hsky => ⟨fun he => ?_, fun he => ?_⟩⟩
  · rintro b l limit lease rfl
    rfl
  · rintro l power lease rfl
    rfl
  · exact ⟨_, execEvent_awake ha, periodExpiry_epoch hl hr hs⟩
  · exact execEvent_same (periodExpiry_none h)
  · subst hnow
    exact ⟨_, execEvent_awake ha, epochEdge_accepted hl hr hs hn⟩
  · subst hnow
    exact (execEvent_awake ha).trans (congrArg _ (epochEdge_early hr hs hn))
  · exact execEvent_same (epochEdge_none h)
  · obtain ⟨frame, u, hb, h1, h2⟩ := frameSync_taken (frameFirst := frameFirst) (order := order) hl hsky he
    exact ⟨frame, u, _, hb, execEvent_awake ha, h1, h2⟩
  · exact execEvent_same (frameSync_disabled he)

end Sys2Proof.Proofs
end

section
/-! PROOFS. Alerts: their intake with its effect on a block (R23 to R25, R171 to R173), and ALERT_TAKE and ALERT_FLUSH. -/

namespace Sys2Proof.Proofs

open Sys2Proof.Machine

/-! ## A change of one block record, beside its collections -/

/-- R4: a change that keeps a block's state keeps both collections. -/
theorem modifyBlock_collectionsKept {b : BlockIx} {f : BlockRecord → BlockRecord} {s : State}
    (h : (f (s.block b)).state = (s.block b).state) : CollectionsKept s (modifyBlock b f s) := by
  refine ⟨?_, ?_⟩
  · rw [modifyBlock_capped, h, relist_same]
  · rw [modifyBlock_rotation, h, relist_same]

theorem modifyBlock_othersKept (b : BlockIx) (f : BlockRecord → BlockRecord) (s : State) : OthersKept b s (modifyBlock b f s) :=
  ⟨fun x hx => modifyBlock_block_ne s b x f hx, modifyBlock_groupCapture s b f⟩

/-! ## What an alert makes of a block record (R23 to R25) -/

theorem tripped_marked {r : BlockRecord} (h : r.state = .barred ∨ r.state = .out) : r.tripped = { r with tripFlag := true } := by
  unfold BlockRecord.tripped
  rcases h with h | h <;> rw [h]

theorem tripped_out {r : BlockRecord} (h : r.state ∈ [BlockState.free, .capped, .resting, .pinned, .silent]) :
    r.tripped = { r with state := .out, tripFlag := true, cap := none, captureEpoch := none, revision := r.revision + 1,
                         owed := r.owed || decide (r.state = .capped ∨ r.state = .pinned) } := by
  simp only [List.mem_cons, List.not_mem_nil, or_false] at h
  unfold BlockRecord.tripped
  rcases h with h | h | h | h | h <;> simp [h, BlockRecord.bump, BlockState.holdsCap]

theorem tripped_empty {r : BlockRecord} (h : r.state = .empty) : r.tripped = r := by
  unfold BlockRecord.tripped
  rw [h]

theorem restored_freed {r : BlockRecord} (h : r.state = .out) :
    r.restored = { r with state := .free, tripFlag := false, revision := r.revision + 1 } := by
  unfold BlockRecord.restored
  rw [h]
  rfl

theorem restored_unmarked {r : BlockRecord} (h : r.state = .barred) : r.restored = { r with tripFlag := false } := by
  unfold BlockRecord.restored
  rw [h]

theorem restored_same {r : BlockRecord} (h1 : r.state ≠ .out) (h2 : r.state ≠ .barred) : r.restored = r := by
  unfold BlockRecord.restored
  cases h : r.state
  case out => exact absurd h h1
  case barred => exact absurd h h2
  all_goals rfl

theorem derated_eq {r : BlockRecord} (limit : Option Nat) (h : r.state ≠ .empty) :
    r.derated limit = { r with derate := limit, revision := if r.derate = limit then r.revision else r.revision + 1 } := by
  unfold BlockRecord.derated
  rw [if_neg h]
  split
  · rename_i hd
    rw [← hd]
  · rfl

theorem derated_empty {r : BlockRecord} (limit : Option Nat) (h : r.state = .empty) : r.derated limit = r :=
  if_pos h

/-- R25, R171: the limit by the alert's data. -/
theorem derateLimit_of {data : Word} {limit : Option Nat}
    (h : data.toNat = 65535 ∧ limit = none ∨ data.toNat < 65535 ∧ limit = some data.toNat
      ∨ 65535 < data.toNat ∧ limit = some 65534) : derateLimit data = limit := by
  unfold derateLimit
  rcases h with ⟨h, rfl⟩ | ⟨h, rfl⟩ | ⟨h, rfl⟩
  · exact if_pos h
  · rw [if_neg (by omega), Nat.min_eq_left (by omega)]
  · rw [if_neg (by omega), Nat.min_eq_right (by omega)]

/-! ## The effect of an alert on the Block Table (R171) -/

theorem blockAlert_othersKept (b : BlockIx) (cls : AlertClass) (data : Word) (s : State) :
    OthersKept b s (blockAlert b cls data s) := by
  cases cls
  case note => exact ⟨fun _ _ => rfl, rfl⟩
  all_goals exact modifyBlock_othersKept b _ s

theorem blockAlert_empty {b : BlockIx} {s : State} (cls : AlertClass) (data : Word) (h : (s.block b).state = .empty) :
    blockAlert b cls data s = s := by
  cases cls with
  | trip => exact modifyBlock_id (tripped_empty h)
  | derate => exact modifyBlock_id (derated_empty _ h)
  | restore => exact modifyBlock_id (restored_same (by rw [h]; decide) (by rw [h]; decide))
  | note => rfl

/-- R23. -/
theorem tripAlert_taken (b : BlockIx) (data : Word) (s t : State) (ht : t = blockAlert b .trip data s) :
    ((s.block b).state = .barred ∨ (s.block b).state = .out → t.block b = { s.block b with tripFlag := true } ∧ CollectionsKept s t)
    ∧ ((s.block b).state ∈ [BlockState.free, .capped, .resting, .pinned, .silent] →
      t.table.capped = (if (s.block b).state = .capped then s.table.capped.filter (· != b) else s.table.capped)
      ∧ t.table.rotation = (if (s.block b).state = .free then s.table.rotation.filter (· != b) else s.table.rotation)
      ∧ t.block b = { s.block b with
        state := .out, tripFlag := true, cap := none, captureEpoch := none, revision := (s.block b).revision + 1,
        owed := (s.block b).owed || decide ((s.block b).state = .capped ∨ (s.block b).state = .pinned) }) := by
  have ht : t = modifyBlock b BlockRecord.tripped s := ht
  subst ht
  refine ⟨fun h => ?_, fun h => ?_⟩
  · have hf := tripped_marked h
    exact ⟨(modifyBlock_block_self ..).trans hf, modifyBlock_collectionsKept (by rw [hf])⟩
  · have hf := tripped_out h
    have hst : (s.block b).tripped.state = .out := by rw [hf]
    refine ⟨?_, ?_, (modifyBlock_block_self ..).trans hf⟩
    · rw [modifyBlock_capped, hst, relist_leaves _ _ (by decide)]
    · rw [modifyBlock_rotation, hst, relist_leaves _ _ (by decide)]

/-- R24. -/
theorem restoreAlert_taken (b : BlockIx) (data : Word) (s t : State) (ht : t = blockAlert b .restore data s) :
    ((s.block b).state = .out →
      t.block b = { s.block b with state := .free, tripFlag := false, revision := (s.block b).revision + 1 }
      ∧ t.table.capped = s.table.capped ∧ t.table.rotation = s.table.rotation ++ [b])
    ∧ ((s.block b).state = .barred → t.block b = { s.block b with tripFlag := false } ∧ CollectionsKept s t)
    ∧ ((s.block b).state ≠ .out → (s.block b).state ≠ .barred → t.block b = s.block b ∧ CollectionsKept s t) := by
  have ht : t = modifyBlock b BlockRecord.restored s := ht
  subst ht
  refine ⟨fun h => ?_, fun h => ?_, fun h1 h2 => ?_⟩
  · have hf := restored_freed h
    have hst : (s.block b).restored.state = .free := by rw [hf]
    refine ⟨(modifyBlock_block_self ..).trans hf, ?_, ?_⟩
    · rw [modifyBlock_capped, hst, relist_outside _ _ (by rw [h]; decide) (by decide)]
    · rw [modifyBlock_rotation, hst, relist_joins _ _ (by rw [h]; decide)]
      exact if_pos rfl
  · have hf := restored_unmarked h
    exact ⟨(modifyBlock_block_self ..).trans hf, modifyBlock_collectionsKept (by rw [hf])⟩
  · have hf := restored_same h1 h2
    exact ⟨(modifyBlock_block_self ..).trans hf, modifyBlock_collectionsKept (by rw [hf])⟩

/-- R25. -/
theorem derateAlert_taken (b : BlockIx) (data : Word) (s t : State) (ht : t = blockAlert b .derate data s)
    (h : (s.block b).state ≠ .empty) : CollectionsKept s t ∧ t.block b = { s.block b with
      derate := derateLimit data,
      revision := if (s.block b).derate = derateLimit data then (s.block b).revision else (s.block b).revision + 1 } := by
  have ht : t = modifyBlock b (BlockRecord.derated (derateLimit data)) s := ht
  subst ht
  have hf := derated_eq (derateLimit data) h
  exact ⟨modifyBlock_collectionsKept (by rw [hf]), (modifyBlock_block_self ..).trans hf⟩

/-! ## The intake (R171, R172) -/

theorem blockOfNode_id {node : Nat} {b : BlockIx} (h : node = b.val + 1) : blockOfNode node = some b := by
  have := b.isLt
  unfold blockOfNode
  rw [dif_pos (by omega)]
  congr 1
  apply Fin.ext
  simp only
  omega

theorem blockOfNode_out {node : Nat} (h : 48 < node ∨ node = 0) : blockOfNode node = none :=
  dif_neg (by omega)

/-- R171: the Block Table acts on an alert before it is stored. -/
def alertEffect (node : Nat) (cls : AlertClass) (data : Word) (s : State) : State :=
  match blockOfNode node with
  | some b => blockAlert b cls data s
  | none => s

theorem alertEffect_frame (node : Nat) (cls : AlertClass) (data : Word) (s : State) :
    alertEffect node cls data s = { s with table := (alertEffect node cls data s).table } := by
  unfold alertEffect
  split
  · exact blockAlert_frame _ cls data s
  · rfl

theorem alertEffect_block {node : Nat} {b : BlockIx} (cls : AlertClass) (data : Word) (s : State) (h : node = b.val + 1) :
    alertEffect node cls data s = blockAlert b cls data s := by
  unfold alertEffect
  rw [blockOfNode_id h]

/-- R171: no alert of another node, and no NOTE, acts on the Block Table. -/
theorem alertEffect_none {node : Nat} {cls : AlertClass} (data : Word) (s : State) (h : 48 < node ∨ node = 0 ∨ cls = .note) :
    alertEffect node cls data s = s := by
  unfold alertEffect
  rw [← or_assoc] at h
  rcases h with h | rfl
  · rw [blockOfNode_out h]
  · split <;> rfl

theorem alertIntake_all (node : Nat) (cls : AlertClass) (data : Word) (s : State) (hl : LevelsFollow s) :
    alertIntake node cls data s = raise (if (s.alerts.get cls).entries.length < 32 then cls.level else .alertOverflow)
      { s with
          table := (alertEffect node cls data s).table,
          alerts := s.alerts.set cls
            (if (s.alerts.get cls).entries.length < 32
              then { s.alerts.get cls with
                       entries := (s.alerts.get cls).entries ++ [{ node, cls, data, arrival := s.timer.epoch }] }
              else { s.alerts.get cls with overflow := min ((s.alerts.get cls).overflow + 1) 255 }) } := by
  have hs : alertIntake node cls data s
      = storeAlert { node, cls, data, arrival := s.timer.epoch } (alertEffect node cls data s) := rfl
  rw [hs, alertEffect_frame]
  exact storeAlert_raises _ { s with table := (alertEffect node cls data s).table } hl

/-! ## ALERT_TAKE and ALERT_FLUSH (R173, R174, R176) -/

/-- R173: while the levels follow their queues, a queue that held an entry changes the set only as it becomes empty. -/
theorem putAlerts_follows {c : AlertClass} {s : State} (q : AlertQueue) (hl : LevelsFollow s)
    (hne : (s.alerts.get c).entries ≠ []) : putAlerts c q s
      = { s with alerts := s.alerts.set c q, cond := { s.cond with
            conditions := if q.entries = [] then clearCondition s.cond.conditions c.level else s.cond.conditions } } := by
  by_cases hq : q.entries = []
  · rw [putAlerts_none c q s hq, if_pos hq]
    rfl
  · have hset : conditionSet s.cond.conditions c.level = true := (hl c).1.trans (by simp [hne])
    rw [putAlerts_some c q s hq, if_neg hq, raise_set (s.onAlerts _) _ hset]
    rfl

theorem alertTake_taken {tag cls : Byte} {c : AlertClass} {a : AlertEntry} {rest : List AlertEntry} {s : State} (hr : Ready s)
    (hl : LevelsFollow s) (hc : AlertClass.ofCode cls = some c) (ha : (s.alerts.get c).entries = a :: rest) :
    ∃ t, exec (.alertTake tag cls) s = .next t
      ∧ Answered 0x1D tag .ok (alertData a { s.alerts.get c with entries := rest }) s t
      ∧ t = { s with link := t.link, alerts := s.alerts.set c { s.alerts.get c with entries := rest },
                     cond := { s.cond with conditions := if rest = [] then clearCondition s.cond.conditions c.level
                                                         else s.cond.conditions } } := by
  have hput := putAlerts_follows (s := s.inHand 0x1D tag) { s.alerts.get c with entries := rest } hl
    (c := c) (by rw [inHand_alerts, ha]; exact List.cons_ne_nil a rest)
  obtain ⟨t, hx, hans, he⟩ := request_answers (kind := 0x1D) (tag := tag) (owner := serveAlertTake cls) (st := .ok)
    (data := alertData a { s.alerts.get c with entries := rest })
    (v := putAlerts c { s.alerts.get c with entries := rest } (s.inHand 0x1D tag)) hr
    (by unfold serveAlertTake; rw [hc]; simp only [inHand_alerts, ha]; rfl)
    (by rw [hput])
  exact ⟨t, hx, hans, by rw [he, hput]; rfl⟩

theorem alertFlush_taken {tag cls : Byte} {c : AlertClass} {s : State} (hr : Ready s) (hc : AlertClass.ofCode cls = some c) :
    ∃ t, exec (.alertFlush tag cls) s = .next t ∧ Answered 0x1F tag .ok [] s t
      ∧ t = { s with link := t.link, alerts := s.alerts.set c { entries := [], overflow := 0 },
                     cond := { s.cond with conditions := clearCondition s.cond.conditions c.level } } := by
  have hput := putAlerts_none c { entries := [], overflow := 0 } (s.inHand 0x1F tag) rfl
  obtain ⟨t, hx, hans, he⟩ := request_serves (kind := 0x1F) (tag := tag) (owner := serveAlertFlush cls)
    (putAlerts c { entries := [], overflow := 0 } (s.inHand 0x1F tag)) hr (by unfold serveAlertFlush; rw [hc])
    (by rw [hput]; rfl)
  exact ⟨t, hx, hans, by rw [he, hput]; rfl⟩

/-- Settles O60: the intake stores the alert after its effect on the block, and the levels follow the queues. -/
theorem alertsStoredTakenFlushed : Obligations.AlertsStoredTakenFlushed := by
  unfold Obligations.AlertsStoredTakenFlushed
  refine ⟨fun node cls data s t hl ht => ?_, fun tag cls s hr hl => ⟨fun h => ⟨?_, ?_⟩, fun c hcls => ⟨fun he => ?_, fun a rest ha => ?_, ?_⟩⟩⟩
  · have hall := alertIntake_all node cls data s hl
    rw [← ht] at hall
    have htab : t.table = (alertEffect node cls data s).table := by rw [hall, raise_table]
    refine ⟨by rw [hall, raise_alerts], ?_, fun h => by rw [htab, alertEffect_none data s h], fun b hb => ?_⟩
    · rw [hall, raise_table, raise_alerts]
      rfl
    · rw [alertEffect_block cls data s hb] at htab
      have hblk (x : BlockIx) : t.block x = (blockAlert b cls data s).block x := by rw [State.block, htab]; rfl
      simp only [OthersKept, CollectionsKept, htab, hblk]
      refine ⟨blockAlert_othersKept b cls data s, fun h => by rw [blockAlert_empty cls data h], ?_, ?_, ?_⟩
      · rintro rfl
        exact tripAlert_taken b data s _ rfl
      · rintro rfl
        exact restoreAlert_taken b data s _ rfl
      · rintro rfl h limit hlim
        rw [← derateLimit_of hlim]
        exact derateAlert_taken b data s _ rfl h
  · exact request_refused hr (by unfold serveAlertTake; rw [alertClass_none h])
  · exact request_refused hr (by unfold serveAlertFlush; rw [alertClass_none h])
  · exact request_refused hr (by unfold serveAlertTake; rw [alertClass_of hcls]; simp only [inHand_alerts, he])
  · obtain ⟨t, hx, hans, ht⟩ := alertTake_taken (tag := tag) hr hl (alertClass_of hcls) ha
    exact ⟨t, hx, hans, by rw [ht], by rw [ht]⟩
  · exact alertFlush_taken hr (alertClass_of hcls)

end Sys2Proof.Proofs
end

section
/-! PROOFS. What reports and returned packets do to the records (R18 to R22, R133 to R135, R166 to R169). -/

namespace Sys2Proof.Proofs

open Sys2Proof.Machine

/-! ## A report of a block (R18) -/

theorem current_stale {r : BlockRecord} {rep : BlockReport}
    (h : ∃ l, r.capLabel = some l ∧ atOrAfter rep.epoch l = false) : r.current rep = false := by
  obtain ⟨l, hl, ha⟩ := h
  unfold BlockRecord.current
  rw [hl]
  exact ha

theorem current_of {r : BlockRecord} {rep : BlockReport} (h : ∀ l, r.capLabel = some l → atOrAfter rep.epoch l = true) :
    r.current rep = true := by
  unfold BlockRecord.current
  cases hl : r.capLabel with
  | none => rfl
  | some l => exact h l hl

/-- R18: the record as every report leaves it. -/
abbrev reportedRecord (b : BlockIx) (rep : BlockReport) (s : State) : BlockRecord :=
  (s.block b).updated rep s.timer.epoch

/-- R18: the state with the update that every report makes. -/
abbrev reported (b : BlockIx) (rep : BlockReport) (s : State) : State :=
  modifyBlock b (BlockRecord.updated rep s.timer.epoch) s

section
variable {b : BlockIx} {rep : BlockReport} {s : State}

theorem blockReport_stale (h : (s.block b).state ≠ .empty) (hc : (s.block b).current rep = false) :
    blockReport b rep s = reported b rep s := by
  unfold blockReport
  rw [if_neg h]
  simp only [hc]
  rfl

theorem blockReport_current (h : (s.block b).state ≠ .empty) (hc : (s.block b).current rep = true) :
    blockReport b rep s = currentReport b rep (reported b rep s) := by
  unfold blockReport
  rw [if_neg h]
  simp only [hc]
  rfl

@[simp] theorem reported_block : (reported b rep s).block b = reportedRecord b rep s :=
  modifyBlock_block_self ..

theorem reported_kept : CollectionsKept s (reported b rep s) :=
  modifyBlock_collectionsKept rfl

theorem reported_only : OnlyBlock b s (reported b rep s) :=
  ⟨rfl, modifyBlock_othersKept b _ s⟩

/-- A second change of the record that the report has updated. -/
theorem reportedThen_taken (f : BlockRecord → BlockRecord) {u : BlockRecord} {v : State} (hu : u = reportedRecord b rep s)
    (hv : v = modifyBlock b f (reported b rep s)) :
    v.block b = f u ∧ OnlyBlock b s v ∧ v.link = s.link
      ∧ v.table.capped = relist .capped u.state (f u).state b s.table.capped
      ∧ v.table.rotation = relist .free u.state (f u).state b s.table.rotation := by
  subst hu hv
  obtain ⟨hcap, hrot⟩ := reported_kept (b := b) (rep := rep) (s := s)
  refine ⟨by rw [modifyBlock_block_self, reported_block], ⟨rfl, fun x hx => ?_, rfl⟩, rfl, ?_, ?_⟩
  · rw [modifyBlock_block_ne _ _ _ _ hx, modifyBlock_block_ne _ _ _ _ hx]
  · rw [modifyBlock_capped, reported_block, hcap]
  · rw [modifyBlock_rotation, reported_block, hrot]

/-- A second change of the record that keeps the block's state. -/
theorem reportedThen_kept {f : BlockRecord → BlockRecord} (h : ∀ r : BlockRecord, (f r).state = r.state) :
    CollectionsKept s (modifyBlock b f (reported b rep s)) := by
  obtain ⟨hcap, hrot⟩ := reported_kept (b := b) (rep := rep) (s := s)
  obtain ⟨hcap', hrot'⟩ := modifyBlock_collectionsKept (b := b) (f := f) (s := reported b rep s) (h _)
  exact ⟨hcap'.trans hcap, hrot'.trans hrot⟩

end

/-- A raise that follows a change of one block record. -/
theorem raise_afterBlock {c : Condition} {b : BlockIx} {s v t : State} (hv : v = { s with table := v.table })
    (ho : OthersKept b s v) (ht : t = raise c v) :
    t.block b = v.block b ∧ OthersKept b s t ∧ t.table = v.table ∧ OnlyRaised c { s with table := t.table } t := by
  subst ht
  obtain ⟨hr, htab⟩ := raise_onTable c s v hv
  refine ⟨by rw [State.block, htab]; rfl, ⟨fun x hx => ?_, by rw [htab]; exact ho.2⟩, htab, hr⟩
  rw [State.block, htab]
  exact ho.1 x hx

/-- R19: the record of an adopted block. -/
theorem adopted_eq {groups : Vector GroupRecord 8} {rep : BlockReport} {now : Epoch} {r : BlockRecord} {f : Profile}
    (hf : r.profile = some f) {applied cap floor : Nat} (ha : applied = rep.applied.getD 0)
    (hfl : floor = f.rated * groups[f.group].floorPercent / 100) (hc : cap = max floor (min f.rated applied)) :
    r.adopted groups rep now = { r with
      state := .capped, cap := some cap, captureEpoch := some now, leaseExpiry := some (now + BitVec.ofNat 32 rep.leaseLeft),
      nonFollowRun := 0, owed := r.owed || decide (cap ≠ applied), revision := r.revision + 1 } := by
  unfold BlockRecord.adopted
  rw [cappedFrom_of_profile _ _ _ hf hfl, hc, ha]

section
variable {b : BlockIx} {rep : BlockReport} {s t : State} {u : BlockRecord}

/-- R19, unit FREE. -/
theorem silentFree_taken (hu : u = reportedRecord b rep s) (ht : t = currentReport b rep (reported b rep s))
    (hm : rep.mode = .free) (hs : u.state = .silent) :
    t.block b = { u with state := .free, revision := u.revision + 1 } ∧ OnlyBlock b s t ∧ t.link = s.link
      ∧ t.table.rotation = s.table.rotation ++ [b] ∧ t.table.capped = s.table.capped := by
  have he : currentReport b rep (reported b rep s) = modifyBlock b BlockRecord.heardFree (reported b rep s) := by
    unfold currentReport
    rw [reported_block, ← hu, hs, hm]
  obtain ⟨hb, ho, hl, hcap, hrot⟩ := reportedThen_taken _ hu (ht.trans he)
  refine ⟨hb, ho, hl, ?_, ?_⟩
  · rw [hrot, relist_joins _ _ (by rw [hs]; decide)]
    exact if_pos rfl
  · rw [hcap]
    exact relist_outside _ _ (by rw [hs]; decide) (by simp [BlockRecord.heardFree, BlockRecord.bump])

/-- R20: the lapse of a CAPPED block. -/
theorem cappedFree_taken (hu : u = reportedRecord b rep s) (ht : t = currentReport b rep (reported b rep s))
    (hm : rep.mode = .free) (hs : u.state = .capped) :
    t.block b = { u with state := .free, cap := none, captureEpoch := none, leaseExpiry := none, owed := false,
                         lapseCount := min (u.lapseCount + 1) 65535, revision := u.revision + 1 }
      ∧ OthersKept b s t
      ∧ t.table.capped = s.table.capped.filter (· != b) ∧ t.table.rotation = s.table.rotation ++ [b]
      ∧ OnlyRaised .blockLapsed { s with table := t.table } t := by
  have he : currentReport b rep (reported b rep s)
      = raise .blockLapsed (modifyBlock b BlockRecord.lapsed (reported b rep s)) := by
    unfold currentReport
    rw [reported_block, ← hu, hs, hm]
  obtain ⟨hb, ⟨-, ho⟩, -, hcap, hrot⟩ := reportedThen_taken BlockRecord.lapsed hu rfl
  obtain ⟨hb', ho', htab, hr⟩ := raise_afterBlock (s := s) rfl ho (ht.trans he)
  refine ⟨hb'.trans hb, ho', ?_, ?_, hr⟩
  · rw [htab, hcap, relist_leaves _ _ (by simp [BlockRecord.lapsed, BlockRecord.bump])]
    exact if_pos hs
  · rw [htab, hrot, relist_joins _ _ (by rw [hs]; decide)]
    exact if_pos rfl

/-- R20: the lapse of a PINNED block. -/
theorem pinnedFree_taken (hu : u = reportedRecord b rep s) (ht : t = currentReport b rep (reported b rep s))
    (hm : rep.mode = .free) (hs : u.state = .pinned) :
    t.block b = { u with leaseExpiry := none, owed := true, lapseCount := min (u.lapseCount + 1) 65535 }
      ∧ OthersKept b s t ∧ CollectionsKept s t ∧ OnlyRaised .blockLapsed { s with table := t.table } t := by
  have he : currentReport b rep (reported b rep s)
      = raise .blockLapsed (modifyBlock b BlockRecord.pinLapsed (reported b rep s)) := by
    unfold currentReport
    rw [reported_block, ← hu, hs, hm]
  obtain ⟨hb, ⟨-, ho⟩, -⟩ := reportedThen_taken BlockRecord.pinLapsed hu rfl
  have hk := reportedThen_kept (b := b) (rep := rep) (s := s) (f := BlockRecord.pinLapsed) fun _ => rfl
  obtain ⟨hb', ho', htab, hr⟩ := raise_afterBlock (s := s) rfl ho (ht.trans he)
  exact ⟨hb'.trans hb, ho', by rw [CollectionsKept, htab]; exact hk, hr⟩

/-- R21: a unit that holds a cap the part has not given it. -/
theorem strayCap_taken (hu : u = reportedRecord b rep s) (ht : t = currentReport b rep (reported b rep s))
    (hm : rep.mode = .capped) (hs : u.state = .free ∨ u.state = .resting ∨ u.state = .barred ∨ u.state = .out) :
    t.block b = { u with owed := true } ∧ OthersKept b s t ∧ CollectionsKept s t
      ∧ OnlyRaised .strayCap { s with table := t.table } t := by
  have he : currentReport b rep (reported b rep s)
      = raise .strayCap (modifyBlock b (fun r => { r with owed := true }) (reported b rep s)) := by
    unfold currentReport
    rw [reported_block, ← hu, hm]
    rcases hs with hs | hs | hs | hs <;> rw [hs]
  obtain ⟨hb, ⟨-, ho⟩, -⟩ := reportedThen_taken (fun r => { r with owed := true }) hu rfl
  have hk := reportedThen_kept (b := b) (rep := rep) (s := s) (f := fun r => { r with owed := true }) fun _ => rfl
  obtain ⟨hb', ho', htab, hr⟩ := raise_afterBlock (s := s) rfl ho (ht.trans he)
  exact ⟨hb'.trans hb, ho', by rw [CollectionsKept, htab]; exact hk, hr⟩

/-- R18 to R21: a report that finds the unit as the part holds it. -/
theorem agreeing_taken (hu : u = reportedRecord b rep s) (ht : t = currentReport b rep (reported b rep s))
    (h : (rep.mode = .free ∧ (u.state = .free ∨ u.state = .resting ∨ u.state = .barred ∨ u.state = .out))
      ∨ (rep.mode = .capped ∧ u.state = .pinned)) :
    t.block b = u ∧ OnlyBlock b s t ∧ CollectionsKept s t ∧ t.link = s.link := by
  have he : currentReport b rep (reported b rep s) = reported b rep s := by
    unfold currentReport
    rw [reported_block, ← hu]
    rcases h with ⟨hm, hs | hs | hs | hs⟩ | ⟨hm, hs⟩ <;> rw [hs, hm]
  rw [ht, he]
  exact ⟨reported_block.trans hu.symm, reported_only, reported_kept, rfl⟩

/-- R22: a CAPPED block whose unit is capped is judged. -/
theorem cappedCapped_taken (hu : u = reportedRecord b rep s) (ht : t = currentReport b rep (reported b rep s))
    (hm : rep.mode = .capped) (hs : u.state = .capped) : ComplianceTaken b rep s.table.capped u s t := by
  have he : currentReport b rep (reported b rep s) = judgeCompliance b rep (reported b rep s) := by
    unfold currentReport
    rw [reported_block, ← hu, hs, hm]
  have hb : (reported b rep s).block b = u := reported_block.trans hu.symm
  have hj := judgeCompliance_taken b rep s (reported b rep s) (by rw [hb, hs]) rfl reported_only.2 reported_kept.2
  rw [reported_kept.1, hb] at hj
  rw [ht, he]
  exact hj

/-- R19, unit CAPPED: the block is adopted, and judged (R22). -/
theorem silentCapped_taken (hu : u = reportedRecord b rep s) (ht : t = currentReport b rep (reported b rep s))
    (hm : rep.mode = .capped) (hs : u.state = .silent) {f : Profile} {applied cap floor : Nat} (hf : u.profile = some f)
    (ha : applied = rep.applied.getD 0) (hfl : floor = f.rated * s.gov.groups[f.group].floorPercent / 100)
    (hc : cap = max floor (min f.rated applied)) :
    ComplianceTaken b rep (s.table.capped ++ [b])
      { u with state := .capped, cap := some cap, captureEpoch := some s.timer.epoch,
               leaseExpiry := some (s.timer.epoch + BitVec.ofNat 32 rep.leaseLeft), nonFollowRun := 0,
               owed := u.owed || decide (cap ≠ applied), revision := u.revision + 1 } s t := by
  have he : currentReport b rep (reported b rep s)
      = judgeCompliance b rep (modifyBlock b (BlockRecord.adopted s.gov.groups rep s.timer.epoch) (reported b rep s)) := by
    unfold currentReport
    rw [reported_block, ← hu, hs, hm]
    rfl
  have hrec := adopted_eq (now := s.timer.epoch) hf ha hfl hc
  obtain ⟨hb, ho, -, hcap, hrot⟩ := reportedThen_taken (BlockRecord.adopted s.gov.groups rep s.timer.epoch) hu rfl
  rw [hrec] at hb hcap hrot
  have hj := judgeCompliance_taken b rep s _ (by rw [hb]) rfl ho.2
    (hrot.trans (relist_outside _ _ (by rw [hs]; decide) (by simp)))
  rw [hb, hcap, relist_joins _ _ (by rw [hs]; decide), if_pos rfl] at hj
  rw [ht, he]
  exact hj

end

/-! ## A report of the storage (R133, R134) -/

theorem storageCurrent_stale {r : StorageRecord} {rep : NodeReport}
    (h : ∃ l, r.commandLabel = some l ∧ atOrAfter rep.epoch l = false) : r.current rep = false := by
  obtain ⟨l, hl, ha⟩ := h
  unfold StorageRecord.current
  rw [hl]
  exact ha

theorem storageCurrent_of {r : StorageRecord} {rep : NodeReport}
    (h : ∀ l, r.commandLabel = some l → atOrAfter rep.epoch l = true) : r.current rep = true := by
  unfold StorageRecord.current
  cases hl : r.commandLabel with
  | none => rfl
  | some l => exact h l hl

section
variable {rep : NodeReport} {s v : State} {u : StorageRecord}

theorem storageReport_stale (hu : u = s.nodes.storage.updated rep s.timer.epoch)
    (hc : s.nodes.storage.current rep = false) :
    storageReport rep s = { s with nodes := { s.nodes with storage := u } } := by
  subst hu
  unfold storageReport
  rw [hc]
  rfl

theorem storageReport_current (hu : u = s.nodes.storage.updated rep s.timer.epoch)
    (hc : s.nodes.storage.current rep = true) :
    storageReport rep s = judgeStorage { s with nodes := { s.nodes with storage := u } } := by
  subst hu
  unfold storageReport
  rw [hc]
  rfl

theorem judgeStorage_lapse (hm : v.nodes.storage.unitMode = some .free) (h : v.nodes.storage.commanded ≠ 0) :
    judgeStorage v = v.onStorage StorageRecord.lapsed := by
  unfold judgeStorage
  simp only [hm]
  exact if_pos h

theorem judgeStorage_stray (hm : v.nodes.storage.unitMode = some .capped) (h : v.nodes.storage.commanded = 0) :
    judgeStorage v = raise .strayCap (storageOwed v) := by
  unfold judgeStorage
  simp only [hm]
  exact if_pos h

theorem judgeStorage_differs (hm : v.nodes.storage.unitMode = some .capped) (h : v.nodes.storage.commanded ≠ 0)
    (ha : v.nodes.storage.applied ≠ some v.nodes.storage.commanded) : judgeStorage v = storageOwed v := by
  unfold judgeStorage
  simp only [hm]
  rw [if_neg h, if_neg ha]

theorem judgeStorage_agrees (h : v.nodes.storage.unitMode = none
      ∨ (v.nodes.storage.unitMode = some .free ∧ v.nodes.storage.commanded = 0)
      ∨ (v.nodes.storage.unitMode = some .capped ∧ v.nodes.storage.commanded ≠ 0
        ∧ v.nodes.storage.applied = some v.nodes.storage.commanded)) : judgeStorage v = v := by
  unfold judgeStorage
  rcases h with hm | ⟨hm, h⟩ | ⟨hm, h, ha⟩
  · simp only [hm]
  · simp only [hm]
    exact if_neg (not_not.2 h)
  · simp only [hm]
    rw [if_neg h, if_pos ha]

end

/-- R134: what a current report makes of the storage record and the conditions. -/
theorem storageReport_judged {rep : NodeReport} {s t : State} {u : StorageRecord} (hu : u = s.nodes.storage.updated rep s.timer.epoch)
    (ht : t = judgeStorage { s with nodes := { s.nodes with storage := u } }) :
    (rep.mode = some .free → u.commanded ≠ 0 →
      t = { s with nodes := { s.nodes with storage :=
        { u with leaseExpiry := none, owed := true, lapseCount := min (u.lapseCount + 1) 65535 } } })
    ∧ (rep.mode = some .capped → u.commanded = 0 →
      OnlyRaised .strayCap { s with nodes := { s.nodes with storage := { u with owed := true } } } t)
    ∧ (rep.mode = some .capped → u.commanded ≠ 0 → ∀ v, u.applied = some v → v ≠ u.commanded →
      t = { s with nodes := { s.nodes with storage := { u with owed := true } } })
    ∧ (rep.mode = none ∨ (rep.mode = some .free ∧ u.commanded = 0)
        ∨ (rep.mode = some .capped ∧ u.commanded ≠ 0 ∧ u.applied = some u.commanded) →
      t = { s with nodes := { s.nodes with storage := u } }) := by
  have hmode : u.unitMode = rep.mode := by rw [hu]; rfl
  rw [← hmode]
  refine ⟨fun hm hc => ht.trans (judgeStorage_lapse hm hc), fun hm hc => ht.trans (judgeStorage_stray hm hc),
    fun hm hc v hv hne => ht.trans (judgeStorage_differs hm hc ?_), fun hk => ht.trans (judgeStorage_agrees hk)⟩
  rw [hv]
  exact fun h => hne (Option.some.inj h)

/-! ## Returned packets (R166 to R169) -/

theorem capReturn_superseded {b : BlockIx} {label : Epoch} {limit lease : Nat} {taken : Bool} {s : State}
    (h : (s.block b).capLabel ≠ some label) : capReturn b label limit lease taken s = s :=
  if_neg h

theorem capReturn_delivered {b : BlockIx} {label : Epoch} {limit lease : Nat} {s : State}
    (h : (s.block b).capLabel = some label) :
    capReturn b label limit lease true s = modifyBlock b (BlockRecord.delivered label limit lease) s := by
  unfold capReturn
  rw [if_pos h]
  rfl

theorem capReturn_undelivered {b : BlockIx} {label : Epoch} {limit lease : Nat} {s : State}
    (h : (s.block b).capLabel = some label) :
    capReturn b label limit lease false s = raise .capUndelivered (modifyBlock b BlockRecord.undelivered s) := by
  unfold capReturn
  rw [if_pos h]
  rfl

theorem holdsCap_iff (st : BlockState) : st.holdsCap = true ↔ st = .capped ∨ st = .pinned := by
  cases st <;> decide

/-- R167: the lease expiry after a delivery. -/
theorem expiryAfter_spec (r : BlockRecord) (label : Epoch) (lease : Nat) :
    (lease = 0 → r.expiryAfter label lease = none)
    ∧ (lease ≠ 0 → r.state.holdsCap = true → r.expiryAfter label lease = some (label + BitVec.ofNat 32 lease))
    ∧ (lease ≠ 0 → ¬r.state.holdsCap = true → r.expiryAfter label lease = r.leaseExpiry) := by
  refine ⟨fun h => if_pos h, fun h hh => (if_neg h).trans (if_pos hh), fun h hh => (if_neg h).trans (if_neg hh)⟩

/-- R167: whether a delivered payload was what the block was owed. -/
theorem isOwed_iff (r : BlockRecord) (limit lease : Nat) : r.isOwed limit lease = true
    ↔ r.state.holdsCap = true ∧ lease ≠ 0 ∧ r.cap = some limit ∨ ¬r.state.holdsCap = true ∧ lease = 0 := by
  unfold BlockRecord.isOwed
  by_cases h : r.state.holdsCap = true <;> simp [h]

theorem storeReturn_superseded {label : Epoch} {power : Int} {lease : Nat} {taken : Bool} {s : State}
    (h : s.nodes.storage.commandLabel ≠ some label) : storeReturn label power lease taken s = s :=
  if_neg h

theorem storeReturn_delivered {label : Epoch} {power : Int} {lease : Nat} {s : State}
    (h : s.nodes.storage.commandLabel = some label) :
    storeReturn label power lease true s = s.onStorage (StorageRecord.delivered label power lease) := by
  unfold storeReturn
  rw [if_pos h]
  rfl

theorem storeReturn_undelivered {label : Epoch} {power : Int} {lease : Nat} {s : State}
    (h : s.nodes.storage.commandLabel = some label) :
    storeReturn label power lease false s = raise .capUndelivered (s.onStorage fun r => { r with owed := true }) := by
  unfold storeReturn
  rw [if_pos h]
  rfl

/-- R169: the lease expiry after the delivery of a STORE. -/
theorem storageExpiryAfter_spec (r : StorageRecord) (label : Epoch) (power : Int) (lease : Nat) :
    (power ≠ 0 → r.commanded ≠ 0 → r.expiryAfter label power lease = some (label + BitVec.ofNat 32 lease))
    ∧ (power = 0 → lease = 0 → r.expiryAfter label power lease = none)
    ∧ (power ≠ 0 → r.commanded = 0 → r.expiryAfter label power lease = r.leaseExpiry) :=
  ⟨fun hp hc => (if_neg fun h => hp h.1).trans (if_pos ⟨hp, hc⟩), fun hp hl => if_pos ⟨hp, hl⟩,
    fun hp hc => (if_neg fun h => hp h.1).trans (if_neg fun h => h.2 hc)⟩

/-- R167: what a delivered CAP leaves of the record. -/
theorem delivered_spec (r : BlockRecord) (label : Epoch) (limit lease : Nat) {holds : Prop}
    (hh : holds ↔ r.state = .capped ∨ r.state = .pinned) :
    ∃ expiry owed, r.delivered label limit lease = { r with undeliveredRun := 0, leaseExpiry := expiry, owed := owed }
      ∧ (lease = 0 → expiry = none)
      ∧ (lease ≠ 0 → holds → expiry = some (label + BitVec.ofNat 32 lease))
      ∧ (lease ≠ 0 → ¬holds → expiry = r.leaseExpiry)
      ∧ ((holds ∧ lease ≠ 0 ∧ r.cap = some limit ∨ ¬holds ∧ lease = 0) → owed = false)
      ∧ (¬(holds ∧ lease ≠ 0 ∧ r.cap = some limit ∨ ¬holds ∧ lease = 0) → owed = r.owed) := by
  rw [← holdsCap_iff] at hh
  obtain ⟨h1, h2, h3⟩ := expiryAfter_spec r label lease
  refine ⟨_, _, rfl, h1, fun h hc => h2 h (hh.1 hc), fun h hc => h3 h (mt hh.2 hc), ?_, ?_⟩
  · rw [hh, ← isOwed_iff]
    intro h
    simp [h]
  · rw [hh, ← isOwed_iff]
    intro h
    simp [h]

/-- R169: what a delivered STORE leaves of the storage record. -/
theorem storageDelivered_spec (r : StorageRecord) (label : Epoch) (power : Int) (lease : Nat) :
    ∃ expiry owed, r.delivered label power lease = { r with leaseExpiry := expiry, owed := owed }
      ∧ (power ≠ 0 → r.commanded ≠ 0 → expiry = some (label + BitVec.ofNat 32 lease))
      ∧ (power = 0 → lease = 0 → expiry = none)
      ∧ (power ≠ 0 → r.commanded = 0 → expiry = r.leaseExpiry)
      ∧ (power = r.commanded → owed = false) ∧ (power ≠ r.commanded → owed = r.owed) := by
  obtain ⟨h1, h2, h3⟩ := storageExpiryAfter_spec r label power lease
  exact ⟨_, _, rfl, h1, h2, h3, fun h => by simp [h], fun h => by simp [h]⟩

/-- Settles O59: block reports, storage reports, meter reports, returned CAPs and returned STOREs, each by the rule that takes it. -/
theorem reportsAndReturnsTaken : Obligations.ReportsAndReturnsTaken := by
  unfold Obligations.ReportsAndReturnsTaken
  refine ⟨fun a b => by simp [atOrAfter], fun b rep s h => if_pos h, fun b rep s t u h ht hu => ⟨fun hst => ?_, fun hcur => ?_⟩,
    fun rep s t u ht hu => ⟨fun hst => ?_, fun hcur => ?_⟩,
    fun rep s => rfl, fun b label limit lease taken s t ht => ⟨fun h => ?_, fun h htk holds hh => ?_, fun h htk => ?_⟩,
    fun label power lease taken s t r hr ht => ⟨fun h => ?_, fun h htk => ?_, fun h htk => ?_⟩⟩
  · rw [blockReport_stale h (current_stale hst)] at ht
    subst ht
    exact ⟨reported_block.trans hu.symm, reported_only, reported_kept, rfl⟩
  · rw [blockReport_current h (current_of hcur)] at ht
    exact ⟨silentFree_taken hu ht, cappedFree_taken hu ht, pinnedFree_taken hu ht, strayCap_taken hu ht,
      fun hm hs => agreeing_taken hu ht (.inl ⟨hm, hs⟩), fun hm hs => agreeing_taken hu ht (.inr ⟨hm, hs⟩),
      cappedCapped_taken hu ht, fun hm hs _ _ _ _ hf ha hfl hc => silentCapped_taken hu ht hm hs hf ha hfl hc⟩
  · have hl : u.commandLabel = s.nodes.storage.commandLabel := by rw [hu]
    rw [hl] at hst
    exact ht.trans (storageReport_stale hu (storageCurrent_stale hst))
  · have hl : u.commandLabel = s.nodes.storage.commandLabel := by rw [hu]
    rw [hl] at hcur
    exact storageReport_judged hu (ht.trans (storageReport_current hu (storageCurrent_of hcur)))
  · exact ht.trans (capReturn_superseded h)
  · subst htk
    rw [capReturn_delivered h] at ht
    subst ht
    rw [modifyBlock_block_self]
    exact ⟨⟨rfl, modifyBlock_othersKept b _ s⟩, modifyBlock_collectionsKept rfl, rfl,
      delivered_spec (s.block b) label limit lease hh⟩
  · subst htk
    obtain ⟨hb, ho, htab, hr⟩ := raise_afterBlock (s := s) rfl (modifyBlock_othersKept b _ s) (ht.trans (capReturn_undelivered h))
    refine ⟨hb.trans (modifyBlock_block_self ..), ho, ?_, hr⟩
    rw [CollectionsKept, htab]
    exact modifyBlock_collectionsKept (f := BlockRecord.undelivered) rfl
  · subst hr
    exact ht.trans (storeReturn_superseded h)
  · subst hr htk
    rw [storeReturn_delivered h] at ht
    obtain ⟨expiry, owed, he, hspec⟩ := storageDelivered_spec s.nodes.storage label power lease
    exact ⟨expiry, owed, by rw [ht, ← he]; rfl, hspec⟩
  · subst hr htk
    exact ht.trans (storeReturn_undelivered h)

end Sys2Proof.Proofs
end

section
/-! PROOFS. Staging: what one decision does as its packet enters the queue (R14 to R17, R123 to R125, R129, R159). -/

namespace Sys2Proof.Proofs

open Sys2Proof.Machine

/-! ## Late labels (R159) -/

theorem label_late {r : RingController} {label m : Epoch} (hm : r.lastMark = some m) (h : atOrAfter m label = true) :
    enteringLabel r label = m + 1 ∧ lateLabel r label ≠ none := by
  have hl : lateLabel r label = some (m + 1) := by
    unfold lateLabel
    rw [hm]
    exact if_pos h
  exact ⟨by rw [enteringLabel, hl, Option.getD_some], by rw [hl]; exact Option.some_ne_none _⟩

theorem label_onTime {r : RingController} {label : Epoch} (h : ∀ m, r.lastMark = some m → atOrAfter m label = false) :
    enteringLabel r label = label ∧ lateLabel r label = none := by
  have hl : lateLabel r label = none := by
    unfold lateLabel
    cases hm : r.lastMark with
    | none => rfl
    | some m => exact if_neg (by rw [h m hm]; decide)
  exact ⟨by rw [enteringLabel, hl, Option.getD_none], hl⟩

/-! ## The end of staging, and a part that stages nothing -/

theorem resume_completes {o : Opened} {sup : SupplyFigures} {pl : PlanFigures} {counts : StagedCounts} {s : State} (ha : Awake s)
    (hp : s.gov.phase = .staging o sup pl [] counts) :
    exec .stagingResumed s = .next (completeDispatch (stagingStatus .complete o sup pl [] counts) s) :=
  (execEvent_awake ha).trans (by unfold resumeStaging; rw [hp]; rfl)

theorem resume_none {s : State} (h : ∀ o sup pl todo counts, s.gov.phase ≠ .staging o sup pl todo counts) :
    exec .stagingResumed s = .next s := by
  refine execEvent_same ?_
  unfold resumeStaging
  split
  · rename_i o sup pl todo counts hp
    exact absurd hp (h o sup pl todo counts)
  · rfl
  · rfl

/-! ## The STORE (R123, R136) -/

section
variable {o : Opened} {sup : SupplyFigures} {pl : PlanFigures} {d : Decision} {rest : List Decision} {counts : StagedCounts}
  {s : State} {l : Epoch}

theorem stageDecision_store (e : Epoch) (power : Int) : stageDecision e (.store power) counts s
    = (offerStore (e + 1) power (storeLease power s) s).map fun s' => ({ counts with storeStaged := true }, s') :=
  rfl

theorem stageDecision_capture (e : Epoch) (b : BlockIx) (cap : Nat) (rev : Half) : stageDecision e (.capture b cap rev) counts s
    = stageBlock e b rev (some cap) (leaseLength s) (fun c => { c with captures := c.captures + 1 }) (takeCapture b cap e) counts s :=
  rfl

theorem stageDecision_capChange (e : Epoch) (b : BlockIx) (cap : Nat) (rev : Half) :
    stageDecision e (.capChange b cap rev) counts s
      = stageBlock e b rev (some cap) (leaseLength s) (fun c => { c with capChanges := c.capChanges + 1 }) (takeCapChange b cap)
          counts s :=
  rfl

theorem stageDecision_release (e : Epoch) (b : BlockIx) (rev : Half) : stageDecision e (.release b rev) counts s
    = stageBlock e b rev none 0 (fun c => { c with releases := c.releases + 1 }) (takeRelease b e) counts s :=
  rfl

theorem storeDecision_waits {power : Int} (ha : Awake s) (hp : s.gov.phase = .staging o sup pl (.store power :: rest) counts)
    (hl : l = enteringLabel s.ring (o.epoch + 1)) (hq : ¬QueueAdmits s.ring (.store l power (storeLease power s))) :
    exec .stagingResumed s = .next s := by
  refine (resume_step hp ha).1 ?_
  rw [stageDecision_store, offerStore_refused (mt (storeAdmissible_iff _ l power _ _ hl).1 hq), Option.map_none]

theorem storeDecision_taken {power : Int} (ha : Awake s) (hp : s.gov.phase = .staging o sup pl (.store power :: rest) counts)
    (hl : l = enteringLabel s.ring (o.epoch + 1)) (hq : QueueAdmits s.ring (.store l power (storeLease power s))) :
    ∃ u, exec .stagingResumed s = exec .stagingResumed u
      ∧ QueueEntered s u (o.epoch + 1) (.store l power (storeLease power s))
      ∧ u.gov = { s.gov with phase := .staging o sup pl rest { counts with storeStaged := true } } ∧ u.table = s.table
      ∧ u.nodes = { s.nodes with storage := { s.nodes.storage with
          commanded := power, commandLabel := some l, owed := s.nodes.storage.owed || decide (power ≠ 0) } } := by
  obtain ⟨v, hv, hf, he⟩ := offerStore_entered (o.epoch + 1) power (storeLease power s) s
    ((storeAdmissible_iff _ l power _ _ hl).2 hq)
  have hd : stageDecision o.epoch (.store power) counts s
      = some ({ counts with storeStaged := true }, storeEnters (enteringLabel s.ring (o.epoch + 1)) power v) := by
    rw [stageDecision_store, hv, Option.map_some]
  have haw : v.resetLow = s.resetLow := by rw [hf]
  rw [← hl] at hd he
  refine ⟨_, (resume_step hp ha).2 _ _ hd (haw.trans ha), he.mono rfl, ?_, ?_, ?_⟩
  · rw [hf]; rfl
  · rw [hf]; rfl
  · rw [hf]
    simp [withPhase, storeEnters, bne, Bool.beq_eq_decide_eq]

/-! ## A block decision (R14 to R17, R124) -/

/-- R15 to R17: an effect that changes the record of `b` by `g`, and beside it the group capture records alone. -/
def ChangesRecord (b : BlockIx) (g : BlockRecord → BlockRecord) (effect : State → State) : Prop :=
  ∀ v, effect v = { modifyBlock b g v with
    table := { (modifyBlock b g v).table with groupCapture := (effect v).table.groupCapture } }

variable {b : BlockIx} {rev : Half} {limit : Option Nat} {lease : Nat} {counted : StagedCounts → StagedCounts}
  {effect : State → State}

theorem blockDecision_waits (ha : Awake s) (hp : s.gov.phase = .staging o sup pl (d :: rest) counts)
    (hl : l = enteringLabel s.ring (o.epoch + 1))
    (hd : stageDecision o.epoch d counts s = stageBlock o.epoch b rev limit lease counted effect counts s)
    (hq : ¬QueueAdmits s.ring (.cap b l limit lease)) : exec .stagingResumed s = .next s := by
  refine (resume_step hp ha).1 (hd.trans ((stageBlock_entered ..).1 ?_))
  exact Bool.eq_false_iff.2 (mt (capAdmissible_iff b _ l limit lease _ hl).1 hq)

theorem blockDecision_stale (ha : Awake s) (hp : s.gov.phase = .staging o sup pl (d :: rest) counts)
    (hl : l = enteringLabel s.ring (o.epoch + 1))
    (hd : stageDecision o.epoch d counts s = stageBlock o.epoch b rev limit lease counted effect counts s)
    (hq : QueueAdmits s.ring (.cap b l limit lease)) (hr : (s.block b).revision ≠ rev) :
    ∃ u, exec .stagingResumed s = exec .stagingResumed u
      ∧ OnlyRaised .staleDecision { s with gov := { s.gov with
          phase := .staging o sup pl rest { counts with stale := counts.stale + 1 },
          staleDecisions := min (s.gov.staleDecisions + 1) (2 ^ 32 - 1) } } u := by
  have hs := hd.trans ((stageBlock_entered ..).2.1 ((capAdmissible_iff b _ l limit lease _ hl).2 hq) hr)
  refine ⟨_, (resume_step hp ha).2 _ _ hs ((raise_resetLow ..).trans ha), ?_⟩
  unfold staleDecision
  rw [← raise_withPhase]
  rfl

theorem blockDecision_taken {g : BlockRecord → BlockRecord} (hg : ChangesRecord b g effect) (ha : Awake s)
    (hp : s.gov.phase = .staging o sup pl (d :: rest) counts) (hl : l = enteringLabel s.ring (o.epoch + 1))
    (hd : stageDecision o.epoch d counts s = stageBlock o.epoch b rev limit lease counted effect counts s)
    (hq : QueueAdmits s.ring (.cap b l limit lease)) (hr : (s.block b).revision = rev) :
    ∃ u w, exec .stagingResumed s = exec .stagingResumed u
      ∧ QueueEntered s u (o.epoch + 1) (.cap b l limit lease)
      ∧ u.gov = { s.gov with phase := .staging o sup pl rest (counted counts) } ∧ u.nodes = s.nodes
      ∧ (∀ x : BlockIx, x ≠ b → u.block x = s.block x)
      ∧ u.block b = g { s.block b with capLabel := some l, owed := (s.block b).owed || decide (lease ≠ 0) }
      ∧ u.table.capped = relist .capped (s.block b).state (u.block b).state b s.table.capped
      ∧ u.table.rotation = relist .free (s.block b).state (u.block b).state b s.table.rotation
      ∧ u.table.groupCapture = (effect w).table.groupCapture ∧ w.table.groupCapture = s.table.groupCapture
      ∧ (w.block b).profile = (s.block b).profile := by
  obtain ⟨v, hv, hf, he⟩ := (stageBlock_entered o.epoch b rev limit lease counted effect counts s).2.2
    ((capAdmissible_iff b _ l limit lease _ hl).2 hq) hr
  rw [← hl] at hv he
  have hgov : v.gov = s.gov := by rw [hf]
  have hnodes : v.nodes = s.nodes := by rw [hf]
  have hlow : v.resetLow = s.resetLow := by rw [hf]
  have htab : v.table = s.table := by rw [hf]
  have hvb (x : BlockIx) : v.block x = s.block x := by rw [State.block, htab]; rfl
  have hself : (capEnters b l lease v).block b
      = { s.block b with capLabel := some l, owed := (s.block b).owed || decide (lease ≠ 0) } := by
    unfold capEnters
    rw [modifyBlock_block_self, hvb]
    simp [bne, Bool.beq_eq_decide_eq]
  have hkept : CollectionsKept v (capEnters b l lease v) := modifyBlock_collectionsKept rfl
  have hst : ((capEnters b l lease v).block b).state = (s.block b).state := by rw [hself]
  have heff := hg (capEnters b l lease v)
  have hblk (x : BlockIx) : (effect (capEnters b l lease v)).block x = (modifyBlock b g (capEnters b l lease v)).block x := by
    rw [heff]; rfl
  have haw : Awake (effect (capEnters b l lease v)) := by
    unfold Awake
    rw [heff]
    exact hlow.trans ha
  have hub : (effect (capEnters b l lease v)).block b
      = g { s.block b with capLabel := some l, owed := (s.block b).owed || decide (lease ≠ 0) } := by
    rw [hblk, modifyBlock_block_self, hself]
  refine ⟨_, capEnters b l lease v, (resume_step hp ha).2 _ _ (hd.trans hv) haw, he.mono ?_, ?_, ?_, fun x hx => ?_, hub, ?_, ?_, rfl,
    ?_, by rw [hself]⟩
  · rw [heff]; rfl
  · exact congrArg (fun g : Governor => { g with phase := .staging o sup pl rest (counted counts) })
      ((congrArg State.gov heff).trans hgov)
  · exact (congrArg State.nodes heff).trans hnodes
  · show (effect (capEnters b l lease v)).block x = _
    rw [hblk, modifyBlock_block_ne _ _ _ _ hx]
    exact (modifyBlock_block_ne _ _ _ _ hx).trans (hvb x)
  · show (effect (capEnters b l lease v)).table.capped
      = relist .capped _ ((effect (capEnters b l lease v)).block b).state b _
    rw [hub, heff, modifyBlock_capped, hst, hkept.1, hself, htab]
  · show (effect (capEnters b l lease v)).table.rotation
      = relist .free _ ((effect (capEnters b l lease v)).block b).state b _
    rw [hub, heff, modifyBlock_rotation, hst, hkept.2, hself, htab]
  · exact (congrArg BlockTable.groupCapture htab : v.table.groupCapture = _)

end

/-! ## The three effects (R15 to R17) -/

/-- R15. -/
theorem setGroupCapture_spec (b : BlockIx) (e : Epoch) (v : State) :
    setGroupCapture b e v = { v with table := { v.table with groupCapture := (setGroupCapture b e v).table.groupCapture } }
      ∧ ∀ g : GroupIx, (setGroupCapture b e v).table.groupCapture[g]
          = if (v.block b).profile.map (·.group) = some g then some e else v.table.groupCapture[g] := by
  unfold setGroupCapture
  cases hp : (v.block b).profile with
  | none => exact ⟨rfl, fun g => by simp⟩
  | some p =>
    refine ⟨rfl, fun g => ?_⟩
    by_cases hg : p.group = g
    · subst hg
      simp
    · have hne : (p.group : Nat) ≠ g := fun h => hg (Fin.ext h)
      simp [hg, hne]

theorem takeCapture_changes (b : BlockIx) (cap : Nat) (e : Epoch) :
    ChangesRecord b (BlockRecord.captured cap e) (takeCapture b cap e) :=
  fun v => (setGroupCapture_spec b e (modifyBlock b (BlockRecord.captured cap e) v)).1

theorem takeCapture_groups (b : BlockIx) (cap : Nat) (e : Epoch) (v : State) (g : GroupIx) :
    (takeCapture b cap e v).table.groupCapture[g]
      = if (v.block b).profile.map (·.group) = some g then some e else v.table.groupCapture[g] := by
  refine ((setGroupCapture_spec b e (modifyBlock b (BlockRecord.captured cap e) v)).2 g).trans ?_
  rw [modifyBlock_block_self]
  rfl

theorem takeCapChange_changes (b : BlockIx) (cap : Nat) :
    ChangesRecord b (fun r => { r with cap := some cap }.bump) (takeCapChange b cap) :=
  fun _ => rfl

theorem takeRelease_changes (b : BlockIx) (e : Epoch) :
    ChangesRecord b (fun r => { r with state := .resting, cap := none, captureEpoch := none, lastRelease := some e }.bump)
      (takeRelease b e) :=
  fun _ => rfl

/-- Settles O55: the STORE, then a capture, a cap change and a release, each with its effect on the record. -/
theorem stagedDecisionTakesEffect : Obligations.StagedDecisionTakesEffect := by
  unfold Obligations.StagedDecisionTakesEffect
  refine ⟨fun r label => ⟨fun m hm h => label_late hm h, label_onTime⟩, fun o sup pl counts s ha hp => resume_completes ha hp,
    fun s h => resume_none h, fun o sup pl d rest counts s p l ha hp hpl hl => ⟨?_, ?_⟩⟩
  · rintro power rfl
    have hlease : (if power = 0 then 0 else p.leaseLength) = storeLease power s := by simp [storeLease, leaseLength, hpl]
    rw [hlease]
    exact ⟨storeDecision_waits ha hp hl, storeDecision_taken ha hp hl⟩
  · intro b rev limit lease counted after hd
    have hlease : p.leaseLength = leaseLength s := by simp [leaseLength, hpl]
    rw [hlease] at hd
    rcases hd with ⟨cap, rfl, rfl, rfl, rfl, rfl⟩ | ⟨cap, rfl, rfl, rfl, rfl, rfl⟩ | ⟨rfl, rfl, rfl, rfl, rfl⟩
    · refine ⟨blockDecision_waits ha hp hl (stageDecision_capture ..), blockDecision_stale ha hp hl (stageDecision_capture ..), fun hq hr => ?_⟩
      obtain ⟨u, w, hx, he, hgov, hn, hne, hb, hcap, hrot, hgc, hwgc, hwp⟩ :=
        blockDecision_taken (takeCapture_changes b cap o.epoch) ha hp hl (stageDecision_capture ..) hq hr
      have hst : (u.block b).state = .capped := by rw [hb]; rfl
      refine ⟨u, hx, he, hgov, hn, hne, by rw [hb, ← hr]; rfl, fun _ hf => ⟨?_, ?_, fun g => ?_⟩, nofun, nofun⟩
      · rw [hcap, hf, hst, relist_joins _ _ (by decide)]
        exact if_pos rfl
      · rw [hrot, hf, hst, relist_leaves _ _ (by decide)]
        exact if_pos rfl
      · rw [hgc, takeCapture_groups, hwp, hwgc]
    · refine ⟨blockDecision_waits ha hp hl (stageDecision_capChange ..), blockDecision_stale ha hp hl (stageDecision_capChange ..), fun hq hr => ?_⟩
      obtain ⟨u, w, hx, he, hgov, hn, hne, hb, hcap, hrot, hgc, hwgc, -⟩ :=
        blockDecision_taken (takeCapChange_changes b cap) ha hp hl (stageDecision_capChange ..) hq hr
      have hst : (u.block b).state = (s.block b).state := by rw [hb]; rfl
      refine ⟨u, hx, he, hgov, hn, hne, by rw [hb, ← hr]; rfl, nofun, fun _ => ⟨?_, ?_, hgc.trans hwgc⟩, nofun⟩
      · rw [hcap, hst, relist_same]
      · rw [hrot, hst, relist_same]
    · refine ⟨blockDecision_waits ha hp hl (stageDecision_release ..), blockDecision_stale ha hp hl (stageDecision_release ..), fun hq hr => ?_⟩
      obtain ⟨u, w, hx, he, hgov, hn, hne, hb, hcap, hrot, hgc, hwgc, -⟩ :=
        blockDecision_taken (takeRelease_changes b o.epoch) ha hp hl (stageDecision_release ..) hq hr
      have hst : (u.block b).state = .resting := by rw [hb]; rfl
      refine ⟨u, hx, he, hgov, hn, hne, by rw [hb, ← hr]; rfl, nofun, nofun, fun _ hf => ⟨?_, ?_, hgc.trans hwgc⟩⟩
      · rw [hcap, hf, hst, relist_leaves _ _ (by decide)]
        exact if_pos rfl
      · rw [hrot, hf, hst]
        exact relist_outside _ _ (by decide) (by decide)

end Sys2Proof.Proofs
end

section
/-! PROOFS. Open and deepen requests (R83 to R88). -/

namespace Sys2Proof.Proofs

open Sys2Proof.Machine

theorem laterThan_iff (a b : Epoch) : laterThan a b = true ↔ a ≠ b ∧ (a - b).toNat < 2 ^ 31 := by
  simp [laterThan, atOrAfter]

/-- R84: the IDs tried, up to the first that no listed warning holds. -/
theorem freeId_tried (listed : List Warning) (next : Nat) (h1 : 1 ≤ next) (h2 : next ≤ 255) (hl : listed.length ≤ 32) :
    ∃ k, freeId listed 255 next = (next - 1 + k) % 255 + 1 ∧ (∀ y ∈ listed, y.id ≠ (next - 1 + k) % 255 + 1)
      ∧ ∀ j < k, ∃ y ∈ listed, y.id = (next - 1 + j) % 255 + 1 := by
  have hfresh := freeId_fresh ⟨h1, h2⟩ hl
  obtain ⟨k, hk, hheld⟩ := freeId_walk ⟨h1, h2⟩ hfresh
  rw [stepId_iterate ⟨h1, h2⟩] at hk
  rw [hk] at hfresh
  refine ⟨k, hk, fun y hy he => hfresh (List.mem_map.2 ⟨y, hy, he⟩), fun j hj => ?_⟩
  have hj := hheld j hj
  rw [stepId_iterate ⟨h1, h2⟩] at hj
  exact List.mem_map.1 hj

/-- R82: the warning built from the entries of a station. -/
theorem buildWarning_of {x : StationIx} {depth : Nat} {now : Epoch} {entries : List LeadEntry} {first : Nat}
    (hl : ∀ y ∈ entries, y.lead ≤ 255) (hm : (entries.map (·.lead)).min? = some first) :
    buildWarning x depth now entries = some {
      id := 0, station := x, depth, opened := now, arrivals := entries.map fun y => (y.block, now + BitVec.ofNat 32 y.lead),
      earliest := now + BitVec.ofNat 32 first } := by
  cases entries with
  | nil => cases hm
  | cons a rest =>
    have hfirst : rest.foldl (fun m y => min m y.lead) a.lead = first := by
      rw [← Option.some.inj hm, ← List.foldl_map]
    have hmin := earliestOf_min now rest a.lead (hl a List.mem_cons_self) fun y hy => hl y (List.mem_cons_of_mem a hy)
    rw [hfirst] at hmin
    unfold buildWarning
    rw [List.map_cons, ← hmin]

theorem buildWarning_nil (x : StationIx) (depth : Nat) (now : Epoch) : buildWarning x depth now [] = none :=
  rfl

/-! ## The request, by what it finds -/

/-- R85: a request outside a run, or of a station without entries, opens no warning. -/
theorem openRequest_none {x : StationIx} {depth : Nat} {s : State}
    (h : s.run.state = .stopped ∨ s.run.state = .armed ∨ entriesOf x s.front.active = []) :
    openRequest x depth s = removeOwn x s := by
  unfold openRequest
  rcases h with h | h | h
  · rw [h]; rfl
  · rw [h]; rfl
  · rw [h, buildWarning_nil]
    exact ite_self _

/-- R85: a request that builds a warning. -/
theorem openRequest_builds {x : StationIx} {depth : Nat} {s : State} {w : Warning}
    (h : s.run.state = .running ∨ s.run.state = .holding)
    (hw : buildWarning x depth s.timer.epoch (entriesOf x s.front.active) = some w) :
    openRequest x depth s = enterWarning w (removeOwn x s) := by
  unfold openRequest
  rw [if_pos ((inRun_iff _).2 h), hw]

/-- R85, step 1: a list without a warning of the station stays as it is. -/
theorem removeOwn_same {x : StationIx} {s : State} (h : s.front.warnings.filter (fun w => w.station != x) = s.front.warnings) :
    removeOwn x s = s := by
  refine if_neg fun hany => ?_
  obtain ⟨w, hw, hx⟩ := List.any_eq_true.1 hany
  have hne := List.filter_eq_self.1 h w hw
  rw [bne, hx] at hne
  cases hne

/-- R84, R86: what listing a warning leaves, in a state that is `s` but for its list and the flags of its stations. -/
theorem listWarning_into {s v : State} {ws : List Warning} {n : Nat} (w : Warning)
    (hv : v = { s with front := { s.front with warnings := ws }, sky := { s.sky with stations := v.sky.stations } })
    (hn : n = freeId ws 255 s.front.nextId) :
    (∃ before after, ws = before ++ after ∧ (listWarning w v).front.warnings = before ++ { w with id := n } :: after
        ∧ (∀ y ∈ before, laterThan y.earliest w.earliest = false) ∧ ∀ y ∈ after.head?, laterThan y.earliest w.earliest = true)
      ∧ (listWarning w v).front.nextId = (if n = 255 then 1 else n + 1)
      ∧ OnlyRaised .warningOpened { s with
          sky := { s.sky with stations := (listWarning w v).sky.stations },
          front := { s.front with
            warnings := (listWarning w v).front.warnings, nextId := (listWarning w v).front.nextId } } (listWarning w v) := by
  obtain ⟨hall, hraised, -, -⟩ := listWarning_all w v
  have hf : v.front = { s.front with warnings := ws } := by rw [hv]
  have hfront : (listWarning w v).front
      = { s.front with warnings := insertWarning { w with id := n } ws, nextId := stepId n } := by
    rw [hall, hn, hf]
  refine ⟨?_, by rw [hfront]; rfl, ?_⟩
  · rw [hfront]
    exact insert_splits { w with id := n } ws
  · have hself : (listWarning w v).front = { s.front with
        warnings := (listWarning w v).front.warnings, nextId := (listWarning w v).front.nextId } := by rw [hfront]
    rw [← hself]
    unfold OnlyRaised at hraised ⊢
    refine hraised.trans (congrArg (raise .warningOpened) ?_)
    generalize listWarning w v = t
    rw [hv]

/-- R86: a request that finds room in the list. -/
theorem openRequest_listed {x : StationIx} {s : State} {kept : List Warning} (w : Warning)
    (hk : kept = s.front.warnings.filter fun y => y.station != x) (hl : kept.length < 32) :
    enterWarning w (removeOwn x s) = listWarning w (removeOwn x s) := by
  have hf := congrArg (fun v : State => v.front.warnings) (removeOwn_all x s).1
  unfold enterWarning
  refine if_pos ?_
  rw [show (removeOwn x s).front.warnings = kept from hf.trans hk.symm]
  exact hl

/-- R87: a request that finds the list full. -/
theorem enterWarning_full {s : State} {last : Warning} (w : Warning) (hl : s.front.warnings.length = 32)
    (hlast : s.front.warnings.getLast? = some last) : enterWarning w s = judgeFull w last s := by
  unfold enterWarning
  rw [if_neg (by rw [hl]; decide), hlast]

/-- R87: the list less its last warning, whose station's flag is cleared. -/
theorem dropLast_state (last : Warning) (s : State) {v : State}
    (hv : v = setHeld last.station false (s.onFront fun f => { f with warnings := f.warnings.dropLast })) :
    v = { s with front := { s.front with warnings := s.front.warnings.dropLast }, sky := { s.sky with stations := v.sky.stations } }
      ∧ (∀ y : StationIx, y ≠ last.station → v.station y = s.station y) ∧ (v.station last.station).warningHeld = false := by
  subst hv
  exact ⟨rfl, fun y hy => modifyStation_ne last.station y (fun st => { st with warningHeld := false }) _ hy,
    (setHeld_held _ _ _ _).trans (if_pos rfl)⟩

/-- R88: a deepen request. -/
theorem deepenRequest_eq (x : StationIx) (depth : Nat) (s : State) : deepenRequest x depth s = { s with front := { s.front with
    warnings := s.front.warnings.map fun w => if w.station = x ∧ w.depth < depth then { w with depth := depth } else w } } := by
  have hmap (w : Warning) : (if w.station = x then { w with depth := max w.depth depth } else w)
      = if w.station = x ∧ w.depth < depth then { w with depth := depth } else w := by
    by_cases hx : w.station = x
    · by_cases hd : w.depth < depth
      · rw [if_pos hx, if_pos ⟨hx, hd⟩, Nat.max_eq_right hd.le]
      · rw [if_pos hx, if_neg fun h => hd h.2, Nat.max_eq_left (Nat.le_of_not_lt hd)]
    · rw [if_neg hx, if_neg fun h => hx h.1]
  unfold deepenRequest
  simp only [hmap]
  rfl

section
variable {x : StationIx} {s t : State} {w : Warning}

/-- R86: what a request that finds room leaves. -/
theorem openRequest_room {kept : List Warning} (h1 : 1 ≤ s.front.nextId) (h2 : s.front.nextId ≤ 255)
    (hk : kept = s.front.warnings.filter fun y => y.station != x) (hx : w.station = x)
    (hid : w.id = freeId kept 255 s.front.nextId) (hl : kept.length < 32)
    (ht : t = enterWarning { w with id := 0 } (removeOwn x s)) :
    (∃ before after, kept = before ++ after ∧ t.front.warnings = before ++ w :: after
        ∧ (∀ y ∈ before, laterThan y.earliest w.earliest = false) ∧ ∀ y ∈ after.head?, laterThan y.earliest w.earliest = true)
      ∧ t.front.nextId = (if w.id = 255 then 1 else w.id + 1) ∧ (1 ≤ w.id ∧ w.id ≤ 255) ∧ (∀ y ∈ kept, y.id ≠ w.id)
      ∧ OnlyRaised .warningOpened { s with
          sky := { s.sky with stations := t.sky.stations },
          front := { s.front with warnings := t.front.warnings, nextId := t.front.nextId } } t
      ∧ (∀ y : StationIx, y ≠ x → t.station y = s.station y) ∧ t.station x = { s.station x with warningHeld := true } := by
  rw [openRequest_listed _ hk hl] at ht
  obtain ⟨hrem, hother, hself⟩ := removeOwn_all x s
  rw [← hk] at hrem
  obtain ⟨hlist, hnext, hraised⟩ := listWarning_into { w with id := 0 } hrem hid
  obtain ⟨-, -, hne, heq⟩ := listWarning_all { w with id := 0 } (removeOwn x s)
  rw [← ht] at hlist hnext hraised hne heq
  subst hx
  refine ⟨hlist, hnext, ?_, fun y hy he => ?_, hraised, fun y hy => (hne y hy).trans (hother y hy), ?_⟩
  · rw [hid]
    exact freeId_range ⟨h1, h2⟩
  · rw [hid] at he
    exact freeId_fresh ⟨h1, h2⟩ hl.le (List.mem_map.2 ⟨y, hy, he⟩)
  · rw [heq, hself]

/-- R87: what a request that finds the list full, without a warning of its own, leaves. -/
theorem openRequest_full {kept : List Warning} {last : Warning} (hk : kept = s.front.warnings.filter fun y => y.station != x)
    (hx : w.station = x) (hall : kept = s.front.warnings) (hl : kept.length = 32) (hlast : kept.getLast? = some last)
    (ht : t = enterWarning { w with id := 0 } (removeOwn x s)) :
    (laterThan last.earliest w.earliest = false → OnlyRaised .warningDropped s t)
    ∧ (laterThan last.earliest w.earliest = true →
      (∃ before after, kept.dropLast = before ++ after
        ∧ t.front.warnings = before ++ { w with id := freeId kept.dropLast 255 s.front.nextId } :: after
        ∧ (∀ y ∈ before, laterThan y.earliest w.earliest = false)
        ∧ ∀ y ∈ after.head?, laterThan y.earliest w.earliest = true)
      ∧ t.front.nextId = (if freeId kept.dropLast 255 s.front.nextId = 255 then 1 else freeId kept.dropLast 255 s.front.nextId + 1)
      ∧ OnlyRaised .warningDropped (raise .warningOpened { s with
          sky := { s.sky with stations := t.sky.stations },
          front := { s.front with warnings := t.front.warnings, nextId := t.front.nextId } }) t
      ∧ (∀ y : StationIx, y ≠ x → y ≠ last.station → t.station y = s.station y)
      ∧ (t.station x).warningHeld = true ∧ (t.station last.station).warningHeld = false) := by
  have hlastx : last.station ≠ x := by
    have hmem := List.mem_of_getLast? hlast
    rw [hk, List.mem_filter] at hmem
    exact bne_iff_ne.1 hmem.2
  rw [removeOwn_same (hk.symm.trans hall), enterWarning_full _ (hall ▸ hl) (hall ▸ hlast)] at ht
  refine ⟨fun h => ht.trans (if_neg (by rw [h]; decide)), fun h => ?_⟩
  have hj : t = raise .warningDropped (listWarning { w with id := 0 }
      (setHeld last.station false (s.onFront fun f => { f with warnings := f.warnings.dropLast }))) := ht.trans (if_pos h)
  generalize hv : setHeld last.station false (s.onFront fun f => { f with warnings := f.warnings.dropLast }) = v at hj
  obtain ⟨hdrop, hvne, hvlast⟩ := dropLast_state last s hv.symm
  rw [← hall] at hdrop
  obtain ⟨hlist, hnext, hraised⟩ := listWarning_into { w with id := 0 } hdrop rfl
  obtain ⟨-, -, hne, heq⟩ := listWarning_all { w with id := 0 } v
  generalize listWarning { w with id := 0 } v = u at *
  have hfront : t.front = u.front := by rw [hj, raise_front]
  have hsky : t.sky = u.sky := by rw [hj, raise_sky]
  have hst (y : StationIx) : t.station y = u.station y := by rw [State.station, hsky]; rfl
  subst hx
  rw [hfront, hsky]
  refine ⟨hlist, hnext, ?_, fun y hy hyl => ?_, ?_, ?_⟩
  · unfold OnlyRaised at hraised ⊢
    rw [← hraised]
    exact hj
  · rw [hst, hne y hy, hvne y hyl]
  · rw [hst, heq]
  · rw [hst, hne _ hlastx, hvlast]

end

/-- Settles O53: the request that opens no warning, the one that finds room, and the one that finds the list full. -/
theorem warningsOpenedAndDeepened : Obligations.WarningsOpenedAndDeepened := by
  unfold Obligations.WarningsOpenedAndDeepened
  refine ⟨laterThan_iff, freeId_tried, fun x depth s t kept entries hm h1 h2 hk he ht => ⟨fun h => ?_,
    fun w first hrun hfirst hx hd ho ha hearl hid => ?_⟩, deepenRequest_eq⟩
  · rw [he] at h
    rw [openRequest_none h] at ht
    obtain ⟨hrem, hother, hself⟩ := removeOwn_all x s
    rw [← hk, ← ht] at hrem
    exact ⟨hrem, fun y hy => by rw [ht]; exact hother y hy, by rw [ht]; exact hself⟩
  · obtain ⟨-, -, -, hleads⟩ := hm
    have hbuilt : buildWarning x depth s.timer.epoch entries = some { w with id := 0 } := by
      rw [buildWarning_of (fun y hy => (hleads y (List.mem_filter.1 (he ▸ hy)).1).2) hfirst, ← ha, ← hearl, hx, hd, ho]
    have hopen := ht.trans (openRequest_builds hrun (he ▸ hbuilt))
    exact ⟨fun hl => openRequest_room h1 h2 hk hx hid hl hopen,
      fun last hall hl hlast => openRequest_full hk hx hall hl hlast hopen⟩

end Sys2Proof.Proofs
end

section
/-! PROOFS. SET_PLANT and SET_GROUP (R36 to R38), and the reads that carry no value (R42, R131, R141, R151, R184). -/

namespace Sys2Proof.Proofs

open Sys2Proof.Machine

/-! ## The reads that carry no value

The request in hand changes nothing that they report, the link error count of READ_CONDITIONS included. -/

section
variable (kind tag : Byte) (s : State)

theorem readSettings_inHand :
    serveReadSettings (s.inHand kind tag) = servedWith (settingsData s.gov s.store) (s.inHand kind tag) := rfl

theorem readPlant_inHand : serveReadPlant (s.inHand kind tag) = servedWith (plantData s) (s.inHand kind tag) := rfl

theorem readNodes_inHand : serveReadNodes (s.inHand kind tag) = servedWith (nodeData s.nodes) (s.inHand kind tag) := rfl

theorem readRing_inHand : serveReadRing (s.inHand kind tag) = servedWith (ringData s.ring) (s.inHand kind tag) := rfl

theorem readConditions_inHand :
    serveReadConditions (s.inHand kind tag) = servedWith (conditionData s.cond s.link.linkErrors) (s.inHand kind tag) := rfl

end

/-- Settles O18: each owner answers with the data of the state that the request found, and leaves that state. -/
theorem plainReadsAnswer : Obligations.PlainReadsAnswer := by
  unfold Obligations.PlainReadsAnswer
  intro tag s hr
  exact ⟨request_reads hr (readSettings_inHand ..), request_reads hr (readPlant_inHand ..), request_reads hr (readNodes_inHand ..),
    request_reads hr (readRing_inHand ..), request_reads hr (readConditions_inHand ..)⟩

/-! ## SET_PLANT (R36, R38) -/

theorem setPlant_staged {body : PlantBody} (h : PlantInRange body) (s : State) :
    serveSetPlant body s = served (s.onStore fun st => { st with plant := some (recordOfPlant body), configured := true }) := by
  unfold serveSetPlant
  rw [checkPlant_in h]

theorem setPlant_badValue {body : PlantBody} (h : ¬PlantInRange body) (s : State) :
    serveSetPlant body s = refuse .badValue s := by
  unfold serveSetPlant
  rw [checkPlant_out h]

/-! ## SET_GROUP (R37) -/

theorem setGroup_staged {group : Byte} {body : GroupBody} {g : GroupIx} (hg : group.toNat = g.val + 1) (h : GroupInRange body)
    (s : State) : serveSetGroup group body s
      = served (s.onStore fun st => { st with groups := st.groups.set g (some (recordOfGroup body)) }) := by
  unfold serveSetGroup
  rw [groupOf_id hg, checkGroup_in h]

/-- R37: a group number outside 1 to 8, whatever the record. -/
theorem setGroup_noGroup {group : Byte} (h : group.toNat = 0 ∨ 8 < group.toNat) (body : GroupBody) (s : State) :
    serveSetGroup group body s = refuse .badValue s := by
  unfold serveSetGroup
  rw [groupOf_out h]

/-- R37: a record out of range, whatever the group number. -/
theorem setGroup_badRecord {body : GroupBody} (h : ¬GroupInRange body) (group : Byte) (s : State) :
    serveSetGroup group body s = refuse .badValue s := by
  unfold serveSetGroup
  rw [checkGroup_out h]
  cases groupOf group <;> rfl

theorem setGroup_badValue {group : Byte} {body : GroupBody} (h : group.toNat = 0 ∨ 8 < group.toNat ∨ ¬GroupInRange body)
    (s : State) : serveSetGroup group body s = refuse .badValue s := by
  rcases or_assoc.2 h with h | h
  · exact setGroup_noGroup h body s
  · exact setGroup_badRecord h group s

/-- Settles O25: a record in range is staged as the record it stands for, and one out of range is refused by its owner. -/
theorem settingsStaged : Obligations.SettingsStaged := by
  unfold Obligations.SettingsStaged
  refine ⟨fun tag body s hr => ⟨fun h => ?_, fun h => ?_⟩, fun tag group body s hr => ⟨fun g hg h => ?_, fun h => ?_⟩⟩
  · exact request_serves _ hr (setPlant_staged h _) (State.onStore_link ..)
  · exact request_refused hr (setPlant_badValue h _)
  · exact request_serves _ hr (setGroup_staged hg h _) (State.onStore_link ..)
  · exact request_refused hr (setGroup_badValue h _)

end Sys2Proof.Proofs
end

section
/-! PROOFS. Epochs and run control: the run at every step and the idle step (R43, R45 to R47), SET_EPOCH (R44), the monitors (R46, R63) and
the three triggers (R49). -/

namespace Sys2Proof.Proofs

open Sys2Proof.Machine

/-- Settles O9: every step is a sequence of moves, and each move keeps the run lawful. -/
theorem runLawfulAtEveryStep : Obligations.RunLawfulAtEveryStep := by
  unfold Obligations.RunLawfulAtEveryStep
  exact fun s t hs ht => Steps.keeps (fun _ _ hm => hm.keeps_run) (step_steps ht) hs

/-! ## The idle step -/

theorem step_idle {s : State} (h : s.pending = []) : step s = .next (tick s) := by
  unfold step
  rw [h]

/-- R189: held in reset, a microsecond passes and nothing is due. -/
theorem tick_held {s : State} (h : s.resetLow = true) : tick s = { s with now := s.now + 1 } :=
  if_pos h

theorem tick_awake {s : State} (h : s.resetLow = false) :
    tick s = { s with now := s.now + 1, pending := dueCommands { s with now := s.now + 1 } } :=
  if_neg (by rw [h]; decide)

theorem tick_frame (s : State) : tick s = { s with now := s.now + 1, pending := (tick s).pending } := by
  by_cases h : s.resetLow = true
  · rw [tick_held h]
  · rw [tick_awake (Bool.eq_false_iff.2 h)]

/-- Settles O2: a tick held in reset brings nothing, and any other the commands that are due, in their order. -/
theorem idleStepAdvancesClock : Obligations.IdleStepAdvancesClock := by
  unfold Obligations.IdleStepAdvancesClock
  refine fun s hp => ⟨tick s, step_idle hp, tick_frame s, fun h => ?_, fun h => ?_⟩
  · rw [tick_held h]
    exact hp
  · rw [tick_awake h]
    exact ⟨mem_dueCommands _, dueCommands_order _⟩

/-! ## SET_EPOCH (R44) -/

theorem epochSourceOf_in {source : Byte} {src : EpochSource}
    (h : (source.toNat, src) ∈ [(0, EpochSource.internal), (1, .epochLine), (2, .sensor)]) :
    EpochSource.ofCode source = some src := by
  have hb : source = BitVec.ofNat 8 source.toNat := by simp
  simp only [List.mem_cons, Prod.mk.injEq, List.not_mem_nil, or_false] at h
  rcases h with ⟨h, rfl⟩ | ⟨h, rfl⟩ | ⟨h, rfl⟩ <;> rw [hb, h] <;> rfl

theorem epochSourceOf_out {source : Byte} (h : 2 < source.toNat) : EpochSource.ofCode source = none := by
  unfold EpochSource.ofCode
  rw [if_neg, if_neg, if_neg] <;> (intro e; subst e; revert h; decide)

theorem timingInRange_iff (period divisor : Nat) : timingInRange period divisor = true
    ↔ (10 ≤ period ∧ period ≤ 1000) ∧ period % 10 = 0 ∧ 1 ≤ divisor ∧ divisor ≤ 16 := by
  simp [timingInRange, inRange, and_assoc]

/-- R44: timing out of range is refused whatever the source byte. -/
theorem setEpoch_badTiming {period : Half} {divisor : Byte} (h : timingInRange period.toNat divisor.toNat = false) (source : Byte)
    (s : State) : serveSetEpoch source period divisor s = refuse .badValue s := by
  unfold serveSetEpoch
  rw [h]
  cases EpochSource.ofCode source <;> rfl

theorem setEpoch_badValue {source : Byte} {period : Half} {divisor : Byte}
    (h : 2 < source.toNat ∨ period.toNat < 10 ∨ 1000 < period.toNat ∨ period.toNat % 10 ≠ 0 ∨ divisor.toNat = 0
      ∨ 16 < divisor.toNat) (s : State) : serveSetEpoch source period divisor s = refuse .badValue s := by
  rcases h with h | h
  · unfold serveSetEpoch
    rw [epochSourceOf_out h]
  · exact setEpoch_badTiming (Bool.eq_false_iff.2 fun hin => by rw [timingInRange_iff] at hin; omega) source s

/-- R44: with the three values in range, the run state decides. -/
theorem setEpoch_inRange {source : Byte} {period : Half} {divisor : Byte} {src : EpochSource}
    (hs : EpochSource.ofCode source = some src) (ht : timingInRange period.toNat divisor.toNat = true) (s : State) :
    serveSetEpoch source period divisor s = if s.run.state ≠ .stopped then refuse .wrongState s
      else served (s.onTimer fun t => { t with source := src, period := period.toNat, divisor := divisor.toNat }) := by
  unfold serveSetEpoch
  rw [hs, ht]
  rfl

/-- Settles O39: the values are checked first, then the run state. -/
theorem setEpochTaken : Obligations.SetEpochTaken := by
  unfold Obligations.SetEpochTaken
  refine fun tag source period divisor s hr => ⟨fun src hsrc h1 h2 h3 h4 h5 => ⟨fun hst => ?_, fun hst => ?_⟩, fun h => ?_⟩
  · exact request_serves _ hr ((setEpoch_inRange (epochSourceOf_in hsrc) ((timingInRange_iff ..).2 ⟨⟨h1, h2⟩, h3, h4, h5⟩) _).trans
      (if_neg (not_not.2 hst))) (State.onTimer_link ..)
  · exact request_refused hr ((setEpoch_inRange (epochSourceOf_in hsrc) ((timingInRange_iff ..).2 ⟨⟨h1, h2⟩, h3, h4, h5⟩) _).trans
      (if_pos hst))
  · exact request_refused hr (setEpoch_badValue h _)

/-! ## The monitors (R46, R63) -/

/-- R46: a source that can stall, and its nominal period. -/
theorem stallTime_of_source {s : State} {nominal : Nat}
    (h : s.timer.source = .epochLine ∧ nominal = s.timer.period
      ∨ s.timer.source = .sensor ∧ nominal = s.timer.divisor * s.sky.framePeriod) :
    stallTime s = some (s.timer.lastEpochAt + 4000 * nominal + 1) := by
  unfold stallTime nominalPeriod ms
  rcases h with ⟨h, rfl⟩ | ⟨h, rfl⟩ <;> simp [h, ← Nat.mul_assoc]

theorem stallTime_internal {s : State} (h : s.timer.source = .internal) : stallTime s = none := by
  unfold stallTime nominalPeriod
  rw [h]
  rfl

theorem tripStall_raises {s : State} {t : Time} (ht : stallTime s = some t) (h1 : s.timer.stall = .armed)
    (h2 : s.timer.running = true) :
    OnlyRaised .epochStall { s with now := max s.now t, timer := { s.timer with stall := .tripped } } (tripStall s) := by
  unfold tripStall
  rw [ht]
  exact if_pos ⟨h1, h2⟩

theorem tripStall_none {s : State} (h : s.timer.source = .internal ∨ s.timer.stall ≠ .armed ∨ s.timer.running = false) :
    tripStall s = s := by
  unfold tripStall
  rcases h with h | h
  · rw [stallTime_internal h]
  · cases stallTime s with
    | none => rfl
    | some t =>
      refine if_neg fun ⟨h1, h2⟩ => ?_
      rcases h with h | h
      · exact h h1
      · rw [h] at h2
        cases h2

/-- Settles O43: each monitor where it is armed, and where it is not. -/
theorem monitorsTripOnce : Obligations.MonitorsTripOnce := by
  unfold Obligations.MonitorsTripOnce
  refine ⟨fun s nominal ha hn h1 h2 => ?_, fun s h => execEvent_same (tripStall_none h), fun s ha h => ?_,
    fun s h => execEvent_same (if_neg h)⟩
  · exact ⟨_, execEvent_awake ha, tripStall_raises (stallTime_of_source hn) h1 h2⟩
  · exact ⟨_, execEvent_awake ha, tripLoss_lost s h⟩

/-! ## The three triggers (R49) -/

/-- R49: the trigger replaces the run state and the trigger field, so it is the same whatever they held before. -/
theorem triggerTaken_onRun {s u : State} (h : TriggerTaken s u) (state : RunState) (trigger : Option Trigger) :
    TriggerTaken (s.onRun fun c => { c with state, trigger }) u :=
  h

/-- R48: a START that is served is answered with the request in hand. -/
theorem start_served {tag trigger : Byte} {order : EpochOrder} {tr : Trigger} {s : State} (hr : Ready s)
    (hs : s.run.state = .stopped) (hc : s.store.configured = true) (htr : Trigger.ofCode trigger = some tr) :
    exec (.start tag trigger order) s
      = .next (readyReply 0x0D tag (served (startWith tr order (s.inHand 0x0D tag)))) := by
  have ho : serveStart trigger order (s.inHand 0x0D tag) = served (startWith tr order (s.inHand 0x0D tag)) := by
    unfold serveStart
    rw [htr]
    simp [hs, hc]
  exact (execRequest_ready hr).trans (by rw [ho])

/-- R181: the reply reaches the Host Link Port alone. -/
theorem readyReply_relink (kind tag : Byte) (v : State) (l : HostLink) :
    ({ readyReply kind tag (served v) with link := l } : State) = { v with link := l } :=
  rfl

/-- R49: a part that waits for a trigger takes it as the part that START has just prepared does. -/
theorem triggerTaken_answered {kind tag : Byte} {q u : State} {l : HostLink} (hl : q.link = l) (h : TriggerTaken q u)
    (state : RunState) (trigger : Option Trigger) :
    TriggerTaken { readyReply kind tag (served (q.onRun fun c => { c with state, trigger })) with link := l } u := by
  subst hl
  rw [readyReply_relink]
  exact triggerTaken_onRun h state trigger

/-- R48, R49: an IMMEDIATE START prepares what a START that waits prepares, and takes the trigger. -/
theorem start_immediate {tag : Byte} {order : EpochOrder} {s : State} (hr : Ready s) (hl : RunLawful s)
    (hs : s.run.state = .stopped) (hc : s.store.configured = true) :
    ∃ p u v t, exec (.start tag 1#8 order) s = .next p
      ∧ TriggerTaken { p with link := { s.link with inHand := some (0x0D, tag) } } u ∧ EpochOccurs order 1 u v
      ∧ exec (.start tag 0#8 order) s = .next t
      ∧ t = { v with link := HostLink.ready (replyFrame 0x0D tag .ok []) v.link } := by
  have hwait := start_served (tag := tag) (trigger := 1#8) (order := order) (tr := .startLine) hr hs hc rfl
  have hnow := start_served (tag := tag) (trigger := 0#8) (order := order) (tr := .immediate) hr hs hc rfl
  have hlink : (prepareRun (s.inHand 0x0D tag)).link = { s.link with inHand := some (0x0D, tag) } :=
    prepareRun_link (s := s.inHand 0x0D tag) hs (stopped_idle hl hs)
  rw [startWith_waiting (.inl rfl)] at hwait
  rw [startWith] at hnow
  obtain ⟨u, hu, ho⟩ := takeTrigger_occurs order (prepareRun (s.inHand 0x0D tag))
  exact ⟨_, u, _, _, hwait, triggerTaken_answered hlink hu .armed (some .startLine), ho, hnow, rfl⟩

theorem startEdge_taken {order : EpochOrder} {s : State} (hs : s.run.state = .armed) (ht : s.run.trigger = some .startLine) :
    ∃ u, TriggerTaken s u ∧ EpochOccurs order 1 u (triggerOn .startLine order s) := by
  unfold triggerOn
  rw [if_pos ⟨hs, ht⟩]
  exact takeTrigger_occurs order s

theorem startEdge_ignored {order : EpochOrder} {s : State} (h : s.run.state ≠ .armed ∨ s.run.trigger ≠ some .startLine) :
    triggerOn .startLine order s = s :=
  if_neg fun ⟨hs, ht⟩ => h.elim (fun h => h hs) fun h => h ht

/-- R49, R61: a frame sync that the armed part waits for. -/
theorem syncEvent_triggers {order : EpochOrder} {s : State} (hs : s.run.state = .armed) (ht : s.run.trigger = some .firstFrame) :
    ∃ u, TriggerTaken s u ∧ EpochOccurs order 1 u (syncEvent order s) := by
  unfold syncEvent
  rw [if_pos ⟨hs, ht⟩]
  exact takeTrigger_occurs order s

theorem beginFrame_run (s : State) : (beginFrame (tripLossDue s)).run = s.run := by
  rw [beginFrame, State.onSky_run, tripLossDue_frame]

/-- R62: what processes a frame leaves Run Control alone. -/
theorem shortFrameTaken_run {frame : Option (List Half)} {s t : State} (h : ShortFrameTaken frame s t) : t.run = s.run := by
  obtain ⟨hnone, hsome⟩ := h
  cases frame with
  | none => rw [hnone rfl]
  | some words =>
    obtain ⟨-, hframe, -⟩ := hsome words rfl
    rw [hframe]

/-- R49, R61: the frame sync that is the trigger, with the short frame closed before it or after it (log 4). -/
theorem frameSync_triggers {frameFirst : Bool} {order : EpochOrder} {s : State} (hsky : SkyLawful s.sky)
    (hs : s.run.state = .armed) (ht : s.run.trigger = some .firstFrame) (he : s.sky.enabled = true) :
    ∃ frame u, SyncBegun s frame u
      ∧ (frameFirst = true → ∃ v w, ShortFrameTaken frame u v ∧ TriggerTaken v w
          ∧ EpochOccurs order 1 w (frameSync frameFirst order s))
      ∧ (frameFirst = false → ∃ v w, TriggerTaken u v ∧ EpochOccurs order 1 v w
          ∧ ShortFrameTaken frame w (frameSync frameFirst order s)) := by
  have hrun := beginFrame_run s
  have hlaw := beginFrame_sky s hsky he
  have hx : frameSync frameFirst order s
      = if frameFirst then syncEvent order (closeFrame (tripLossDue s).sky.frame (beginFrame (tripLossDue s)))
        else closeFrame (tripLossDue s).sky.frame (syncEvent order (beginFrame (tripLossDue s))) := if_pos he
  rw [hx]
  refine ⟨_, _, beginFrame_begun s, ?_, ?_⟩
  · rintro rfl
    have hclose := closeFrame_taken (tripLossDue s).sky.frame _ hlaw
    have hrun' := (shortFrameTaken_run hclose).trans hrun
    obtain ⟨w, hw, ho⟩ := syncEvent_triggers (order := order) (by rw [hrun']; exact hs) (by rw [hrun']; exact ht)
    exact ⟨_, w, hclose, hw, ho⟩
  · rintro rfl
    obtain ⟨v, hv, ho⟩ := syncEvent_triggers (order := order) (by rw [hrun]; exact hs) (by rw [hrun]; exact ht)
    exact ⟨v, _, hv, ho, closeFrame_taken _ _ (syncEvent_skyLawful order hlaw)⟩

/-- Settles O41: the IMMEDIATE START, the edge of START_IN and the frame sync, each by the trigger it takes. -/
theorem triggerStartsTheRun : Obligations.TriggerStartsTheRun := by
  unfold Obligations.TriggerStartsTheRun
  refine ⟨fun tag order s hr hl hs hc => start_immediate hr hl hs hc, fun order s ha hs ht => ?_,
    fun order s h => execEvent_same (startEdge_ignored h), fun frameFirst order s ha hsky hs ht he => ?_⟩
  · obtain ⟨u, hu, ho⟩ := startEdge_taken (order := order) hs ht
    exact ⟨u, _, execEvent_awake ha, hu, ho⟩
  · obtain ⟨frame, u, hb, h1, h2⟩ := frameSync_triggers (frameFirst := frameFirst) (order := order) hsky hs ht he
    exact ⟨frame, u, _, hb, execEvent_awake ha, h1, h2⟩

end Sys2Proof.Proofs
end

section
/-! PROOFS. The hold lines: CLEAR_HOLD (R55), the hold in force (R53), and a line that comes to be seen asserted or inactive (R52, R56). -/

namespace Sys2Proof.Proofs

open Sys2Proof.Machine

/-! ## CLEAR_HOLD (R55) -/

theorem holdLineOf_in {line : Byte} {l : HoldLine} (h : (line.toNat, l) ∈ [(0, HoldLine.a), (1, .b)]) :
    HoldLine.ofCode line = some l := by
  have hb : line = BitVec.ofNat 8 line.toNat := by simp
  simp only [List.mem_cons, Prod.mk.injEq, List.not_mem_nil, or_false] at h
  rcases h with ⟨h, rfl⟩ | ⟨h, rfl⟩ <;> rw [hb, h] <;> rfl

theorem holdLineOf_out {line : Byte} (h : 1 < line.toNat) : HoldLine.ofCode line = none := by
  obtain ⟨h0, h1⟩ := not_flag_byte h
  unfold HoldLine.ofCode
  rw [if_neg h0, if_neg h1]

theorem clearHold_badValue {line : Byte} (h : 1 < line.toNat) (s : State) : serveClearHold line s = refuse .badValue s := by
  unfold serveClearHold
  rw [holdLineOf_out h]

/-- R55: of a line that is named, the level seen decides. -/
theorem clearHold_named {line : Byte} {l : HoldLine} (h : HoldLine.ofCode line = some l) (s : State) :
    serveClearHold line s
      = if (s.run.line l).seen = some .asserted then refuse .lineActive s else served (clearLatch l s) := by
  unfold serveClearHold
  rw [h]

/-- Settles O46: the line byte is read first, then the level at which the line is seen. -/
theorem clearHoldTaken : Obligations.ClearHoldTaken := by
  unfold Obligations.ClearHoldTaken
  refine fun tag line s hr => ⟨fun h => request_refused hr (clearHold_badValue h _), fun l hl => ⟨fun hseen => ?_, fun hseen => ?_⟩⟩
  · exact request_refused hr ((clearHold_named (holdLineOf_in hl) _).trans (if_pos hseen))
  · obtain ⟨t, hx, ha, he⟩ := request_serves (tag := tag) (kind := 0x0F) _ hr
      ((clearHold_named (holdLineOf_in hl) _).trans (if_neg hseen)) (State.onRun_link ..)
    exact ⟨t, hx, ha, he, by rw [he]; rfl⟩

/-! ## The hold in force (R53) -/

/-- R53: what one line asks for. -/
def lineAsks (plant : Option PlantRecord) (run : RunControl) (line : HoldLine) : Hold :=
  match lineInForce plant run line with
  | some c => c.hold
  | none => .none

theorem holdInForce_eq (plant : Option PlantRecord) (run : RunControl) :
    holdInForce plant run = (lineAsks plant run .a).combine (lineAsks plant run .b) :=
  rfl

/-- R53: a line in force asks for what its action says. -/
theorem lineAsks_inForce {p : PlantRecord} {run : RunControl} {line : HoldLine}
    (h : (p.line line).enabled = true ∧ (run.line line).latch = true) :
    lineAsks (some p) run line = (p.line line).hold := by
  obtain ⟨he, hl⟩ := h
  simp [lineAsks, lineInForce, he, hl]

theorem lineAsks_notInForce {p : PlantRecord} {run : RunControl} {line : HoldLine}
    (h : ¬((p.line line).enabled = true ∧ (run.line line).latch = true)) : lineAsks (some p) run line = .none := by
  simp [lineAsks, lineInForce, h]

theorem hold_freeze {c : HoldConfig} (h : c.action = .freeze) : c.hold = .freeze := by
  simp [HoldConfig.hold, h]

theorem hold_ceiling {c : HoldConfig} (h : c.action = .ceiling) : c.hold = .ceiling c.ceiling := by
  simp [HoldConfig.hold, h]

/-- R53: a FREEZE line prevails, whichever of the two it is. -/
theorem combine_freeze_left (h : Hold) : Hold.freeze.combine h = .freeze := by
  cases h <;> rfl

theorem combine_freeze_right (h : Hold) : h.combine .freeze = .freeze := by
  cases h <;> rfl

/-- Settles O45: what each of the two lines asks for, combined. -/
theorem holdInForceFollowsTheLines : Obligations.HoldInForceFollowsTheLines := by
  unfold Obligations.HoldInForceFollowsTheLines
  intro p run a b ha hb
  have asksA (h : a) : lineAsks (some p) run .a = p.lineA.hold := lineAsks_inForce (line := .a) (ha.1 h)
  have asksB (h : b) : lineAsks (some p) run .b = p.lineB.hold := lineAsks_inForce (line := .b) (hb.1 h)
  have idleA (h : ¬a) : lineAsks (some p) run .a = .none := lineAsks_notInForce (line := .a) (mt ha.2 h)
  have idleB (h : ¬b) : lineAsks (some p) run .b = .none := lineAsks_notInForce (line := .b) (mt hb.2 h)
  simp only [holdInForce_eq]
  refine ⟨rfl, fun h1 h2 => ?_, fun h => ?_, fun h1 h2 h3 => ?_, fun h1 h2 h3 => ?_, fun h1 h2 h3 h4 => ?_⟩
  · rw [idleA h1, idleB h2]
    rfl
  · rcases h with ⟨h1, h2⟩ | ⟨h1, h2⟩
    · rw [asksA h1, hold_freeze h2, combine_freeze_left]
    · rw [asksB h1, hold_freeze h2, combine_freeze_right]
  · rw [asksA h1, idleB h2, hold_ceiling h3]
    rfl
  · rw [idleA h1, asksB h2, hold_ceiling h3]
    rfl
  · rw [asksA h1, asksB h2, hold_ceiling h3, hold_ceiling h4]
    rfl

/-! ## A dispatch in flight that a FREEZE cuts (R56, R127, R129) -/

/-- R127, R129: the dispatch in flight has completed with outcome CUT: the plant status record is replaced whole. -/
def DispatchCut (g g' : Governor) : Prop :=
  ∃ st, g' = { g with phase := .idle, status := some st }
    ∧ (∀ o, g.phase = .computing o →
        st = { epoch := o.epoch, outcome := .cut, sample := o.sample, supply := none, plan := none, hold := o.snapshot.hold,
               counts := { captures := 0, capChanges := 0, releases := 0, storeStaged := false, stale := 0 }, discarded := 0 })
    ∧ (∀ o sup pl todo counts, g.phase = .staging o sup pl todo counts →
        st = { epoch := o.epoch, outcome := .cut, sample := o.sample, supply := some sup, plan := some pl,
               hold := o.snapshot.hold, counts, discarded := todo.length })

theorem cutDispatch_cuts {s : State} (h : s.gov.phase ≠ .idle) : DispatchCut s.gov (cutDispatch s).gov := by
  unfold cutDispatch
  cases hp : s.gov.phase with
  | idle => exact absurd hp h
  | computing o =>
    refine ⟨cutComputingStatus o, rfl, fun o' e => ?_, fun _ _ _ _ _ e => ?_⟩
    · rw [hp] at e
      cases e
      rfl
    · rw [hp] at e
      cases e
  | staging o sup pl todo counts =>
    refine ⟨stagingStatus .cut o sup pl todo counts, rfl, fun _ e => ?_, fun _ _ _ _ _ e => ?_⟩
    · rw [hp] at e
      cases e
    · rw [hp] at e
      cases e
      rfl

/-- R56: beside the Governor's phase and plant status a cut reaches nothing, and the hold in force stands. -/
theorem cutIfFreezeBegan_gov (before : Hold) (s : State) :
    cutIfFreezeBegan before s = { s with gov := (cutIfFreezeBegan before s).gov } ∧ (cutIfFreezeBegan before s).hold = s.hold := by
  unfold cutIfFreezeBegan
  split
  · rw [cutDispatch_frame]
    exact ⟨rfl, rfl⟩
  · exact ⟨rfl, rfl⟩

theorem cutIfFreezeBegan_cuts {before : Hold} {s : State} (hb : before ≠ .freeze) (hs : s.hold = .freeze)
    (hp : s.gov.phase ≠ .idle) : DispatchCut s.gov (cutIfFreezeBegan before s).gov := by
  unfold cutIfFreezeBegan
  rw [if_pos ⟨hb, hs⟩]
  exact cutDispatch_cuts hp

theorem cutIfFreezeBegan_keeps {before : Hold} {s : State} (h : before = .freeze ∨ s.hold ≠ .freeze ∨ s.gov.phase = .idle) :
    cutIfFreezeBegan before s = s := by
  rcases h with h | h | h
  · exact if_neg fun hc => hc.1 h
  · exact if_neg fun hc => h hc.2
  · exact cutIfFreezeBegan_idle before s h

/-! ## The lines as they are seen (R52) -/

/-- R53: the level at which a line is seen has no part in the hold in force. -/
theorem holdInForce_seen (plant : Option PlantRecord) (run : RunControl) (line : HoldLine) (level : Option LineLevel) :
    holdInForce plant (run.setLine line { run.line line with seen := level }) = holdInForce plant run := by
  cases line <;> rfl

theorem setLine_state (run : RunControl) (line : HoldLine) (h : HoldState) : (run.setLine line h).state = run.state := by
  cases line <;> rfl

theorem setLine_line (run : RunControl) (line : HoldLine) (h : HoldState) : (run.setLine line h).line line = h := by
  cases line <;> rfl

theorem setLine_setLine (run : RunControl) (line : HoldLine) (h k : HoldState) :
    (run.setLine line h).setLine line k = run.setLine line k := by
  cases line <;> rfl

theorem lineEnabled_iff (plant : Option PlantRecord) (line : HoldLine) :
    lineEnabled plant line = true ↔ ∃ p, plant = some p ∧ (p.line line).enabled = true := by
  cases plant <;> simp [lineEnabled]

theorem seeAsserted_again {line : HoldLine} {s : State} (h : (s.run.line line).seen = some .asserted) : seeAsserted line s = s :=
  if_pos h

/-- R52: a line that is not enabled, or has its latch set, changes its seen level alone. -/
theorem seeAsserted_unlatched {line : HoldLine} {s : State} (hseen : (s.run.line line).seen ≠ some .asserted)
    (h : lineEnabled s.gov.plant line = false ∨ (s.run.line line).latch = true) :
    seeAsserted line s = { s with run := s.run.setLine line { s.run.line line with seen := some .asserted } } := by
  unfold seeAsserted
  rw [if_neg hseen]
  rcases h with h | h
  · exact if_neg (by rw [h]; decide)
  · have hset : setLatch line (s.onRun fun c => c.setLine line { c.line line with seen := some .asserted })
        = s.onRun fun c => c.setLine line { c.line line with seen := some .asserted } :=
      if_pos (by rw [State.onRun_run, setLine_line]; exact h)
    dsimp only
    rw [hset, ite_self]
    rfl

/-- R52, R53, R56: an enabled line with its latch clear sets it, which may begin a hold and cut a dispatch. -/
theorem seeAsserted_latches {line : HoldLine} {s : State} (hseen : (s.run.line line).seen ≠ some .asserted)
    (he : lineEnabled s.gov.plant line = true) (hl : (s.run.line line).latch = false) :
    seeAsserted line s = cutIfFreezeBegan s.hold
      (beginHold { s with run := s.run.setLine line { latch := true, seen := some .asserted } }) := by
  unfold seeAsserted
  rw [if_neg hseen]
  dsimp only
  rw [if_pos he]
  unfold setLatch
  rw [if_neg (by rw [State.onRun_run, setLine_line, hl]; decide)]
  unfold State.hold State.onRun
  dsimp only
  rw [holdInForce_seen, setLine_line, setLine_setLine]

theorem beginHold_running {s : State} (h : s.run.state = .running) :
    beginHold s = raise .holdBegun { s with run := { s.run with state := .holding } } :=
  if_pos h

theorem beginHold_elsewhere {s : State} (h : s.run.state ≠ .running) : beginHold s = s :=
  if_neg h

theorem beginHold_run (s : State) :
    (beginHold s).run = { s.run with state := if s.run.state = .running then .holding else s.run.state } := by
  by_cases h : s.run.state = .running
  · rw [beginHold_running h, raise_run, if_pos h]
  · rw [beginHold_elsewhere h, if_neg h]

/-- The raise of a condition does not meet the Governor. -/
theorem raise_thenGov (c : Condition) (s : State) (g : Governor) :
    ({ raise c s with gov := g } : State) = raise c { s with gov := g } := by
  rw [raise_as c (s := s) (t := { s with gov := g }) rfl rfl rfl, raise_frame]

/-- R53: what a latch that is set makes of the Host Link Port and the Condition Unit, whatever became of the dispatch. -/
theorem beginHold_raises (v : State) (g : Governor) :
    (v.run.state = .running →
      OnlyRaised .holdBegun { v with run := (beginHold v).run, gov := g } { beginHold v with gov := g })
    ∧ (v.run.state ≠ .running → (beginHold v).link = v.link ∧ (beginHold v).cond = v.cond) := by
  refine ⟨fun h => ?_, fun h => ?_⟩
  · rw [beginHold_running h, raise_run]
    exact raise_thenGov ..
  · rw [beginHold_elsewhere h]
    exact ⟨rfl, rfl⟩

/-- Settles O44: the line that latches begins the hold, and then cuts the dispatch if the hold is now FREEZE. -/
theorem holdLinesSeen : Obligations.HoldLinesSeen := by
  unfold Obligations.HoldLinesSeen
  refine ⟨fun p c h => ⟨rfl, rfl, rfl, rfl, rfl, rfl⟩, lineEnabled_iff, fun line s ha hseen h => ?_, fun line s ha hseen he hl => ?_,
    fun line s h => execEvent_same (seeAsserted_again h), fun line s ha => ⟨_, execEvent_awake ha, rfl⟩⟩
  · exact ⟨_, execEvent_awake ha, seeAsserted_unlatched hseen h⟩
  · refine ⟨_, execEvent_awake ha, ?_⟩
    rw [seeAsserted_latches hseen he hl]
    generalize hv : ({ s with run := s.run.setLine line { latch := true, seen := some .asserted } } : State) = v
    have hstate : v.run.state = s.run.state := by rw [← hv]; exact setLine_state ..
    have hgov : (beginHold v).gov = s.gov := by rw [(beginHold_frame v).1, ← hv]
    obtain ⟨hcut, hhold⟩ := cutIfFreezeBegan_gov s.hold (beginHold v)
    have hcuts := cutIfFreezeBegan_cuts (before := s.hold) (s := beginHold v)
    have hkeeps := cutIfFreezeBegan_keeps (before := s.hold) (s := beginHold v)
    rw [hgov] at hcuts hkeeps
    rw [hhold, hcut]
    generalize (cutIfFreezeBegan s.hold (beginHold v)).gov = g at *
    obtain ⟨hraise, hquiet⟩ := beginHold_raises v g
    rw [hstate] at hraise hquiet
    refine ⟨?_, ?_, fun hr => ?_, fun hr => ?_, hcuts, fun h => ?_⟩
    · rw [(beginHold_frame v).1, ← hv]
    · show (beginHold v).run = _
      rw [beginHold_run, hstate, ← hv]
    · rw [← hv] at hraise ⊢
      exact hraise hr
    · rw [← hv] at hquiet ⊢
      exact hquiet hr
    · exact (congrArg State.gov (hcut.symm.trans (hkeeps h))).trans hgov

end Sys2Proof.Proofs
end

section
/-! PROOFS. The Sky Station Unit and the Front Tracker at every step (R58, R60, R65, R66, R70, R76, R77, R82 to R90). -/

namespace Sys2Proof.Proofs

open Sys2Proof.Machine

/-- Settles O10: every step is a sequence of moves, and each move keeps the port and the station records lawful. -/
theorem skyLawfulAtEveryStep : Obligations.SkyLawfulAtEveryStep := by
  unfold Obligations.SkyLawfulAtEveryStep
  exact fun s t hs ht => Steps.keeps (P := fun u => SkyLawful u.sky) (fun _ _ hm => hm.keeps_sky) (step_steps ht) hs

/-! ## The Front Tracker -/

/-- What every move of the finer grain keeps, an epoch with its rules keeps too. -/
theorem move_whole_keeps {P : State → Prop} (hP : ∀ s t, Move s .parts t → P s → P t) {s t : State} (h : Move s .whole t) (hs : P s) :
    P t :=
  Steps.keeps hP (Steps.one h).fine hs

theorem step_keeps_front {s t : State} (hs : FrontLawful s.front) (ht : step s = .next t) : FrontLawful t.front :=
  Steps.keeps (P := fun u => FrontLawful u.front) (fun _ _ hm => hm.keeps_front) (step_steps ht) hs

/-- R83: the flags follow the list along the moves of a step, whose limits each move keeps beside them. -/
theorem step_keeps_flags {s t : State} (hf : FrontLawful s.front) (hs : FlagsFollow s) (ht : step s = .next t) : FlagsFollow t :=
  (Steps.keeps (P := fun u => FrontLawful u.front ∧ FlagsFollow u)
    (fun _ _ hm ⟨hf, hs⟩ => ⟨hm.keeps_front hf, hm.keeps_flags hf hs⟩) (step_steps ht) ⟨hf, hs⟩).2

/-- R82, R83, R89: the order of the list is restored only as the Front Tracker's epoch rule takes the expired warnings off, so an epoch
is one move here. -/
theorem step_keeps_ordered {s t : State} (hr : RunLawful s) (hf : FrontLawful s.front) (hs : WarningsOrdered s)
    (ht : step s = .next t) : WarningsOrdered t := by
  have keeps (a b : State) (hm : Move a .whole b) (h : RunLawful a ∧ FrontLawful a.front ∧ WarningsOrdered a) :
      RunLawful b ∧ FrontLawful b.front ∧ WarningsOrdered b := by
    obtain ⟨hr, hf, hs⟩ := h
    exact ⟨move_whole_keeps (fun _ _ hm => hm.keeps_run) hm hr,
      move_whole_keeps (P := fun u => FrontLawful u.front) (fun _ _ hm => hm.keeps_front) hm hf, hm.keeps_ordered hr hf hs⟩
  exact (Steps.keeps keeps (step_whole ht) ⟨hr, hf, hs⟩).2.2

/-- Settles O11: the limits, the flags with the limits, and the order with the run and the limits. -/
theorem frontLawfulAtEveryStep : Obligations.FrontLawfulAtEveryStep := by
  unfold Obligations.FrontLawfulAtEveryStep
  exact ⟨fun s t => step_keeps_front, fun s t => step_keeps_flags, fun s t => step_keeps_ordered⟩

end Sys2Proof.Proofs
end

section
/-! PROOFS. SET_SENSOR and LOAD_STATION (R59, R67). -/

namespace Sys2Proof.Proofs

open Sys2Proof.Machine

theorem flag_eq_decide (b : Byte) : (b == 1#8) = decide (b.toNat = 1) := by
  rw [Bool.beq_eq_decide_eq]
  exact decide_eq_decide.2 (BitVec.toNat_inj (y := 1#8)).symm

/-! ## SET_SENSOR (R59) -/

theorem setSensor_taken {period : Half} {enable : Byte} (h1 : 10 ≤ period.toNat) (h2 : period.toNat ≤ 1000) (h3 : enable.toNat ≤ 1)
    (s : State) : serveSetSensor period enable s
      = served (s.onSky (SkyUnit.setSensor period.toNat (decide (enable.toNat = 1)) s.now)) := by
  unfold serveSetSensor
  rw [flagOfByte_in h3, flag_eq_decide]
  exact if_pos (by simp [inRange, h1, h2])

/-- R59: a period out of range, whatever the flag. -/
theorem setSensor_badPeriod {period : Half} (h : period.toNat < 10 ∨ 1000 < period.toNat) (enable : Byte) (s : State) :
    serveSetSensor period enable s = refuse .badValue s := by
  unfold serveSetSensor
  cases flagOfByte enable with
  | none => rfl
  | some en => exact if_neg (by simp [inRange]; omega)

theorem setSensor_badValue {period : Half} {enable : Byte} (h : period.toNat < 10 ∨ 1000 < period.toNat ∨ 1 < enable.toNat) (s : State) :
    serveSetSensor period enable s = refuse .badValue s := by
  rcases or_assoc.2 h with h | h
  · exact setSensor_badPeriod h enable s
  · unfold serveSetSensor
    rw [flagOfByte_out h]

/-- R59: the four cases, by the port before and the request. -/
theorem setSensor_cases (period : Nat) (en : Bool) (now : Time) (u : SkyUnit) :
    (u.enabled = false → en = true →
        u.setSensor period en now = { u with enabled := true, framePeriod := period, loss := .armed, measureFrom := now })
    ∧ (u.enabled = true → en = true → u.setSensor period en now = { u with framePeriod := period })
    ∧ (u.enabled = true → en = false →
        u.setSensor period en now = { u with enabled := false, framePeriod := period, frame := none, loss := .disarmed })
    ∧ (u.enabled = false → en = false → u.setSensor period en now = { u with framePeriod := period }) := by
  unfold SkyUnit.setSensor
  refine ⟨?_, ?_, ?_, ?_⟩ <;> (intro hu he; rw [hu, he])

/-! ## LOAD_STATION (R67) -/

theorem slotTaken_iff (u : SkyUnit) (x : StationIx) (slot : Nat) :
    slotTaken u x slot = true ↔ ∃ y : StationIx, y ≠ x ∧ u.stations[y].enabled = true ∧ u.stations[y].slot = slot := by
  simp [slotTaken, and_assoc]

theorem loadStation_noStation {station : Byte} (h : station.toNat = 0 ∨ 24 < station.toNat) (body : StationBody) (s : State) :
    serveLoadStation station body s = refuse .badValue s := by
  unfold serveLoadStation
  rw [stationOf_out h]

/-- R67: the checks of a request that names station x, in their order. -/
theorem loadStation_named {station : Byte} {x : StationIx} (hx : station.toNat = x.val + 1) (body : StationBody) (s : State) :
    serveLoadStation station body s =
      if !stationInRanges body then refuse .badValue s
      else if body.enabled == 1#8 && slotTaken s.sky x body.slot.toNat then refuse .badValue s
      else served (modifyStation x (Station.load body) s) := by
  unfold serveLoadStation
  rw [stationOf_id hx]

theorem loadStation_taken {station : Byte} {x : StationIx} (hx : station.toNat = x.val + 1) {body : StationBody} {s : State}
    (hb : StationInRange body)
    (hfree : body.enabled.toNat = 1 → ∀ y : StationIx, y ≠ x → (s.station y).enabled = true → (s.station y).slot ≠ body.slot.toNat) :
    serveLoadStation station body s = served (modifyStation x (Station.load body) s) := by
  rw [loadStation_named hx, (stationInRanges_iff body).2 hb, flag_eq_decide]
  refine (if_neg (by decide)).trans (if_neg fun h => ?_)
  obtain ⟨hen, htaken⟩ := Bool.and_eq_true_iff.1 h
  obtain ⟨y, hne, hy, hslot⟩ := (slotTaken_iff ..).1 htaken
  exact hfree (of_decide_eq_true hen) y hne hy hslot

theorem loadStation_badValue {station : Byte} {x : StationIx} (hx : station.toNat = x.val + 1) {body : StationBody} {s : State}
    (h : ¬StationInRange body ∨ (body.enabled.toNat = 1 ∧ ∃ y : StationIx, y ≠ x ∧ (s.station y).enabled = true
      ∧ (s.station y).slot = body.slot.toNat)) :
    serveLoadStation station body s = refuse .badValue s := by
  rw [loadStation_named hx, flag_eq_decide]
  rcases h with h | ⟨hen, htaken⟩
  · rw [Bool.eq_false_iff.2 fun hin => h ((stationInRanges_iff body).1 hin)]
    rfl
  · rw [(slotTaken_iff ..).2 htaken, decide_eq_true hen]
    cases stationInRanges body <;> rfl

/-- R67: what a load makes of a station record. -/
theorem load_record (body : StationBody) (st : Station) : Station.load body st =
    { slot := body.slot.toNat, enabled := decide (body.enabled.toNat = 1), historyLength := body.historyLength.toNat,
      drop := body.drop.toNat, persistence := body.persistence.toNat, clear := body.clear.toNat, detector := .clear, history := [],
      reference := none, depth := none, pendingCount := none, invalidRun := 0, lastSequence := none,
      warningHeld := st.warningHeld } := by
  unfold Station.load
  rw [flag_eq_decide]

/-- Settles O48: each request where it is taken, with the four cases of SET_SENSOR and the record a load leaves, and its refusals. -/
theorem sensorPortSetAndStationLoaded : Obligations.SensorPortSetAndStationLoaded := by
  unfold Obligations.SensorPortSetAndStationLoaded
  refine ⟨fun tag period enable s hr => ⟨fun h1 h2 h3 => ?_, fun h => ?_⟩,
    fun tag station body s x hr hx => ⟨fun hb hfree => ?_, fun h => ?_⟩, fun tag station body s hr h => ?_⟩
  · obtain ⟨t, ht, ha, he⟩ := request_serves _ hr (setSensor_taken h1 h2 h3 _) (State.onSky_link ..)
    obtain ⟨hopen, hkeep, hclose, hrest⟩ := setSensor_cases period.toNat (decide (enable.toNat = 1)) s.now s.sky
    have hzero (h : enable.toNat = 0) : decide (enable.toNat = 1) = false := decide_eq_false (by omega)
    exact ⟨t, _, ht, ha, he, fun hs h => hopen hs (decide_eq_true h), fun hs h => hkeep hs (decide_eq_true h),
      fun hs h => hclose hs (hzero h), fun hs h => hrest hs (hzero h)⟩
  · exact request_refused hr (setSensor_badValue h _)
  · obtain ⟨t, ht, ha, he⟩ := request_serves _ hr (loadStation_taken hx hb hfree) (State.onSky_link ..)
    refine ⟨t, ht, ha, by rw [he]; rfl, fun y hy => ?_, ?_⟩
    · rw [he]
      exact modifyStation_ne x y _ _ hy
    · rw [he]
      exact (modifyStation_self x _ _).trans (load_record ..)
  · exact request_refused hr (loadStation_badValue hx h)
  · exact request_refused hr (loadStation_noStation h body _)

end Sys2Proof.Proofs
end

section
/-! PROOFS. Sensor words, and the frames they fill (R60 to R62). -/

namespace Sys2Proof.Proofs

open Sys2Proof.Machine

/-! ## Words (R60) -/

theorem takeWord_stores {w : Half} {words : List Half} {s : State} (he : s.sky.enabled = true) (hf : s.sky.frame = some words)
    (hl : words.length < 63) : takeWord w s = { s with sky := { s.sky with frame := some (words ++ [w]) } } := by
  unfold takeWord
  rw [he, hf]
  exact if_pos (Nat.succ_lt_succ hl)

/-- R60: the word of slot 63. -/
theorem takeWord_closes {w : Half} {words : List Half} {s : State} (he : s.sky.enabled = true) (hf : s.sky.frame = some words)
    (hl : words.length = 63) : takeWord w s = processFrame (words ++ [w]) { s with sky := { s.sky with frame := none } } := by
  unfold takeWord
  rw [he, hf]
  exact if_neg (by rw [hl]; decide)

theorem takeWord_ignored {w : Half} {s : State} (h : s.sky.enabled = false ∨ s.sky.frame = none) : takeWord w s = s := by
  unfold takeWord
  rcases h with h | h
  · rw [h]
  · rw [h]
    cases s.sky.enabled <;> rfl

/-- Log 6: with 63 words in progress either command brings the closing word. -/
theorem fillFrame_closes {w : Half} {words : List Half} {s : State} (hf : s.sky.frame = some words) (hl : words.length = 63) :
    fillFrame w s = takeWord w s := by
  unfold fillFrame
  rw [hf]
  exact if_pos (congrArg (· + 1) hl)

theorem fillFrame_ignored {w : Half} {s : State}
    (h : s.sky.enabled = false ∨ ∀ words, s.sky.frame = some words → words.length ≠ 63) : fillFrame w s = s := by
  cases hf : s.sky.frame with
  | none =>
    unfold fillFrame
    rw [hf]
  | some words =>
    by_cases hl : words.length = 63
    · rw [fillFrame_closes hf hl]
      exact takeWord_ignored (.inl (h.resolve_right fun h => h words hf hl))
    · unfold fillFrame
      rw [hf]
      exact if_neg fun h => hl (Nat.succ.inj h)

/-- R60: without a frame in progress the port is lawful as it was. -/
theorem frameClosed_lawful {u : SkyUnit} (h : SkyLawful u) : SkyLawful { u with frame := none } := by
  obtain ⟨⟨hloss, -⟩, hstations⟩ := h
  exact ⟨⟨hloss, nofun⟩, hstations⟩

/-! ## Frame syncs (R61) -/

/-- R45, R49: a frame sync that is neither the trigger nor counted. -/
theorem syncEvent_passed {order : EpochOrder} {s : State} (hs : s.timer.running = false ∨ s.timer.source ≠ .sensor)
    (ht : s.run.state ≠ .armed ∨ s.run.trigger ≠ some .firstFrame) : syncEvent order s = s := by
  have hcount : ¬(s.timer.running = true ∧ s.timer.source = .sensor) := fun ⟨hr, hsrc⟩ =>
    hs.elim (fun h => Bool.noConfusion (h.symm.trans hr)) fun h => h hsrc
  have htrigger : ¬(s.run.state = .armed ∧ s.run.trigger = some .firstFrame) := fun ⟨ha, htr⟩ =>
    ht.elim (fun h => h ha) fun h => h htr
  exact (if_neg htrigger).trans (if_neg hcount)

/-- R62: what processes a frame leaves the Epoch Timer alone. -/
theorem shortFrameTaken_timer {frame : Option (List Half)} {s t : State} (h : ShortFrameTaken frame s t) : t.timer = s.timer := by
  obtain ⟨hnone, hsome⟩ := h
  cases frame with
  | none => rw [hnone rfl]
  | some words =>
    obtain ⟨-, hframe, -⟩ := hsome words rfl
    rw [hframe]

theorem beginFrame_timer (s : State) : (beginFrame (tripLossDue s)).timer = s.timer := by
  rw [beginFrame, State.onSky_timer, tripLossDue_frame]

/-- R61: such a sync closes the frame in progress short and begins a new one, whichever of the two the operand names first. -/
theorem frameSync_closes {frameFirst : Bool} {order : EpochOrder} {s : State} (hsky : SkyLawful s.sky) (he : s.sky.enabled = true)
    (hs : s.timer.running = false ∨ s.timer.source ≠ .sensor)
    (ht : s.run.state ≠ .armed ∨ s.run.trigger ≠ some .firstFrame) :
    ShortFrameTaken (tripLossDue s).sky.frame (beginFrame (tripLossDue s)) (frameSync frameFirst order s) := by
  have hclose := closeFrame_taken (tripLossDue s).sky.frame _ (beginFrame_sky s hsky he)
  have passed {v : State} (htimer : v.timer = s.timer) (hrun : v.run = s.run) : syncEvent order v = v :=
    syncEvent_passed (by rwa [htimer]) (by rwa [hrun])
  have hx : frameSync frameFirst order s = closeFrame (tripLossDue s).sky.frame (beginFrame (tripLossDue s)) := by
    refine (if_pos he).trans ?_
    cases frameFirst with
    | true =>
      exact passed ((shortFrameTaken_timer hclose).trans (beginFrame_timer s)) ((shortFrameTaken_run hclose).trans (beginFrame_run s))
    | false => exact congrArg (closeFrame _) (passed (beginFrame_timer s) (beginFrame_run s))
  rw [hx]
  exact hclose

/-- Settles O52: words that fill and close a frame, the two commands where they change nothing, and the frame sync; what a closed frame
leaves is `processFrame_processed`. -/
theorem sensorWordsReachTheStations : Obligations.SensorWordsReachTheStations := by
  unfold Obligations.SensorWordsReachTheStations
  refine ⟨fun w words s ha hsky he hf => ⟨fun hl => ?_, fun hl => ?_⟩, fun w s h => execEvent_same (takeWord_ignored h),
    fun w s h => execEvent_same (fillFrame_ignored h), fun frameFirst order s ha hsky he hs ht => ?_⟩
  · exact (execEvent_awake ha).trans (congrArg _ (takeWord_stores he hf hl))
  · have hword := takeWord_closes (w := w) he hf hl
    exact ⟨_, (execEvent_awake ha).trans (congrArg _ hword),
      (execEvent_awake ha).trans (congrArg _ ((fillFrame_closes hf hl).trans hword)),
      processFrame_processed _ _ (frameClosed_lawful hsky)⟩
  · exact ⟨_, _, _, beginFrame_begun s, execEvent_awake ha, frameSync_closes hsky he hs ht⟩

end Sys2Proof.Proofs
end

section
/-! PROOFS. The lead map's three requests and FLUSH_WARNINGS (R77 to R80, R91). -/

namespace Sys2Proof.Proofs

open Sys2Proof.Machine

theorem samePair_iff (x y : LeadEntry) : x.samePair y = true ↔ x.station = y.station ∧ x.block = y.block := by
  simp [LeadEntry.samePair]

/-! ## LEADS_BEGIN and LEADS_COMMIT (R78, R80) -/

theorem leadsBegin_taken (s : State) : serveLeadsBegin s = served (s.onFront fun f => { f with staging := [] }) := rfl

theorem leadsCommit_taken (s : State) : serveLeadsCommit s
    = servedWith (leBytes 1 s.front.staging.length) (s.onFront fun f => { f with active := f.staging, staging := [] }) := rfl

/-! ## LEADS_ADD (R79) -/

theorem wfLeads_iff (entries : List LeadBody) : wfLeads entries = true ↔ 1 ≤ entries.length ∧ entries.length ≤ 60 := by
  simp [wfLeads]

theorem leadsFit_iff (map : List LeadEntry) : leadsFit map = true
    ↔ map.length ≤ 192 ∧ ∀ x : StationIx, (map.filter fun y => y.station == x).length ≤ 8 := by
  rw [leadsFit, Bool.and_eq_true, decide_eq_true_iff, List.all_eq_true]
  exact and_congr_right' ⟨fun h x => of_decide_eq_true (h x (List.mem_finRange x)), fun h x _ => decide_eq_true (h x)⟩

/-- R79: a station or a block that is none, or a lead of 0. -/
theorem checkLead_out {e : LeadBody} (h : e.station.toNat = 0 ∨ 24 < e.station.toNat ∨ e.block.toNat = 0 ∨ 48 < e.block.toNat
    ∨ e.lead.toNat = 0) : checkLead e = none := by
  unfold checkLead
  rcases or_assoc.2 h with h | h
  · rw [stationOf_out h]
  · cases stationOf e.station with
    | none => rfl
    | some x =>
      rcases or_assoc.2 h with h | h
      · rw [blockOf_out h]
      · cases blockOf e.block with
        | none => rfl
        | some b => exact if_neg (by omega)

theorem leadsAdd_badLength {entries : List LeadBody} (h : entries.length = 0 ∨ 60 < entries.length) (s : State) :
    serveLeadsAdd entries s = refuse .badLength s := by
  unfold serveLeadsAdd
  exact if_neg (by rw [wfLeads_iff]; omega)

section
variable {entries : List LeadBody} (h1 : 1 ≤ entries.length) (h60 : entries.length ≤ 60) {s : State}
include h1 h60

/-- R79, step 1: an entry out of range, or a pair named twice. -/
theorem leadsAdd_badValue (h : appendLeads s.front.staging entries = none) : serveLeadsAdd entries s = refuse .badValue s := by
  unfold serveLeadsAdd
  rw [h]
  exact if_pos ((wfLeads_iff _).2 ⟨h1, h60⟩)

/-- R79, step 2: a request whose entries are in order is taken whole, or refused for want of room. -/
theorem leadsAdd_room {map : List LeadEntry} (h : appendLeads s.front.staging entries = some map) :
    serveLeadsAdd entries s
      = if leadsFit map then servedWith (leBytes 1 map.length) (s.onFront fun f => { f with staging := map }) else refuse .full s := by
  unfold serveLeadsAdd
  rw [h]
  exact if_pos ((wfLeads_iff _).2 ⟨h1, h60⟩)

end

/-! ## FLUSH_WARNINGS (R91) -/

theorem emptyWarnings_link (s : State) : (emptyWarnings s).link = s.link := by
  rw [(emptyWarnings_all s).1]

theorem flushWarnings_empties (s : State) : serveFlushWarnings s = served (emptyWarnings s) := rfl

theorem flushWarnings_taken (tag : Byte) {s : State} (hr : Ready s) :
    ∃ t, exec (.flushWarnings tag) s = .next t ∧ Answered 0x16 tag .ok [] s t
      ∧ t = { s with link := t.link, front := { s.front with warnings := [] }, sky := { s.sky with stations := t.sky.stations } }
      ∧ ∀ x : StationIx, t.station x = { s.station x with warningHeld := false } := by
  obtain ⟨t, ht, ha, he⟩ := request_serves _ hr (flushWarnings_empties (s.inHand 0x16 tag)) (emptyWarnings_link _)
  obtain ⟨hframe, hflags⟩ := emptyWarnings_all (s.inHand 0x16 tag)
  generalize emptyWarnings (s.inHand 0x16 tag) = v at he hframe hflags
  refine ⟨t, ht, ha, ?_, fun x => ?_⟩
  · rw [he, hframe]
    rfl
  · rw [he]
    exact hflags x

/-- Settles O49: LEADS_ADD by the first of its checks that fails, and the three requests that are never refused. -/
theorem leadMapStagedAndCommitted : Obligations.LeadMapStagedAndCommitted := by
  unfold Obligations.LeadMapStagedAndCommitted
  refine ⟨samePair_iff, fun tag s hr => request_serves _ hr (leadsBegin_taken _) (State.onFront_link ..),
    fun tag s hr => request_answers hr (leadsCommit_taken _) (State.onFront_link ..), fun tag s hr => flushWarnings_taken tag hr,
    fun tag entries s hr => ⟨fun h => request_refused hr (leadsAdd_badLength h _), fun h1 h60 =>
      ⟨fun new map hmap hentries hlead => ?_, fun ⟨e, he, hout⟩ => ?_⟩⟩⟩
  · subst hmap
    obtain ⟨happend, hclash⟩ := appendLeads_new entries (s.inHand 0x14 tag).front.staging new hentries hlead
    refine ⟨fun hnew => ⟨fun hfit => ?_, fun hover => ?_⟩, fun hpair => ?_⟩
    · exact request_answers hr ((leadsAdd_room h1 h60 (happend hnew)).trans (if_pos ((leadsFit_iff _).2 hfit)))
        (State.onFront_link ..)
    · refine request_refused hr ((leadsAdd_room h1 h60 (happend hnew)).trans (if_neg fun hfit => ?_))
      obtain ⟨hlength, hstation⟩ := (leadsFit_iff _).1 hfit
      rcases hover with hover | ⟨x, hover⟩
      · exact absurd hlength (Nat.not_le.2 hover)
      · exact absurd (hstation x) (Nat.not_le.2 hover)
    · refine request_refused hr (leadsAdd_badValue h1 h60 (hclash fun ⟨hstaged, hdistinct⟩ => ?_))
      rcases hpair with ⟨x, hx, y, hy, hsame⟩ | hpair
      · exact Bool.noConfusion ((hstaged x hx y hy).symm.trans hsame)
      · exact hpair hdistinct
  · exact request_refused hr (leadsAdd_badValue h1 h60 (appendLeads_bad entries e he (checkLead_out hout) _))

end Sys2Proof.Proofs
end

section
/-! PROOFS. The ramp window and the target band (R95 to R103), the target (R114, R115) and the storage split (R117). -/

namespace Sys2Proof.Proofs

open Sys2Proof.Machine

/-- Settles O12: every step is a sequence of moves, and each move keeps the window within its depth and the last band upright. -/
theorem windowLawfulAtEveryStep : Obligations.WindowLawfulAtEveryStep := by
  unfold Obligations.WindowLawfulAtEveryStep
  exact fun s t hs ht => Steps.keeps (P := fun u => WindowLawful u.gov) (fun _ _ hm => hm.keeps_window) (step_steps ht) hs

/-! ## The band (R100, R101) -/

/-- The two equations of R100 fix both bounds, so the band computed from them is the one they name. -/
theorem bandOf_of_bounds {p : PlantRecord} {sample wmax wmin low high : Nat}
    (hlow : (low : Int) = max 0 (max ((sample : Int) - p.stepDown) ((wmax : Int) - p.windowDown)))
    (hhigh : high = min (sample + p.stepUp) (wmin + p.windowUp)) :
    (low ≤ high → bandOf p sample wmax wmin = { low, high })
    ∧ (high < low → bandOf p sample wmax wmin = { low := sample, high := sample }) := by
  obtain ⟨low', high', hlow', hhigh', hupright, hinverted⟩ := bandOf_computed p sample wmax wmin
  obtain rfl : low = low' := Int.ofNat.inj (hlow.trans hlow'.symm)
  obtain rfl : high = high' := hhigh.trans hhigh'.symm
  exact ⟨hupright, hinverted⟩

/-! ## The target (R114, R115) -/

/-- R114: T1 is the lesser of T0 and G, and T0 where G is absent. -/
theorem glide_bound {t0 t1 : Nat} {glide : Option Nat} (h : glide = none ∧ t1 = t0 ∨ ∃ g, glide = some g ∧ t1 = min t0 g) :
    t1 = min t0 (glide.getD t0) := by
  rcases h with ⟨rfl, rfl⟩ | ⟨g, rfl, rfl⟩
  · exact (Nat.min_self t1).symm
  · rfl

section
variable {band : Band} {most t1 : Nat} {glide : Option Nat} (h1 : t1 = min (min band.high most) (glide.getD (min band.high most)))

include h1

theorem targetOf_within (h : band.low ≤ t1) : targetOf band most glide = { target := t1, path := .within } := by
  subst h1
  exact if_pos h

theorem targetOf_short (h : t1 < band.low) (hmost : most < band.low) :
    targetOf band most glide = { target := most, path := .short } := by
  subst h1
  exact (if_neg (Nat.not_le.2 h)).trans (if_pos hmost)

theorem targetOf_late (h : t1 < band.low) (hmost : band.low ≤ most) :
    targetOf band most glide = { target := band.low, path := .late } := by
  subst h1
  exact (if_neg (Nat.not_le.2 h)).trans (if_neg (Nat.not_lt.2 hmost))

end

/-- R114: on no path does the target exceed Pa + S_dis. -/
theorem targetOf_le_most (band : Band) (most : Nat) (glide : Option Nat) : (targetOf band most glide).target ≤ most := by
  rcases Nat.lt_or_ge (min (min band.high most) (glide.getD (min band.high most))) band.low with hlate | hwithin
  · rcases Nat.lt_or_ge most band.low with hmost | hmost
    · rw [targetOf_short rfl hlate hmost]
    · rw [targetOf_late rfl hlate hmost]
      exact hmost
  · rw [targetOf_within rfl hwithin]
    exact (Nat.min_le_left ..).trans (Nat.min_le_right ..)

/-! ## The storage split (R117) -/

theorem splitOf_above {available target : Nat} (absorb : Bool) (sChg : Nat) (h : available ≤ target) :
    splitOf absorb target available sChg = { command := (target : Int) - available, curtailment := 0 } := by
  rw [← Int.ofNat_sub h]
  exact if_pos h

theorem splitOf_absorbed {target available : Nat} (sChg : Nat) (h : target < available) :
    splitOf true target available sChg
      = { command := -((min (available - target) sChg : Nat) : Int),
          curtailment := available - target - min (available - target) sChg } :=
  if_neg (Nat.not_le.2 h)

theorem splitOf_notAbsorbed {target available : Nat} (sChg : Nat) (h : target < available) :
    splitOf false target available sChg = { command := 0, curtailment := available - target } :=
  if_neg (Nat.not_le.2 h)

/-- R117: the storage command lies between -S_chg and S_dis, and C between 0 and Pa. -/
theorem splitOf_bounds (absorb : Bool) {target available sDis : Nat} (sChg : Nat) (hmost : target ≤ available + sDis) :
    -(sChg : Int) ≤ (splitOf absorb target available sChg).command ∧ (splitOf absorb target available sChg).command ≤ sDis
      ∧ (splitOf absorb target available sChg).curtailment ≤ available := by
  rcases Nat.lt_or_ge target available with hbelow | habove
  · cases absorb with
    | true =>
      rw [splitOf_absorbed sChg hbelow]
      dsimp only
      omega
    | false =>
      rw [splitOf_notAbsorbed sChg hbelow]
      dsimp only
      omega
  · rw [splitOf_above absorb sChg habove]
    dsimp only
    omega

/-- Settles O50: the stage as it is taken in the opening step, the two bounds of the band, the three paths of the target with the ceiling
over them, and the split on either side of Pa. -/
theorem bandTargetAndSplit : Obligations.BandTargetAndSplit := by
  unfold Obligations.BandTargetAndSplit
  refine ⟨sampleAndBand_taken, fun p sample wmax wmin low high => bandOf_of_bounds, fun band available sDis t1 glide hglide => ?_,
    fun t c => ⟨rfl, rfl⟩, fun absorb target available sDis sChg r hmost hr => ?_⟩
  · have h1 := glide_bound hglide
    exact ⟨targetOf_within h1, targetOf_short h1, targetOf_late h1, targetOf_le_most ..⟩
  · subst hr
    refine ⟨fun habove => ?_, fun hbelow habsorb => ?_, fun hbelow habsorb => ?_, splitOf_bounds absorb sChg hmost⟩
    · rw [splitOf_above absorb sChg habove]
      exact ⟨rfl, rfl⟩
    · rw [habsorb, splitOf_absorbed sChg hbelow]
      dsimp only
      omega
    · rw [habsorb, splitOf_notAbsorbed sChg hbelow]
      dsimp only
      omega

end Sys2Proof.Proofs
end

section
/-! PROOFS. The shares of a placed curtailment (R118, R121). -/

namespace Sys2Proof.Proofs

open Sys2Proof.Machine

/-! ## The rounded-down part of one block (R121, steps 1 and 2) -/

/-- R121: the share of a block before the remainder, where `total` is the capacity of all members of K. -/
def roundedShare (placed total : Nat) (b : SnapBlock) : Nat :=
  if total = 0 then 0 else placed * b.capacity / total

theorem firstShares_eq (placed : Nat) (k : List SnapBlock) :
    firstShares placed k = k.map fun b => (b, roundedShare placed (capacitySum k) b) :=
  rfl

theorem total_mul_roundedShare_le (placed total : Nat) (b : SnapBlock) :
    total * roundedShare placed total b ≤ placed * b.capacity := by
  unfold roundedShare
  split
  · exact Nat.zero_le _
  · exact Nat.mul_div_le ..

theorem roundedShare_le_capacity {placed total : Nat} (h : placed ≤ total) (b : SnapBlock) :
    roundedShare placed total b ≤ b.capacity := by
  unfold roundedShare
  split
  · exact Nat.zero_le _
  · exact Nat.div_le_of_le_mul (Nat.mul_le_mul_right _ h)

/-- What rounding loses is less than the divisor, and nothing is lost where the part is the whole capacity. -/
theorem placed_mul_capacity_le {placed total : Nat} (h : placed ≤ total) (b : SnapBlock) :
    placed * b.capacity ≤ total * roundedShare placed total b
      + (total - 1) * (if roundedShare placed total b < b.capacity then 1 else 0) := by
  by_cases hroom : roundedShare placed total b < b.capacity
  · rw [if_pos hroom, Nat.mul_one]
    unfold roundedShare
    split
    · rename_i h0
      rw [Nat.le_zero.1 (h.trans_eq h0), Nat.zero_mul]
      exact Nat.zero_le _
    · rename_i h0
      have hdiv := Nat.div_add_mod (placed * b.capacity) total
      have hmod := Nat.mod_lt (placed * b.capacity) (Nat.pos_of_ne_zero h0)
      omega
  · rw [if_neg hroom, Nat.mul_zero, Nat.add_zero]
    exact Nat.mul_le_mul h (Nat.not_lt.1 hroom)

/-! ## The parts of a list of members, and what they leave (R121, step 3) -/

/-- The members whose share is below their capacity. -/
def withRoom (l : List (SnapBlock × Nat)) : List (SnapBlock × Nat) :=
  l.filter fun m => decide (m.2 < m.1.capacity)

theorem withRoom_cons_length (m : SnapBlock × Nat) (l : List (SnapBlock × Nat)) :
    (withRoom (m :: l)).length = (withRoom l).length + if m.2 < m.1.capacity then 1 else 0 := by
  unfold withRoom
  by_cases h : m.2 < m.1.capacity <;> simp [h]

/-- The two bounds of one block, summed over a list of them. -/
theorem sum_roundedShare_bounds {placed total : Nat} (h : placed ≤ total) (l : List SnapBlock) {first : List (SnapBlock × Nat)}
    (hfirst : first = l.map fun b => (b, roundedShare placed total b)) :
    total * (first.map (·.2)).sum ≤ placed * capacitySum l
      ∧ placed * capacitySum l ≤ total * (first.map (·.2)).sum + (total - 1) * (withRoom first).length := by
  subst hfirst
  induction l with
  | nil => exact ⟨Nat.le_refl _, Nat.zero_le _⟩
  | cons b l ih =>
    obtain ⟨hlow, hhigh⟩ := ih
    have hb := total_mul_roundedShare_le placed total b
    have hb' := placed_mul_capacity_le h b
    rw [List.map_cons, withRoom_cons_length, List.map_cons, List.sum_cons, capacitySum_cons, Nat.mul_add, Nat.mul_add, Nat.mul_add]
    dsimp only
    omega

section
variable {placed : Nat} {k : List SnapBlock}

theorem sum_firstShares_le (h : placed ≤ capacitySum k) : ((firstShares placed k).map (·.2)).sum ≤ placed := by
  obtain ⟨hlow, -⟩ := sum_roundedShare_bounds h k (firstShares_eq placed k)
  rcases Nat.eq_zero_or_pos (capacitySum k) with h0 | hpos
  · simp [firstShares, h0, Function.comp_def]
  · exact Nat.le_of_mul_le_mul_left (hlow.trans_eq (Nat.mul_comm ..)) hpos

/-- R121: a remainder that is not 0 is less than the number of members with room, so one pass over K spends it. -/
theorem remainder_lt_withRoom (h : placed ≤ capacitySum k) {remainder : Nat}
    (hr : remainder = placed - ((firstShares placed k).map (·.2)).sum) :
    remainder = 0 ∨ remainder < (withRoom (firstShares placed k)).length := by
  obtain ⟨-, hhigh⟩ := sum_roundedShare_bounds h k (firstShares_eq placed k)
  have hsum := sum_firstShares_le h
  generalize ((firstShares placed k).map (·.2)).sum = parts at *
  generalize (withRoom (firstShares placed k)).length = room at *
  generalize capacitySum k = total at *
  obtain rfl : placed = parts + remainder := by omega
  by_contra hbad
  obtain ⟨hne, hge⟩ := not_or.1 hbad
  have hlost : total * remainder ≤ (total - 1) * remainder :=
    calc total * remainder ≤ (total - 1) * room := by
          rw [Nat.mul_comm (parts + remainder), Nat.mul_add] at hhigh
          exact Nat.le_of_add_le_add_left hhigh
      _ ≤ (total - 1) * remainder := Nat.mul_le_mul_left _ (Nat.not_lt.1 hge)
  have hless := Nat.le_of_mul_le_mul_right hlost (Nat.pos_of_ne_zero hne)
  omega

theorem sharesOf_sum (h : placed ≤ capacitySum k) : ((sharesOf placed k).map (·.2)).sum = placed := by
  have hroom := remainder_lt_withRoom h rfl
  refine (handOut_sum _ _ ?_).trans (Nat.add_sub_cancel' (sum_firstShares_le h))
  show _ ≤ (withRoom _).length
  omega

theorem sharesOf_le_capacity (h : placed ≤ capacitySum k) : ∀ m ∈ sharesOf placed k, m.2 ≤ m.1.capacity := by
  refine handOut_le _ _ fun m hm => ?_
  rw [firstShares_eq] at hm
  obtain ⟨b, -, rfl⟩ := List.mem_map.1 hm
  exact roundedShare_le_capacity h b

theorem sharesOf_members : (sharesOf placed k).map (·.1) = k := by
  rw [sharesOf, handOut_fst, firstShares_eq, List.map_map]
  exact List.map_id k

theorem remainder_lt_length (h : placed ≤ capacitySum k) (hk : k ≠ []) :
    placed - ((firstShares placed k).map (·.2)).sum < k.length := by
  have hroom : (withRoom (firstShares placed k)).length ≤ k.length :=
    (List.length_filter_le ..).trans_eq (List.length_map ..)
  have hpos := List.length_pos_iff.2 hk
  have hlt := remainder_lt_withRoom h rfl
  omega

end

/-- Settles O51: the parts fall short of C' by less than one per member with room, so handing out 1 kW each in K order places it. -/
theorem sharesPlaceTheCurtailment : Obligations.SharesPlaceTheCurtailment := by
  unfold Obligations.SharesPlaceTheCurtailment
  refine ⟨fun b => rfl, fun k => rfl, fun placed k first remainder h hfirst hr => ?_⟩
  obtain rfl : first = firstShares placed k := hfirst
  subst hr
  refine ⟨sharesOf_members, fun before b share after hat => ?_, sharesOf_le_capacity h, sharesOf_sum h, sum_firstShares_le h,
    remainder_lt_length h⟩
  rw [sharesOf, hat]
  exact handOut_at _ before after b share

end Sys2Proof.Proofs
end

section
/-! PROOFS. The end of computing (R106, R110 to R123, R126, R129). -/

namespace Sys2Proof.Proofs

open Sys2Proof.Machine

/-! ## The conditions of the target and the allocation (R114, R121) -/

theorem raisePath_eq (path : TargetPath) (s : State) :
    raisePath path s = raiseIf (path == .late) .glideLate (raiseIf (path == .short) .supplyShort s) := by
  cases path <;> rfl

/-- R106, R114: the held target and the phase STAGING, with the condition of the target's path raised. -/
def targetTaken (o : Opened) (pl : Plan) (s : State) : State :=
  raiseIf (pl.plan.path == .late) .glideLate (raiseIf (pl.plan.path == .short) .supplyShort { s with gov := { s.gov with
    heldTarget := some pl.supply.target, phase := .staging o pl.supply pl.plan pl.todo noCounts } })

/-- R121: and CAPTURE_SHORT after it, where C exceeds what is placed. -/
def planTaken (o : Opened) (pl : Plan) (s : State) : State :=
  raiseIf (decide (pl.plan.placed < pl.plan.curtailment)) .captureShort (targetTaken o pl s)

section
variable (o : Opened) (pl : Plan) (s : State)

theorem planTaken_short (h : pl.plan.placed < pl.plan.curtailment) :
    planTaken o pl s = raise .captureShort (targetTaken o pl s) :=
  if_pos (decide_eq_true h)

theorem planTaken_enough (h : pl.plan.curtailment ≤ pl.plan.placed) : planTaken o pl s = targetTaken o pl s :=
  if_neg fun hd => absurd (of_decide_eq_true hd) (Nat.not_lt.2 h)

@[simp] theorem planTaken_resetLow : (planTaken o pl s).resetLow = s.resetLow := by
  simp [planTaken, targetTaken]

@[simp] theorem planTaken_ring : (planTaken o pl s).ring = s.ring := by
  simp [planTaken, targetTaken]

@[simp] theorem planTaken_phase : (planTaken o pl s).gov.phase = .staging o pl.supply pl.plan pl.todo noCounts := by
  simp [planTaken, targetTaken]

/-! ## The two ways on from the plan (R123, R126) -/

theorem plannedEnd_eq : plannedEnd o pl s = if s.ring.state = .up
    then stageAll o pl.supply pl.plan pl.todo noCounts (planTaken o pl s) else ringDownDispatch (planTaken o pl s) := by
  rw [← planTaken_ring o pl s]
  unfold plannedEnd
  dsimp only
  rw [raisePath_eq]
  rfl

/-- R123: with the ring UP the dispatch goes on as one that stages its whole decision list. -/
theorem plannedEnd_stages (ha : Awake s) (h : s.ring.state = .up) :
    exec .stagingResumed (planTaken o pl s) = .next (plannedEnd o pl s) := by
  have hawake : Awake (planTaken o pl s) := (planTaken_resetLow o pl s).trans ha
  refine (execEvent_awake hawake).trans ?_
  rw [plannedEnd_eq, if_pos h, resumeStaging, planTaken_phase]

/-- R126, R129: with the ring not UP nothing is staged, and every decision is discarded. -/
theorem plannedEnd_ringDown (h : s.ring.state ≠ .up) :
    plannedEnd o pl s = completeDispatch (stagingStatus .ringDown o pl.supply pl.plan pl.todo noCounts) (planTaken o pl s) := by
  rw [plannedEnd_eq, if_neg h, ringDownDispatch, planTaken_phase]

end

/-! ## The command -/

section
variable {o : Opened} {p : PlantRecord} {s : State} (ha : Awake s) (hphase : s.gov.phase = .computing o)
  (hplant : s.gov.plant = some p)

include ha hphase hplant

/-- R116: under a FREEZE the computing ends after the target stage. -/
theorem computingEnd_frozen (h : o.snapshot.hold = .freeze) : exec .dispatchComputingEnd s = .next (frozenEnd p o s) := by
  refine (execEvent_awake ha).trans ?_
  rw [computingEnd, hphase, hplant]
  exact congrArg _ (if_pos h)

theorem computingEnd_planned (h : o.snapshot.hold ≠ .freeze) :
    exec .dispatchComputingEnd s = .next (plannedEnd o (planOf p o) s) := by
  refine (execEvent_awake ha).trans ?_
  rw [computingEnd, hphase, hplant]
  exact congrArg _ (if_neg h)

end

theorem computingEnd_elsewhere {s : State} (h : ∀ o, s.gov.phase ≠ .computing o) : exec .dispatchComputingEnd s = .next s := by
  refine execEvent_same ?_
  unfold computingEnd
  split
  · rename_i o p hphase hplant
    exact absurd hphase (h o)
  · rfl

/-- Settles O54: under FREEZE the supply figures and the held target alone; otherwise the plan of the snapshot, its conditions, and then
staging or RING_DOWN by the state of the ring. -/
theorem computingEnds : Obligations.ComputingEnds := by
  unfold Obligations.ComputingEnds
  refine ⟨rfl, fun o p s ha hphase hplant => ⟨fun hfreeze target htarget => ?_, fun hfree => ?_⟩, fun s => computingEnd_elsewhere⟩
  · refine ⟨supplyFigures p o target, supplyFigures_computed p o target, rfl, ?_⟩
    rw [computingEnd_frozen ha hphase hplant hfreeze, frozenEnd, ← htarget, hfreeze]
    rfl
  · refine ⟨planOf p o, targetTaken o (planOf p o) s, planTaken o (planOf p o) s, plannedEnd o (planOf p o) s, planOf_computed p o,
      computingEnd_planned ha hphase hplant hfree, rfl, planTaken_short o _ s, planTaken_enough o _ s, plannedEnd_stages o _ s ha,
      plannedEnd_ringDown o _ s⟩

end Sys2Proof.Proofs
end

section
/-! PROOFS. The outbound queue at every step (R142, R146, R149, R156 to R160), and what the part's own frames and packets carry (R152, R155,
R190, R191, 12.5). -/

namespace Sys2Proof.Proofs

open Sys2Proof.Machine

/-! ## The outbound queue at every step -/

theorem step_keeps_queue {s t : State} (hs : QueueLawful s.ring) (ht : step s = .next t) : QueueLawful t.ring :=
  Steps.keeps (P := fun u => QueueLawful u.ring) (fun _ _ hm => hm.keeps_queue) (step_steps ht) hs

/-- R156, R158: a trigger may be taken only with a MARK placed since START or none queued, so the run is carried beside the markers along
the moves of a step. -/
theorem step_keeps_marks {s t : State} (hr : RunLawful s) (hs : MarksLead s.run.state s.ring) (ht : step s = .next t) :
    MarksLead t.run.state t.ring :=
  (Steps.keeps (P := fun u => RunLawful u ∧ MarksLead u.run.state u.ring)
    (fun _ _ hm ⟨hr, hs⟩ => ⟨hm.keeps_run hr, hm.keeps_marks hr hs⟩) (step_steps ht) ⟨hr, hs⟩).2

/-- Settles O6: the limits along the moves of a step, and the order behind a MARK with the run. -/
theorem queueLawfulAtEveryStep : Obligations.QueueLawfulAtEveryStep := by
  unfold Obligations.QueueLawfulAtEveryStep
  exact ⟨fun s t => step_keeps_queue, fun s t => step_keeps_marks⟩

/-! ## What leaves the part -/

/-- R191: a frame made with its CRC passes the check of a received frame. -/
theorem frameWithCrc_matches (kind tag : Byte) (body : List Byte) : frameCrcMatches (frameWithCrc kind tag body) = true := by
  unfold frameCrcMatches frameWithCrc
  rw [crcOf_split, beq_self_eq_true]

/-- R155: a packet that leaves is one that has come round with no flag set and no marks counted. -/
theorem bytes_eq_returned (p : OwnPacket) : p.bytes = returnedBytes p 0#8 0#8 := by
  rw [returnedBytes_eq]
  rfl

theorem bytes_check (p : OwnPacket) :
    passMark p.bytes = false ∧ takenFlag p.bytes = false ∧ checkPacket p.bytes = true ∧ byteAt p.bytes 0 = 0#8
      ∧ byteAt p.bytes 1 = p.kindCode ∧ byteAt p.bytes 3 = 0#8 ∧ payloadOf p.bytes = p.payload := by
  rw [bytes_eq_returned]
  exact returnedBytes_check p 0#8 0#8

theorem blockByte_fields (b : BlockIx) : Fields [blockByte b] [(1, some (b.val + 1))] :=
  fields_byte (b.val + 1)

/-- 12.5: block, label, cap and lease, whatever number stands in the cap field. -/
theorem cap_fields (b : BlockIx) (label : Epoch) (limit : Option Nat) (lease : Nat) :
    Fields (OwnPacket.cap b label limit lease).payload [(1, some (b.val + 1)), (4, some label.toNat),
      (2, some (limit.getD (Config.releaseCapField b label).toNat)), (2, some lease)] :=
  (((blockByte_fields b).append (fields_epoch4 label)).append (fields_le 2 _)).append (fields_le 2 lease)

theorem store_fields (label : Epoch) (power : Int) (lease : Nat) :
    Fields (OwnPacket.store label power lease).payload
      [(4, some label.toNat), (4, some (power % 2 ^ 32).toNat), (2, some lease)] :=
  ((fields_epoch4 label).append (fields_int power)).append (fields_le 2 lease)

theorem byte_fields (n : Byte) : Fields [n] [(1, some n.toNat)] :=
  fields_bytes [n]

/-- Settles O38: the CRC of a frame, the check of a packet, and the fields of each kind's payload. -/
theorem sentFramesAndPacketsPassTheirChecks : Obligations.SentFramesAndPacketsPassTheirChecks := by
  unfold Obligations.SentFramesAndPacketsPassTheirChecks
  refine ⟨fun f => rfl, frameWithCrc_matches, bytes_check, fun b label cap lease => ?_,
    fun label power lease => ⟨rfl, store_fields label power lease⟩, fun e => ⟨rfl, fields_epoch4 e⟩,
    fun n => ⟨rfl, byte_fields n⟩⟩
  exact ⟨rfl, cap_fields b label (some cap) lease, rfl, cap_fields b label none lease⟩

end Sys2Proof.Proofs
end

section
/-! PROOFS. The ring requests (R126, R144, R149, R150, R172, R173). -/

namespace Sys2Proof.Proofs

open Sys2Proof.Machine

/-! ## PROBE_RING (R149) -/

theorem hasRoom_iff (q : List OwnPacket) : hasRoom q = true ↔ (q.filter fun p => !p.isMark).length < 63 :=
  decide_eq_true_iff

theorem probeRing_wrongState {s : State} (h : s.ring.state ≠ .up ∨ s.ring.probe ≠ .absent) :
    serveProbeRing s = refuse .wrongState s :=
  if_pos h

/-- R149: with the ring UP and no probe, the queue decides. -/
theorem probeRing_idle {s : State} (h1 : s.ring.state = .up) (h2 : s.ring.probe = .absent) :
    serveProbeRing s = if hasRoom s.ring.queue then served (s.onRing RingController.placeProbe) else refuse .full s :=
  if_neg (by rw [h1, h2]; decide)

/-! ## LOAD_RING (R150) -/

theorem nodesValid_iff (ids : List Byte) :
    nodesValid ids = true ↔ (∀ n ∈ ids, 1 ≤ n.toNat ∧ n.toNat ≤ 50) ∧ ids.Nodup := by
  simp [nodesValid, inRange]

theorem loadRing_badLength {ids : List Byte} (h : 50 < ids.length) (s : State) : serveLoadRing ids s = refuse .badLength s :=
  if_neg (by simpa [wfNodes] using h)

theorem loadRing_checked {ids : List Byte} (h : ids.length ≤ 50) (s : State) :
    serveLoadRing ids s = if nodesValid ids then served (loadNodes ids s) else refuse .badValue s :=
  if_pos (by simpa [wfNodes] using h)

theorem loadRing_badValue {ids : List Byte} (h : ids.length ≤ 50)
    (hbad : (∃ n ∈ ids, n.toNat = 0 ∨ 50 < n.toNat) ∨ ¬ids.Nodup) (s : State) : serveLoadRing ids s = refuse .badValue s := by
  rw [loadRing_checked h, if_neg]
  rw [nodesValid_iff]
  rintro ⟨hrange, hnodup⟩
  rcases hbad with ⟨n, hn, hout⟩ | hdup
  · have := hrange n hn
    omega
  · exact hdup hnodup

/-- R126: completing the dispatch reaches neither the Host Link Port nor the Condition Unit, nor reads them. -/
theorem ringDownDispatch_relink (l : HostLink) (u : ConditionUnit) (s : State) :
    ringDownDispatch { s with link := l, cond := u } = { ringDownDispatch s with link := l, cond := u } := by
  unfold ringDownDispatch
  dsimp only
  cases s.gov.phase <;> rfl

/-- R144: no more does entering DOWN. -/
theorem goDown_relink (l : HostLink) (u : ConditionUnit) (s : State) :
    goDown { s with link := l, cond := u } = { goDown s with link := l, cond := u } := by
  unfold goDown endStagingIfUp
  by_cases hup : s.ring.state = .up
  · rw [if_pos hup, if_pos hup]
    exact ringDownDispatch_relink l u (s.onRing (RingController.enterDown s.now))
  · rw [if_neg hup, if_neg hup]
    rfl

/-- R144, R183: a raise and the entry into DOWN touch different units, so their order does not matter. -/
theorem goDown_raise (c : Condition) (s : State) : goDown (raise c s) = raise c (goDown s) := by
  have hframe := (goDown_left s s rfl rfl).1
  have hlink : (goDown s).link = s.link := by rw [hframe]
  have hcond : (goDown s).cond = s.cond := by rw [hframe]
  have hepoch : (goDown s).timer.epoch = s.timer.epoch := by rw [hframe]
  rw [raise_as c hlink hcond hepoch, ← goDown_relink, ← raise_frame]

/-- R150: the Ring Controller with the list of LOAD_RING, and the alert queues emptied. -/
def listLoaded (ids : List Byte) (s : State) : State :=
  emptyAllAlerts (s.onRing fun r => { r with nodes := ids.map BitVec.toNat })

/-- R150: what LOAD_RING does is one raise, from the state with the ring DOWN. -/
theorem loadNodes_raised (ids : List Byte) (s : State) : loadNodes ids s = raise .ringLoss (goDown (listLoaded ids s)) :=
  goDown_raise .ringLoss (listLoaded ids s)

/-- R172, R173: all that emptying the queues reaches. -/
theorem emptyAllAlerts_reach (s : State) : emptyAllAlerts s
    = { s with cond := { s.cond with conditions := (emptyAllAlerts s).cond.conditions }, alerts := (emptyAllAlerts s).alerts } :=
  foldl_frame (R := fun s t => t = { s with cond := { s.cond with conditions := t.cond.conditions }, alerts := t.alerts })
    (fun _ => rfl) (fun s t u h1 h2 => by rw [h2, h1]) (fun s c => by rw [emptyAlerts_one]; rfl) _ s

theorem listLoaded_frame (ids : List Byte) (s : State) : listLoaded ids s
    = { s with cond := { s.cond with conditions := (listLoaded ids s).cond.conditions }, alerts := (listLoaded ids s).alerts,
               ring := { s.ring with nodes := ids.map BitVec.toNat } } :=
  emptyAllAlerts_reach _

/-- R150, R144, R126: the state that LOAD_RING leaves but for its raise. -/
theorem listLoaded_down (ids : List Byte) (s : State) : goDown (listLoaded ids s)
    = { s with cond := { s.cond with conditions := (listLoaded ids s).cond.conditions }, gov := (goDown (listLoaded ids s)).gov,
               alerts := (listLoaded ids s).alerts,
               ring := { s.ring with nodes := ids.map BitVec.toNat }.enterDown s.now } ∧ RingLeft s (goDown (listLoaded ids s)) := by
  have hframe := listLoaded_frame ids s
  obtain ⟨hdown, hleft⟩ := goDown_left s (listLoaded ids s) (by rw [hframe]) (by rw [hframe])
  refine ⟨hdown.trans ?_, hleft⟩
  generalize (goDown (listLoaded ids s)).gov = g
  rw [hframe]

theorem ringLeft_congr {s u v : State} (h : v.gov = u.gov) (hu : RingLeft s u) : RingLeft s v := by
  unfold RingLeft
  rw [h]
  exact hu

/-- R150: the effects of LOAD_RING, unit by unit. -/
theorem loadNodes_taken (ids : List Byte) (s : State) :
    OnlyRaised .ringLoss { s with
        cond := { s.cond with conditions := (listLoaded ids s).cond.conditions }, gov := (loadNodes ids s).gov,
        alerts := (loadNodes ids s).alerts,
        ring := { s.ring with
          nodes := ids.map BitVec.toNat, state := .down, queue := [], forward := [], probe := .absent, settleFrom := s.now,
          purged := (loadNodes ids s).ring.purged } } (loadNodes ids s)
      ∧ (loadNodes ids s).ring.purged = (if s.ring.state = .up
          then min (s.ring.purged + (s.ring.queue.filter fun p => !p.isProbe).length) (2 ^ 32 - 1) else s.ring.purged)
      ∧ (∀ c : AlertClass, (loadNodes ids s).alerts.get c = { s.alerts.get c with entries := [] })
      ∧ RingLeft s (loadNodes ids s) := by
  have hraised := loadNodes_raised ids s
  obtain ⟨hdown, hleft⟩ := listLoaded_down ids s
  rw [enterDown_eq] at hdown
  have hgov : (loadNodes ids s).gov = (goDown (listLoaded ids s)).gov := by rw [hraised, raise_gov]
  have halerts : (loadNodes ids s).alerts = (listLoaded ids s).alerts := by rw [hraised, raise_alerts, hdown]
  have hring : (loadNodes ids s).ring = (goDown (listLoaded ids s)).ring := by rw [hraised, raise_ring]
  have hpurged : (loadNodes ids s).ring.purged = if s.ring.state = .up
      then min (s.ring.purged + (s.ring.queue.filter fun p => !p.isProbe).length) (2 ^ 32 - 1) else s.ring.purged := by
    rw [hring, hdown]
  refine ⟨?_, hpurged, fun c => ?_, ringLeft_congr hgov hleft⟩
  · rw [OnlyRaised, hpurged, hgov, halerts, hraised]
    exact congrArg (raise .ringLoss) hdown
  · obtain ⟨-, hempty, -⟩ := emptyAlerts_parts (s.onRing fun r => { r with nodes := ids.map BitVec.toNat })
    rw [halerts]
    exact hempty c

/-- R150: LOAD_RING with lawful IDs is taken, and its reply readied after its effects. -/
theorem loadRing_taken {tag : Byte} {ids : List Byte} {s : State} (hr : Ready s) (hl : ids.length ≤ 50)
    (hrange : ∀ n ∈ ids, 1 ≤ n.toNat ∧ n.toNat ≤ 50) (hn : ids.Nodup) :
    exec (.loadRing tag ids) s = .next (readyReply 0x1B tag (served (loadNodes ids (s.inHand 0x1B tag)))) := by
  refine (execRequest_ready hr).trans ?_
  rw [loadRing_checked hl, if_pos ((nodesValid_iff ids).2 ⟨hrange, hn⟩)]

/-- Settles O56: PROBE_RING by the ring, the probe record and the queue, and LOAD_RING by its IDs. -/
theorem ringRequestsTaken : Obligations.RingRequestsTaken := by
  unfold Obligations.RingRequestsTaken
  refine ⟨fun tag s hr => ⟨fun h => request_refused hr (probeRing_wrongState h), fun hup hidle => ?_⟩,
    fun tag ids s hr => ⟨fun h => request_refused hr (loadRing_badLength h _),
      fun hl hbad => request_refused hr (loadRing_badValue hl hbad _), fun hl hrange hn => ?_⟩⟩
  · have hidle := probeRing_idle (s := s.inHand 0x1A tag) hup hidle
    refine ⟨fun hfull => request_refused hr (hidle.trans (if_neg ?_)), fun hroom => ?_⟩
    · exact fun h => Nat.not_lt.2 hfull ((hasRoom_iff _).1 h)
    · exact request_serves _ hr (hidle.trans (if_pos ((hasRoom_iff _).2 hroom))) rfl
  · obtain ⟨hraised, hpurged, hget, hleft⟩ := loadNodes_taken ids (s.inHand 0x1B tag)
    obtain ⟨-, -, hset⟩ := emptyAlerts_parts ((s.inHand 0x1B tag).onRing fun r => { r with nodes := ids.map BitVec.toNat })
    exact ⟨loadNodes ids (s.inHand 0x1B tag), _, (listLoaded ids (s.inHand 0x1B tag)).cond.conditions, loadRing_taken hr hl hrange hn,
      rfl, hraised, hpurged, hget, hset, hleft⟩

end Sys2Proof.Proofs
end

section
/-! PROOFS. The events of the ring state: the signal, the settle measure, the return window and the retry (R143 to R148). -/

namespace Sys2Proof.Proofs

open Sys2Proof.Machine

/-! ## The signal (R143) -/

theorem execSignalPresent_awake {s : State} (h : Awake s) : exec .ringSignalPresent s = .next (signalPresent s) :=
  congrArg _ (if_neg (ne_true_of_eq_false h))

theorem execSignalLoss_awake {s : State} (h : Awake s) : exec .ringSignalLoss s = .next (signalLoss s) :=
  congrArg _ (if_neg (ne_true_of_eq_false h))

theorem signalPresent_seen {s : State} (h : s.ring.signalSeen = true) : signalPresent s = s :=
  if_pos h

theorem signalPresent_unseen {s : State} (h : s.ring.signalSeen = false) :
    signalPresent s = { s with ring := { s.ring with signalSeen := true, settleFrom := s.now } } :=
  if_neg (ne_true_of_eq_false h)

theorem signalLoss_unseen {s : State} (h : s.ring.signalSeen = false) : signalLoss s = s :=
  if_neg (ne_true_of_eq_false h)

theorem signalLoss_down {s : State} (h : s.ring.signalSeen = true) (hs : s.ring.state = .down) :
    signalLoss s = { s with ring := { s.ring with signalSeen := false, settleFrom := s.now } } := by
  unfold signalLoss
  rw [if_pos h, hs]
  rfl

/-- R143: in PROBING and UP the ring passes to DOWN, and RING_LOSS is raised. -/
theorem signalLoss_goesDown {s : State} (h : s.ring.signalSeen = true) (hs : s.ring.state ≠ .down) :
    signalLoss s = raise .ringLoss (goDown (s.onRing fun r => { r with signalSeen := false })) := by
  unfold signalLoss
  rw [if_pos h]
  split
  · exact absurd ‹_› hs
  · rfl
  · rfl

/-! ## The settle measure (R145) -/

/-- R144, R146: the fields of the Ring Controller on entering PROBING. -/
theorem enterProbing_eq (r : RingController) : r.enterProbing
    = { r with state := .probing, probe := .queued, nextProbe := r.nextProbe + 1,
               queue := (if r.state = .up then r.queue.filter OwnPacket.isProbe else r.queue) ++ [.probe r.nextProbe],
               purged := if r.state = .up
                 then min (r.purged + (r.queue.filter fun p => !p.isProbe).length) (2 ^ 32 - 1) else r.purged } := by
  unfold RingController.enterProbing
  split
  · unfold RingController.purge
    rw [onlyProbes_dropped]
    rfl
  · rfl

/-- R145: the ring enters PROBING with the PROBE alone in its queue, which was empty in DOWN. -/
theorem settle_probes {s : State} (h1 : s.ring.state = .down) (h2 : s.ring.signalSeen = true) (h3 : s.ring.nodes ≠ [])
    (hq : QueueLawful s.ring) :
    settle s = { s with
      now := max s.now (s.ring.settleFrom + 10000),
      ring := { s.ring with state := .probing, probe := .queued, queue := [.probe s.ring.nextProbe],
                            nextProbe := s.ring.nextProbe + 1 } } := by
  obtain ⟨-, -, -, hdown, -, -⟩ := hq
  have hsettle : settle s = (s.atTime (settleTime s.ring)).onRing RingController.enterProbing := if_pos ⟨h1, h2, h3⟩
  have hup : ¬(s.atTime (settleTime s.ring)).ring.state = .up := by
    rw [show (s.atTime (settleTime s.ring)).ring.state = .down from h1]
    decide
  rw [hsettle, State.onRing, enterProbing_eq, if_neg hup, if_neg hup, show (s.atTime _).ring.queue = [] from (hdown h1).1]
  rfl

theorem settle_waits {s : State} (h : s.ring.state ≠ .down ∨ s.ring.signalSeen = false ∨ s.ring.nodes = []) : settle s = s := by
  refine if_neg ?_
  rintro ⟨h1, h2, h3⟩
  rcases h with h | h | h
  · exact h h1
  · exact Bool.noConfusion (h.symm.trans h2)
  · exact h3 h

/-! ## The return window and the retry (R146, R148) -/

section
variable {n : Byte} {sent : Time} {s : State}

theorem windowExpiry_probing (h : s.ring.probe = .outstanding n sent false) (hs : s.ring.state = .probing) :
    windowExpiry s = { s with
      now := max s.now (sent + 20000),
      ring := { s.ring with probe := .outstanding n sent true, lastOutcome := some .failed,
                            probeFailures := min (s.ring.probeFailures + 1) (2 ^ 32 - 1) } } := by
  unfold windowExpiry
  rw [h, hs]
  rfl

/-- R148: the probe of PROBE_RING has failed, and the ring leaves UP for PROBING. -/
theorem windowExpiry_up (h : s.ring.probe = .outstanding n sent false) (hs : s.ring.state = .up) :
    windowExpiry s = raise .ringLoss (endStagingIfUp s.ring.state
      (((s.atTime (windowTime sent)).onRing RingController.failProbe).onRing RingController.enterProbing)) := by
  unfold windowExpiry
  rw [h, hs]
  rfl

theorem windowExpiry_none (h : ∀ n sent, s.ring.probe ≠ .outstanding n sent false) : windowExpiry s = s := by
  unfold windowExpiry
  split
  · exact absurd ‹_› (h _ _)
  · rfl

theorem retryExpiry_probing (h : s.ring.probe = .outstanding n sent true) (hs : s.ring.state = .probing) :
    retryExpiry s = { s with
      now := max s.now (sent + 200000),
      ring := { s.ring with probe := .queued, queue := s.ring.queue ++ [.probe s.ring.nextProbe],
                            nextProbe := s.ring.nextProbe + 1 } } := by
  unfold retryExpiry
  rw [h, hs]
  rfl

theorem retryExpiry_none (h : s.ring.state ≠ .probing ∨ ∀ n sent, s.ring.probe ≠ .outstanding n sent true) : retryExpiry s = s := by
  unfold retryExpiry
  split
  · rename_i hstate hprobe
    rcases h with h | h
    · exact absurd hstate h
    · exact absurd hprobe (h _ _)
  · rfl

end

/-- R148: the state that a failed probe leaves in UP, but for its raise. -/
theorem probeFailed_left {s : State} (sent : Time) (hs : s.ring.state = .up) {u : State} (hu : u = endStagingIfUp s.ring.state
    (((s.atTime (windowTime sent)).onRing RingController.failProbe).onRing RingController.enterProbing)) :
    RingLeft s u ∧ u = { s with now := max s.now (sent + 20000), gov := u.gov, ring := { s.ring with
      state := .probing, probe := .queued, queue := s.ring.queue.filter OwnPacket.isProbe ++ [.probe s.ring.nextProbe],
      nextProbe := s.ring.nextProbe + 1, lastOutcome := some .failed,
      probeFailures := min (s.ring.probeFailures + 1) (2 ^ 32 - 1),
      purged := min (s.ring.purged + (s.ring.queue.filter fun p => !p.isProbe).length) (2 ^ 32 - 1) } } := by
  obtain ⟨hframe, hleft⟩ := endStaging_left s.ring.state s
    (((s.atTime (windowTime sent)).onRing RingController.failProbe).onRing RingController.enterProbing) rfl rfl
  rw [← hu] at hframe hleft
  have hup : ((s.atTime (windowTime sent)).onRing RingController.failProbe).ring.state = .up := hs
  refine ⟨hleft, hframe.trans ?_⟩
  rw [State.onRing, enterProbing_eq, if_pos hup, if_pos hup]
  rfl

/-- R143, R144: the state that the signal's loss leaves in PROBING or UP, but for its raise. -/
theorem signalLost_left {s u : State} (hu : u = goDown (s.onRing fun r => { r with signalSeen := false })) :
    RingLeft s u ∧ u = { s with gov := u.gov, ring := { s.ring with
      signalSeen := false, state := .down, queue := [], forward := [], probe := .absent, settleFrom := s.now,
      purged := if s.ring.state = .up
        then min (s.ring.purged + (s.ring.queue.filter fun p => !p.isProbe).length) (2 ^ 32 - 1) else s.ring.purged } } := by
  obtain ⟨hframe, hleft⟩ := goDown_left s (s.onRing fun r => { r with signalSeen := false }) rfl rfl
  rw [← hu] at hframe hleft
  refine ⟨hleft, hframe.trans ?_⟩
  rw [enterDown_eq]
  rfl

/-- Settles O57: the signal and the settle measure, then the return window and the retry, each with its premise and without it. -/
theorem ringStateEvents : Obligations.RingStateEvents := by
  unfold Obligations.RingStateEvents
  refine ⟨fun s ha => ⟨fun hseen => ?_, fun hseen => ⟨?_, ?_⟩, fun hseen => ⟨fun hdown => ?_, fun hup => ?_⟩,
      fun hdown hseen hnodes hq => ?_, fun h => execEvent_same (settle_waits h)⟩,
    fun n sent s ha hprobe => ⟨fun hs => ?_, fun hs => ?_⟩, fun s h => execEvent_same (windowExpiry_none h),
    fun n sent s ha hprobe hs => ?_, fun s h => execEvent_same (retryExpiry_none h)⟩
  · rw [execSignalPresent_awake ha, signalPresent_seen hseen]
  · rw [execSignalPresent_awake ha, signalPresent_unseen hseen]
  · rw [execSignalLoss_awake ha, signalLoss_unseen hseen]
  · rw [execSignalLoss_awake ha, signalLoss_down hseen hdown]
  · obtain ⟨hleft, hu⟩ := signalLost_left (s := s) rfl
    exact ⟨_, _, (execSignalLoss_awake ha).trans (congrArg _ (signalLoss_goesDown hseen hup)), rfl, hleft, hu⟩
  · exact (execEvent_awake ha).trans (congrArg _ (settle_probes hdown hseen hnodes hq))
  · exact (execEvent_awake ha).trans (congrArg _ (windowExpiry_probing hprobe hs))
  · obtain ⟨hleft, hu⟩ := probeFailed_left sent hs rfl
    exact ⟨_, _, (execEvent_awake ha).trans (congrArg _ (windowExpiry_up hprobe hs)), rfl, hleft, hu⟩
  · exact (execEvent_awake ha).trans (congrArg _ (retryExpiry_probing hprobe hs))

end Sys2Proof.Proofs
end

section
/-! PROOFS. Arriving packets: the pass mark and the check, the fields of a payload, the five steps of R152, the part's own packets that come
round, and the out port (R143, R146 to R148, R152 to R155, R169, R190, 12.5). -/

namespace Sys2Proof.Proofs

open Sys2Proof.Machine

/-! ## The parts of a packet (R152, 12.5) -/

/-- A packet that ends before its flags byte has no pass mark to read or to set. -/
theorem passMark_short {bs : List Byte} (h : bs.length < 3) : passMark bs = false ∧ setPassMark bs = bs := by
  have hlen : bs.length ≤ 2 := Nat.le_of_lt_succ h
  refine ⟨?_, List.modify_eq_self hlen⟩
  rw [passMark, byteAt, List.getD_eq_default bs 0#8 hlen]
  rfl

theorem payloadOf_between {header payload crc : List Byte} (hh : header.length = 4) (hc : crc.length = 2) :
    payloadOf (header ++ payload ++ crc) = payload := by
  have hl : (header ++ payload ++ crc).length - 6 = payload.length := by
    simp only [List.length_append]
    omega
  rw [payloadOf, hl]
  exact fieldAt_append header payload crc 4 payload.length hh rfl

theorem unitMode_iff (u : Byte) (mode : UnitMode) : UnitMode.ofCode u = some mode ↔ u.toNat = mode.code := by
  cases mode <;> revert u <;> decide +kernel

theorem alertClass_iff (c : Byte) (cls : AlertClass) : AlertClass.ofCode c = some cls ↔ c.toNat = cls.code := by
  cases cls <;> revert c <;> decide +kernel

/-- A plain field of two bytes, whatever number they spell. -/
theorem halfAt_bytes (pre mid post : List Byte) (i : Nat) (hi : pre.length = i) (hn : mid.length = 2) :
    (halfAt (pre ++ mid ++ post) i).toNat = leNat mid := by
  have hlt := leNat_lt mid
  rw [hn] at hlt
  rw [halfAt, fieldAt_append _ _ _ _ _ hi hn, BitVec.toNat_ofNat]
  exact Nat.mod_eq_of_lt hlt

/-- 12.5, R190: a REPORT of nodes 1 to 48, field by field. -/
theorem blockReportOf_fields (mode : UnitMode) {e m a c l : List Byte} (u : Byte) (he : e.length = 4) (hm : m.length = 4)
    (ha : a.length = 4) (hc : c.length = 2) (hl : l.length = 2) :
    byteAt (e ++ m ++ a ++ [u] ++ c ++ l) 12 = u
      ∧ blockReportOf mode (e ++ m ++ a ++ [u] ++ c ++ l)
        = { epoch := BitVec.ofNat 32 (leNat e), measured := readField m, available := readField a, mode, applied := readField c,
            leaseLeft := leNat l } := by
  have hepoch := wordAt_bytes [] e (m ++ a ++ [u] ++ c ++ l) 0 rfl he
  have hmeasured := optNatAt_append e m (a ++ [u] ++ c ++ l) 4 4 he hm
  have havailable := optNatAt_append (e ++ m) a ([u] ++ c ++ l) 8 4 (by simp [he, hm]) ha
  have hmode := byteAt_append (e ++ m ++ a) (c ++ l) u 12 (by simp [he, hm, ha])
  have happlied := optNatAt_append (e ++ m ++ a ++ [u]) c l 13 2 (by simp [he, hm, ha]) hc
  have hleft := halfAt_bytes (e ++ m ++ a ++ [u] ++ c) l [] 15 (by simp [he, hm, ha, hc]) hl
  simp only [List.append_assoc, List.nil_append, List.append_nil, List.cons_append]
    at hepoch hmeasured havailable hmode happlied hleft ⊢
  exact ⟨hmode, by rw [blockReportOf, hepoch, hmeasured, havailable, happlied, hleft]⟩

/-- 12.5, R190: a REPORT of nodes 49 and 50, field by field. -/
theorem nodeReportOf_fields {e m soe d c p l : List Byte} (u : Byte) (he : e.length = 4) (hm : m.length = 5) (hsoe : soe.length = 2)
    (hd : d.length = 4) (hc : c.length = 4) (hp : p.length = 5) :
    nodeReportOf (e ++ m ++ soe ++ d ++ c ++ [u] ++ p ++ l)
      = { epoch := BitVec.ofNat 32 (leNat e), measured := readPower m, soe := readField soe, discharge := readField d,
          charge := readField c, mode := UnitMode.ofCode u, applied := readPower p } := by
  have hepoch := wordAt_bytes [] e (m ++ soe ++ d ++ c ++ [u] ++ p ++ l) 0 rfl he
  have hmeasured := optIntAt_append e m (soe ++ d ++ c ++ [u] ++ p ++ l) 4 he hm
  have hsoe' := optNatAt_append (e ++ m) soe (d ++ c ++ [u] ++ p ++ l) 9 2 (by simp [he, hm]) hsoe
  have hdischarge := optNatAt_append (e ++ m ++ soe) d (c ++ [u] ++ p ++ l) 11 4 (by simp [he, hm, hsoe]) hd
  have hcharge := optNatAt_append (e ++ m ++ soe ++ d) c ([u] ++ p ++ l) 15 4 (by simp [he, hm, hsoe, hd]) hc
  have hmode := byteAt_append (e ++ m ++ soe ++ d ++ c) (p ++ l) u 19 (by simp [he, hm, hsoe, hd, hc])
  have happlied := optIntAt_append (e ++ m ++ soe ++ d ++ c ++ [u]) p l 20 (by simp [he, hm, hsoe, hd, hc]) hp
  simp only [List.append_assoc, List.nil_append, List.cons_append] at hepoch hmeasured hsoe' hdischarge hcharge hmode happlied ⊢
  rw [nodeReportOf, hepoch, hmeasured, hsoe', hdischarge, hcharge, hmode, happlied]

/-- 12.5: an ALERT. -/
theorem alert_fields (c : Byte) {d : List Byte} (hd : d.length = 4) :
    byteAt (c :: d) 0 = c ∧ (wordAt (c :: d) 1).toNat = leNat d := by
  have hword := wordAt_bytes [c] d [] 1 rfl hd
  have hlt := leNat_lt d
  rw [hd] at hlt
  rw [List.append_nil] at hword
  refine ⟨rfl, ?_⟩
  rw [show c :: d = [c] ++ d from rfl, hword, BitVec.toNat_ofNat]
  exact Nat.mod_eq_of_lt hlt

/-! ## The five steps (R152) -/

section
variable {bs : List Byte} {s : State}

theorem receivePacket_down (h : s.ring.state = .down) : receivePacket bs s = s := by
  unfold receivePacket
  rw [h]

theorem receivePacket_takes (h : s.ring.state ≠ .down) : receivePacket bs s = takePacket bs s := by
  unfold receivePacket
  split
  · exact absurd ‹_› h
  · rfl
  · rfl

theorem packetReceived_takes (ha : Awake s) (h : s.ring.state ≠ .down) :
    exec (.ringPacketReceived bs) s = .next (takePacket bs s) :=
  (execEvent_awake ha).trans (congrArg _ (receivePacket_takes h))

theorem takePacket_rogue (h : passMark bs = true) :
    takePacket bs s = raise .rogueRemoved (s.onRing fun r => { r with rogue := saturate max32 r.rogue }) :=
  if_pos h

/-- R152, R183: forwarding reaches the Ring Controller alone, so it can stand before a raise or after it. -/
theorem forwardPacket_raise (c : Condition) : forwardPacket bs (raise c s) = raise c (forwardPacket bs s) := by
  rw [raise_as c (s := s) (t := forwardPacket bs s) rfl rfl rfl, raise_frame]
  rfl

/-- R152, step 2: counted, PACKET_DISCARDED raised, and forwarded. -/
theorem takePacket_discarded (h1 : passMark bs = false) (h2 : checkPacket bs = false) :
    takePacket bs s
      = raise .packetDiscarded (forwardPacket bs (s.onRing fun r => { r with discarded := saturate max32 r.discarded })) := by
  unfold takePacket
  rw [if_neg (ne_true_of_eq_false h1), h2, ← forwardPacket_raise]
  rfl

/-- R152: a packet that passes the check goes on to steps 3 to 5. -/
theorem takePacket_checked (h : PassesCheck bs) : takePacket bs s =
    if byteAt bs 0 = 0 then ownPacket bs s
    else if (s.ring.nodes.contains (byteAt bs 0).toNat) = false then
      forwardPacket bs (s.onRing fun r => { r with unknownOrigin := saturate max32 r.unknownOrigin })
    else forwardPacket bs (applyPacket bs s) := by
  obtain ⟨h1, h2⟩ := h
  unfold takePacket
  rw [if_neg (ne_true_of_eq_false h1), h2]
  rfl

theorem takePacket_own (h : PassesCheck bs) (h0 : byteAt bs 0 = 0) : takePacket bs s = ownPacket bs s :=
  (takePacket_checked h).trans (if_pos h0)

theorem takePacket_unknown (h : PassesCheck bs) (h0 : (byteAt bs 0).toNat ≠ 0) (hn : (byteAt bs 0).toNat ∉ s.ring.nodes) :
    takePacket bs s = forwardPacket bs (s.onRing fun r => { r with unknownOrigin := saturate max32 r.unknownOrigin }) := by
  rw [takePacket_checked h, if_neg fun e => h0 (congrArg BitVec.toNat e), if_pos (by simpa using hn)]

theorem takePacket_applied (h : PassesCheck bs) (h0 : (byteAt bs 0).toNat ≠ 0) (hn : (byteAt bs 0).toNat ∈ s.ring.nodes) :
    takePacket bs s
      = { applyPacket bs s with ring := { s.ring with forward := s.ring.forward ++ [setPassMark bs] } } := by
  rw [takePacket_checked h, if_neg fun e => h0 (congrArg BitVec.toNat e), if_neg (by simpa using hn), forwardPacket, State.onRing,
    applyPacket_ring]

/-! ## What a packet applied does (R154) -/

theorem applyPacket_alert {cls : AlertClass} (h : (byteAt bs 1).toNat = 6)
    (hc : AlertClass.ofCode (byteAt (payloadOf bs) 0) = some cls) :
    applyPacket bs s = alertIntake (byteAt bs 0).toNat cls (wordAt (payloadOf bs) 1) s := by
  unfold applyPacket
  dsimp only
  rw [h, hc]
  rfl

theorem applyPacket_report (h : (byteAt bs 1).toNat = 5) : applyPacket bs s = applyReport (byteAt bs 0).toNat (payloadOf bs) s :=
  if_pos h

end

theorem applyReport_storage (p : List Byte) (s : State) : applyReport 49 p s = storageReport (nodeReportOf p) s :=
  rfl

theorem applyReport_meter (p : List Byte) (s : State) : applyReport 50 p s = meterReport (nodeReportOf p) s :=
  rfl

theorem applyReport_block {origin : Nat} {p : List Byte} {b : BlockIx} {mode : UnitMode} (s : State) (ho : origin = b.val + 1)
    (hm : UnitMode.ofCode (byteAt p 12) = some mode) : applyReport origin p s = blockReport b (blockReportOf mode p) s := by
  unfold applyReport
  rw [blockOfNode_id ho, hm]

/-! ## The part's own packets (R153) -/

theorem returned_passes (p : OwnPacket) {flags : Byte} (marks : Byte) (hf : flags.getLsbD 0 = false) :
    PassesCheck (returnedBytes p flags marks) := by
  obtain ⟨hpass, -, hcheck, -⟩ := returnedBytes_check p flags marks
  exact ⟨hpass.trans hf, hcheck⟩

/-- R152, step 3: a packet of the part's own that comes round undamaged is taken off. -/
theorem returned_taken (p : OwnPacket) {flags : Byte} (marks : Byte) {s : State} (ha : Awake s) (hs : s.ring.state ≠ .down)
    (hf : flags.getLsbD 0 = false) :
    exec (.ringPacketReceived (returnedBytes p flags marks)) s = .next (ownPacket (returnedBytes p flags marks) s) := by
  obtain ⟨-, -, -, horigin, -⟩ := returnedBytes_check p flags marks
  rw [packetReceived_takes ha hs, takePacket_own (returned_passes p marks hf) horigin]

theorem blockOf_blockByte (b : BlockIx) : blockOf (blockByte b) = some b := by
  have := b.isLt
  refine blockOf_id ?_
  rw [blockByte, BitVec.toNat_ofNat]
  exact Nat.mod_eq_of_lt (by omega)

/-- A two-byte field written from a number that fits it. -/
theorem halfAt_le (pre post : List Byte) {i n : Nat} (hi : pre.length = i) (hn : n < 65536) :
    (halfAt (pre ++ leBytes 2 n ++ post) i).toNat = n := by
  rw [halfAt_bytes pre _ post i hi (leBytes_length 2 n), leNat_leBytes]
  exact Nat.mod_eq_of_lt hn

/-- 12.5: the fields read back from a CAP's payload. -/
theorem capPayload_read (b : BlockIx) (label : Epoch) (limit : Option Nat) {lease : Nat}
    (hc : limit.getD (Config.releaseCapField b label).toNat < 65536) (hl : lease < 65536) :
    byteAt (OwnPacket.cap b label limit lease).payload 0 = blockByte b
      ∧ wordAt (OwnPacket.cap b label limit lease).payload 1 = label
      ∧ (halfAt (OwnPacket.cap b label limit lease).payload 5).toNat = limit.getD (Config.releaseCapField b label).toNat
      ∧ (halfAt (OwnPacket.cap b label limit lease).payload 7).toNat = lease := by
  simp only [OwnPacket.payload]
  generalize limit.getD (Config.releaseCapField b label).toNat = cap at hc
  have hlabel := wordAt_append [blockByte b] (leBytes 2 cap ++ leBytes 2 lease) label 1 rfl
  have hcap := halfAt_le ([blockByte b] ++ epochBytes label) (leBytes 2 lease) (i := 5) (by simp) hc
  have hlease := halfAt_le ([blockByte b] ++ epochBytes label ++ leBytes 2 cap) [] (i := 7) (by simp) hl
  rw [← List.append_assoc] at hlabel
  rw [List.append_nil] at hlease
  exact ⟨rfl, hlabel, hcap, hlease⟩

/-- 12.5: the fields read back from a STORE's payload. -/
theorem storePayload_read (label : Epoch) {power : Int} {lease : Nat} (h1 : -3000000 ≤ power) (h2 : power ≤ 3000000)
    (hl : lease < 65536) :
    wordAt (OwnPacket.store label power lease).payload 0 = label
      ∧ (wordAt (OwnPacket.store label power lease).payload 4).toInt = power
      ∧ (halfAt (OwnPacket.store label power lease).payload 8).toNat = lease := by
  have hpower : (BitVec.ofInt 32 power).toInt = power :=
    BitVec.toInt_ofInt_eq_self (by decide) (by norm_num; omega) (by norm_num; omega)
  have hlabel := wordAt_append [] (intBytes power ++ leBytes 2 lease) label 0 rfl
  have hword := wordAt_append (epochBytes label) (leBytes 2 lease) (BitVec.ofInt 32 power) 4 (epochBytes_length label)
  have hlease := halfAt_le (epochBytes label ++ intBytes power) [] (i := 8) (by simp [intBytes]) hl
  rw [← List.append_assoc] at hlabel
  rw [List.append_nil] at hlease
  exact ⟨hlabel, (congrArg BitVec.toInt hword).trans hpower, hlease⟩

section
variable (flags marks : Byte) (s : State)

/-- R153: a CAP, with the number its cap field holds. -/
theorem ownPacket_cap (b : BlockIx) (label : Epoch) (limit : Option Nat) {lease : Nat}
    (hc : limit.getD (Config.releaseCapField b label).toNat < 65536) (hl : lease < 65536) :
    ownPacket (returnedBytes (.cap b label limit lease) flags marks) s
      = capReturn b label (limit.getD (Config.releaseCapField b label).toNat) lease (flags.getLsbD 1) s := by
  obtain ⟨-, htaken, -, -, hkind, -, hpayload⟩ := returnedBytes_check (.cap b label limit lease) flags marks
  obtain ⟨hblock, hlabel, hcap, hlease⟩ := capPayload_read b label limit hc hl
  unfold ownPacket
  dsimp only
  rw [hkind, hpayload, htaken, hblock, hlabel, hcap, hlease, blockOf_blockByte]
  rfl

theorem ownPacket_store (label : Epoch) {power : Int} {lease : Nat} (h1 : -3000000 ≤ power) (h2 : power ≤ 3000000)
    (hl : lease < 65536) :
    ownPacket (returnedBytes (.store label power lease) flags marks) s
      = storeReturn label power lease (flags.getLsbD 1) s := by
  obtain ⟨-, htaken, -, -, hkind, -, hpayload⟩ := returnedBytes_check (.store label power lease) flags marks
  obtain ⟨hlabel, hpower, hlease⟩ := storePayload_read label h1 h2 hl
  unfold ownPacket
  dsimp only
  rw [hkind, hpayload, htaken, hlabel, hpower, hlease]
  rfl

theorem ownPacket_mark (e : Epoch) :
    ownPacket (returnedBytes (.mark e) flags marks) s = raiseIf (decide (marks.toNat < s.ring.nodes.length)) .markShort s := by
  obtain ⟨-, -, -, -, hkind, hmarks, -⟩ := returnedBytes_check (.mark e) flags marks
  unfold ownPacket
  dsimp only
  rw [hkind, hmarks]
  rfl

theorem ownPacket_probe (n : Byte) : ownPacket (returnedBytes (.probe n) flags marks) s = probeReturn n s := by
  obtain ⟨-, -, -, -, hkind, -, hpayload⟩ := returnedBytes_check (.probe n) flags marks
  unfold ownPacket
  dsimp only
  rw [hkind, hpayload]
  rfl

end

/-! ## A probe returns (R146 to R148) -/

theorem awaits_iff (n : Byte) (now : Time) (r : RingController) :
    r.awaits n now = true ↔ ∃ sent, r.probe = .outstanding n sent false ∧ now ≤ sent + 20000 := by
  unfold RingController.awaits
  split
  · rename_i m sent hprobe
    rw [hprobe, Bool.and_eq_true, beq_iff_eq, decide_eq_true_eq]
    constructor
    · rintro ⟨rfl, hnow⟩
      exact ⟨sent, rfl, hnow⟩
    · rintro ⟨sent', hsame, hnow⟩
      cases hsame
      exact ⟨rfl, hnow⟩
  · rename_i hother
    exact ⟨fun h => Bool.noConfusion h, fun ⟨sent, hprobe, _⟩ => absurd hprobe (hother n sent)⟩

section
variable {n : Byte} {s : State}

theorem probeReturn_up (h : s.ring.awaits n s.now = true) (hs : s.ring.state = .up) :
    probeReturn n s = { s with ring := { s.ring with probe := .absent, lastOutcome := some .returned } } := by
  unfold probeReturn
  rw [if_pos h, hs]
  rfl

theorem probeReturn_probing (h : s.ring.awaits n s.now = true) (hs : s.ring.state = .probing) :
    probeReturn n s
      = raise .ringUp { s with ring := { s.ring with state := .up, probe := .absent, lastOutcome := some .returned } } := by
  unfold probeReturn
  rw [if_pos h, hs]
  rfl

/-- R147: a late return has no effect. -/
theorem probeReturn_late (h : ∀ sent, s.ring.probe = .outstanding n sent false → sent + 20000 < s.now) : probeReturn n s = s := by
  refine if_neg ?_
  rw [awaits_iff]
  rintro ⟨sent, hprobe, hnow⟩
  exact Nat.not_lt.2 hnow (h sent hprobe)

end

/-! ## The out port (R155) -/

theorem nextPacket_forwards {p : List Byte} {rest : List (List Byte)} {r : RingController} (now : Time) (h : r.forward = p :: rest) :
    r.nextPacket now = { r with forward := rest, sending := some p } := by
  unfold RingController.nextPacket
  rw [h]

theorem nextPacket_sends {p : OwnPacket} {rest : List OwnPacket} {r : RingController} (now : Time) (hf : r.forward = [])
    (hq : r.queue = p :: rest) : r.nextPacket now = sendOwn p rest now r := by
  unfold RingController.nextPacket
  rw [hf, hq]

theorem nextPacket_idles {r : RingController} (now : Time) (hf : r.forward = []) (hq : r.queue = []) :
    r.nextPacket now = { r with sending := none } := by
  unfold RingController.nextPacket
  rw [hf, hq]

theorem outPortFree_gives {s : State} {r : RingController} (ha : Awake s) (h : s.ring.nextPacket s.now = r) :
    exec .outPortFree s = .next { s with ring := r } :=
  (execEvent_awake ha).trans (by rw [← h]; rfl)

/-- R146: a PROBE becomes OUTSTANDING as it is sent, and no other packet touches the probe record. -/
theorem sendOwn_probe (p : OwnPacket) (rest : List OwnPacket) (now : Time) (r : RingController) :
    (∀ n, p = .probe n → (sendOwn p rest now r).probe = .outstanding n now false)
      ∧ (p.isProbe = false → (sendOwn p rest now r).probe = r.probe) := by
  cases p with
  | probe m => exact ⟨fun n hn => by cases hn; rfl, fun h => Bool.noConfusion h⟩
  | _ => exact ⟨nofun, fun _ => rfl⟩

/-! ## The statement -/

/-- Settles O58: the parts of a packet and the fields of its payload, the five steps, the part's own packets as they come round, and the out
port. -/
theorem packetsHandled : Obligations.PacketsHandled := by
  unfold Obligations.PacketsHandled
  refine ⟨fun _ _ => rfl, fun _ _ _ _ => ⟨rfl, rfl, rfl⟩, fun _ => passMark_short, checkPacket_iff, fun _ => checkPacket_short,
    fun _ _ _ => payloadOf_between, unitMode_iff, alertClass_iff, fun mode e m a c l u => blockReportOf_fields mode u,
    fun e m soe d c p l u he hm hsoe hd hc hp _ => nodeReportOf_fields u he hm hsoe hd hc hp, fun c d => alert_fields c,
    fun bs s ha => ⟨fun h => execEvent_same (receivePacket_down h), fun hs => ?_⟩,
    fun flags marks taken s ha hs hf ht => ?_,
    fun s ha => ⟨fun p rest h => outPortFree_gives ha (nextPacket_forwards _ h), fun p rest hf hq => ?_,
      fun hf hq => outPortFree_gives ha (nextPacket_idles _ hf hq)⟩⟩
  · rw [packetReceived_takes ha hs]
    refine ⟨fun h => ⟨_, congrArg _ (takePacket_rogue h), rfl⟩, fun h1 h2 => ⟨_, congrArg _ (takePacket_discarded h1 h2), rfl⟩,
      fun h h0 hn => congrArg _ (takePacket_unknown h h0 hn), fun h h0 hn => ⟨applyPacket bs s, _,
        congrArg _ (takePacket_applied h h0 hn), rfl, fun hkind cls hc => applyPacket_alert hkind hc, fun hkind ho => ?_,
        fun hkind ho => ?_, fun hkind b mode ho hm => ?_⟩⟩
    · rw [applyPacket_report hkind, ho, applyReport_storage]
    · rw [applyPacket_report hkind, ho, applyReport_meter]
    · rw [applyPacket_report hkind, applyReport_block s ho hm]
  · subst ht
    have own (p : OwnPacket) : exec (.ringPacketReceived (returnedBytes p flags marks)) s = _ := returned_taken p marks ha hs hf
    refine ⟨fun b label limit lease hc hl => ?_, fun b label => ?_, fun label power lease h1 h2 hl => ?_,
      fun e => ⟨fun h => ?_, fun h => ?_⟩, fun n sent hprobe hnow => ?_, fun n hlate => ?_⟩
    · exact (own _).trans (congrArg _ (ownPacket_cap flags marks s b label (some limit) hc hl))
    · exact (own _).trans (congrArg _ (ownPacket_cap flags marks s b label none (Config.releaseCapField b label).isLt (by decide)))
    · exact (own _).trans (congrArg _ (ownPacket_store flags marks s label h1 h2 hl))
    · rw [own, ownPacket_mark, decide_eq_false (Nat.not_lt.2 h)]
      rfl
    · refine ⟨_, own _, ?_⟩
      rw [ownPacket_mark, decide_eq_true h]
      rfl
    · have hawaits := (awaits_iff n s.now s.ring).2 ⟨sent, hprobe, hnow⟩
      refine ⟨_, own _, fun hup => ?_, fun hprobing => ?_⟩
      · rw [ownPacket_probe, probeReturn_up hawaits hup]
      · rw [ownPacket_probe, probeReturn_probing hawaits hprobing]
        rfl
    · rw [own, ownPacket_probe, probeReturn_late hlate]
  · obtain ⟨hsent, hkept⟩ := sendOwn_probe p rest s.now s.ring
    exact ⟨(sendOwn p rest s.now s.ring).probe, outPortFree_gives ha (nextPacket_sends _ hf hq), hsent, hkept⟩

end Sys2Proof.Proofs
end

section
/-! PROOFS. The alert queues and their four level conditions at every step (R172, R173). -/

namespace Sys2Proof.Proofs

open Sys2Proof.Machine

/-- R173: only a change of a queue and a full reset touch a level condition, and each leaves it saying whether its queue holds an
entry; every other raise or clear is of a latched condition. -/
theorem step_keeps_levels {s t : State} (hs : LevelsFollow s) (ht : step s = .next t) : LevelsFollow t :=
  Steps.keeps (fun _ _ hm => hm.keeps_levels) (step_steps ht) hs

/-- Settles O8: every step is a sequence of moves, and each move keeps the levels following the queues. -/
theorem alertLevelsFollowAtEveryStep : Obligations.AlertLevelsFollowAtEveryStep := by
  unfold Obligations.AlertLevelsFollowAtEveryStep
  exact fun s t => step_keeps_levels

end Sys2Proof.Proofs
end

section
/-! PROOFS. The Condition Unit: the gate at every step, what a raise does, CLEAR_CONDITIONS, SET_NOTICE_MASK and NOTICE_REARM (R183, R185
to R188). -/

namespace Sys2Proof.Proofs

open Sys2Proof.Machine

/-! ## The gate -/

/-- R186, R188: conditions come to be set, the mask changes and the gate opens only ahead of an evaluation, and an evaluation leaves no
open gate with a condition both set and in the mask. -/
theorem step_keeps_gate {s t : State} (hs : GateQuiet s.cond) (ht : step s = .next t) : GateQuiet t.cond :=
  Steps.keeps (P := fun u => GateQuiet u.cond) (fun _ _ hm => hm.keeps_gate) (step_steps ht) hs

/-- Settles O7: every step is a sequence of moves, and each move keeps an open gate quiet. -/
theorem gateQuietAtEveryStep : Obligations.GateQuietAtEveryStep := by
  unfold Obligations.GateQuietAtEveryStep
  exact fun s t => step_keeps_gate

theorem raise_clear {c : Condition} {s : State} (h : conditionSet s.cond.conditions c = false) :
    raise c s = evaluateGate (s.onCond fun u => { u with conditions := setCondition u.conditions c }) := by
  simp [raise, h]

/-- Settles O21: a raise of a clear condition is an evaluation of the gate over the grown set. -/
theorem raiseFollowsTheGate : Obligations.RaiseFollowsTheGate := by
  unfold Obligations.RaiseFollowsTheGate
  refine fun c s => ⟨raise_set s c, fun set hc hset => ?_⟩
  subst hset
  rw [raise_clear hc]
  exact ⟨fun hopen hset => evaluateGate_closes (s := s.onCond _) hopen hset, fun hquiet => evaluateGate_keeps (s := s.onCond _) hquiet⟩

/-! ## CLEAR_CONDITIONS (R185) -/

/-- R185: a level condition is passed over, and a latched one stays set unless it is named. -/
theorem clearLatched_passes_levels (w named : Word) (c : Condition) :
    conditionSet (clearLatched w named) c
      = if c ∈ [Condition.tripPending, .deratePending, .restorePending, .notePending] then conditionSet w c
        else conditionSet w c && !conditionSet named c := by
  have hlevel := levelConditions_bit c
  have hbit := c.bit_lt
  unfold clearLatched conditionSet
  rw [BitVec.getLsbD_and, BitVec.getLsbD_not, BitVec.getLsbD_and, BitVec.getLsbD_not, hlevel]
  by_cases hc : c ∈ [Condition.tripPending, .deratePending, .restorePending, .notePending] <;> simp_all

/-- Settles O22: the owner clears what is latched and named, and a later raise sets its condition whatever stood before. -/
theorem clearConditionsTaken : Obligations.ClearConditionsTaken := by
  unfold Obligations.ClearConditionsTaken
  refine ⟨fun tag named s h => ?_, fun c s => by simp [conditionSet_raise]⟩
  obtain ⟨t, ht, hanswered, hstate⟩ := request_answers (owner := serveClearConditions named) (kind := 0x21) (tag := tag) h rfl rfl
  have hcond : t.cond = { s.cond with conditions := clearLatched s.cond.conditions named } := by
    rw [hstate]
    rfl
  refine ⟨t, ht, ?_, fun c => ?_, ?_⟩
  · rw [hcond, hstate]
    rfl
  · rw [hcond]
    exact clearLatched_passes_levels s.cond.conditions named c
  · rw [hcond]
    exact hanswered

/-! ## SET_NOTICE_MASK and NOTICE_REARM (R187, R188) -/

/-- R186: a request that changes the Condition Unit by `f` and then evaluates the gate. A notice that this brings is readied ahead of the
reply. -/
theorem request_evaluates {kind tag : Byte} {owner : State → Served} {s : State} {held : HostLink} (f : ConditionUnit → ConditionUnit)
    (h : Ready s) (hheld : held = { s.link with inHand := some (kind, tag) })
    (ho : owner (s.inHand kind tag) = served (evaluateGate ((s.inHand kind tag).onCond f))) :
    ∃ t, execRequest kind tag owner s = .next t ∧ t = { s with link := t.link, cond := t.cond }
      ∧ ((f s.cond).gate = .opened → (f s.cond).conditions &&& (f s.cond).mask ≠ 0 →
          t.cond = { f s.cond with gate := .closed }
          ∧ t.link = HostLink.ready (replyFrame kind tag .ok [])
              (HostLink.readyNotice (leBytes 4 (f s.cond).conditions.toNat ++ epochBytes s.timer.epoch) held))
      ∧ ((f s.cond).gate = .closed ∨ (f s.cond).conditions &&& (f s.cond).mask = 0 →
          t.cond = f s.cond ∧ t.link = HostLink.ready (replyFrame kind tag .ok []) held) := by
  subst hheld
  refine ⟨_, execRequest_ready h, ?_, fun hopen hset => ?_, fun hquiet => ?_⟩
  · rw [ho, readyReply_frame, served, evaluateGate_frame]
    rfl
  · rw [ho, evaluateGate_closes (s := (s.inHand kind tag).onCond f) hopen hset]
    exact ⟨rfl, rfl⟩
  · rw [ho, evaluateGate_keeps (s := (s.inHand kind tag).onCond f) hquiet]
    exact ⟨rfl, rfl⟩

/-- Settles O23: an evaluation under the new mask. -/
theorem setNoticeMaskTaken : Obligations.SetNoticeMaskTaken := by
  unfold Obligations.SetNoticeMaskTaken
  exact fun tag mask s held h hheld => request_evaluates (fun c => { c with mask }) h hheld rfl

/-- Settles O24: an evaluation with the gate opened, which finds nothing where the gate stood open and quiet. -/
theorem noticeRearmTaken : Obligations.NoticeRearmTaken := by
  unfold Obligations.NoticeRearmTaken
  intro tag s held h hheld
  obtain ⟨t, ht, hstate, hnotice, hquiet⟩ := request_evaluates (fun c => { c with gate := .opened }) h hheld
    (owner := serveNoticeRearm) rfl
  refine ⟨t, ht, hstate, hnotice rfl, fun hset => hquiet (.inr hset), fun hopen hgate => ?_⟩
  obtain ⟨hcond, -⟩ := hquiet (.inr (hgate hopen))
  rw [hcond, ← hopen]

end Sys2Proof.Proofs
end

section
/-! PROOFS. Requests in frames: taken, held, dropped or refused, and the frames that are no request (R178 to R181, 12.1, 12.2). -/

namespace Sys2Proof.Proofs

open Sys2Proof.Machine

/-! ## The port, busy or free (R180) -/

theorem busy_iff (s : State) : s.link.busy = true ↔ PortBusy s ∨ s.link.resetScheduled = true := by
  unfold HostLink.busy PortBusy TxFrame.isNotice
  cases s.link.inHand <;> cases s.link.resetScheduled <;> simp

theorem not_busy {s : State} (h : Ready s) (hp : ¬PortBusy s) : s.link.busy = false := by
  rw [← Bool.not_eq_true, busy_iff, h.2]
  simpa using hp

theorem takeHeld_waits {order : EpochOrder} {s : State} (h : s.link.busy = true ∨ s.link.holding = none) : takeHeld order s = s := by
  unfold takeHeld
  cases hs : s.link.holding with
  | none => rfl
  | some r => simp_all

theorem takeHeld_takes {order : EpochOrder} {s : State} {r : HostRequest} (h : s.link.holding = some r) (hb : s.link.busy = false) :
    takeHeld order s = takeHostRequest order r { s with link := { s.link with holding := none } } := by
  unfold takeHeld
  rw [h, hb]
  rfl

theorem acceptRequest_drops {order : EpochOrder} {s : State} {r : HostRequest} (h : s.link.holding ≠ none) :
    acceptRequest order r s = linkError s := by
  unfold acceptRequest
  rw [if_pos (Option.isSome_iff_ne_none.2 h)]

theorem acceptRequest_holds {order : EpochOrder} {s : State} {r : HostRequest} (h : s.link.holding = none) (hb : s.link.busy = true) :
    acceptRequest order r s = { s with link := { s.link with holding := some r } } := by
  unfold acceptRequest
  rw [h, hb]
  rfl

theorem acceptRequest_takes {order : EpochOrder} {s : State} {r : HostRequest} (h : s.link.holding = none) (hb : s.link.busy = false) :
    acceptRequest order r s = takeHostRequest order r s := by
  unfold acceptRequest
  rw [h, hb]
  rfl

/-- R181: a request received as a frame is taken as a row is, by the port's own checks and then its owner's. -/
theorem takeHostRequest_execs {order : EpochOrder} {s : State} {r : HostRequest} (h : Ready s) :
    (.next (takeHostRequest order r s) : Result) = execRequest r.kind r.tag (serveHostRequest order r) s :=
  (execRequest_ready h).symm

/-! ## Complete frames (R179) -/

theorem takeHeld_hunting {order : EpochOrder} {s : State} (h : PortBusy s ∨ s.link.holding = none) :
    takeHeld order (huntAgain s) = Hunting s :=
  takeHeld_waits (s := huntAgain s) (h.imp_left fun hb => (busy_iff s).2 (.inl hb))

/-- R179: a frame whose CRC matches brings its request. -/
theorem frameComplete_brings {kind tag : Byte} {body : List Byte} {order : EpochOrder} {s : State}
    (h : PortBusy s ∨ s.link.holding = none) (hk : kind.toNat < 0x7F) (hl : body.length ≤ 250) :
    frameComplete (frameWithCrc kind tag body) order s = acceptRequest order { kind, tag, body } (Hunting s) := by
  unfold frameComplete
  rw [takeHeld_hunting h, frameWithCrc_matches]
  simp [frameWithCrc, wfFrame, hl, hk]

/-- R179: a frame whose CRC does not match, or whose kind is no request's, brings none. -/
theorem frameComplete_counted {f : RxFrame} {order : EpochOrder} {s : State} (h : PortBusy s ∨ s.link.holding = none)
    (hf : crc16 (BitVec.ofNat 8 f.body.length :: f.kind :: f.tag :: f.body) ≠ f.crcHigh ++ f.crcLow ∨ 0x7F ≤ f.kind.toNat) :
    frameComplete f order s = linkError (Hunting s) := by
  unfold frameComplete
  rw [takeHeld_hunting h]
  refine if_neg fun hc => ?_
  rw [Bool.and_eq_true, Bool.and_eq_true, decide_eq_true_eq] at hc
  obtain ⟨⟨-, hcrc⟩, hkind⟩ := hc
  rcases hf with hf | hf
  · exact hf (eq_of_beq hcrc)
  · omega

theorem linkError_taken (s : State) : LinkErrorTaken s (linkError (Hunting s)) := rfl

/-- R180, R181: at a free port the request of a frame is taken at once. -/
theorem frame_taken {kind tag : Byte} {body : List Byte} {order : EpochOrder} {s : State} (h : Ready s) (hp : PortFree s)
    (hk : kind.toNat < 0x7F) (hl : body.length ≤ 250) :
    exec (.hostFrameComplete (frameWithCrc kind tag body) order) s
      = execRequest kind tag (serveHostRequest order { kind, tag, body }) (Hunting s) := by
  obtain ⟨hbusy, hholding⟩ := hp
  calc exec (.hostFrameComplete (frameWithCrc kind tag body) order) s
      = .next (frameComplete (frameWithCrc kind tag body) order s) := execEvent_awake h.1
    _ = .next (acceptRequest order { kind, tag, body } (Hunting s)) := by rw [frameComplete_brings (.inr hholding) hk hl]
    _ = .next (takeHostRequest order { kind, tag, body } (Hunting s)) := by
      rw [acceptRequest_takes (s := Hunting s) hholding (not_busy h hbusy)]
    _ = _ := takeHostRequest_execs (s := Hunting s) h

/-! ## Bodies read back (12.2, R190) -/

theorem halfAt_of_field {bs : List Byte} {i : Nat} {h : Half} (hf : fieldAt bs i 2 = halfBytes h) : halfAt bs i = h := by
  have hread := halfAt_append [] [] h 0 rfl
  unfold halfAt at hread ⊢
  rw [hf]
  exact hread

theorem wordAt_of_field {bs : List Byte} {i : Nat} {w : Word} (hf : fieldAt bs i 4 = wordBytes w) : wordAt bs i = w := by
  have hread := wordAt_append [] [] w 0 rfl
  unfold wordAt at hread ⊢
  rw [hf]
  exact hread

/-- A hold configuration, from where its seven bytes stand. -/
theorem readHold_of_field {bs : List Byte} {i : Nat} {h : HoldBody} (henabled : byteAt bs i = h.enabled)
    (hmode : byteAt bs (i + 1) = h.mode) (haction : byteAt bs (i + 2) = h.action) (hceiling : fieldAt bs (i + 3) 4 = wordBytes h.ceiling) :
    readHold bs i = h := by
  unfold readHold
  rw [henabled, hmode, haction, wordAt_of_field hceiling]

theorem plantBytes_length (p : PlantBody) : (plantBytes p).length = 40 := by
  simp [plantBytes, holdBytes]

theorem readPlantBody_plantBytes (p : PlantBody) : readPlantBody (plantBytes p) = p := by
  obtain ⟨_, _, _, _, _, _, _, _, _, _, _, _, _, lineA, lineB⟩ := p
  unfold readPlantBody plantBytes
  simp only [List.append_assoc]
  rw [PlantBody.mk.injEq]
  exact ⟨halfAt_of_field rfl, halfAt_of_field rfl, halfAt_of_field rfl, wordAt_of_field rfl, wordAt_of_field rfl, halfAt_of_field rfl,
    rfl, rfl, halfAt_of_field rfl, rfl, rfl, halfAt_of_field rfl, halfAt_of_field rfl, readHold_of_field rfl rfl rfl rfl,
    readHold_of_field rfl rfl rfl rfl⟩

theorem readGroupBody_groupBytes (g : Byte) (r : GroupBody) : readGroupBody (g :: groupBytes r) = r := by
  obtain ⟨_, _, _, _, _, _⟩ := r
  unfold readGroupBody groupBytes
  rw [GroupBody.mk.injEq]
  exact ⟨rfl, rfl, halfAt_of_field rfl, halfAt_of_field rfl, halfAt_of_field rfl, rfl⟩

theorem withLength_reads {n : Nat} {bs : List Byte} {q r : Request} (hl : bs.length = n) (hr : q = r) : withLength n bs q = .ok r := by
  subst hr
  exact if_pos hl

/-- 12.2: the body of a request reads back as that request. -/
theorem parse_body {r : Request} (h : r.wellFormed = true) : Request.parse r.kind r.body = .ok r := by
  cases r
  case enroll b rated g => exact withLength_reads rfl (congrArg (Request.enroll b · g) (halfAt_of_field rfl))
  case profile b rated g => exact withLength_reads rfl (congrArg (Request.profile b · g) (halfAt_of_field rfl))
  case pin b cap => exact withLength_reads rfl (congrArg (Request.pin b) (halfAt_of_field rfl))
  case setPlant p => exact withLength_reads (plantBytes_length p) (congrArg Request.setPlant (readPlantBody_plantBytes p))
  case setGroup g r => exact withLength_reads rfl (congrArg (Request.setGroup g) (readGroupBody_groupBytes g r))
  case setEpoch source period d => exact withLength_reads rfl (congrArg (Request.setEpoch source · d) (halfAt_of_field rfl))
  case setSensor period enable => exact withLength_reads rfl (congrArg (Request.setSensor · enable) (halfAt_of_field rfl))
  case clearConditions w => exact withLength_reads rfl (congrArg Request.clearConditions (wordAt_of_field rfl))
  case setNoticeMask w => exact withLength_reads rfl (congrArg Request.setNoticeMask (wordAt_of_field rfl))
  case leadsAdd entries =>
    simp only [Request.wellFormed, wfLeads, Bool.and_eq_true, decide_eq_true_eq] at h
    have hl := leads_length entries
    refine (if_pos ?_).trans (congrArg (Except.ok ∘ Request.leadsAdd) (readLeads_leadBytes entries))
    simp only [Request.body]
    omega
  case loadRing ids => exact if_pos (of_decide_eq_true h)
  all_goals rfl

/-- R181, steps 1 and 2: `r` is a request of the kind, and a body of `r` is as long as `bs`. -/
def FitsKind (kind : Byte) (bs : List Byte) (r : Request) : Prop :=
  r.wellFormed = true ∧ r.kind = kind ∧ r.body.length = bs.length

theorem withLength_fits {kind : Byte} {n : Nat} {bs : List Byte} {q r : Request} (h : withLength n bs q = .ok r)
    (hk : kind.toNat = q.kind.toNat) (hw : q.wellFormed = true) (hl : q.body.length = n) : FitsKind kind bs r := by
  unfold withLength at h
  split at h
  · cases h
    exact ⟨hw, BitVec.eq_of_toNat_eq hk.symm, by omega⟩
  · cases h

theorem readLeads_length (bs : List Byte) : (readLeads bs).length = bs.length / 3 := by
  induction bs using readLeads.induct with
  | case1 a b c rest ih =>
    simp only [readLeads, List.length_cons, ih]
    omega
  | case2 bs h =>
    match bs with
    | [] => rfl
    | [_] => simp [readLeads]
    | [_, _] => simp [readLeads]
    | a :: b :: c :: rest => exact absurd rfl (h a b c rest)

theorem parse_fits {kind : Byte} {bs : List Byte} {r : Request} (h : Request.parse kind bs = .ok r) : FitsKind kind bs r := by
  unfold Request.parse at h
  split at h
  case h_9 hk => exact withLength_fits h hk rfl (plantBytes_length _)
  case h_20 hk =>
    split at h
    · cases h
      rename_i hl
      have hn := readLeads_length bs
      refine ⟨?_, BitVec.eq_of_toNat_eq hk.symm, ?_⟩
      · simp only [Request.wellFormed, wfLeads, Bool.and_eq_true, decide_eq_true_eq]
        omega
      · simp only [Request.body, leads_length]
        omega
    · cases h
  case h_27 hk =>
    split at h
    · cases h
      rename_i hl
      exact ⟨decide_eq_true hl, BitVec.eq_of_toNat_eq hk.symm, rfl⟩
    · cases h
  case h_37 => cases h
  all_goals
    rename_i hk
    exact withLength_fits h hk rfl rfl

theorem withLength_badLength {n : Nat} {bs : List Byte} {q : Request} {st : Status} (h : withLength n bs q = .error st) :
    st = .badLength := by
  unfold withLength at h
  split at h <;> cases h
  rfl

/-- R181: a kind of the index is refused for its length alone. -/
theorem parse_badLength {kind : Byte} {bs : List Byte} {st : Status} (h1 : 1 ≤ kind.toNat) (h2 : kind.toNat ≤ 0x24)
    (h : Request.parse kind bs = .error st) : st = .badLength := by
  unfold Request.parse at h
  split at h
  case h_20 => split at h <;> cases h; rfl
  case h_27 => split at h <;> cases h; rfl
  case h_37 => simp only [imp_false] at *; omega
  all_goals exact withLength_badLength h

/-- R181: a kind outside the index. -/
theorem parse_badKind {kind : Byte} {bs : List Byte} (h : kind.toNat = 0 ∨ 0x24 < kind.toNat) :
    Request.parse kind bs = .error .badKind := by
  unfold Request.parse
  split
  case h_37 => rfl
  all_goals omega

/-! ## Requests taken from frames and from the holding slot -/

theorem serveHostRequest_parsed {order : EpochOrder} {r : HostRequest} {q : Request} (h : Request.parse r.kind r.body = .ok q) :
    serveHostRequest order r = serve order q := by
  funext s
  unfold serveHostRequest
  rw [h]

theorem serveHostRequest_refuses {order : EpochOrder} {r : HostRequest} {st : Status} (h : Request.parse r.kind r.body = .error st) :
    serveHostRequest order r = refuse st := by
  funext s
  unfold serveHostRequest
  rw [h]

/-- Log 5: a request's own row is the taking of the request by its owner. -/
theorem exec_row (r : Request) (tag : Byte) (order : EpochOrder) (s : State) :
    exec (r.row order tag) s = execRequest r.kind tag (serve order r) s := by
  cases r <;> rfl

/-- 12.2: a well-formed request fits a frame, under a kind below 0x7F. START's operand plays no part. -/
theorem request_fits_frame {r : Request} (h : r.wellFormed = true) : r.body.length ≤ 250 ∧ r.kind.toNat < 0x7F := by
  have hrow : (r.row allEpochRules 0#8).wellFormed = r.wellFormed := by cases r <;> rfl
  obtain ⟨hbody, -, hkind⟩ := Laws.wire_all (r.row allEpochRules 0#8) allEpochRules 0#8 r rfl (hrow.trans h)
  exact ⟨hbody, by omega⟩

theorem exec_row_ready {r : Request} {tag : Byte} {order : EpochOrder} {s : State} (h : Ready s) :
    exec (r.row order tag) s = .next (takeRequest r.kind tag (serve order r) s) :=
  (exec_row r tag order s).trans (execRequest_ready h)

/-- Settles O27: at a free port the frame's request is taken at once, and its body reads back. -/
theorem framedRequestIsItsRow : Obligations.FramedRequestIsItsRow := by
  unfold Obligations.FramedRequestIsItsRow
  intro r tag order s hw hready hfree
  obtain ⟨hbody, hkind⟩ := request_fits_frame hw
  have hframe : exec (.hostFrameComplete (r.frame tag) order) s = exec (r.row order tag) (Hunting s) := by
    rw [exec_row, ← serveHostRequest_parsed (r := { kind := r.kind, tag, body := r.body }) (parse_body hw)]
    exact frame_taken hready hfree hkind hbody
  exact ⟨_, hframe.trans (exec_row_ready (s := Hunting s) hready), exec_row_ready (s := Hunting s) hready⟩

/-- Settles O28: the held request is taken once the port is not busy, and stays until then. -/
theorem heldRequestIsTaken : Obligations.HeldRequestIsTaken := by
  unfold Obligations.HeldRequestIsTaken
  refine fun order s => ⟨fun r tag hw hready hbusy hheld => ?_, fun h => ?_⟩
  · have htaken : exec (.heldRequestTaken order) s = exec (r.row order tag) { s with link := { s.link with holding := none } } := by
      calc exec (.heldRequestTaken order) s = .next (takeHeld order s) := execEvent_awake hready.1
        _ = .next (takeHostRequest order { kind := r.kind, tag, body := r.body } { s with link := { s.link with holding := none } }) := by
          rw [takeHeld_takes hheld (not_busy hready hbusy)]
        _ = execRequest r.kind tag (serveHostRequest order { kind := r.kind, tag, body := r.body }) _ := takeHostRequest_execs hready
        _ = _ := by rw [exec_row, serveHostRequest_parsed (parse_body hw)]
    exact ⟨_, htaken.trans (exec_row_ready hready), exec_row_ready hready⟩
  · exact execEvent_same (takeHeld_waits (h.imp_left fun hb => (busy_iff s).2 (.inl hb)))

/-- Settles O29: a busy port takes no request, and its one slot holds one. -/
theorem busyPortHoldsOrDrops : Obligations.BusyPortHoldsOrDrops := by
  unfold Obligations.BusyPortHoldsOrDrops
  intro kind tag body order s hawake hbusy hkind hbody
  have hframe : exec (.hostFrameComplete (frameWithCrc kind tag body) order) s
      = .next (acceptRequest order { kind, tag, body } (Hunting s)) := by
    rw [← frameComplete_brings (.inl hbusy) hkind hbody]
    exact execEvent_awake hawake
  refine ⟨fun hempty => ⟨_, hframe, ?_⟩, fun hfull => ⟨_, hframe, ?_⟩⟩
  · exact acceptRequest_holds (s := Hunting s) hempty ((busy_iff s).2 (.inl hbusy))
  · rw [acceptRequest_drops (s := Hunting s) hfull]
    exact linkError_taken s

/-- Settles O30: at a free port the request of a frame is taken, and the port's own two checks come before its owner's. -/
theorem badKindOrLengthRefused : Obligations.BadKindOrLengthRefused := by
  unfold Obligations.BadKindOrLengthRefused
  intro kind tag body order s hready hfree hkind hbody
  have refused {st : Status} (h : Request.parse kind body = .error st) :
      ∃ t, exec (.hostFrameComplete (frameWithCrc kind tag body) order) s = .next t ∧ Refused kind tag st (Hunting s) t := by
    rw [frame_taken hready hfree hkind hbody]
    exact request_refused (s := Hunting s) hready (congrFun (serveHostRequest_refuses h) _)
  refine ⟨fun houtside => refused (parse_badKind houtside), fun h1 h2 hnone => ?_⟩
  cases hp : Request.parse kind body with
  | ok r =>
    obtain ⟨hw, hk, hl⟩ := parse_fits hp
    exact absurd hl (hnone r hw hk)
  | error st =>
    obtain rfl := parse_badLength h1 h2 hp
    exact refused hp

/-- R178, logs 1 and 3: the gap timer runs out in COLLECT. -/
theorem gapTimeout_counts {bytes : List Byte} {last : Time} {s : State} (h : s.link.receiver = .collect bytes last) :
    gapTimeout s = linkError (Hunting { s with now := max s.now (last + 5001) }) := by
  unfold gapTimeout
  rw [h]
  rfl

theorem gapTimeout_hunts {s : State} (h : s.link.receiver = .hunt) : gapTimeout s = s := by
  unfold gapTimeout
  rw [h]

/-- Settles O31: both ends of a frame come down to one link error. -/
theorem badFramesAreCounted : Obligations.BadFramesAreCounted := by
  unfold Obligations.BadFramesAreCounted
  refine ⟨fun f order s hawake hport hf => ⟨_, execEvent_awake hawake, ?_⟩,
    fun bytes last s hawake hreceiver => ⟨_, execEvent_awake hawake, ?_⟩, fun s h => execEvent_same (gapTimeout_hunts h)⟩
  · rw [frameComplete_counted hport hf]
    exact linkError_taken s
  · rw [gapTimeout_counts hreceiver]
    exact linkError_taken _

end Sys2Proof.Proofs
end

section
/-! PROOFS. The receiver, byte by byte (R178, R179). -/

namespace Sys2Proof.Proofs

open Sys2Proof.Machine

/-! ## The gap timer -/

theorem gapIfDue_early {bytes : List Byte} {last : Time} {s : State} (h : s.link.receiver = .collect bytes last)
    (hnow : s.now ≤ last + 5000) : gapIfDue s = s := by
  unfold gapIfDue
  rw [h]
  exact if_neg (Nat.not_le.2 (Nat.lt_succ_of_le hnow))

theorem gapIfDue_late {bytes : List Byte} {last : Time} {s : State} (h : s.link.receiver = .collect bytes last)
    (hnow : last + 5000 < s.now) : gapIfDue s = gapTimeout s := by
  unfold gapIfDue
  rw [h]
  exact if_pos hnow

theorem gapIfDue_hunts {s : State} (h : s.link.receiver = .hunt) : gapIfDue s = s := by
  unfold gapIfDue
  rw [h]

/-! ## What raising LINK_ERROR leaves of the receiver -/

theorem readyNotice_receiver (body : List Byte) (l : HostLink) : (l.readyNotice body).receiver = l.receiver := by
  unfold HostLink.readyNotice HostLink.ready
  split
  · rfl
  · split <;> rfl

theorem evaluateGate_receiver (s : State) : (evaluateGate s).link.receiver = s.link.receiver := by
  unfold evaluateGate
  split
  · exact readyNotice_receiver _ _
  · rfl

theorem raise_receiver (c : Condition) (s : State) : (raise c s).link.receiver = s.link.receiver := by
  unfold raise
  split
  · rfl
  · exact evaluateGate_receiver _

theorem linkError_receiver (s : State) : (linkError s).link.receiver = s.link.receiver :=
  raise_receiver _ _

/-! ## The table of R178 -/

theorem receiveByte_hunting {byte : Byte} {stop : Bool} {order : EpochOrder} {s : State} (h : s.link.receiver = .hunt) :
    receiveByte byte stop order s
      = if stop = true ∧ byte = 0xC3#8 then { s with link := { s.link with receiver := .collect [] s.now } } else s := by
  unfold receiveByte
  rw [gapIfDue_hunts h]
  dsimp only
  rw [h]
  simp only [Bool.and_eq_true, beq_iff_eq]
  rfl

theorem receiveByte_inCollect {bytes : List Byte} {last : Time} {byte : Byte} {stop : Bool} {order : EpochOrder} {s : State}
    (h : s.link.receiver = .collect bytes last) (hnow : s.now ≤ last + 5000) :
    receiveByte byte stop order s = if stop then collectByte (bytes ++ [byte]) order s else linkError (Hunting s) := by
  unfold receiveByte
  rw [gapIfDue_early h hnow]
  dsimp only
  rw [h]
  rfl

theorem receiveByte_noStop {bytes : List Byte} {last : Time} {byte : Byte} {order : EpochOrder} {s : State}
    (h : s.link.receiver = .collect bytes last) (hnow : s.now ≤ last + 5000) :
    receiveByte byte false order s = linkError (Hunting s) :=
  receiveByte_inCollect h hnow

theorem receiveByte_collects {bytes : List Byte} {last : Time} {byte : Byte} {order : EpochOrder} {s : State}
    (h : s.link.receiver = .collect bytes last) (hnow : s.now ≤ last + 5000) :
    receiveByte byte true order s = collectByte (bytes ++ [byte]) order s :=
  receiveByte_inCollect h hnow

/-- A byte later than the gap timer meets the receiver that the gap left, in HUNT. -/
theorem receiveByte_late {bytes : List Byte} {last : Time} {byte : Byte} {stop : Bool} {order : EpochOrder} {s : State}
    (h : s.link.receiver = .collect bytes last) (hnow : last + 5000 < s.now) :
    receiveByte byte stop order (gapTimeout s) = receiveByte byte stop order s := by
  have hhunts : (gapTimeout s).link.receiver = .hunt := by
    rw [gapTimeout_counts h]
    exact linkError_receiver _
  unfold receiveByte
  rw [gapIfDue_hunts hhunts, gapIfDue_late h hnow]

theorem collectByte_tooLong {length : Byte} {rest : List Byte} {order : EpochOrder} {s : State} (h : 250 < length.toNat) :
    collectByte (length :: rest) order s = linkError (Hunting s) :=
  if_pos h

theorem collectByte_collects {length : Byte} {rest : List Byte} {order : EpochOrder} {s : State} (h : length.toNat ≤ 250)
    (hl : rest.length < length.toNat + 4) :
    collectByte (length :: rest) order s = { s with link := { s.link with receiver := .collect (length :: rest) s.now } } :=
  (if_neg (Nat.not_lt.2 h)).trans (if_pos (Nat.succ_lt_succ hl))

theorem collectByte_completes {length : Byte} {rest : List Byte} {order : EpochOrder} {s : State} (h : length.toNat ≤ 250)
    (hl : length.toNat + 4 ≤ rest.length) :
    collectByte (length :: rest) order s = frameComplete (frameOf (length :: rest)) order s :=
  (if_neg (Nat.not_lt.2 h)).trans (if_neg (Nat.not_lt.2 (Nat.succ_le_succ hl)))

/-- 12.1: the bytes after the start byte are length, kind, tag, body and the two bytes of the CRC. -/
theorem frameOf_bytes {length kind tag high low : Byte} {body : List Byte} (h : body.length = length.toNat) :
    frameOf (length :: kind :: tag :: body ++ [high] ++ [low]) = { kind, tag, body, crcHigh := high, crcLow := low } := by
  have hbody : fieldAt (length :: kind :: tag :: body ++ [high] ++ [low]) 3 length.toNat = body := by
    rw [List.append_assoc]
    exact fieldAt_append [length, kind, tag] body _ 3 length.toNat rfl h
  have hhigh : byteAt (length :: kind :: tag :: body ++ [high] ++ [low]) (length.toNat + 3) = high := by
    rw [List.append_assoc]
    exact byteAt_append (length :: kind :: tag :: body) [low] high _ (by simp [h])
  have hlow : byteAt (length :: kind :: tag :: body ++ [high] ++ [low]) (length.toNat + 4) = low :=
    byteAt_append (length :: kind :: tag :: body ++ [high]) [] low _ (by simp [h])
  unfold frameOf
  rw [RxFrame.mk.injEq]
  exact ⟨rfl, rfl, hbody, hhigh, hlow⟩

/-- Settles O32: one lemma for each line of the table. -/
theorem receiverFollowsItsTable : Obligations.ReceiverFollowsItsTable := by
  unfold Obligations.ReceiverFollowsItsTable
  refine ⟨fun byte stop order s hawake h => ⟨_, execEvent_awake hawake, receiveByte_hunting h⟩,
    fun bytes last byte stop order s hawake h hnow => ⟨?_, ?_, ?_⟩, fun bytes last byte stop order s hawake h hnow => ?_⟩
  · rintro rfl
    refine ⟨_, execEvent_awake hawake, ?_⟩
    rw [receiveByte_noStop h hnow]
    exact linkError_taken s
  · rintro rfl rfl
    refine ⟨fun hlong => ⟨_, execEvent_awake hawake, ?_⟩, fun hlength => ⟨_, execEvent_awake hawake, ?_⟩⟩
    · rw [(receiveByte_collects h hnow).trans (collectByte_tooLong hlong)]
      exact linkError_taken s
    · exact (receiveByte_collects h hnow).trans (collectByte_collects hlength (Nat.succ_pos _))
  · rintro length rest rfl rfl hlength
    refine ⟨fun hrest => ⟨_, execEvent_awake hawake, ?_⟩, ?_⟩
    · exact (receiveByte_collects h hnow).trans (collectByte_collects hlength (by simpa using hrest))
    · rintro kind tag high body rfl hbody
      refine ⟨_, execEvent_awake hawake, (execEvent_awake hawake).trans (congrArg _ ?_)⟩
      rw [← frameOf_bytes (length := length) hbody]
      exact ((receiveByte_collects h hnow).trans (collectByte_completes hlength (by simp [hbody]))).symm
  · have hawake' : Awake (gapTimeout s) := by
      rw [gapTimeout_counts h]
      exact (linkError_resetLow _).trans hawake
    refine ⟨_, _, execEvent_awake hawake, execEvent_awake hawake', (execEvent_awake hawake).trans ?_⟩
    rw [receiveByte_late h hnow]

end Sys2Proof.Proofs
end

section
/-! PROOFS. The transmitter, RESET and RESET_N (R180, R182, R186, R189). -/

namespace Sys2Proof.Proofs

open Sys2Proof.Machine

/-! ## The transmitter (R182, R186) -/

theorem isNotice_iff (f : TxFrame) : f.isNotice = true ↔ f.kind = 0x7F#8 :=
  beq_iff_eq

theorem isNotice_eq_false {f : TxFrame} (h : f.kind ≠ 0x7F#8) : f.isNotice = false :=
  beq_false_of_ne h

theorem inHand_ite_isNotice (f : TxFrame) (l : HostLink) :
    (if f.isNotice = true then l.inHand else none) = if f.kind = 0x7F#8 then l.inHand else none := by
  simp only [isNotice_iff]

theorem ready_begins {f : TxFrame} {l : HostLink} (h : l.sending = none) :
    HostLink.ready f l = { l with sending := some f, inHand := if f.kind = 0x7F#8 then l.inHand else none } := by
  unfold HostLink.ready
  rw [h, ← inHand_ite_isNotice]

theorem ready_waits {f : TxFrame} {l : HostLink} (h : l.sending ≠ none) :
    HostLink.ready f l = { l with waiting := l.waiting ++ [f] } := by
  obtain ⟨g, hg⟩ := Option.ne_none_iff_exists'.1 h
  unfold HostLink.ready
  rw [hg]

theorem readyNotice_first {body : List Byte} {l : HostLink} (h : ∀ g ∈ l.waiting, g.kind ≠ 0x7F#8) :
    HostLink.readyNotice body l = HostLink.ready { kind := 0x7F#8, tag := 0#8, body } l := by
  have hnone : ¬l.waiting.any TxFrame.isNotice = true := by simpa [isNotice_iff] using h
  exact if_neg hnone

/-- Replies keep their bodies when a notice's body is replaced. -/
theorem map_body_replies (body : List Byte) {l : List TxFrame} (h : ∀ x ∈ l, x.kind ≠ 0x7F#8) :
    (l.map fun f => if f.isNotice then { f with body } else f) = l := by
  refine (List.map_congr_left fun x hx => ?_).trans (List.map_id l)
  rw [isNotice_eq_false (h x hx)]
  rfl

theorem readyNotice_again {body : List Byte} {l : HostLink} {before rest : List TxFrame} {g : TxFrame}
    (hl : l.waiting = before ++ g :: rest) (hg : g.kind = 0x7F#8) (h : ∀ x ∈ before ++ rest, x.kind ≠ 0x7F#8) :
    HostLink.readyNotice body l = { l with waiting := before ++ { g with body } :: rest } := by
  have hsome : l.waiting.any TxFrame.isNotice = true := by simp [hl, isNotice_iff, hg]
  have hmap : (l.waiting.map fun f => if f.isNotice then { f with body } else f) = before ++ { g with body } :: rest := by
    rw [hl, List.map_append, List.map_cons, map_body_replies body fun x hx => h x (List.mem_append_left _ hx),
      map_body_replies body fun x hx => h x (List.mem_append_right _ hx), if_pos ((isNotice_iff g).2 hg)]
  unfold HostLink.readyNotice
  rw [if_pos hsome, hmap]

/-- Settles O34: one lemma for each state of the transmitter that a readied frame meets. -/
theorem readiedFramesQueue : Obligations.ReadiedFramesQueue := by
  unfold Obligations.ReadiedFramesQueue
  exact fun f body l => ⟨ready_begins, ready_waits, readyNotice_first, fun before rest g => readyNotice_again⟩

theorem nextFrame_idles {l : HostLink} (h : l.waiting = []) : l.nextFrame = { l with sending := none } := by
  unfold HostLink.nextFrame
  rw [h]

theorem nextFrame_begins {l : HostLink} {f : TxFrame} {rest : List TxFrame} (h : l.waiting = f :: rest) :
    l.nextFrame = { l with sending := some f, waiting := rest, inHand := if f.kind = 0x7F#8 then l.inHand else none } := by
  unfold HostLink.nextFrame
  rw [h, ← inHand_ite_isNotice]

/-! ## The reply of RESET (R189) -/

theorem resetReplyLeaving_iff (s : State) : resetReplyLeaving s.link = true ↔ ResetReplyLeaving s := by
  unfold resetReplyLeaving ResetReplyLeaving
  rw [Bool.and_eq_true]
  refine and_congr_right fun _ => ?_
  cases s.link.sending with
  | none => simp
  | some f =>
    simp only [beq_iff_eq, Option.some.injEq]
    exact ⟨fun h => ⟨f.tag, h⟩, fun ⟨tag, h⟩ => by rw [h]; rfl⟩

theorem frameSent_next {s : State} (h : ¬ResetReplyLeaving s) : frameSent s = s.onLink HostLink.nextFrame :=
  if_neg (mt (resetReplyLeaving_iff s).1 h)

theorem finishReset_waits {p : Straps} {s : State} (h : ¬ResetReplyLeaving s) : finishReset p s = s :=
  if_neg (mt (resetReplyLeaving_iff s).1 h)

theorem finishReset_resets {p : Straps} {s : State} (h : ResetReplyLeaving s) :
    finishReset p s = State.afterReset s.pending s.now s.freeCount s.ring.signalSeen p :=
  if_pos ((resetReplyLeaving_iff s).2 h)

theorem frameSent_resets {s : State} (h : ResetReplyLeaving s) :
    frameSent s = State.afterReset s.pending s.now s.freeCount s.ring.signalSeen s.straps :=
  (if_pos ((resetReplyLeaving_iff s).2 h)).trans (finishReset_resets h)

/-- Settles O33: the end of a frame that is no reply of a RESET brings on the first of those waiting. -/
theorem transmitterSendsInOrder : Obligations.TransmitterSendsInOrder := by
  unfold Obligations.TransmitterSendsInOrder
  refine fun s hawake hleaving => ⟨fun hnone => ⟨_, execEvent_awake hawake, ?_⟩, fun f rest hfirst => ⟨_, execEvent_awake hawake, ?_⟩⟩
  · rw [frameSent_next hleaving, State.onLink, nextFrame_idles hnone]
  · rw [frameSent_next hleaving, State.onLink, nextFrame_begins hfirst]

/-- Log 8: with a RESET taken, a request row changes nothing. -/
theorem execRequest_resetScheduled {kind tag : Byte} {owner : State → Served} {s : State} (h : s.link.resetScheduled = true) :
    execRequest kind tag owner s = .next s := by
  simp [execRequest, h]

/-- Settles O35: RESET is a request like any other, whose reply the reset waits for. -/
theorem resetRequestTaken : Obligations.ResetRequestTaken := by
  unfold Obligations.ResetRequestTaken
  refine ⟨fun tag s h => ⟨_, execRequest_ready h, rfl, rfl⟩, fun r tag order s h => ⟨?_, ?_⟩,
    fun p s hawake h => ⟨?_, ?_⟩, fun p s h => execEvent_same (finishReset_waits h)⟩
  · rw [exec_row]
    exact execRequest_resetScheduled h
  · exact execEvent_same (takeHeld_waits (.inl ((busy_iff s).2 (.inr h))))
  · exact (execEvent_awake hawake).trans (congrArg _ (finishReset_resets h))
  · exact (execEvent_awake hawake).trans (congrArg _ (frameSent_resets h))

/-! ## RESET_N (R189) -/

theorem holdInReset_holds {s : State} (h : s.resetLow = false) :
    holdInReset s = { (fullReset s.straps s).onLink fun l => { l with rate := s.link.rate } with resetLow := true } := by
  simp [holdInReset, h]

theorem leaveReset_resets {p : Straps} {s : State} (h : s.resetLow = true) :
    leaveReset p s = State.afterReset s.pending s.now s.freeCount s.ring.signalSeen p :=
  if_pos h

theorem leaveReset_waits {p : Straps} {s : State} (h : s.resetLow = false) : leaveReset p s = s := by
  simp [leaveReset, h]

theorem execRequest_low {kind tag : Byte} {owner : State → Served} {s : State} (h : s.resetLow = true) :
    execRequest kind tag owner s = .next s := by
  simp [execRequest, h]

theorem execEvent_low {f : State → State} {s : State} (h : s.resetLow = true) : execEvent f s = .next s := by
  simp [execEvent, h]

/-- R189, log 9: while RESET_N is low a command that neither follows RING_SIG nor releases the pin changes nothing. All but the rows of the
two pins take a request or an event. -/
theorem exec_low {c : Instr} {s : State} (h : s.resetLow = true) (hloss : c ≠ .ringSignalLoss) (hpresent : c ≠ .ringSignalPresent)
    (hreleased : ∀ p, c ≠ .resetNReleased p) : exec c s = .next s := by
  cases c
  case ringSignalLoss => exact absurd rfl hloss
  case ringSignalPresent => exact absurd rfl hpresent
  case resetNReleased p => exact absurd rfl (hreleased p)
  case resetNAsserted => exact congrArg _ (if_pos h)
  all_goals first | exact execRequest_low h | exact execEvent_low h

/-- Settles O36: the pin's two edges, and what is ignored between them. -/
theorem resetPinHoldsThePart : Obligations.ResetPinHoldsThePart := by
  unfold Obligations.ResetPinHoldsThePart
  refine ⟨fun s h => ⟨_, _, rfl, rfl, holdInReset_holds h⟩, fun p s h => ⟨congrArg _ (leaveReset_resets h), ?_, ?_⟩,
    fun c s h => exec_low h, fun p s h => congrArg _ (leaveReset_waits h)⟩
  · exact congrArg _ (if_pos h)
  · exact congrArg _ (if_pos h)

end Sys2Proof.Proofs
end

section
/-! PROOFS. The CRC bit by bit, and the bodies of requests (12.2, R190, R191). -/

namespace Sys2Proof.Proofs

open Sys2Proof.Machine

/-! ## The CRC (R191) -/

/-- Bit `i` of a byte, counted from its most significant, fed to the CRC. -/
def crcFed (b : Byte) (c : Half) (i : Nat) : Half :=
  if c.getLsbD 15 ^^ b.getLsbD (7 - i) then (c <<< 1) ^^^ 0x1021#16 else c <<< 1

/-- Adding the bits of a byte that are still to come changes the CRC's top bit by the next of them, and leaves the others to come. -/
theorem crcBit_eq_crcFed (b : Byte) (c : Half) {i : Nat} (hi : i < 8) :
    crcBit (c ^^^ (b.setWidth 16 <<< (8 + i))) = crcFed b c i ^^^ (b.setWidth 16 <<< (8 + (i + 1))) := by
  have htop : (c ^^^ (b.setWidth 16 <<< (8 + i))).msb = (c.getLsbD 15 ^^ b.getLsbD (7 - i)) := by
    rw [BitVec.msb_eq_getLsbD_last, BitVec.getLsbD_xor, BitVec.getLsbD_shiftLeft, BitVec.getLsbD_setWidth,
      show 16 - 1 - (8 + i) = 7 - i by omega]
    have hin : 15 < 16 ∧ ¬ 15 < 8 + i ∧ 7 - i < 16 := by omega
    simp only [hin, decide_true, decide_false, Bool.not_false, Bool.true_and]
  have hshift : (c ^^^ (b.setWidth 16 <<< (8 + i))) <<< 1 = c <<< 1 ^^^ (b.setWidth 16 <<< (8 + (i + 1))) := by
    rw [BitVec.shiftLeft_xor_distrib, ← BitVec.shiftLeft_add, Nat.add_assoc]
  unfold crcBit crcFed
  rw [htop, hshift]
  split
  · rw [BitVec.xor_assoc, BitVec.xor_comm _ 0x1021#16, ← BitVec.xor_assoc]
  · rfl

/-- After `n` bits of a byte the rest of them are still to come. -/
theorem crcBit_iterate (c : Half) (b : Byte) {n : Nat} (hn : n ≤ 8) :
    crcBit^[n] (c ^^^ (b.setWidth 16 <<< 8)) = (List.range n).foldl (crcFed b) c ^^^ (b.setWidth 16 <<< (8 + n)) := by
  induction n with
  | zero => rfl
  | succ n ih =>
    rw [Function.iterate_succ_apply', ih (by omega), crcBit_eq_crcFed b _ hn, List.range_succ, List.foldl_concat]

theorem crcByte_eq_crcFed (c : Half) (b : Byte) : crcByte c b = (List.range 8).foldl (crcFed b) c := by
  have hnone : b.setWidth 16 <<< (8 + 8) = 0#16 := BitVec.shiftLeft_eq_zero (Nat.le_refl 16)
  calc crcByte c b = crcBit^[8] (c ^^^ (b.setWidth 16 <<< 8)) := rfl
    _ = (List.range 8).foldl (crcFed b) c := by rw [crcBit_iterate c b (Nat.le_refl 8), hnone, BitVec.xor_zero]

/-- Settles O37: each byte bit by bit, and the bytes that the checks of both links cover. -/
theorem crcIsTheManuals : Obligations.CrcIsTheManuals := by
  unfold Obligations.CrcIsTheManuals
  refine ⟨rfl, fun bytes b => ?_, by decide +kernel, fun f => ?_, ringCrcMatches_iff⟩
  · calc crc16 (bytes ++ [b]) = crcByte (crc16 bytes) b := List.foldl_concat ..
      _ = _ := crcByte_eq_crcFed _ b
  · exact beq_iff_eq.trans eq_comm

/-! ## Requests (12.2) -/

theorem kind_layout (r : Request) : r.kind.toNat = r.layout.1 := by
  cases r <;> rfl

theorem plantBytes_fields (p : PlantBody) : Fields (plantBytes p) (Request.setPlant p).layout.2 :=
  fields_half _ |>.append (fields_half _) |>.append (fields_half _) |>.append (fields_word _) |>.append (fields_word _)
    |>.append (fields_half _) |>.append (fields_bytes [p.nonFollowLimit, p.silenceLimit]) |>.append (fields_half _)
    |>.append (fields_bytes [p.lagMultiplier, p.absorb]) |>.append (fields_half _) |>.append (fields_half _)
    |>.append (holdBody_fields p.lineA) |>.append (holdBody_fields p.lineB)

theorem groupBytes_fields (g : Byte) (r : GroupBody) : Fields (g :: groupBytes r) (Request.setGroup g r).layout.2 :=
  fields_bytes [g, r.lag, r.floorPercent] |>.append (fields_half _) |>.append (fields_half _) |>.append (fields_half _)
    |>.append (fields_bytes [r.spacing])

/-- A two-byte field between a byte and the last byte. -/
theorem byte_half_byte_fields (a : Byte) (h : Half) (b : Byte) :
    Fields (a :: halfBytes h ++ [b]) [byteField a, halfField h, byteField b] :=
  fields_bytes [a] |>.append (fields_half h) |>.append (fields_bytes [b])

/-- 12.2: the body of each request is written as its table lists it; most are single bytes, in order. -/
theorem body_fields (r : Request) : Fields r.body r.layout.2 := by
  cases r
  case enroll b rated g => exact byte_half_byte_fields b rated g
  case profile b rated g => exact byte_half_byte_fields b rated g
  case pin b cap => exact (fields_bytes [b]).append (fields_half cap)
  case setPlant p => exact plantBytes_fields p
  case setGroup g r => exact groupBytes_fields g r
  case setEpoch source period d => exact byte_half_byte_fields source period d
  case setSensor period enable => exact (fields_half period).append (fields_bytes [enable])
  case loadStation x p => exact fields_bytes (x :: stationBytes p)
  case leadsAdd es => exact fields_flatMap leadBytes _ (fun e => fields_bytes (leadBytes e)) es
  case loadRing ids => exact fields_bytes ids
  case alertPeek cls index => exact fields_bytes [cls, index]
  case clearConditions w => exact fields_word w
  case setNoticeMask w => exact fields_word w
  case withdraw b | unpin b | bar b | unbar b | readBlock b | start b | stop b | clearHold b | readStation b | readWarning b
      | alertTake b | alertFlush b => exact fields_bytes [b]
  all_goals rfl

/-- Settles O26: each request's kind, the fields of its body, and their reading back. -/
theorem requestBodiesReadBack : Obligations.RequestBodiesReadBack := by
  unfold Obligations.RequestBodiesReadBack
  exact fun r h => ⟨parse_body h, kind_layout r, body_fields r⟩

end Sys2Proof.Proofs
end

section
/-! PROOFS. The data of replies, read by read, and the codes of 12.3 (12.1, 12.3, 12.4, R190). -/

namespace Sys2Proof.Proofs

open Sys2Proof.Machine

/-! ## The data of each read (12.4) -/

theorem position_eq (t : BlockTable) (b : BlockIx) : t.position b = (t.capped.idxOf? b).or (t.rotation.idxOf? b) := by
  unfold BlockTable.position
  cases t.capped.idxOf? b <;> rfl

/-- READ_BLOCK (R13). -/
theorem blockData_fields (t : BlockTable) (b : BlockIx) (r : BlockRecord) (h : r = t.blocks[b]) :
    Fields (blockData t b)
      [(1, some (b.val + 1)), (1, some r.state.code), (2, r.profile.map (·.rated)), (1, r.profile.map fun p => p.group.val + 1),
        (2, some r.revision.toNat), (4, r.measured), (4, r.available), (2, r.derate), (2, r.cap), epochField r.capLabel,
        epochField r.leaseExpiry, flagField r.owed, epochField r.captureEpoch, epochField r.lastRelease, epochField r.heard,
        epochField r.watch, (1, r.unitMode.map (·.code)), (1, some r.nonFollowRun), (1, some r.undeliveredRun),
        (1, r.barCause.map (·.code)), flagField r.tripFlag, (2, some r.lapseCount), (4, some r.usable),
        (1, (t.capped.idxOf? b).or (t.rotation.idxOf? b))] := by
  subst h
  rw [← position_eq]
  unfold blockData
  simp only [List.append_assoc]
  exact
    .cons (blockByte_fields b) <| .cons (fields_code _) <| .cons (fields_opt 2 _) <| .cons (fields_code _) <| .cons (fields_le 2 _) <|
    .cons (fields_opt 4 _) <| .cons (fields_opt 4 _) <| .cons (fields_opt 2 _) <| .cons (fields_opt 2 _) <| .cons (fields_epoch _) <|
    .cons (fields_epoch _) <| .cons (fields_flag _) <| .cons (fields_epoch _) <| .cons (fields_epoch _) <| .cons (fields_epoch _) <|
    .cons (fields_epoch _) <| .cons (fields_code _) <| .cons (fields_le 1 _) <| .cons (fields_le 1 _) <| .cons (fields_code _) <|
    .cons (fields_flag _) <| .cons (fields_le 2 _) <| .cons (fields_le 4 _) <| fields_code _

/-- READ_SETTINGS (R42). -/
theorem settingsData_fields (g : Governor) (st : SettingsStore) :
    Fields (settingsData g st)
      (plantFields g.plant ++ g.groups.toList.flatMap groupFields ++ [flagField st.configured, (2, some (stagedMarker st))]) := by
  have htail : Fields (flagByte st.configured ++ leBytes 2 (stagedMarker st)) [flagField st.configured, (2, some (stagedMarker st))] :=
    (fields_flag _).append (fields_le 2 _)
  unfold settingsData
  rw [List.append_assoc]
  exact plant_fields g.plant |>.append (fields_flatMap _ _ group_fields _) |>.append htail

/-- R35, 12.4: bit 0 of the marker is the plant record's, and the eight bits after it are the groups'. -/
theorem stagedMarker_spec (st : SettingsStore) :
    (stagedMarker st).testBit 0 = st.plant.isSome
      ∧ (∀ x : GroupIx, (stagedMarker st).testBit (x.val + 1) = (st.groups[x]).isSome) ∧ stagedMarker st < 512 := by
  rw [stagedMarker_bits]
  have hlt := bitsNat_lt (st.plant.isSome :: (List.finRange 8).map fun g : GroupIx => (st.groups[g]).isSome)
  rw [List.length_cons, List.length_map, List.length_finRange] at hlt
  refine ⟨by rw [bitsNat_testBit, List.getD_cons_zero], fun x => ?_, hlt⟩
  rw [bitsNat_testBit, List.getD_cons_succ]
  simp

/-- READ_STATION (R68). -/
theorem stationData_fields (x : StationIx) (st : Station) :
    Fields (stationData x st)
      [(1, some (x.val + 1)), (1, some st.slot), flagField st.enabled, (1, some st.historyLength), (1, some st.drop),
        (1, some st.persistence), (1, some st.clear), (1, some st.detector.code), (1, some st.history.length),
        (2, st.history.max?), (2, st.reference), (1, st.depth), (1, st.pendingCount), (1, some st.invalidRun),
        (1, st.lastSequence.map BitVec.toNat), flagField st.warningHeld] := by
  unfold stationData
  simp only [List.append_assoc]
  exact
    .cons (fields_le 1 _) <| .cons (fields_le 1 _) <| .cons (fields_flag _) <| .cons (fields_le 1 _) <| .cons (fields_le 1 _) <|
    .cons (fields_le 1 _) <| .cons (fields_le 1 _) <| .cons (fields_code _) <| .cons (fields_le 1 _) <| .cons (fields_opt 2 _) <|
    .cons (fields_opt 2 _) <| .cons (fields_opt 1 _) <| .cons (fields_opt 1 _) <| .cons (fields_le 1 _) <| .cons (fields_opt 1 _) <|
    fields_flag _

/-- Unused places of a warning's arrivals are absent, each as a block and an epoch number. -/
theorem unusedPlaces_fields (k : Nat) : Fields (absentBytes (6 * k)) ((List.replicate k none).flatMap arrivalFields) := by
  induction k with
  | zero => rfl
  | succ k ih =>
    have hsplit : absentBytes (6 * (k + 1)) = absentBytes 6 ++ absentBytes (6 * k) := by
      rw [Nat.mul_succ, Nat.add_comm]
      exact List.replicate_append_replicate.symm
    rw [hsplit]
    exact (fields_absent [1, 5]).append ih

theorem arrivalPlaces_fields (arrivals : List (BlockIx × Epoch)) :
    Fields (arrivalPlaces arrivals) (arrivals.flatMap (fun a => arrivalFields (some a))
      ++ (List.replicate (8 - arrivals.length) none).flatMap arrivalFields) :=
  (fields_flatMap _ (fun a => arrivalFields (some a)) (fun a => (blockByte_fields a.1).append (fields_epoch (some a.2))) arrivals).append
    (unusedPlaces_fields _)

/-- READ_WARNING (R92). -/
theorem warningData_fields (n : Nat) (w : Warning) :
    Fields (warningData n w)
      ([(1, some n), (1, some w.id), (1, some (w.station.val + 1)), (1, some w.depth), (4, some w.opened.toNat),
          (4, some w.earliest.toNat), (1, some w.arrivals.length)]
        ++ w.arrivals.flatMap (fun a => arrivalFields (some a))
        ++ (List.replicate (8 - w.arrivals.length) none).flatMap arrivalFields) := by
  unfold warningData
  simp only [List.append_assoc, List.cons_append, List.nil_append]
  exact
    .cons (fields_le 1 _) <| .cons (fields_le 1 _) <| .cons (fields_le 1 _) <| .cons (fields_le 1 _) <| .cons (fields_epoch4 _) <|
    .cons (fields_epoch4 _) <| .cons (fields_le 1 _) <| arrivalPlaces_fields _

/-- R82: with at most 8 arrivals the places fill 48 bytes. -/
theorem arrivalPlaces_length {arrivals : List (BlockIx × Epoch)} (h : arrivals.length ≤ 8) : (arrivalPlaces arrivals).length = 48 := by
  have hf := (arrivalPlaces_fields arrivals).length
  rw [← List.flatMap_map, ← List.flatMap_append, arrivalFields_width, List.length_append, List.length_map, List.length_replicate] at hf
  omega

/-- READ_PLANT (R131). -/
theorem plantData_fields (s : State) :
    Fields (plantData s)
      ([(1, some s.run.state.code), (4, some s.timer.epoch.toNat), (1, some s.hold.code), (4, s.hold.value),
          (1, some s.gov.phase.code), epochField s.gov.phase.epoch, (4, s.gov.heldTarget)]
        ++ statusFields s.gov.status
        ++ [(4, some s.gov.upBreaches), (4, some s.gov.downBreaches), (4, some s.gov.overruns), (4, some s.gov.staleDecisions)]) := by
  unfold plantData
  simp only [List.append_assoc, List.cons_append, List.nil_append]
  exact
    .cons (fields_code _) <| .cons (fields_epoch4 _) <| .append (holdOf_fields _) <| .cons (fields_code _) <| .cons (fields_epoch _) <|
    .cons (fields_opt 4 _) <| .append (status_fields _) <| .cons (fields_le 4 _) <| .cons (fields_le 4 _) <| .cons (fields_le 4 _) <|
    fields_le 4 _

/-- READ_NODES (R141). -/
theorem nodeData_fields (n : NodeRecords) (r : StorageRecord) (h : r = n.storage) :
    Fields (nodeData n)
      [epochField r.heard, (1, some r.hearing.code), powerField r.measured, (2, r.soe), (4, r.discharge), (4, r.charge),
        (1, r.unitMode.map (·.code)), powerField r.applied, (4, some (r.commanded % 2 ^ 32).toNat), epochField r.commandLabel,
        epochField r.leaseExpiry, flagField r.owed, (2, some r.lapseCount), epochField n.meter.heard,
        (1, some n.meter.hearing.code), powerField n.meter.exported] := by
  subst h
  unfold nodeData
  simp only [List.append_assoc]
  exact
    .cons (fields_epoch _) <| .cons (fields_code _) <| .cons (fields_power _) <| .cons (fields_opt 2 _) <| .cons (fields_opt 4 _) <|
    .cons (fields_opt 4 _) <| .cons (fields_code _) <| .cons (fields_power _) <| .cons (fields_int _) <| .cons (fields_epoch _) <|
    .cons (fields_epoch _) <| .cons (fields_flag _) <| .cons (fields_le 2 _) <| .cons (fields_epoch _) <| .cons (fields_code _) <|
    fields_power _

/-- R151: the mark shown is that of a MARK in the queue, absent when there is none. -/
theorem queuedMark_eq_none_iff (q : List OwnPacket) : queuedMark q = none ↔ ∀ e, .mark e ∉ q := by
  induction q with
  | nil => simp [queuedMark]
  | cons p q ih =>
    cases p
    case mark l => exact iff_of_false nofun fun h => h l List.mem_cons_self
    all_goals simp [queuedMark, ih]

theorem queuedMark_mem {q : List OwnPacket} {e : Epoch} (h : queuedMark q = some e) : .mark e ∈ q := by
  induction q with
  | nil => cases h
  | cons p q ih =>
    cases p
    case mark l =>
      cases h
      exact List.mem_cons_self
    all_goals exact List.mem_cons_of_mem _ (ih h)

/-- R142: the node IDs, a byte each. -/
theorem nodes_fields (nodes : List Nat) : Fields (nodes.flatMap (leBytes 1)) (nodes.map fun n => (1, some n)) := by
  rw [List.map_eq_flatMap]
  exact fields_flatMap _ _ (fields_le 1) nodes

/-- The unused places of the node list are absent. -/
theorem noNodes_fields (k : Nat) : Fields (absentBytes k) (List.replicate k (1, none)) := by
  have h := fields_absent (List.replicate k 1)
  rw [List.map_replicate, List.sum_replicate, smul_eq_mul, Nat.mul_one] at h
  exact h

/-- READ_RING (R151). -/
theorem ringData_fields (r : RingController) :
    Fields (ringData r)
      ([(1, some r.state.code), flagField r.signalSeen, (1, some r.nodes.length)]
        ++ r.nodes.map (fun n => (1, some n)) ++ List.replicate (50 - r.nodes.length) (1, none)
        ++ [(1, some r.queue.length), (1, some (r.queue.filter OwnPacket.isCap).length),
          (1, some (r.queue.filter OwnPacket.isStore).length), (1, some (r.queue.filter OwnPacket.isMark).length),
          (1, some (r.queue.filter OwnPacket.isProbe).length), epochField (queuedMark r.queue), (1, r.probe.code), (1, r.probe.number),
          (1, r.lastOutcome.map (·.code)), (4, some r.purged), (4, some r.rogue), (4, some r.discarded),
          (4, some r.unknownOrigin), (4, some r.late), (4, some r.probeFailures)]) := by
  unfold ringData
  simp only [List.append_assoc, List.cons_append, List.nil_append]
  exact
    .cons (fields_code _) <| .cons (fields_flag _) <| .cons (fields_le 1 _) <| .append (nodes_fields _) <| .append (noNodes_fields _) <|
    .cons (fields_le 1 _) <| .cons (fields_le 1 _) <| .cons (fields_le 1 _) <| .cons (fields_le 1 _) <| .cons (fields_le 1 _) <|
    .cons (fields_epoch _) <| .cons (fields_code _) <| .cons (fields_opt 1 _) <| .cons (fields_code _) <| .cons (fields_le 4 _) <|
    .cons (fields_le 4 _) <| .cons (fields_le 4 _) <| .cons (fields_le 4 _) <| .cons (fields_le 4 _) <| fields_le 4 _

/-- READ_CONDITIONS (R184). -/
theorem conditionData_fields (c : ConditionUnit) (n : Nat) :
    Fields (conditionData c n) [(4, some c.conditions.toNat), (4, some c.mask.toNat), (1, some c.gate.code), (2, some n)] :=
  fields_le 4 _ |>.append (fields_le 4 _) |>.append (fields_code _) |>.append (fields_le 2 _)

/-- ALERT_TAKE and ALERT_PEEK (R174, R175). -/
theorem alertData_fields (a : AlertEntry) (q : AlertQueue) :
    Fields (alertData a q)
      [(1, some a.node), (1, some a.cls.code), (4, some a.data.toNat), (4, some a.arrival.toNat), (1, some q.entries.length),
        (1, some q.overflow)] :=
  fields_le 1 _ |>.append (fields_code _) |>.append (fields_le 4 _) |>.append (fields_epoch4 _) |>.append (fields_le 1 _)
    |>.append (fields_le 1 _)

/-! ## The widths of the tables -/

theorem blockData_length (t : BlockTable) (b : BlockIx) : (blockData t b).length = 62 :=
  (blockData_fields t b _ rfl).length.trans (by simp [epochField, flagField])

theorem stationData_length (x : StationIx) (st : Station) : (stationData x st).length = 18 :=
  (stationData_fields x st).length.trans (by simp [flagField])

theorem nodeData_length (n : NodeRecords) : (nodeData n).length = 55 :=
  (nodeData_fields n _ rfl).length.trans (by simp [epochField, powerField, flagField])

theorem conditionData_length (c : ConditionUnit) (n : Nat) : (conditionData c n).length = 11 :=
  (conditionData_fields c n).length.trans (by simp)

theorem alertData_length (a : AlertEntry) (q : AlertQueue) : (alertData a q).length = 12 :=
  (alertData_fields a q).length.trans (by simp)

theorem settingsData_length (g : Governor) (st : SettingsStore) : (settingsData g st).length = 115 := by
  rw [(settingsData_fields g st).length, List.map_append, List.map_append, List.sum_append, List.sum_append, plantFields_width,
    groupFields_width, Vector.length_toList]
  rfl

theorem warningData_length (n : Nat) {w : Warning} (h : w.arrivals.length ≤ 8) : (warningData n w).length = 61 := by
  simp [warningData, arrivalPlaces_length h]

theorem plantData_length (s : State) : (plantData s).length = 118 := by
  rw [(plantData_fields s).length, List.map_append, List.map_append, List.sum_append, List.sum_append, statusFields_width]
  rfl

theorem ringData_length {r : RingController} (h : r.nodes.length ≤ 50) : (ringData r).length = 90 := by
  have hnodes : ((r.nodes.map fun n => (1, some n)).map Prod.fst).sum = r.nodes.length := by
    simp [Function.comp_def]
  have hunused : ((List.replicate (50 - r.nodes.length) ((1, none) : Nat × Option Nat)).map Prod.fst).sum = 50 - r.nodes.length := by
    simp
  rw [(ringData_fields r).length]
  simp only [List.map_append, List.sum_append, hnodes, hunused, List.map_cons, List.map_nil, List.sum_cons, List.sum_nil, epochField,
    flagField]
  omega

/-! ## The bits of the condition set (12.3) -/

theorem flag_getLsbD (c : Condition) {i : Nat} (hi : i < 32) : c.flag.getLsbD i = decide (i = c.bit) := by
  rw [Condition.flag, BitVec.getLsbD_shiftLeft, BitVec.getLsbD_one]
  have hbit : decide (i = c.bit) = (!decide (i < c.bit) && decide (i - c.bit = 0)) := by
    rw [Bool.eq_iff_iff]
    simp
    omega
  simp [hi, hbit]

/-- Setting a condition sets its bit and leaves the others. -/
theorem setCondition_getLsbD (w : Word) (c : Condition) {i : Nat} (hi : i < 32) :
    (setCondition w c).getLsbD i = (decide (i = c.bit) || w.getLsbD i) := by
  rw [setCondition, BitVec.getLsbD_or, flag_getLsbD c hi, Bool.or_comm]

/-- Clearing a condition clears its bit and leaves the others. -/
theorem clearCondition_getLsbD (w : Word) (c : Condition) {i : Nat} (hi : i < 32) :
    (clearCondition w c).getLsbD i = (w.getLsbD i && !decide (i = c.bit)) := by
  rw [clearCondition, BitVec.getLsbD_and, BitVec.getLsbD_not, flag_getLsbD c hi, decide_eq_true hi, Bool.true_and]

/-- Settles O20: the data of each read field by field with the widths that follow, and the codes as the lists of 12.3 have them. -/
theorem replyDataHaveTheirWidths : Obligations.ReplyDataHaveTheirWidths := by
  unfold Obligations.ReplyDataHaveTheirWidths
  refine ⟨⟨rfl, fun _ _ => rfl, fields_le, fields_epoch4⟩, fun _ _ _ _ => ⟨rfl, rfl, rfl⟩, rfl,
    fun t b r h => ⟨blockData_length t b, r.usable, usable_is r, blockData_fields t b r h⟩,
    fun g st => ⟨settingsData_length g st, stagedMarker st, ?settings⟩,
    fun x st => ⟨stationData_length x st, stationData_fields x st⟩,
    fun n w h => ⟨warningData_length n h, warningData_fields n w⟩,
    fun s => ⟨plantData_length s, plantData_fields s⟩,
    fun n r h => ⟨nodeData_length n, nodeData_fields n r h⟩,
    fun r h => ⟨ringData_length h, queuedMark r.queue, queuedMark_eq_none_iff _, fun _ => queuedMark_mem, ringData_fields r⟩,
    fun c n => ⟨conditionData_length c n, conditionData_fields c n⟩,
    fun a q => ⟨alertData_length a q, alertData_fields a q⟩, ?codes, rfl,
    fun w c => ⟨rfl, fun i hi => ⟨setCondition_getLsbD w c hi, clearCondition_getLsbD w c hi⟩⟩, rfl⟩
  case settings =>
    obtain ⟨hplant, hgroups, hlt⟩ := stagedMarker_spec st
    exact ⟨hplant, hgroups, hlt, settingsData_fields g st⟩
  case codes =>
    exact ⟨rfl, rfl, rfl, rfl, rfl, rfl, fun _ => rfl, fun _ _ _ _ _ => rfl, rfl, rfl, rfl, rfl, rfl, rfl, fun _ _ _ => rfl, rfl, rfl,
      rfl⟩

end Sys2Proof.Proofs
end

section
/-! PROOFS. One step and one command: what a step runs, and that every command answers a next state (95_what_each_step_holds). -/

namespace Sys2Proof.Proofs

open Sys2Proof.Machine

/-! ## The step on a queue that is not empty -/

theorem step_command {c : Instr} {rest : List Instr} {s : State} (h : s.pending = c :: rest) :
    step s = exec c { s with pending := rest } := by
  unfold step
  rw [h]

/-- Settles O1: beside the idle step (`step_idle`), this is the other case of the step. -/
theorem stepRunsFrontCommand : Obligations.StepRunsFrontCommand := by
  unfold Obligations.StepRunsFrontCommand
  exact fun _ _ _ h => step_command h

/-! ## Every command answers a next state -/

/-- Whether the request is taken or nothing is (R189, log 8), a request row answers a next state. -/
theorem execRequest_answers (kind tag : Byte) (owner : State → Served) (s : State) :
    ∃ t, execRequest kind tag owner s = .next t :=
  ⟨_, rfl⟩

/-- Whether the event happens or is ignored (R189), its row answers a next state. -/
theorem execEvent_answers (f : State → State) (s : State) : ∃ t, execEvent f s = .next t :=
  ⟨_, rfl⟩

/-- Settles O3: the 36 request rows, the 23 event rows that RESET_N holds back, and the four rows of RESET_N and RING_SIG, whose
meanings look at the level of RESET_N themselves. -/
theorem noCommandStops : Obligations.NoCommandStops := by
  unfold Obligations.NoCommandStops
  intro c s
  cases c with
  | enroll | profile | withdraw | pin | unpin | bar | unbar | readBlock
  | setPlant | setGroup | readSettings | setEpoch | start | stop | clearHold
  | setSensor | loadStation | readStation | leadsBegin | leadsAdd | leadsCommit | flushWarnings | readWarning
  | readPlant | readNodes | probeRing | loadRing | readRing
  | alertTake | alertPeek | alertFlush | readConditions | clearConditions | setNoticeMask | noticeRearm | reset =>
    exact execRequest_answers _ _ _ s
  | hostFrameComplete | hostFrameGapTimeout | heldRequestTaken | hostFrameSent | resetReplySent | hostByteReceived
  | internalPeriodExpiry | epochInEdge | epochStall | startInEdge | holdLineAsserted | holdLineInactive
  | dispatchComputingEnd | stagingResumed
  | sensorFrameSync | sensorFrameFull | sensorWordReceived | sensorLoss
  | ringSettled | probeWindowExpiry | probeRetryExpiry | ringPacketReceived | outPortFree =>
    exact execEvent_answers _ s
  | resetNAsserted => exact ⟨holdInReset s, rfl⟩
  | resetNReleased straps => exact ⟨leaveReset straps s, rfl⟩
  | ringSignalLoss => exact ⟨if s.resetLow then followSignal false s else signalLoss s, rfl⟩
  | ringSignalPresent => exact ⟨if s.resetLow then followSignal true s else signalPresent s, rfl⟩

end Sys2Proof.Proofs
end
